-- ==== Sys2Proof/Word.lean ====
section
/-! DEFINITION. The word types of the hardware: 32-bit registers and addresses (00_scope R9, R13), bytes, and
register indices (10_state R30, R31, R55). -/

namespace Sys2Proof

/-- A register, address or memory word: an unsigned 32-bit quantity (00_scope R13). -/
abbrev Word := BitVec 32

/-- One byte of a region (20_memory R81). -/
abbrev Byte := BitVec 8

/-- A register slot 0..15 named by an instruction (10_state R31, R55). Slot 16 is the status register, `State.psr`. -/
abbrev Reg := Fin 16

/-- A register slot 0..7 named by a 3-bit compact field (10_state R31). -/
abbrev LowReg := Fin 8

/-- A low register as a slot of the one register file (10_state R31, R33). -/
def LowReg.slot (r : LowReg) : Reg := ⟨r.val, by omega⟩

/-- The stack pointer, slot 13 (10_state R32). -/
def Reg.sp : Reg := 13

/-- The link register, slot 14 (10_state R32). -/
def Reg.lr : Reg := 14

/-- The program counter, slot 15 (10_state R32, R39). -/
def Reg.pc : Reg := 15

end Sys2Proof
end

