-- ==== Sys2Proof/Syntax.lean ====
section
/-! DEFINITION. The instructions: ONE inductive `Instr`, one constructor for each of the 192 rows of
spec/opcode_table.json, in the table's order. Compact rows begin with `t`, full rows with `a`.
Fields the hardware never tests (30_encoding R163, 44 R401) are no arguments: words that differ only there are one
instruction. Branch and scaled offsets are held as the byte amounts of 30_encoding R170 and R171 (log entry 9). -/

namespace Sys2Proof

/-- The 16 condition codes in the table's order (40_alu_condition R200). -/
inductive Cond
  | eq | ne | cs | cc | mi | pl | vs | vc | hi | ls | ge | lt | gt | le | al | nv
  deriving DecidableEq, Repr

/-- The kinds of the barrel shifter (40_alu_condition R210). -/
inductive ShiftKind
  | lsl | lsr | asr | ror
  deriving DecidableEq, Repr

/-- The offset of a half-word or signed transfer: I = 1 the immediate hiOff:loOff, I = 0 a register (47 R515). -/
inductive HalfOffset
  | imm (off : BitVec 8)
  | reg (rm : Reg)
  deriving DecidableEq, Repr

/-- The instructions. A full instruction's first argument `c` is its condition field [31:28]; `sf` is the S bit. -/
inductive Instr
  /-- T1 `LSL Rd, Rs, #imm5`, R250. -/
  | tLslImm (imm5 : BitVec 5) (rs rd : LowReg)
  /-- T1 `LSR Rd, Rs, #imm5`, R251. -/
  | tLsrImm (imm5 : BitVec 5) (rs rd : LowReg)
  /-- T1 `ASR Rd, Rs, #imm5`, R252. -/
  | tAsrImm (imm5 : BitVec 5) (rs rd : LowReg)
  /-- T2 `ADD Rd, Rs, Rn`, R255. -/
  | tAddReg (rn rs rd : LowReg)
  /-- T2 `SUB Rd, Rs, Rn`, R256. -/
  | tSubReg (rn rs rd : LowReg)
  /-- T2 `ADD Rd, Rs, #imm3`, R258. -/
  | tAddImm3 (imm3 : BitVec 3) (rs rd : LowReg)
  /-- T2 `SUB Rd, Rs, #imm3`, R259. -/
  | tSubImm3 (imm3 : BitVec 3) (rs rd : LowReg)
  /-- T3 `MOV Rd, #imm8`, R260. -/
  | tMovImm (rd : LowReg) (imm8 : BitVec 8)
  /-- T3 `CMP Rd, #imm8`, R261. -/
  | tCmpImm (rd : LowReg) (imm8 : BitVec 8)
  /-- T3 `ADD Rd, #imm8`, R262. -/
  | tAddImm8 (rd : LowReg) (imm8 : BitVec 8)
  /-- T3 `SUB Rd, #imm8`, R263. -/
  | tSubImm8 (rd : LowReg) (imm8 : BitVec 8)
  /-- T4 `AND Rd, Rs`, R264. -/
  | tAnd (rs rd : LowReg)
  /-- T4 `EOR Rd, Rs`, R265. -/
  | tEor (rs rd : LowReg)
  /-- T4 `LSL Rd, Rs`, R266. -/
  | tLslReg (rs rd : LowReg)
  /-- T4 `LSR Rd, Rs`, R267. -/
  | tLsrReg (rs rd : LowReg)
  /-- T4 `ASR Rd, Rs`, R268. -/
  | tAsrReg (rs rd : LowReg)
  /-- T4 `ADC Rd, Rs`, R269. -/
  | tAdc (rs rd : LowReg)
  /-- T4 `SBC Rd, Rs`, R270. -/
  | tSbc (rs rd : LowReg)
  /-- T4 `ROR Rd, Rs`, R271. -/
  | tRorReg (rs rd : LowReg)
  /-- T4 `TST Rd, Rs`, R272. -/
  | tTst (rs rd : LowReg)
  /-- T4 `NEG Rd, Rs`, R273. -/
  | tNeg (rs rd : LowReg)
  /-- T4 `CMP Rd, Rs`, R274. -/
  | tCmpReg (rs rd : LowReg)
  /-- T4 `CMN Rd, Rs`, R275. -/
  | tCmn (rs rd : LowReg)
  /-- T4 `ORR Rd, Rs`, R276. -/
  | tOrr (rs rd : LowReg)
  /-- T4 `MUL Rd, Rs`, R277. -/
  | tMul (rs rd : LowReg)
  /-- T4 `BIC Rd, Rs`, R278. -/
  | tBic (rs rd : LowReg)
  /-- T4 `MVN Rd, Rs`, R279. -/
  | tMvn (rs rd : LowReg)
  /-- T5 `ADD hd, hs`, R281. -/
  | tAddHi (hd hs : Reg)
  /-- T5 `CMP hd, hs`, R282. -/
  | tCmpHi (hd hs : Reg)
  /-- T5 `MOV hd, hs`, R283. -/
  | tMovHi (hd hs : Reg)
  /-- T5 `BX hs`, R284. -/
  | tBx (hs : Reg)
  /-- T5 `BLX hs`, R285. -/
  | tBlx (hs : Reg)
  /-- T6 `LDR Rd, [PC, #imm8*4]`, R300. -/
  | tLdrPc (rd : LowReg) (offset : Nat)
  /-- T7 `STR Rd, [Rb, Ro]`, R302. -/
  | tStrReg (ro rb rd : LowReg)
  /-- T7 `STRB Rd, [Rb, Ro]`, R303. -/
  | tStrbReg (ro rb rd : LowReg)
  /-- T7 `LDR Rd, [Rb, Ro]`, R304. -/
  | tLdrReg (ro rb rd : LowReg)
  /-- T7 `LDRB Rd, [Rb, Ro]`, R305. -/
  | tLdrbReg (ro rb rd : LowReg)
  /-- T8 `STRH Rd, [Rb, Ro]`, R306. -/
  | tStrhReg (ro rb rd : LowReg)
  /-- T8 `LDRSB Rd, [Rb, Ro]`, R307. -/
  | tLdrsbReg (ro rb rd : LowReg)
  /-- T8 `LDRH Rd, [Rb, Ro]`, R308. -/
  | tLdrhReg (ro rb rd : LowReg)
  /-- T8 `LDRSH Rd, [Rb, Ro]`, R309. -/
  | tLdrshReg (ro rb rd : LowReg)
  /-- T9 `STR Rd, [Rb, #imm5*4]`, R310. -/
  | tStrImm (offset : Nat) (rb rd : LowReg)
  /-- T9 `LDR Rd, [Rb, #imm5*4]`, R311. -/
  | tLdrImm (offset : Nat) (rb rd : LowReg)
  /-- T9 `STRB Rd, [Rb, #imm5]`, R312. -/
  | tStrbImm (offset : Nat) (rb rd : LowReg)
  /-- T9 `LDRB Rd, [Rb, #imm5]`, R313. -/
  | tLdrbImm (offset : Nat) (rb rd : LowReg)
  /-- T10 `STRH Rd, [Rb, #imm5*2]`, R314. -/
  | tStrhImm (offset : Nat) (rb rd : LowReg)
  /-- T10 `LDRH Rd, [Rb, #imm5*2]`, R315. -/
  | tLdrhImm (offset : Nat) (rb rd : LowReg)
  /-- T11 `STR Rd, [SP, #imm8*4]`, R316. -/
  | tStrSp (rd : LowReg) (offset : Nat)
  /-- T11 `LDR Rd, [SP, #imm8*4]`, R317. -/
  | tLdrSp (rd : LowReg) (offset : Nat)
  /-- T12 `ADD Rd, PC, #imm8*4`, R320. -/
  | tAddPc (rd : LowReg) (offset : Nat)
  /-- T12 `ADD Rd, SP, #imm8*4`, R321. -/
  | tAddSp (rd : LowReg) (offset : Nat)
  /-- T13 `ADD SP, #imm7*4`, R322. -/
  | tIncSp (offset : Nat)
  /-- T13 `SUB SP, #imm7*4`, R323. -/
  | tDecSp (offset : Nat)
  /-- T13 `UNDEFINED (family 12)`, R551. -/
  | tUndef12a
  /-- T13 `UNDEFINED (family 12)`, R551. -/
  | tUndef12b
  /-- T14 `PUSH {rlist, LR if R}`, R325. -/
  | tPush (lr : Bool) (rlist : BitVec 8)
  /-- T14 `UNDEFINED (family 13, bits 10:9 = 11)`, R551. -/
  | tUndef13a
  /-- T14 `UNDEFINED (family 13, bits 10:9 = 00 or 01)`, R551. -/
  | tUndef13b
  /-- T14 `POP {rlist, PC if R}`, R326. -/
  | tPop (pc : Bool) (rlist : BitVec 8)
  /-- T14 `UNDEFINED (family 13, bits 10:9 = 11)`, R551. -/
  | tUndef13c
  /-- T15 `STMIA Rb!, {rlist}`, R330. -/
  | tStmia (rb : LowReg) (rlist : BitVec 8)
  /-- T15 `LDMIA Rb!, {rlist}`, R331. -/
  | tLdmia (rb : LowReg) (rlist : BitVec 8)
  /-- T16 `B<cond> label`, R350. -/
  | tBCond (cond : Cond) (offset : Int)
  /-- T18 `B label`, R351. -/
  | tB (offset : Int)
  /-- T18 `UNDEFINED (family 17)`, R551. -/
  | tUndef17
  /-- T19 `BL (first half)`, R353. -/
  | tBlFirst (offset : Int)
  /-- T19 `BL (second half)`, R354. -/
  | tBlSecond (offset : Nat)
  /-- A9 `MUL`, R470. -/
  | aMul (c : Cond) (sf : Bool) (rd rs rm : Reg)
  /-- A9 `MLA`, R471. -/
  | aMla (c : Cond) (sf : Bool) (rd rn rs rm : Reg)
  /-- A10 `UMULL`, R473. -/
  | aUmull (c : Cond) (sf : Bool) (rdHi rdLo rs rm : Reg)
  /-- A10 `UMLAL`, R474. -/
  | aUmlal (c : Cond) (sf : Bool) (rdHi rdLo rs rm : Reg)
  /-- A10 `SMULL`, R475. -/
  | aSmull (c : Cond) (sf : Bool) (rdHi rdLo rs rm : Reg)
  /-- A10 `SMLAL`, R476. -/
  | aSmlal (c : Cond) (sf : Bool) (rdHi rdLo rs rm : Reg)
  /-- A12 `SWP`, R530. -/
  | aSwp (c : Cond) (rn rd rm : Reg)
  /-- A12 `SWPB`, R531. -/
  | aSwpb (c : Cond) (rn rd rm : Reg)
  /-- A9 `UNDEFINED (multiply space, bits 24:22 = 001)`, R551. -/
  | aUndefMul001 (c : Cond)
  /-- A9 `UNDEFINED (multiply space, bits 24:23 = 11)`, R551. -/
  | aUndefMul11 (c : Cond)
  /-- A12 `UNDEFINED (swap space, bits 21:20 = 01)`, R551. -/
  | aUndefSwap01 (c : Cond)
  /-- A12 `UNDEFINED (swap space, bits 21:20 = 10)`, R551. -/
  | aUndefSwap10 (c : Cond)
  /-- A12 `UNDEFINED (swap space, bits 21:20 = 11)`, R551. -/
  | aUndefSwap11 (c : Cond)
  /-- A14 `STRH`, R517. -/
  | aStrh (c : Cond) (p u w : Bool) (rn rd : Reg) (off : HalfOffset)
  /-- A14 `UNDEFINED (LDRD space, L = 0, SH = 10)`, R551. -/
  | aUndefLdrd (c : Cond)
  /-- A14 `UNDEFINED (STRD space, L = 0, SH = 11)`, R551. -/
  | aUndefStrd (c : Cond)
  /-- A14 `LDRH`, R516. -/
  | aLdrh (c : Cond) (p u w : Bool) (rn rd : Reg) (off : HalfOffset)
  /-- A14 `LDRSB`, R518. -/
  | aLdrsb (c : Cond) (p u w : Bool) (rn rd : Reg) (off : HalfOffset)
  /-- A14 `LDRSH`, R519. -/
  | aLdrsh (c : Cond) (p u w : Bool) (rn rd : Reg) (off : HalfOffset)
  /-- A4 `MRS Rd, PSR`, R410. -/
  | aMrs (c : Cond) (r : Bool) (rd : Reg)
  /-- A5 `MSR PSR_fields, Rm`, R421. -/
  | aMsrReg (c : Cond) (r : Bool) (mask : BitVec 4) (rm : Reg)
  /-- A7 `BX Rm`, R452. -/
  | aBx (c : Cond) (rm : Reg)
  /-- A8 `CLZ Rd, Rm`, R430. -/
  | aClz (c : Cond) (rd rm : Reg)
  /-- A7 `BLX Rm`, R453. -/
  | aBlxReg (c : Cond) (rm : Reg)
  /-- A11 `SMLAxy`, R481. -/
  | aSmlaxy (c : Cond) (y x : Bool) (rd rn rs rm : Reg)
  /-- A11 `SMLAWy`, R482. -/
  | aSmlawy (c : Cond) (y : Bool) (rd rn rs rm : Reg)
  /-- A11 `SMULWy`, R483. -/
  | aSmulwy (c : Cond) (y : Bool) (rd rs rm : Reg)
  /-- A11 `SMLALxy`, R484. -/
  | aSmlalxy (c : Cond) (y x : Bool) (rdHi rdLo rs rm : Reg)
  /-- A11 `SMULxy`, R485. -/
  | aSmulxy (c : Cond) (y x : Bool) (rd rs rm : Reg)
  /-- A7 `UNDEFINED (miscellaneous, bits 7:4 = 0001, bits 22:21 = 00)`, R551. -/
  | aUndefMisc0001op00 (c : Cond)
  /-- A7 `UNDEFINED (miscellaneous, bits 7:4 = 0001, bits 22:21 = 10)`, R551. -/
  | aUndefMisc0001op10 (c : Cond)
  /-- A7 `UNDEFINED (miscellaneous, bits 7:4 = 0011, bits 22:21 = 00)`, R551. -/
  | aUndefMisc0011op00 (c : Cond)
  /-- A7 `UNDEFINED (miscellaneous, bits 7:4 = 0011, bits 22:21 = 10)`, R551. -/
  | aUndefMisc0011op10 (c : Cond)
  /-- A7 `UNDEFINED (miscellaneous, bits 7:4 = 0011, bits 22:21 = 11)`, R551. -/
  | aUndefMisc0011op11 (c : Cond)
  /-- A7 `UNDEFINED (miscellaneous, bits 7:4 = 0010)`, R551. -/
  | aUndefMisc0010 (c : Cond)
  /-- A7 `UNDEFINED (miscellaneous, bits 7:4 = 0100)`, R551. -/
  | aUndefMisc0100 (c : Cond)
  /-- A7 `UNDEFINED (miscellaneous, bits 7:4 = 0101, saturating arithmetic on ARMv5TE)`, R551. -/
  | aUndefMisc0101 (c : Cond)
  /-- A7 `UNDEFINED (miscellaneous, bits 7:4 = 0110)`, R551. -/
  | aUndefMisc0110 (c : Cond)
  /-- A7 `UNDEFINED (miscellaneous, bits 7:4 = 0111, BKPT on ARMv5TE)`, R551. -/
  | aUndefMisc0111 (c : Cond)
  /-- A2 `AND`, R382. -/
  | aAndShImm (c : Cond) (sf : Bool) (rn rd : Reg) (shImm : BitVec 5) (sh : ShiftKind) (rm : Reg)
  /-- A3 `AND`, R382. -/
  | aAndShReg (c : Cond) (sf : Bool) (rn rd rs : Reg) (sh : ShiftKind) (rm : Reg)
  /-- A2 `EOR`, R383. -/
  | aEorShImm (c : Cond) (sf : Bool) (rn rd : Reg) (shImm : BitVec 5) (sh : ShiftKind) (rm : Reg)
  /-- A3 `EOR`, R383. -/
  | aEorShReg (c : Cond) (sf : Bool) (rn rd rs : Reg) (sh : ShiftKind) (rm : Reg)
  /-- A2 `SUB`, R384. -/
  | aSubShImm (c : Cond) (sf : Bool) (rn rd : Reg) (shImm : BitVec 5) (sh : ShiftKind) (rm : Reg)
  /-- A3 `SUB`, R384. -/
  | aSubShReg (c : Cond) (sf : Bool) (rn rd rs : Reg) (sh : ShiftKind) (rm : Reg)
  /-- A2 `RSB`, R385. -/
  | aRsbShImm (c : Cond) (sf : Bool) (rn rd : Reg) (shImm : BitVec 5) (sh : ShiftKind) (rm : Reg)
  /-- A3 `RSB`, R385. -/
  | aRsbShReg (c : Cond) (sf : Bool) (rn rd rs : Reg) (sh : ShiftKind) (rm : Reg)
  /-- A2 `ADD`, R386. -/
  | aAddShImm (c : Cond) (sf : Bool) (rn rd : Reg) (shImm : BitVec 5) (sh : ShiftKind) (rm : Reg)
  /-- A3 `ADD`, R386. -/
  | aAddShReg (c : Cond) (sf : Bool) (rn rd rs : Reg) (sh : ShiftKind) (rm : Reg)
  /-- A2 `ADC`, R387. -/
  | aAdcShImm (c : Cond) (sf : Bool) (rn rd : Reg) (shImm : BitVec 5) (sh : ShiftKind) (rm : Reg)
  /-- A3 `ADC`, R387. -/
  | aAdcShReg (c : Cond) (sf : Bool) (rn rd rs : Reg) (sh : ShiftKind) (rm : Reg)
  /-- A2 `SBC`, R388. -/
  | aSbcShImm (c : Cond) (sf : Bool) (rn rd : Reg) (shImm : BitVec 5) (sh : ShiftKind) (rm : Reg)
  /-- A3 `SBC`, R388. -/
  | aSbcShReg (c : Cond) (sf : Bool) (rn rd rs : Reg) (sh : ShiftKind) (rm : Reg)
  /-- A2 `RSC`, R389. -/
  | aRscShImm (c : Cond) (sf : Bool) (rn rd : Reg) (shImm : BitVec 5) (sh : ShiftKind) (rm : Reg)
  /-- A3 `RSC`, R389. -/
  | aRscShReg (c : Cond) (sf : Bool) (rn rd rs : Reg) (sh : ShiftKind) (rm : Reg)
  /-- A2 `TST`, R390. -/
  | aTstShImm (c : Cond) (rn : Reg) (shImm : BitVec 5) (sh : ShiftKind) (rm : Reg)
  /-- A3 `TST`, R390. -/
  | aTstShReg (c : Cond) (rn rs : Reg) (sh : ShiftKind) (rm : Reg)
  /-- A2 `TEQ`, R391. -/
  | aTeqShImm (c : Cond) (rn : Reg) (shImm : BitVec 5) (sh : ShiftKind) (rm : Reg)
  /-- A3 `TEQ`, R391. -/
  | aTeqShReg (c : Cond) (rn rs : Reg) (sh : ShiftKind) (rm : Reg)
  /-- A2 `CMP`, R392. -/
  | aCmpShImm (c : Cond) (rn : Reg) (shImm : BitVec 5) (sh : ShiftKind) (rm : Reg)
  /-- A3 `CMP`, R392. -/
  | aCmpShReg (c : Cond) (rn rs : Reg) (sh : ShiftKind) (rm : Reg)
  /-- A2 `CMN`, R393. -/
  | aCmnShImm (c : Cond) (rn : Reg) (shImm : BitVec 5) (sh : ShiftKind) (rm : Reg)
  /-- A3 `CMN`, R393. -/
  | aCmnShReg (c : Cond) (rn rs : Reg) (sh : ShiftKind) (rm : Reg)
  /-- A2 `ORR`, R394. -/
  | aOrrShImm (c : Cond) (sf : Bool) (rn rd : Reg) (shImm : BitVec 5) (sh : ShiftKind) (rm : Reg)
  /-- A3 `ORR`, R394. -/
  | aOrrShReg (c : Cond) (sf : Bool) (rn rd rs : Reg) (sh : ShiftKind) (rm : Reg)
  /-- A2 `MOV`, R395. -/
  | aMovShImm (c : Cond) (sf : Bool) (rd : Reg) (shImm : BitVec 5) (sh : ShiftKind) (rm : Reg)
  /-- A3 `MOV`, R395. -/
  | aMovShReg (c : Cond) (sf : Bool) (rd rs : Reg) (sh : ShiftKind) (rm : Reg)
  /-- A2 `BIC`, R396. -/
  | aBicShImm (c : Cond) (sf : Bool) (rn rd : Reg) (shImm : BitVec 5) (sh : ShiftKind) (rm : Reg)
  /-- A3 `BIC`, R396. -/
  | aBicShReg (c : Cond) (sf : Bool) (rn rd rs : Reg) (sh : ShiftKind) (rm : Reg)
  /-- A2 `MVN`, R397. -/
  | aMvnShImm (c : Cond) (sf : Bool) (rd : Reg) (shImm : BitVec 5) (sh : ShiftKind) (rm : Reg)
  /-- A3 `MVN`, R397. -/
  | aMvnShReg (c : Cond) (sf : Bool) (rd rs : Reg) (sh : ShiftKind) (rm : Reg)
  /-- A6 `MSR PSR_fields, #imm`, R422. -/
  | aMsrImm (c : Cond) (r : Bool) (mask rot : BitVec 4) (imm8 : BitVec 8)
  /-- A1 `UNDEFINED (immediate test-opcode space with S = 0: bits 24:23 = 10, bit 21 = 0, bit 20 = 0)`, R551. -/
  | aUndefImm (c : Cond)
  /-- A1 `AND`, R382. -/
  | aAndImm (c : Cond) (sf : Bool) (rn rd : Reg) (rot : BitVec 4) (imm8 : BitVec 8)
  /-- A1 `EOR`, R383. -/
  | aEorImm (c : Cond) (sf : Bool) (rn rd : Reg) (rot : BitVec 4) (imm8 : BitVec 8)
  /-- A1 `SUB`, R384. -/
  | aSubImm (c : Cond) (sf : Bool) (rn rd : Reg) (rot : BitVec 4) (imm8 : BitVec 8)
  /-- A1 `RSB`, R385. -/
  | aRsbImm (c : Cond) (sf : Bool) (rn rd : Reg) (rot : BitVec 4) (imm8 : BitVec 8)
  /-- A1 `ADD`, R386. -/
  | aAddImm (c : Cond) (sf : Bool) (rn rd : Reg) (rot : BitVec 4) (imm8 : BitVec 8)
  /-- A1 `ADC`, R387. -/
  | aAdcImm (c : Cond) (sf : Bool) (rn rd : Reg) (rot : BitVec 4) (imm8 : BitVec 8)
  /-- A1 `SBC`, R388. -/
  | aSbcImm (c : Cond) (sf : Bool) (rn rd : Reg) (rot : BitVec 4) (imm8 : BitVec 8)
  /-- A1 `RSC`, R389. -/
  | aRscImm (c : Cond) (sf : Bool) (rn rd : Reg) (rot : BitVec 4) (imm8 : BitVec 8)
  /-- A1 `TST`, R390. -/
  | aTstImm (c : Cond) (rn : Reg) (rot : BitVec 4) (imm8 : BitVec 8)
  /-- A1 `TEQ`, R391. -/
  | aTeqImm (c : Cond) (rn : Reg) (rot : BitVec 4) (imm8 : BitVec 8)
  /-- A1 `CMP`, R392. -/
  | aCmpImm (c : Cond) (rn : Reg) (rot : BitVec 4) (imm8 : BitVec 8)
  /-- A1 `CMN`, R393. -/
  | aCmnImm (c : Cond) (rn : Reg) (rot : BitVec 4) (imm8 : BitVec 8)
  /-- A1 `ORR`, R394. -/
  | aOrrImm (c : Cond) (sf : Bool) (rn rd : Reg) (rot : BitVec 4) (imm8 : BitVec 8)
  /-- A1 `MOV`, R395. -/
  | aMovImm (c : Cond) (sf : Bool) (rd : Reg) (rot : BitVec 4) (imm8 : BitVec 8)
  /-- A1 `BIC`, R396. -/
  | aBicImm (c : Cond) (sf : Bool) (rn rd : Reg) (rot : BitVec 4) (imm8 : BitVec 8)
  /-- A1 `MVN`, R397. -/
  | aMvnImm (c : Cond) (sf : Bool) (rd : Reg) (rot : BitVec 4) (imm8 : BitVec 8)
  /-- A13 `STR`, R503. -/
  | aStrPreImm (c : Cond) (u w : Bool) (rn rd : Reg) (imm12 : BitVec 12)
  /-- A13 `STR`, R503. -/
  | aStrPostImm (c : Cond) (u : Bool) (rn rd : Reg) (imm12 : BitVec 12)
  /-- A13 `STRT`, R507. -/
  | aStrtImm (c : Cond) (u : Bool) (rn rd : Reg) (imm12 : BitVec 12)
  /-- A13 `LDR`, R502. -/
  | aLdrPreImm (c : Cond) (u w : Bool) (rn rd : Reg) (imm12 : BitVec 12)
  /-- A13 `LDR`, R502. -/
  | aLdrPostImm (c : Cond) (u : Bool) (rn rd : Reg) (imm12 : BitVec 12)
  /-- A13 `LDRT`, R506. -/
  | aLdrtImm (c : Cond) (u : Bool) (rn rd : Reg) (imm12 : BitVec 12)
  /-- A13 `STRB`, R505. -/
  | aStrbPreImm (c : Cond) (u w : Bool) (rn rd : Reg) (imm12 : BitVec 12)
  /-- A13 `STRB`, R505. -/
  | aStrbPostImm (c : Cond) (u : Bool) (rn rd : Reg) (imm12 : BitVec 12)
  /-- A13 `STRBT`, R509. -/
  | aStrbtImm (c : Cond) (u : Bool) (rn rd : Reg) (imm12 : BitVec 12)
  /-- A13 `LDRB`, R504. -/
  | aLdrbPreImm (c : Cond) (u w : Bool) (rn rd : Reg) (imm12 : BitVec 12)
  /-- A13 `LDRB`, R504. -/
  | aLdrbPostImm (c : Cond) (u : Bool) (rn rd : Reg) (imm12 : BitVec 12)
  /-- A13 `LDRBT`, R508. -/
  | aLdrbtImm (c : Cond) (u : Bool) (rn rd : Reg) (imm12 : BitVec 12)
  /-- A13 `STR`, R503. -/
  | aStrPreReg (c : Cond) (u w : Bool) (rn rd : Reg) (shImm : BitVec 5) (sh : ShiftKind) (rm : Reg)
  /-- A13 `STR`, R503. -/
  | aStrPostReg (c : Cond) (u : Bool) (rn rd : Reg) (shImm : BitVec 5) (sh : ShiftKind) (rm : Reg)
  /-- A13 `STRT`, R507. -/
  | aStrtReg (c : Cond) (u : Bool) (rn rd : Reg) (shImm : BitVec 5) (sh : ShiftKind) (rm : Reg)
  /-- A13 `LDR`, R502. -/
  | aLdrPreReg (c : Cond) (u w : Bool) (rn rd : Reg) (shImm : BitVec 5) (sh : ShiftKind) (rm : Reg)
  /-- A13 `LDR`, R502. -/
  | aLdrPostReg (c : Cond) (u : Bool) (rn rd : Reg) (shImm : BitVec 5) (sh : ShiftKind) (rm : Reg)
  /-- A13 `LDRT`, R506. -/
  | aLdrtReg (c : Cond) (u : Bool) (rn rd : Reg) (shImm : BitVec 5) (sh : ShiftKind) (rm : Reg)
  /-- A13 `STRB`, R505. -/
  | aStrbPreReg (c : Cond) (u w : Bool) (rn rd : Reg) (shImm : BitVec 5) (sh : ShiftKind) (rm : Reg)
  /-- A13 `STRB`, R505. -/
  | aStrbPostReg (c : Cond) (u : Bool) (rn rd : Reg) (shImm : BitVec 5) (sh : ShiftKind) (rm : Reg)
  /-- A13 `STRBT`, R509. -/
  | aStrbtReg (c : Cond) (u : Bool) (rn rd : Reg) (shImm : BitVec 5) (sh : ShiftKind) (rm : Reg)
  /-- A13 `LDRB`, R504. -/
  | aLdrbPreReg (c : Cond) (u w : Bool) (rn rd : Reg) (shImm : BitVec 5) (sh : ShiftKind) (rm : Reg)
  /-- A13 `LDRB`, R504. -/
  | aLdrbPostReg (c : Cond) (u : Bool) (rn rd : Reg) (shImm : BitVec 5) (sh : ShiftKind) (rm : Reg)
  /-- A13 `LDRBT`, R508. -/
  | aLdrbtReg (c : Cond) (u : Bool) (rn rd : Reg) (shImm : BitVec 5) (sh : ShiftKind) (rm : Reg)
  /-- A13 `UNDEFINED (register-offset space with bit 4 = 1)`, R551. -/
  | aUndefRegOff (c : Cond)
  /-- A15 `STMDA`, R543. -/
  | aStmda (c : Cond) (sbit w : Bool) (rn : Reg) (rlist : BitVec 16)
  /-- A15 `STMIA`, R541. -/
  | aStmia (c : Cond) (sbit w : Bool) (rn : Reg) (rlist : BitVec 16)
  /-- A15 `STMDB`, R544. -/
  | aStmdb (c : Cond) (sbit w : Bool) (rn : Reg) (rlist : BitVec 16)
  /-- A15 `STMIB`, R542. -/
  | aStmib (c : Cond) (sbit w : Bool) (rn : Reg) (rlist : BitVec 16)
  /-- A15 `LDMDA`, R547. -/
  | aLdmda (c : Cond) (sbit w : Bool) (rn : Reg) (rlist : BitVec 16)
  /-- A15 `LDMIA`, R545. -/
  | aLdmia (c : Cond) (sbit w : Bool) (rn : Reg) (rlist : BitVec 16)
  /-- A15 `LDMDB`, R548. -/
  | aLdmdb (c : Cond) (sbit w : Bool) (rn : Reg) (rlist : BitVec 16)
  /-- A15 `LDMIB`, R546. -/
  | aLdmib (c : Cond) (sbit w : Bool) (rn : Reg) (rlist : BitVec 16)
  /-- A16 `B label`, R450. -/
  | aB (c : Cond) (offset : Int)
  /-- A16 `BL label`, R451. -/
  | aBl (c : Cond) (offset : Int)
  /-- A16 `UNDEFINED (coprocessor and software-interrupt space)`, R551. -/
  | aUndefCop (c : Cond)
  deriving DecidableEq, Repr

/-- An instruction value as the host passes it: 16 bits in compact mode, 32 bits in full mode (30_encoding R134). -/
inductive InstrWord
  | compact (h : BitVec 16)
  | full (w : Word)
  deriving DecidableEq, Repr

/-- Why bytes or a value are no instruction. -/
inductive DecodeError
  /-- Fewer bytes than the mode's instruction width (30_encoding R134). -/
  | tooShort
  /-- A compact-mode value of 0x10000 or more (10_state R48). -/
  | wideCompact
  deriving DecidableEq, Repr

end Sys2Proof
end

