-- ==== Sys2Proof/WellFormed.lean ====
section
/-! DEFINITION. Which terms of `Instr` an encoding exists for. Register numbers, shift amounts, masks, lists and unscaled
immediates are well formed by their types; the assembled offsets carry the ranges and scales of 30_encoding R170, R171. -/

namespace Sys2Proof

/-- An unsigned offset: a multiple of `scale`, at most `top` (30_encoding R170). -/
def scaled (offset scale top : Nat) : Bool := offset % scale == 0 && offset ≤ top

/-- A signed branch offset: a multiple of `scale` between `low` and `top` (30_encoding R170, R171). -/
def signedOffset (offset scale low top : Int) : Bool := offset % scale == 0 && low ≤ offset && offset ≤ top

/-- The instruction is one an encoding of the table names. -/
def Instr.wellFormed : Instr → Bool
  | .tLdrPc _ offset => scaled offset 4 1020
  | .tStrImm offset _ _ => scaled offset 4 124
  | .tLdrImm offset _ _ => scaled offset 4 124
  | .tStrbImm offset _ _ => scaled offset 1 31
  | .tLdrbImm offset _ _ => scaled offset 1 31
  | .tStrhImm offset _ _ => scaled offset 2 62
  | .tLdrhImm offset _ _ => scaled offset 2 62
  | .tStrSp _ offset => scaled offset 4 1020
  | .tLdrSp _ offset => scaled offset 4 1020
  | .tAddPc _ offset => scaled offset 4 1020
  | .tAddSp _ offset => scaled offset 4 1020
  | .tIncSp offset => scaled offset 4 508
  | .tDecSp offset => scaled offset 4 508
  | .tBCond _ offset => signedOffset offset 2 (-256) 254
  | .tB offset => signedOffset offset 2 (-2048) 2046
  | .tBlFirst offset => signedOffset offset 4096 (-4194304) 4190208
  | .tBlSecond offset => scaled offset 2 4094
  | .aB _ offset => signedOffset offset 4 (-33554432) 33554428
  | .aBl _ offset => signedOffset offset 4 (-33554432) 33554428
  | .tLslImm .. | .tLsrImm .. | .tAsrImm .. | .tAddReg .. | .tSubReg .. | .tAddImm3 .. | .tSubImm3 ..
  | .tMovImm .. | .tCmpImm .. | .tAddImm8 .. | .tSubImm8 .. | .tAnd .. | .tEor .. | .tLslReg .. | .tLsrReg ..
  | .tAsrReg .. | .tAdc .. | .tSbc .. | .tRorReg .. | .tTst .. | .tNeg .. | .tCmpReg .. | .tCmn .. | .tOrr ..
  | .tMul .. | .tBic .. | .tMvn .. | .tAddHi .. | .tCmpHi .. | .tMovHi .. | .tBx .. | .tBlx .. | .tStrReg ..
  | .tStrbReg .. | .tLdrReg .. | .tLdrbReg .. | .tStrhReg .. | .tLdrsbReg .. | .tLdrhReg .. | .tLdrshReg ..
  | .tUndef12a | .tUndef12b | .tPush .. | .tUndef13a | .tUndef13b | .tPop .. | .tUndef13c | .tStmia ..
  | .tLdmia .. | .tUndef17 | .aMul .. | .aMla .. | .aUmull .. | .aUmlal .. | .aSmull .. | .aSmlal ..
  | .aSwp .. | .aSwpb .. | .aUndefMul001 .. | .aUndefMul11 .. | .aUndefSwap01 .. | .aUndefSwap10 ..
  | .aUndefSwap11 .. | .aStrh .. | .aUndefLdrd .. | .aUndefStrd .. | .aLdrh .. | .aLdrsb .. | .aLdrsh ..
  | .aMrs .. | .aMsrReg .. | .aBx .. | .aClz .. | .aBlxReg .. | .aSmlaxy .. | .aSmlawy .. | .aSmulwy ..
  | .aSmlalxy .. | .aSmulxy .. | .aUndefMisc0001op00 .. | .aUndefMisc0001op10 .. | .aUndefMisc0011op00 ..
  | .aUndefMisc0011op10 .. | .aUndefMisc0011op11 .. | .aUndefMisc0010 .. | .aUndefMisc0100 ..
  | .aUndefMisc0101 .. | .aUndefMisc0110 .. | .aUndefMisc0111 .. | .aAndShImm .. | .aAndShReg ..
  | .aEorShImm .. | .aEorShReg .. | .aSubShImm .. | .aSubShReg .. | .aRsbShImm .. | .aRsbShReg ..
  | .aAddShImm .. | .aAddShReg .. | .aAdcShImm .. | .aAdcShReg .. | .aSbcShImm .. | .aSbcShReg ..
  | .aRscShImm .. | .aRscShReg .. | .aTstShImm .. | .aTstShReg .. | .aTeqShImm .. | .aTeqShReg ..
  | .aCmpShImm .. | .aCmpShReg .. | .aCmnShImm .. | .aCmnShReg .. | .aOrrShImm .. | .aOrrShReg ..
  | .aMovShImm .. | .aMovShReg .. | .aBicShImm .. | .aBicShReg .. | .aMvnShImm .. | .aMvnShReg ..
  | .aMsrImm .. | .aUndefImm .. | .aAndImm .. | .aEorImm .. | .aSubImm .. | .aRsbImm .. | .aAddImm ..
  | .aAdcImm .. | .aSbcImm .. | .aRscImm .. | .aTstImm .. | .aTeqImm .. | .aCmpImm .. | .aCmnImm ..
  | .aOrrImm .. | .aMovImm .. | .aBicImm .. | .aMvnImm .. | .aStrPreImm .. | .aStrPostImm .. | .aStrtImm ..
  | .aLdrPreImm .. | .aLdrPostImm .. | .aLdrtImm .. | .aStrbPreImm .. | .aStrbPostImm .. | .aStrbtImm ..
  | .aLdrbPreImm .. | .aLdrbPostImm .. | .aLdrbtImm .. | .aStrPreReg .. | .aStrPostReg .. | .aStrtReg ..
  | .aLdrPreReg .. | .aLdrPostReg .. | .aLdrtReg .. | .aStrbPreReg .. | .aStrbPostReg .. | .aStrbtReg ..
  | .aLdrbPreReg .. | .aLdrbPostReg .. | .aLdrbtReg .. | .aUndefRegOff .. | .aStmda .. | .aStmia ..
  | .aStmdb .. | .aStmib .. | .aLdmda .. | .aLdmia .. | .aLdmdb .. | .aLdmib .. | .aUndefCop .. => true

end Sys2Proof
end

