-- ==== Sys2Proof/Decode.lean ====
section
/-! DEFINITION. The two dispatchers of 30_encoding (rank query R140 to R145, ordered patterns R160 to R162), total on every
value; the byte-level decoder; then the encoder, written from the encoding lines of 41 to 47; the opcode table's masks. -/

namespace Sys2Proof

/-! ## Bit fields (00_scope R12) -/

/-- The field of `len` bits of `w` whose lowest bit is bit `lo`. -/
def bits {m : Nat} (w : BitVec m) (lo len : Nat) : BitVec len := w.extractLsb' lo len

/-- The field `f` moved up to bit `lo` of a word. -/
def put {m n : Nat} (lo : Nat) (f : BitVec n) : BitVec m := f.setWidth m <<< lo

/-- Bit `k` of a word as a flag. -/
def getBit {m : Nat} (w : BitVec m) (k : Nat) : Bool := bits w k 1 == 1#1

/-- A 4-bit register field. -/
def getReg {m : Nat} (w : BitVec m) (lo : Nat) : Reg := (bits w lo 4).toFin

/-- A 3-bit register field. -/
def getLow {m : Nat} (w : BitVec m) (lo : Nat) : LowReg := (bits w lo 3).toFin

def putBit {m : Nat} (lo : Nat) (b : Bool) : BitVec m := put lo (BitVec.ofBool b)

def putReg {m : Nat} (lo : Nat) (r : Reg) : BitVec m := put lo (BitVec.ofFin (w := 4) r)

def putLow {m : Nat} (lo : Nat) (r : LowReg) : BitVec m := put lo (BitVec.ofFin (w := 3) r)

/-- `hd = H1:Rd`, the split index of format T5 (41 R280). -/
def getHd (w : BitVec 16) : Reg := (bits w 7 1 ++ bits w 0 3 : BitVec 4).toFin

def putHd (r : Reg) : BitVec 16 :=
  put 7 (bits (BitVec.ofFin (w := 4) r) 3 1) ||| put 0 (bits (BitVec.ofFin (w := 4) r) 0 3)

/-- The code of a condition is its position in the table (40 R200). -/
def Cond.code : Cond → BitVec 4
  | .eq => 0 | .ne => 1 | .cs => 2 | .cc => 3 | .mi => 4 | .pl => 5 | .vs => 6 | .vc => 7
  | .hi => 8 | .ls => 9 | .ge => 10 | .lt => 11 | .gt => 12 | .le => 13 | .al => 14 | .nv => 15

def Cond.ofCode (v : BitVec 4) : Cond :=
  match v.toNat with
  | 0 => .eq | 1 => .ne | 2 => .cs | 3 => .cc | 4 => .mi | 5 => .pl | 6 => .vs | 7 => .vc
  | 8 => .hi | 9 => .ls | 10 => .ge | 11 => .lt | 12 => .gt | 13 => .le | 14 => .al | _ => .nv

/-- The sh field (30_encoding R150): 00 LSL, 01 LSR, 10 ASR, 11 ROR. -/
def ShiftKind.code : ShiftKind → BitVec 2
  | .lsl => 0 | .lsr => 1 | .asr => 2 | .ror => 3

def ShiftKind.ofCode (v : BitVec 2) : ShiftKind :=
  match v.toNat with
  | 0 => .lsl | 1 => .lsr | 2 => .asr | _ => .ror

/-- The offset of format A14: I = [22] selects hiOff:loOff or Rm (47 R515). -/
def getHalfOffset (w : Word) : HalfOffset :=
  if getBit w 22 then .imm (bits w 8 4 ++ bits w 0 4) else .reg (getReg w 0)

def putHalfOffset : HalfOffset → Word
  | .imm off => putBit 22 true ||| put 8 (bits off 4 4) ||| put 0 (bits off 0 4)
  | .reg rm => putReg 0 rm

/-! ## The compact dispatcher (30_encoding R140 to R145) -/

/-- The 20 boundary values B[0..19] of R140. -/
def compactBoundaries : List Nat :=
  [0x0000, 0x1800, 0x2000, 0x4000, 0x4400, 0x4800, 0x5000, 0x6000, 0x8000, 0x9000,
   0xA000, 0xB000, 0xB100, 0xB400, 0xC000, 0xD000, 0xE000, 0xE800, 0xF000, 0xF800]

/-- The rank query: (number of j with B[j] <= instr) - 1 (R140). -/
def compactRank (w : BitVec 16) : Nat := (compactBoundaries.filter (· ≤ w.toNat)).length - 1

/-- T1, op = [12:11]; op = 11 cannot occur in family 0 (R142). -/
def decodeT1 (w : BitVec 16) : Instr :=
  match (bits w 11 2).toNat with
  | 0 => .tLslImm (bits w 6 5) (getLow w 3) (getLow w 0)
  | 1 => .tLsrImm (bits w 6 5) (getLow w 3) (getLow w 0)
  | _ => .tAsrImm (bits w 6 5) (getLow w 3) (getLow w 0)

/-- T2, I:op = [10:9] (41 R257). -/
def decodeT2 (w : BitVec 16) : Instr :=
  match (bits w 9 2).toNat with
  | 0 => .tAddReg (getLow w 6) (getLow w 3) (getLow w 0)
  | 1 => .tSubReg (getLow w 6) (getLow w 3) (getLow w 0)
  | 2 => .tAddImm3 (bits w 6 3) (getLow w 3) (getLow w 0)
  | _ => .tSubImm3 (bits w 6 3) (getLow w 3) (getLow w 0)

/-- T3, op = [12:11]. -/
def decodeT3 (w : BitVec 16) : Instr :=
  match (bits w 11 2).toNat with
  | 0 => .tMovImm (getLow w 8) (bits w 0 8)
  | 1 => .tCmpImm (getLow w 8) (bits w 0 8)
  | 2 => .tAddImm8 (getLow w 8) (bits w 0 8)
  | _ => .tSubImm8 (getLow w 8) (bits w 0 8)

/-- T4, op = [9:6] (41 R264 to R279). -/
def decodeT4 (w : BitVec 16) : Instr :=
  match (bits w 6 4).toNat with
  | 0 => .tAnd (getLow w 3) (getLow w 0)
  | 1 => .tEor (getLow w 3) (getLow w 0)
  | 2 => .tLslReg (getLow w 3) (getLow w 0)
  | 3 => .tLsrReg (getLow w 3) (getLow w 0)
  | 4 => .tAsrReg (getLow w 3) (getLow w 0)
  | 5 => .tAdc (getLow w 3) (getLow w 0)
  | 6 => .tSbc (getLow w 3) (getLow w 0)
  | 7 => .tRorReg (getLow w 3) (getLow w 0)
  | 8 => .tTst (getLow w 3) (getLow w 0)
  | 9 => .tNeg (getLow w 3) (getLow w 0)
  | 10 => .tCmpReg (getLow w 3) (getLow w 0)
  | 11 => .tCmn (getLow w 3) (getLow w 0)
  | 12 => .tOrr (getLow w 3) (getLow w 0)
  | 13 => .tMul (getLow w 3) (getLow w 0)
  | 14 => .tBic (getLow w 3) (getLow w 0)
  | _ => .tMvn (getLow w 3) (getLow w 0)

/-- T5, op = [9:8]; op = 11 is BX with H1 = 0 and BLX with H1 = 1 (R143). -/
def decodeT5 (w : BitVec 16) : Instr :=
  match (bits w 8 2).toNat with
  | 0 => .tAddHi (getHd w) (getReg w 3)
  | 1 => .tCmpHi (getHd w) (getReg w 3)
  | 2 => .tMovHi (getHd w) (getReg w 3)
  | _ => if getBit w 7 then .tBlx (getReg w 3) else .tBx (getReg w 3)

/-- T7 (bit 9 = 0, L:B = [11:10]) and T8 (bit 9 = 1, H:S = [11:10]) (R142). -/
def decodeT7T8 (w : BitVec 16) : Instr :=
  if getBit w 9 then
    match (bits w 10 2).toNat with
    | 0 => .tStrhReg (getLow w 6) (getLow w 3) (getLow w 0)
    | 1 => .tLdrsbReg (getLow w 6) (getLow w 3) (getLow w 0)
    | 2 => .tLdrhReg (getLow w 6) (getLow w 3) (getLow w 0)
    | _ => .tLdrshReg (getLow w 6) (getLow w 3) (getLow w 0)
  else
    match (bits w 10 2).toNat with
    | 0 => .tStrReg (getLow w 6) (getLow w 3) (getLow w 0)
    | 1 => .tStrbReg (getLow w 6) (getLow w 3) (getLow w 0)
    | 2 => .tLdrReg (getLow w 6) (getLow w 3) (getLow w 0)
    | _ => .tLdrbReg (getLow w 6) (getLow w 3) (getLow w 0)

/-- T9, B:L = [12:11]. -/
def decodeT9 (w : BitVec 16) : Instr :=
  match (bits w 11 2).toNat with
  | 0 => .tStrImm ((bits w 6 5).toNat * 4) (getLow w 3) (getLow w 0)
  | 1 => .tLdrImm ((bits w 6 5).toNat * 4) (getLow w 3) (getLow w 0)
  | 2 => .tStrbImm (bits w 6 5).toNat (getLow w 3) (getLow w 0)
  | _ => .tLdrbImm (bits w 6 5).toNat (getLow w 3) (getLow w 0)

/-- T10, L = [11]. -/
def decodeT10 (w : BitVec 16) : Instr :=
  if getBit w 11 then .tLdrhImm ((bits w 6 5).toNat * 2) (getLow w 3) (getLow w 0) else .tStrhImm ((bits w 6 5).toNat * 2) (getLow w 3) (getLow w 0)

/-- T11, L = [11]. -/
def decodeT11 (w : BitVec 16) : Instr :=
  if getBit w 11 then .tLdrSp (getLow w 8) ((bits w 0 8).toNat * 4) else .tStrSp (getLow w 8) ((bits w 0 8).toNat * 4)

/-- T12, SP = [11]. -/
def decodeT12 (w : BitVec 16) : Instr :=
  if getBit w 11 then .tAddSp (getLow w 8) ((bits w 0 8).toNat * 4) else .tAddPc (getLow w 8) ((bits w 0 8).toNat * 4)

/-- T13, S = [7]. -/
def decodeT13 (w : BitVec 16) : Instr :=
  if getBit w 7 then .tDecSp ((bits w 0 7).toNat * 4) else .tIncSp ((bits w 0 7).toNat * 4)

/-- Family 12, 0xB100 to 0xB3FF: the undefined fallback, two rows of the table. -/
def decodeFamily12 (w : BitVec 16) : Instr :=
  if getBit w 9 then .tUndef12b else .tUndef12a

/-- Family 13: T14 only when [10:9] = 10, else the undefined fallback (R141). -/
def decodeT14 (w : BitVec 16) : Instr :=
  if bits w 9 2 = 0b10#2 then
    if getBit w 11 then .tPop (getBit w 8) (bits w 0 8) else .tPush (getBit w 8) (bits w 0 8)
  else if bits w 9 2 = 0b11#2 then
    if getBit w 11 then .tUndef13c else .tUndef13a
  else .tUndef13b

/-- T15, L = [11]. -/
def decodeT15 (w : BitVec 16) : Instr :=
  if getBit w 11 then .tLdmia (getLow w 8) (bits w 0 8) else .tStmia (getLow w 8) (bits w 0 8)

/-- `CompactHandler`'s choice: the handler of the family the rank selects (R140). Total: every 16-bit value is an instruction. -/
def decodeCompact (w : BitVec 16) : Instr :=
  match compactRank w with
  | 0 => decodeT1 w
  | 1 => decodeT2 w
  | 2 => decodeT3 w
  | 3 => decodeT4 w
  | 4 => decodeT5 w
  | 5 => .tLdrPc (getLow w 8) ((bits w 0 8).toNat * 4)
  | 6 => decodeT7T8 w
  | 7 => decodeT9 w
  | 8 => decodeT10 w
  | 9 => decodeT11 w
  | 10 => decodeT12 w
  | 11 => decodeT13 w
  | 12 => decodeFamily12 w
  | 13 => decodeT14 w
  | 14 => decodeT15 w
  | 15 => .tBCond (Cond.ofCode (bits w 8 4)) ((bits w 0 8).toInt * 2)
  | 16 => .tB ((bits w 0 11).toInt * 2)
  | 17 => .tUndef17
  | 18 => .tBlFirst ((bits w 0 11).toInt * 4096)
  | _ => .tBlSecond ((bits w 0 11).toNat * 2)

/-! ## The full dispatcher (30_encoding R160 to R164) -/

/-- The families of R160's ordered pattern list. -/
inductive FullFamily
  | multiply | multiplyLong | swap | undefMultiply | halfTransfer | misc | dataReg | msrImm | undefImm | dataImm
  | transferImm | transferReg | undefTransfer | block | branch | undefCop
  deriving DecidableEq, Repr

/-- One row of R160: a word belongs to it when `w AND mask = value`. -/
structure Pattern where
  mask : Word
  value : Word
  family : FullFamily
  deriving DecidableEq, Repr

/-- The 16 rows of R160, in order. -/
def fullPatterns : List Pattern :=
  [⟨0x0FC000F0, 0x00000090, .multiply⟩, ⟨0x0F8000F0, 0x00800090, .multiplyLong⟩,
   ⟨0x0FB000F0, 0x01000090, .swap⟩, ⟨0x0E0000F0, 0x00000090, .undefMultiply⟩,
   ⟨0x0E000090, 0x00000090, .halfTransfer⟩, ⟨0x0F900000, 0x01000000, .misc⟩,
   ⟨0x0E000000, 0x00000000, .dataReg⟩, ⟨0x0FB00000, 0x03200000, .msrImm⟩,
   ⟨0x0FB00000, 0x03000000, .undefImm⟩, ⟨0x0E000000, 0x02000000, .dataImm⟩,
   ⟨0x0E000000, 0x04000000, .transferImm⟩, ⟨0x0E000010, 0x06000000, .transferReg⟩,
   ⟨0x0E000010, 0x06000010, .undefTransfer⟩, ⟨0x0E000000, 0x08000000, .block⟩,
   ⟨0x0E000000, 0x0A000000, .branch⟩, ⟨0x0C000000, 0x0C000000, .undefCop⟩]

/-- The first row that matches selects the family; some row matches every word (R160). -/
def firstMatch (w : Word) : List Pattern → FullFamily
  | [] => .undefCop
  | p :: ps => if w &&& p.mask = p.value then p.family else firstMatch w ps

def fullFamily (w : Word) : FullFamily := firstMatch w fullPatterns

/-- A9, A = [21]. -/
def decodeMultiply (c : Cond) (w : Word) : Instr :=
  if getBit w 21 then .aMla c (getBit w 20) (getReg w 16) (getReg w 12) (getReg w 8) (getReg w 0) else .aMul c (getBit w 20) (getReg w 16) (getReg w 8) (getReg w 0)

/-- A10, U:A = [22:21]. -/
def decodeMultiplyLong (c : Cond) (w : Word) : Instr :=
  match (bits w 21 2).toNat with
  | 0 => .aUmull c (getBit w 20) (getReg w 16) (getReg w 12) (getReg w 8) (getReg w 0)
  | 1 => .aUmlal c (getBit w 20) (getReg w 16) (getReg w 12) (getReg w 8) (getReg w 0)
  | 2 => .aSmull c (getBit w 20) (getReg w 16) (getReg w 12) (getReg w 8) (getReg w 0)
  | _ => .aSmlal c (getBit w 20) (getReg w 16) (getReg w 12) (getReg w 8) (getReg w 0)

/-- A12, B = [22]. -/
def decodeSwap (c : Cond) (w : Word) : Instr :=
  if getBit w 22 then .aSwpb c (getReg w 16) (getReg w 12) (getReg w 0) else .aSwp c (getReg w 16) (getReg w 12) (getReg w 0)

/-- Row 4 of R160: the undefined words of the multiply and swap space, five rows of the table. -/
def decodeUndefMultiply (c : Cond) (w : Word) : Instr :=
  if bits w 22 3 = 0b001#3 then .aUndefMul001 c
  else if bits w 23 2 = 0b11#2 then .aUndefMul11 c
  else
    match (bits w 20 2).toNat with
    | 1 => .aUndefSwap01 c
    | 2 => .aUndefSwap10 c
    | _ => .aUndefSwap11 c

/-- Row 5 of R160: A14 by L = [20] and SH = [6:5] (R161). SH = 00 went to an earlier row. -/
def decodeHalfTransfer (c : Cond) (w : Word) : Instr :=
  if getBit w 20 then
    match (bits w 5 2).toNat with
    | 2 => .aLdrsb c (getBit w 24) (getBit w 23) (getBit w 21) (getReg w 16) (getReg w 12) (getHalfOffset w)
    | 3 => .aLdrsh c (getBit w 24) (getBit w 23) (getBit w 21) (getReg w 16) (getReg w 12) (getHalfOffset w)
    | _ => .aLdrh c (getBit w 24) (getBit w 23) (getBit w 21) (getReg w 16) (getReg w 12) (getHalfOffset w)
  else
    match (bits w 5 2).toNat with
    | 2 => .aUndefLdrd c
    | 3 => .aUndefStrd c
    | _ => .aStrh c (getBit w 24) (getBit w 23) (getBit w 21) (getReg w 16) (getReg w 12) (getHalfOffset w)

/-- A11, op = [22:21]; op = 01 is SMLAWy with x = 0 and SMULWy with x = 1 (R150). -/
def decodeHalfMultiply (c : Cond) (w : Word) : Instr :=
  match (bits w 21 2).toNat with
  | 0 => .aSmlaxy c (getBit w 6) (getBit w 5) (getReg w 16) (getReg w 12) (getReg w 8) (getReg w 0)
  | 1 => if getBit w 5 then .aSmulwy c (getBit w 6) (getReg w 16) (getReg w 8) (getReg w 0) else .aSmlawy c (getBit w 6) (getReg w 16) (getReg w 12) (getReg w 8) (getReg w 0)
  | 2 => .aSmlalxy c (getBit w 6) (getBit w 5) (getReg w 16) (getReg w 12) (getReg w 8) (getReg w 0)
  | _ => .aSmulxy c (getBit w 6) (getBit w 5) (getReg w 16) (getReg w 8) (getReg w 0)

/-- Row 6 of R160 by [7:4] and [22:21] (R162). -/
def decodeMisc (c : Cond) (w : Word) : Instr :=
  if getBit w 7 then decodeHalfMultiply c w
  else
    match (bits w 4 3).toNat with
    | 0 => if getBit w 21 then .aMsrReg c (getBit w 22) (bits w 16 4) (getReg w 0) else .aMrs c (getBit w 22) (getReg w 12)
    | 1 =>
      match (bits w 21 2).toNat with
      | 0 => .aUndefMisc0001op00 c
      | 1 => .aBx c (getReg w 0)
      | 2 => .aUndefMisc0001op10 c
      | _ => .aClz c (getReg w 12) (getReg w 0)
    | 2 => .aUndefMisc0010 c
    | 3 =>
      match (bits w 21 2).toNat with
      | 0 => .aUndefMisc0011op00 c
      | 1 => .aBlxReg c (getReg w 0)
      | 2 => .aUndefMisc0011op10 c
      | _ => .aUndefMisc0011op11 c
    | 4 => .aUndefMisc0100 c
    | 5 => .aUndefMisc0101 c
    | 6 => .aUndefMisc0110 c
    | _ => .aUndefMisc0111 c

/-- A2 data processing, register shifted by an immediate: opcode = [24:21]. -/
def decodeDataShImm (c : Cond) (w : Word) : Instr :=
  match (bits w 21 4).toNat with
  | 0 => .aAndShImm c (getBit w 20) (getReg w 16) (getReg w 12) (bits w 7 5) (ShiftKind.ofCode (bits w 5 2)) (getReg w 0)
  | 1 => .aEorShImm c (getBit w 20) (getReg w 16) (getReg w 12) (bits w 7 5) (ShiftKind.ofCode (bits w 5 2)) (getReg w 0)
  | 2 => .aSubShImm c (getBit w 20) (getReg w 16) (getReg w 12) (bits w 7 5) (ShiftKind.ofCode (bits w 5 2)) (getReg w 0)
  | 3 => .aRsbShImm c (getBit w 20) (getReg w 16) (getReg w 12) (bits w 7 5) (ShiftKind.ofCode (bits w 5 2)) (getReg w 0)
  | 4 => .aAddShImm c (getBit w 20) (getReg w 16) (getReg w 12) (bits w 7 5) (ShiftKind.ofCode (bits w 5 2)) (getReg w 0)
  | 5 => .aAdcShImm c (getBit w 20) (getReg w 16) (getReg w 12) (bits w 7 5) (ShiftKind.ofCode (bits w 5 2)) (getReg w 0)
  | 6 => .aSbcShImm c (getBit w 20) (getReg w 16) (getReg w 12) (bits w 7 5) (ShiftKind.ofCode (bits w 5 2)) (getReg w 0)
  | 7 => .aRscShImm c (getBit w 20) (getReg w 16) (getReg w 12) (bits w 7 5) (ShiftKind.ofCode (bits w 5 2)) (getReg w 0)
  | 8 => .aTstShImm c (getReg w 16) (bits w 7 5) (ShiftKind.ofCode (bits w 5 2)) (getReg w 0)
  | 9 => .aTeqShImm c (getReg w 16) (bits w 7 5) (ShiftKind.ofCode (bits w 5 2)) (getReg w 0)
  | 10 => .aCmpShImm c (getReg w 16) (bits w 7 5) (ShiftKind.ofCode (bits w 5 2)) (getReg w 0)
  | 11 => .aCmnShImm c (getReg w 16) (bits w 7 5) (ShiftKind.ofCode (bits w 5 2)) (getReg w 0)
  | 12 => .aOrrShImm c (getBit w 20) (getReg w 16) (getReg w 12) (bits w 7 5) (ShiftKind.ofCode (bits w 5 2)) (getReg w 0)
  | 13 => .aMovShImm c (getBit w 20) (getReg w 12) (bits w 7 5) (ShiftKind.ofCode (bits w 5 2)) (getReg w 0)
  | 14 => .aBicShImm c (getBit w 20) (getReg w 16) (getReg w 12) (bits w 7 5) (ShiftKind.ofCode (bits w 5 2)) (getReg w 0)
  | _ => .aMvnShImm c (getBit w 20) (getReg w 12) (bits w 7 5) (ShiftKind.ofCode (bits w 5 2)) (getReg w 0)

/-- A3 data processing, register shifted by a register: opcode = [24:21]. -/
def decodeDataShReg (c : Cond) (w : Word) : Instr :=
  match (bits w 21 4).toNat with
  | 0 => .aAndShReg c (getBit w 20) (getReg w 16) (getReg w 12) (getReg w 8) (ShiftKind.ofCode (bits w 5 2)) (getReg w 0)
  | 1 => .aEorShReg c (getBit w 20) (getReg w 16) (getReg w 12) (getReg w 8) (ShiftKind.ofCode (bits w 5 2)) (getReg w 0)
  | 2 => .aSubShReg c (getBit w 20) (getReg w 16) (getReg w 12) (getReg w 8) (ShiftKind.ofCode (bits w 5 2)) (getReg w 0)
  | 3 => .aRsbShReg c (getBit w 20) (getReg w 16) (getReg w 12) (getReg w 8) (ShiftKind.ofCode (bits w 5 2)) (getReg w 0)
  | 4 => .aAddShReg c (getBit w 20) (getReg w 16) (getReg w 12) (getReg w 8) (ShiftKind.ofCode (bits w 5 2)) (getReg w 0)
  | 5 => .aAdcShReg c (getBit w 20) (getReg w 16) (getReg w 12) (getReg w 8) (ShiftKind.ofCode (bits w 5 2)) (getReg w 0)
  | 6 => .aSbcShReg c (getBit w 20) (getReg w 16) (getReg w 12) (getReg w 8) (ShiftKind.ofCode (bits w 5 2)) (getReg w 0)
  | 7 => .aRscShReg c (getBit w 20) (getReg w 16) (getReg w 12) (getReg w 8) (ShiftKind.ofCode (bits w 5 2)) (getReg w 0)
  | 8 => .aTstShReg c (getReg w 16) (getReg w 8) (ShiftKind.ofCode (bits w 5 2)) (getReg w 0)
  | 9 => .aTeqShReg c (getReg w 16) (getReg w 8) (ShiftKind.ofCode (bits w 5 2)) (getReg w 0)
  | 10 => .aCmpShReg c (getReg w 16) (getReg w 8) (ShiftKind.ofCode (bits w 5 2)) (getReg w 0)
  | 11 => .aCmnShReg c (getReg w 16) (getReg w 8) (ShiftKind.ofCode (bits w 5 2)) (getReg w 0)
  | 12 => .aOrrShReg c (getBit w 20) (getReg w 16) (getReg w 12) (getReg w 8) (ShiftKind.ofCode (bits w 5 2)) (getReg w 0)
  | 13 => .aMovShReg c (getBit w 20) (getReg w 12) (getReg w 8) (ShiftKind.ofCode (bits w 5 2)) (getReg w 0)
  | 14 => .aBicShReg c (getBit w 20) (getReg w 16) (getReg w 12) (getReg w 8) (ShiftKind.ofCode (bits w 5 2)) (getReg w 0)
  | _ => .aMvnShReg c (getBit w 20) (getReg w 12) (getReg w 8) (ShiftKind.ofCode (bits w 5 2)) (getReg w 0)

/-- A1 data processing, rotated immediate: opcode = [24:21]. -/
def decodeDataImm (c : Cond) (w : Word) : Instr :=
  match (bits w 21 4).toNat with
  | 0 => .aAndImm c (getBit w 20) (getReg w 16) (getReg w 12) (bits w 8 4) (bits w 0 8)
  | 1 => .aEorImm c (getBit w 20) (getReg w 16) (getReg w 12) (bits w 8 4) (bits w 0 8)
  | 2 => .aSubImm c (getBit w 20) (getReg w 16) (getReg w 12) (bits w 8 4) (bits w 0 8)
  | 3 => .aRsbImm c (getBit w 20) (getReg w 16) (getReg w 12) (bits w 8 4) (bits w 0 8)
  | 4 => .aAddImm c (getBit w 20) (getReg w 16) (getReg w 12) (bits w 8 4) (bits w 0 8)
  | 5 => .aAdcImm c (getBit w 20) (getReg w 16) (getReg w 12) (bits w 8 4) (bits w 0 8)
  | 6 => .aSbcImm c (getBit w 20) (getReg w 16) (getReg w 12) (bits w 8 4) (bits w 0 8)
  | 7 => .aRscImm c (getBit w 20) (getReg w 16) (getReg w 12) (bits w 8 4) (bits w 0 8)
  | 8 => .aTstImm c (getReg w 16) (bits w 8 4) (bits w 0 8)
  | 9 => .aTeqImm c (getReg w 16) (bits w 8 4) (bits w 0 8)
  | 10 => .aCmpImm c (getReg w 16) (bits w 8 4) (bits w 0 8)
  | 11 => .aCmnImm c (getReg w 16) (bits w 8 4) (bits w 0 8)
  | 12 => .aOrrImm c (getBit w 20) (getReg w 16) (getReg w 12) (bits w 8 4) (bits w 0 8)
  | 13 => .aMovImm c (getBit w 20) (getReg w 12) (bits w 8 4) (bits w 0 8)
  | 14 => .aBicImm c (getBit w 20) (getReg w 16) (getReg w 12) (bits w 8 4) (bits w 0 8)
  | _ => .aMvnImm c (getBit w 20) (getReg w 12) (bits w 8 4) (bits w 0 8)

/-- A13, immediate offset: B = [22], L = [20]; P = [24] selects pre- or post-index, P = 0 with W = 1 the T form. -/
def decodeTransferImm (c : Cond) (w : Word) : Instr :=
  match (bits w 22 1 ++ bits w 20 1 : BitVec 2).toNat with
  | 0 =>
    if getBit w 24 then .aStrPreImm c (getBit w 23) (getBit w 21) (getReg w 16) (getReg w 12) (bits w 0 12)
    else if getBit w 21 then .aStrtImm c (getBit w 23) (getReg w 16) (getReg w 12) (bits w 0 12)
    else .aStrPostImm c (getBit w 23) (getReg w 16) (getReg w 12) (bits w 0 12)
  | 1 =>
    if getBit w 24 then .aLdrPreImm c (getBit w 23) (getBit w 21) (getReg w 16) (getReg w 12) (bits w 0 12)
    else if getBit w 21 then .aLdrtImm c (getBit w 23) (getReg w 16) (getReg w 12) (bits w 0 12)
    else .aLdrPostImm c (getBit w 23) (getReg w 16) (getReg w 12) (bits w 0 12)
  | 2 =>
    if getBit w 24 then .aStrbPreImm c (getBit w 23) (getBit w 21) (getReg w 16) (getReg w 12) (bits w 0 12)
    else if getBit w 21 then .aStrbtImm c (getBit w 23) (getReg w 16) (getReg w 12) (bits w 0 12)
    else .aStrbPostImm c (getBit w 23) (getReg w 16) (getReg w 12) (bits w 0 12)
  | _ =>
    if getBit w 24 then .aLdrbPreImm c (getBit w 23) (getBit w 21) (getReg w 16) (getReg w 12) (bits w 0 12)
    else if getBit w 21 then .aLdrbtImm c (getBit w 23) (getReg w 16) (getReg w 12) (bits w 0 12)
    else .aLdrbPostImm c (getBit w 23) (getReg w 16) (getReg w 12) (bits w 0 12)

/-- A13, shifted register offset: B = [22], L = [20]; P = [24] selects pre- or post-index, P = 0 with W = 1 the T form. -/
def decodeTransferReg (c : Cond) (w : Word) : Instr :=
  match (bits w 22 1 ++ bits w 20 1 : BitVec 2).toNat with
  | 0 =>
    if getBit w 24 then .aStrPreReg c (getBit w 23) (getBit w 21) (getReg w 16) (getReg w 12) (bits w 7 5) (ShiftKind.ofCode (bits w 5 2)) (getReg w 0)
    else if getBit w 21 then .aStrtReg c (getBit w 23) (getReg w 16) (getReg w 12) (bits w 7 5) (ShiftKind.ofCode (bits w 5 2)) (getReg w 0)
    else .aStrPostReg c (getBit w 23) (getReg w 16) (getReg w 12) (bits w 7 5) (ShiftKind.ofCode (bits w 5 2)) (getReg w 0)
  | 1 =>
    if getBit w 24 then .aLdrPreReg c (getBit w 23) (getBit w 21) (getReg w 16) (getReg w 12) (bits w 7 5) (ShiftKind.ofCode (bits w 5 2)) (getReg w 0)
    else if getBit w 21 then .aLdrtReg c (getBit w 23) (getReg w 16) (getReg w 12) (bits w 7 5) (ShiftKind.ofCode (bits w 5 2)) (getReg w 0)
    else .aLdrPostReg c (getBit w 23) (getReg w 16) (getReg w 12) (bits w 7 5) (ShiftKind.ofCode (bits w 5 2)) (getReg w 0)
  | 2 =>
    if getBit w 24 then .aStrbPreReg c (getBit w 23) (getBit w 21) (getReg w 16) (getReg w 12) (bits w 7 5) (ShiftKind.ofCode (bits w 5 2)) (getReg w 0)
    else if getBit w 21 then .aStrbtReg c (getBit w 23) (getReg w 16) (getReg w 12) (bits w 7 5) (ShiftKind.ofCode (bits w 5 2)) (getReg w 0)
    else .aStrbPostReg c (getBit w 23) (getReg w 16) (getReg w 12) (bits w 7 5) (ShiftKind.ofCode (bits w 5 2)) (getReg w 0)
  | _ =>
    if getBit w 24 then .aLdrbPreReg c (getBit w 23) (getBit w 21) (getReg w 16) (getReg w 12) (bits w 7 5) (ShiftKind.ofCode (bits w 5 2)) (getReg w 0)
    else if getBit w 21 then .aLdrbtReg c (getBit w 23) (getReg w 16) (getReg w 12) (bits w 7 5) (ShiftKind.ofCode (bits w 5 2)) (getReg w 0)
    else .aLdrbPostReg c (getBit w 23) (getReg w 16) (getReg w 12) (bits w 7 5) (ShiftKind.ofCode (bits w 5 2)) (getReg w 0)

/-- A15: P:U = [24:23], L = [20]. -/
def decodeBlock (c : Cond) (w : Word) : Instr :=
  if getBit w 20 then
    match (bits w 23 2).toNat with
    | 0 => .aLdmda c (getBit w 22) (getBit w 21) (getReg w 16) (bits w 0 16)
    | 1 => .aLdmia c (getBit w 22) (getBit w 21) (getReg w 16) (bits w 0 16)
    | 2 => .aLdmdb c (getBit w 22) (getBit w 21) (getReg w 16) (bits w 0 16)
    | _ => .aLdmib c (getBit w 22) (getBit w 21) (getReg w 16) (bits w 0 16)
  else
    match (bits w 23 2).toNat with
    | 0 => .aStmda c (getBit w 22) (getBit w 21) (getReg w 16) (bits w 0 16)
    | 1 => .aStmia c (getBit w 22) (getBit w 21) (getReg w 16) (bits w 0 16)
    | 2 => .aStmdb c (getBit w 22) (getBit w 21) (getReg w 16) (bits w 0 16)
    | _ => .aStmib c (getBit w 22) (getBit w 21) (getReg w 16) (bits w 0 16)

/-- A16, L = [24]. -/
def decodeBranch (c : Cond) (w : Word) : Instr :=
  if getBit w 24 then .aBl c ((bits w 0 24).toInt * 4) else .aB c ((bits w 0 24).toInt * 4)

/-- `FullHandler`'s choice. Total: every 32-bit value is an instruction; a word with cond = 1111 decodes like any other and its
condition NV never passes (R164). -/
def decodeFull (w : Word) : Instr :=
  let c := Cond.ofCode (bits w 28 4)
  match fullFamily w with
  | .multiply => decodeMultiply c w
  | .multiplyLong => decodeMultiplyLong c w
  | .swap => decodeSwap c w
  | .undefMultiply => decodeUndefMultiply c w
  | .halfTransfer => decodeHalfTransfer c w
  | .misc => decodeMisc c w
  | .dataReg => if getBit w 4 then decodeDataShReg c w else decodeDataShImm c w
  | .msrImm => .aMsrImm c (getBit w 22) (bits w 16 4) (bits w 8 4) (bits w 0 8)
  | .undefImm => .aUndefImm c
  | .dataImm => decodeDataImm c w
  | .transferImm => decodeTransferImm c w
  | .transferReg => decodeTransferReg c w
  | .undefTransfer => .aUndefRegOff c
  | .block => decodeBlock c w
  | .branch => decodeBranch c w
  | .undefCop => .aUndefCop c

/-! ## The decoder as the host calls it -/

/-- An instruction word of either encoding. -/
def decode : InstrWord → Instr
  | .compact h => decodeCompact h
  | .full w => decodeFull w

/-- The value `execute` is given, in the mode it is given (30_encoding R130, R131): a compact value must be below 0x10000
(10_state R48). -/
def decodeValue (compact : Bool) (value : Word) : Except DecodeError Instr :=
  if compact then
    if value.toNat < 0x10000 then .ok (decodeCompact (value.setWidth 16)) else .error .wideCompact
  else .ok (decodeFull value)

/-- The number whose little-endian bytes are given (20_memory R85): byte 0 is the least significant. -/
def ofBytesLE : List Byte → Nat
  | [] => 0
  | b :: bs => b.toNat + 256 * ofBytesLE bs

/-- The low `n` bytes of a number, least significant first (20_memory R85). -/
def toBytesLE : Nat → Nat → List Byte
  | 0, _ => []
  | n + 1, v => BitVec.ofNat 8 v :: toBytesLE n (v / 256)

/-- One instruction from the front of a byte list, and the rest: 2 bytes in compact mode, 4 in full mode
(30_encoding R134). -/
def decodeBytes (compact : Bool) : List Byte → Except DecodeError (Instr × List Byte)
  | b0 :: b1 :: rest =>
    if compact then .ok (decodeCompact (BitVec.ofNat 16 (ofBytesLE [b0, b1])), rest)
    else
      match rest with
      | b2 :: b3 :: rest' => .ok (decodeFull (BitVec.ofNat 32 (ofBytesLE [b0, b1, b2, b3])), rest')
      | _ => .error .tooShort
  | _ => .error .tooShort

/-- The instruction the decoder reads from a table word: a row of at most 16 bits is a compact row, a wider one a full row;
its bytes are laid out little-endian and the bits above `nbits` are 0. -/
def decodeTableWord (nbits w : Nat) : Option Instr :=
  let compact := decide (nbits ≤ 16)
  match decodeBytes compact (toBytesLE (if compact then 2 else 4) (w % 2 ^ nbits)) with
  | .ok (i, _) => some i
  | .error _ => none

/-! ## The encoder: the encoding lines of 41 to 47, should-be fields in their canonical form, condition in [31:28] -/

/-- The fixed bits of a format with its fields OR-ed in, as the encoding lines write them. -/
def assemble {m : Nat} (fixed : BitVec m) (fields : List (BitVec m)) : BitVec m := fields.foldl (· ||| ·) fixed

def compactWord (fixed : BitVec 16) (fields : List (BitVec 16)) : InstrWord := .compact (assemble fixed fields)

def fullWord (fixed : Word) (c : Cond) (fields : List Word) : InstrWord := .full (assemble fixed (put 28 c.code :: fields))

/-- The words of a well-formed instruction. -/
def encode : Instr → InstrWord
  | .tLslImm imm5 rs rd => compactWord 0x0000#16 [put 6 imm5, putLow 3 rs, putLow 0 rd]
  | .tLsrImm imm5 rs rd => compactWord 0x0800#16 [put 6 imm5, putLow 3 rs, putLow 0 rd]
  | .tAsrImm imm5 rs rd => compactWord 0x1000#16 [put 6 imm5, putLow 3 rs, putLow 0 rd]
  | .tAddReg rn rs rd => compactWord 0x1800#16 [putLow 6 rn, putLow 3 rs, putLow 0 rd]
  | .tSubReg rn rs rd => compactWord 0x1A00#16 [putLow 6 rn, putLow 3 rs, putLow 0 rd]
  | .tAddImm3 imm3 rs rd => compactWord 0x1C00#16 [put 6 imm3, putLow 3 rs, putLow 0 rd]
  | .tSubImm3 imm3 rs rd => compactWord 0x1E00#16 [put 6 imm3, putLow 3 rs, putLow 0 rd]
  | .tMovImm rd imm8 => compactWord 0x2000#16 [putLow 8 rd, put 0 imm8]
  | .tCmpImm rd imm8 => compactWord 0x2800#16 [putLow 8 rd, put 0 imm8]
  | .tAddImm8 rd imm8 => compactWord 0x3000#16 [putLow 8 rd, put 0 imm8]
  | .tSubImm8 rd imm8 => compactWord 0x3800#16 [putLow 8 rd, put 0 imm8]
  | .tAnd rs rd => compactWord 0x4000#16 [putLow 3 rs, putLow 0 rd]
  | .tEor rs rd => compactWord 0x4040#16 [putLow 3 rs, putLow 0 rd]
  | .tLslReg rs rd => compactWord 0x4080#16 [putLow 3 rs, putLow 0 rd]
  | .tLsrReg rs rd => compactWord 0x40C0#16 [putLow 3 rs, putLow 0 rd]
  | .tAsrReg rs rd => compactWord 0x4100#16 [putLow 3 rs, putLow 0 rd]
  | .tAdc rs rd => compactWord 0x4140#16 [putLow 3 rs, putLow 0 rd]
  | .tSbc rs rd => compactWord 0x4180#16 [putLow 3 rs, putLow 0 rd]
  | .tRorReg rs rd => compactWord 0x41C0#16 [putLow 3 rs, putLow 0 rd]
  | .tTst rs rd => compactWord 0x4200#16 [putLow 3 rs, putLow 0 rd]
  | .tNeg rs rd => compactWord 0x4240#16 [putLow 3 rs, putLow 0 rd]
  | .tCmpReg rs rd => compactWord 0x4280#16 [putLow 3 rs, putLow 0 rd]
  | .tCmn rs rd => compactWord 0x42C0#16 [putLow 3 rs, putLow 0 rd]
  | .tOrr rs rd => compactWord 0x4300#16 [putLow 3 rs, putLow 0 rd]
  | .tMul rs rd => compactWord 0x4340#16 [putLow 3 rs, putLow 0 rd]
  | .tBic rs rd => compactWord 0x4380#16 [putLow 3 rs, putLow 0 rd]
  | .tMvn rs rd => compactWord 0x43C0#16 [putLow 3 rs, putLow 0 rd]
  | .tAddHi hd hs => compactWord 0x4400#16 [putHd hd, putReg 3 hs]
  | .tCmpHi hd hs => compactWord 0x4500#16 [putHd hd, putReg 3 hs]
  | .tMovHi hd hs => compactWord 0x4600#16 [putHd hd, putReg 3 hs]
  | .tBx hs => compactWord 0x4700#16 [putReg 3 hs]
  | .tBlx hs => compactWord 0x4780#16 [putReg 3 hs]
  | .tLdrPc rd offset => compactWord 0x4800#16 [putLow 8 rd, put 0 (BitVec.ofNat 8 (offset / 4))]
  | .tStrReg ro rb rd => compactWord 0x5000#16 [putLow 6 ro, putLow 3 rb, putLow 0 rd]
  | .tStrbReg ro rb rd => compactWord 0x5400#16 [putLow 6 ro, putLow 3 rb, putLow 0 rd]
  | .tLdrReg ro rb rd => compactWord 0x5800#16 [putLow 6 ro, putLow 3 rb, putLow 0 rd]
  | .tLdrbReg ro rb rd => compactWord 0x5C00#16 [putLow 6 ro, putLow 3 rb, putLow 0 rd]
  | .tStrhReg ro rb rd => compactWord 0x5200#16 [putLow 6 ro, putLow 3 rb, putLow 0 rd]
  | .tLdrsbReg ro rb rd => compactWord 0x5600#16 [putLow 6 ro, putLow 3 rb, putLow 0 rd]
  | .tLdrhReg ro rb rd => compactWord 0x5A00#16 [putLow 6 ro, putLow 3 rb, putLow 0 rd]
  | .tLdrshReg ro rb rd => compactWord 0x5E00#16 [putLow 6 ro, putLow 3 rb, putLow 0 rd]
  | .tStrImm offset rb rd => compactWord 0x6000#16 [put 6 (BitVec.ofNat 5 (offset / 4)), putLow 3 rb, putLow 0 rd]
  | .tLdrImm offset rb rd => compactWord 0x6800#16 [put 6 (BitVec.ofNat 5 (offset / 4)), putLow 3 rb, putLow 0 rd]
  | .tStrbImm offset rb rd => compactWord 0x7000#16 [put 6 (BitVec.ofNat 5 offset), putLow 3 rb, putLow 0 rd]
  | .tLdrbImm offset rb rd => compactWord 0x7800#16 [put 6 (BitVec.ofNat 5 offset), putLow 3 rb, putLow 0 rd]
  | .tStrhImm offset rb rd => compactWord 0x8000#16 [put 6 (BitVec.ofNat 5 (offset / 2)), putLow 3 rb, putLow 0 rd]
  | .tLdrhImm offset rb rd => compactWord 0x8800#16 [put 6 (BitVec.ofNat 5 (offset / 2)), putLow 3 rb, putLow 0 rd]
  | .tStrSp rd offset => compactWord 0x9000#16 [putLow 8 rd, put 0 (BitVec.ofNat 8 (offset / 4))]
  | .tLdrSp rd offset => compactWord 0x9800#16 [putLow 8 rd, put 0 (BitVec.ofNat 8 (offset / 4))]
  | .tAddPc rd offset => compactWord 0xA000#16 [putLow 8 rd, put 0 (BitVec.ofNat 8 (offset / 4))]
  | .tAddSp rd offset => compactWord 0xA800#16 [putLow 8 rd, put 0 (BitVec.ofNat 8 (offset / 4))]
  | .tIncSp offset => compactWord 0xB000#16 [put 0 (BitVec.ofNat 7 (offset / 4))]
  | .tDecSp offset => compactWord 0xB080#16 [put 0 (BitVec.ofNat 7 (offset / 4))]
  | .tUndef12a => compactWord 0xB100#16 []
  | .tUndef12b => compactWord 0xB200#16 []
  | .tPush lr rlist => compactWord 0xB400#16 [putBit 8 lr, put 0 rlist]
  | .tUndef13a => compactWord 0xB600#16 []
  | .tUndef13b => compactWord 0xB800#16 []
  | .tPop pc rlist => compactWord 0xBC00#16 [putBit 8 pc, put 0 rlist]
  | .tUndef13c => compactWord 0xBE00#16 []
  | .tStmia rb rlist => compactWord 0xC000#16 [putLow 8 rb, put 0 rlist]
  | .tLdmia rb rlist => compactWord 0xC800#16 [putLow 8 rb, put 0 rlist]
  | .tBCond cond offset => compactWord 0xD000#16 [put 8 cond.code, put 0 (BitVec.ofInt 8 (offset / 2))]
  | .tB offset => compactWord 0xE000#16 [put 0 (BitVec.ofInt 11 (offset / 2))]
  | .tUndef17 => compactWord 0xE800#16 []
  | .tBlFirst offset => compactWord 0xF000#16 [put 0 (BitVec.ofInt 11 (offset / 4096))]
  | .tBlSecond offset => compactWord 0xF800#16 [put 0 (BitVec.ofNat 11 (offset / 2))]
  | .aMul c sf rd rs rm => fullWord 0x00000090#32 c [putBit 20 sf, putReg 16 rd, putReg 8 rs, putReg 0 rm]
  | .aMla c sf rd rn rs rm => fullWord 0x00200090#32 c [putBit 20 sf, putReg 16 rd, putReg 12 rn, putReg 8 rs, putReg 0 rm]
  | .aUmull c sf rdHi rdLo rs rm => fullWord 0x00800090#32 c [putBit 20 sf, putReg 16 rdHi, putReg 12 rdLo, putReg 8 rs, putReg 0 rm]
  | .aUmlal c sf rdHi rdLo rs rm => fullWord 0x00A00090#32 c [putBit 20 sf, putReg 16 rdHi, putReg 12 rdLo, putReg 8 rs, putReg 0 rm]
  | .aSmull c sf rdHi rdLo rs rm => fullWord 0x00C00090#32 c [putBit 20 sf, putReg 16 rdHi, putReg 12 rdLo, putReg 8 rs, putReg 0 rm]
  | .aSmlal c sf rdHi rdLo rs rm => fullWord 0x00E00090#32 c [putBit 20 sf, putReg 16 rdHi, putReg 12 rdLo, putReg 8 rs, putReg 0 rm]
  | .aSwp c rn rd rm => fullWord 0x01000090#32 c [putReg 16 rn, putReg 12 rd, putReg 0 rm]
  | .aSwpb c rn rd rm => fullWord 0x01400090#32 c [putReg 16 rn, putReg 12 rd, putReg 0 rm]
  | .aUndefMul001 c => fullWord 0x00400090#32 c []
  | .aUndefMul11 c => fullWord 0x01800090#32 c []
  | .aUndefSwap01 c => fullWord 0x01100090#32 c []
  | .aUndefSwap10 c => fullWord 0x01200090#32 c []
  | .aUndefSwap11 c => fullWord 0x01300090#32 c []
  | .aStrh c p u w rn rd off => fullWord 0x000000B0#32 c [putBit 24 p, putBit 23 u, putBit 21 w, putReg 16 rn, putReg 12 rd, putHalfOffset off]
  | .aUndefLdrd c => fullWord 0x000000D0#32 c []
  | .aUndefStrd c => fullWord 0x000000F0#32 c []
  | .aLdrh c p u w rn rd off => fullWord 0x001000B0#32 c [putBit 24 p, putBit 23 u, putBit 21 w, putReg 16 rn, putReg 12 rd, putHalfOffset off]
  | .aLdrsb c p u w rn rd off => fullWord 0x001000D0#32 c [putBit 24 p, putBit 23 u, putBit 21 w, putReg 16 rn, putReg 12 rd, putHalfOffset off]
  | .aLdrsh c p u w rn rd off => fullWord 0x001000F0#32 c [putBit 24 p, putBit 23 u, putBit 21 w, putReg 16 rn, putReg 12 rd, putHalfOffset off]
  | .aMrs c r rd => fullWord 0x010F0000#32 c [putBit 22 r, putReg 12 rd]
  | .aMsrReg c r mask rm => fullWord 0x0120F000#32 c [putBit 22 r, put 16 mask, putReg 0 rm]
  | .aBx c rm => fullWord 0x012FFF10#32 c [putReg 0 rm]
  | .aClz c rd rm => fullWord 0x016F0F10#32 c [putReg 12 rd, putReg 0 rm]
  | .aBlxReg c rm => fullWord 0x012FFF30#32 c [putReg 0 rm]
  | .aSmlaxy c y x rd rn rs rm => fullWord 0x01000080#32 c [putBit 6 y, putBit 5 x, putReg 16 rd, putReg 12 rn, putReg 8 rs, putReg 0 rm]
  | .aSmlawy c y rd rn rs rm => fullWord 0x01200080#32 c [putBit 6 y, putReg 16 rd, putReg 12 rn, putReg 8 rs, putReg 0 rm]
  | .aSmulwy c y rd rs rm => fullWord 0x012000A0#32 c [putBit 6 y, putReg 16 rd, putReg 8 rs, putReg 0 rm]
  | .aSmlalxy c y x rdHi rdLo rs rm => fullWord 0x01400080#32 c [putBit 6 y, putBit 5 x, putReg 16 rdHi, putReg 12 rdLo, putReg 8 rs, putReg 0 rm]
  | .aSmulxy c y x rd rs rm => fullWord 0x01600080#32 c [putBit 6 y, putBit 5 x, putReg 16 rd, putReg 8 rs, putReg 0 rm]
  | .aUndefMisc0001op00 c => fullWord 0x01000010#32 c []
  | .aUndefMisc0001op10 c => fullWord 0x01400010#32 c []
  | .aUndefMisc0011op00 c => fullWord 0x01000030#32 c []
  | .aUndefMisc0011op10 c => fullWord 0x01400030#32 c []
  | .aUndefMisc0011op11 c => fullWord 0x01600030#32 c []
  | .aUndefMisc0010 c => fullWord 0x01000020#32 c []
  | .aUndefMisc0100 c => fullWord 0x01000040#32 c []
  | .aUndefMisc0101 c => fullWord 0x01000050#32 c []
  | .aUndefMisc0110 c => fullWord 0x01000060#32 c []
  | .aUndefMisc0111 c => fullWord 0x01000070#32 c []
  | .aAndShImm c sf rn rd shImm sh rm => fullWord 0x00000000#32 c [putBit 20 sf, putReg 16 rn, putReg 12 rd, put 7 shImm, put 5 sh.code, putReg 0 rm]
  | .aAndShReg c sf rn rd rs sh rm => fullWord 0x00000010#32 c [putBit 20 sf, putReg 16 rn, putReg 12 rd, putReg 8 rs, put 5 sh.code, putReg 0 rm]
  | .aEorShImm c sf rn rd shImm sh rm => fullWord 0x00200000#32 c [putBit 20 sf, putReg 16 rn, putReg 12 rd, put 7 shImm, put 5 sh.code, putReg 0 rm]
  | .aEorShReg c sf rn rd rs sh rm => fullWord 0x00200010#32 c [putBit 20 sf, putReg 16 rn, putReg 12 rd, putReg 8 rs, put 5 sh.code, putReg 0 rm]
  | .aSubShImm c sf rn rd shImm sh rm => fullWord 0x00400000#32 c [putBit 20 sf, putReg 16 rn, putReg 12 rd, put 7 shImm, put 5 sh.code, putReg 0 rm]
  | .aSubShReg c sf rn rd rs sh rm => fullWord 0x00400010#32 c [putBit 20 sf, putReg 16 rn, putReg 12 rd, putReg 8 rs, put 5 sh.code, putReg 0 rm]
  | .aRsbShImm c sf rn rd shImm sh rm => fullWord 0x00600000#32 c [putBit 20 sf, putReg 16 rn, putReg 12 rd, put 7 shImm, put 5 sh.code, putReg 0 rm]
  | .aRsbShReg c sf rn rd rs sh rm => fullWord 0x00600010#32 c [putBit 20 sf, putReg 16 rn, putReg 12 rd, putReg 8 rs, put 5 sh.code, putReg 0 rm]
  | .aAddShImm c sf rn rd shImm sh rm => fullWord 0x00800000#32 c [putBit 20 sf, putReg 16 rn, putReg 12 rd, put 7 shImm, put 5 sh.code, putReg 0 rm]
  | .aAddShReg c sf rn rd rs sh rm => fullWord 0x00800010#32 c [putBit 20 sf, putReg 16 rn, putReg 12 rd, putReg 8 rs, put 5 sh.code, putReg 0 rm]
  | .aAdcShImm c sf rn rd shImm sh rm => fullWord 0x00A00000#32 c [putBit 20 sf, putReg 16 rn, putReg 12 rd, put 7 shImm, put 5 sh.code, putReg 0 rm]
  | .aAdcShReg c sf rn rd rs sh rm => fullWord 0x00A00010#32 c [putBit 20 sf, putReg 16 rn, putReg 12 rd, putReg 8 rs, put 5 sh.code, putReg 0 rm]
  | .aSbcShImm c sf rn rd shImm sh rm => fullWord 0x00C00000#32 c [putBit 20 sf, putReg 16 rn, putReg 12 rd, put 7 shImm, put 5 sh.code, putReg 0 rm]
  | .aSbcShReg c sf rn rd rs sh rm => fullWord 0x00C00010#32 c [putBit 20 sf, putReg 16 rn, putReg 12 rd, putReg 8 rs, put 5 sh.code, putReg 0 rm]
  | .aRscShImm c sf rn rd shImm sh rm => fullWord 0x00E00000#32 c [putBit 20 sf, putReg 16 rn, putReg 12 rd, put 7 shImm, put 5 sh.code, putReg 0 rm]
  | .aRscShReg c sf rn rd rs sh rm => fullWord 0x00E00010#32 c [putBit 20 sf, putReg 16 rn, putReg 12 rd, putReg 8 rs, put 5 sh.code, putReg 0 rm]
  | .aTstShImm c rn shImm sh rm => fullWord 0x01100000#32 c [putReg 16 rn, put 7 shImm, put 5 sh.code, putReg 0 rm]
  | .aTstShReg c rn rs sh rm => fullWord 0x01100010#32 c [putReg 16 rn, putReg 8 rs, put 5 sh.code, putReg 0 rm]
  | .aTeqShImm c rn shImm sh rm => fullWord 0x01300000#32 c [putReg 16 rn, put 7 shImm, put 5 sh.code, putReg 0 rm]
  | .aTeqShReg c rn rs sh rm => fullWord 0x01300010#32 c [putReg 16 rn, putReg 8 rs, put 5 sh.code, putReg 0 rm]
  | .aCmpShImm c rn shImm sh rm => fullWord 0x01500000#32 c [putReg 16 rn, put 7 shImm, put 5 sh.code, putReg 0 rm]
  | .aCmpShReg c rn rs sh rm => fullWord 0x01500010#32 c [putReg 16 rn, putReg 8 rs, put 5 sh.code, putReg 0 rm]
  | .aCmnShImm c rn shImm sh rm => fullWord 0x01700000#32 c [putReg 16 rn, put 7 shImm, put 5 sh.code, putReg 0 rm]
  | .aCmnShReg c rn rs sh rm => fullWord 0x01700010#32 c [putReg 16 rn, putReg 8 rs, put 5 sh.code, putReg 0 rm]
  | .aOrrShImm c sf rn rd shImm sh rm => fullWord 0x01800000#32 c [putBit 20 sf, putReg 16 rn, putReg 12 rd, put 7 shImm, put 5 sh.code, putReg 0 rm]
  | .aOrrShReg c sf rn rd rs sh rm => fullWord 0x01800010#32 c [putBit 20 sf, putReg 16 rn, putReg 12 rd, putReg 8 rs, put 5 sh.code, putReg 0 rm]
  | .aMovShImm c sf rd shImm sh rm => fullWord 0x01A00000#32 c [putBit 20 sf, putReg 12 rd, put 7 shImm, put 5 sh.code, putReg 0 rm]
  | .aMovShReg c sf rd rs sh rm => fullWord 0x01A00010#32 c [putBit 20 sf, putReg 12 rd, putReg 8 rs, put 5 sh.code, putReg 0 rm]
  | .aBicShImm c sf rn rd shImm sh rm => fullWord 0x01C00000#32 c [putBit 20 sf, putReg 16 rn, putReg 12 rd, put 7 shImm, put 5 sh.code, putReg 0 rm]
  | .aBicShReg c sf rn rd rs sh rm => fullWord 0x01C00010#32 c [putBit 20 sf, putReg 16 rn, putReg 12 rd, putReg 8 rs, put 5 sh.code, putReg 0 rm]
  | .aMvnShImm c sf rd shImm sh rm => fullWord 0x01E00000#32 c [putBit 20 sf, putReg 12 rd, put 7 shImm, put 5 sh.code, putReg 0 rm]
  | .aMvnShReg c sf rd rs sh rm => fullWord 0x01E00010#32 c [putBit 20 sf, putReg 12 rd, putReg 8 rs, put 5 sh.code, putReg 0 rm]
  | .aMsrImm c r mask rot imm8 => fullWord 0x0320F000#32 c [putBit 22 r, put 16 mask, put 8 rot, put 0 imm8]
  | .aUndefImm c => fullWord 0x03000000#32 c []
  | .aAndImm c sf rn rd rot imm8 => fullWord 0x02000000#32 c [putBit 20 sf, putReg 16 rn, putReg 12 rd, put 8 rot, put 0 imm8]
  | .aEorImm c sf rn rd rot imm8 => fullWord 0x02200000#32 c [putBit 20 sf, putReg 16 rn, putReg 12 rd, put 8 rot, put 0 imm8]
  | .aSubImm c sf rn rd rot imm8 => fullWord 0x02400000#32 c [putBit 20 sf, putReg 16 rn, putReg 12 rd, put 8 rot, put 0 imm8]
  | .aRsbImm c sf rn rd rot imm8 => fullWord 0x02600000#32 c [putBit 20 sf, putReg 16 rn, putReg 12 rd, put 8 rot, put 0 imm8]
  | .aAddImm c sf rn rd rot imm8 => fullWord 0x02800000#32 c [putBit 20 sf, putReg 16 rn, putReg 12 rd, put 8 rot, put 0 imm8]
  | .aAdcImm c sf rn rd rot imm8 => fullWord 0x02A00000#32 c [putBit 20 sf, putReg 16 rn, putReg 12 rd, put 8 rot, put 0 imm8]
  | .aSbcImm c sf rn rd rot imm8 => fullWord 0x02C00000#32 c [putBit 20 sf, putReg 16 rn, putReg 12 rd, put 8 rot, put 0 imm8]
  | .aRscImm c sf rn rd rot imm8 => fullWord 0x02E00000#32 c [putBit 20 sf, putReg 16 rn, putReg 12 rd, put 8 rot, put 0 imm8]
  | .aTstImm c rn rot imm8 => fullWord 0x03100000#32 c [putReg 16 rn, put 8 rot, put 0 imm8]
  | .aTeqImm c rn rot imm8 => fullWord 0x03300000#32 c [putReg 16 rn, put 8 rot, put 0 imm8]
  | .aCmpImm c rn rot imm8 => fullWord 0x03500000#32 c [putReg 16 rn, put 8 rot, put 0 imm8]
  | .aCmnImm c rn rot imm8 => fullWord 0x03700000#32 c [putReg 16 rn, put 8 rot, put 0 imm8]
  | .aOrrImm c sf rn rd rot imm8 => fullWord 0x03800000#32 c [putBit 20 sf, putReg 16 rn, putReg 12 rd, put 8 rot, put 0 imm8]
  | .aMovImm c sf rd rot imm8 => fullWord 0x03A00000#32 c [putBit 20 sf, putReg 12 rd, put 8 rot, put 0 imm8]
  | .aBicImm c sf rn rd rot imm8 => fullWord 0x03C00000#32 c [putBit 20 sf, putReg 16 rn, putReg 12 rd, put 8 rot, put 0 imm8]
  | .aMvnImm c sf rd rot imm8 => fullWord 0x03E00000#32 c [putBit 20 sf, putReg 12 rd, put 8 rot, put 0 imm8]
  | .aStrPreImm c u w rn rd imm12 => fullWord 0x05000000#32 c [putBit 23 u, putBit 21 w, putReg 16 rn, putReg 12 rd, put 0 imm12]
  | .aStrPostImm c u rn rd imm12 => fullWord 0x04000000#32 c [putBit 23 u, putReg 16 rn, putReg 12 rd, put 0 imm12]
  | .aStrtImm c u rn rd imm12 => fullWord 0x04200000#32 c [putBit 23 u, putReg 16 rn, putReg 12 rd, put 0 imm12]
  | .aLdrPreImm c u w rn rd imm12 => fullWord 0x05100000#32 c [putBit 23 u, putBit 21 w, putReg 16 rn, putReg 12 rd, put 0 imm12]
  | .aLdrPostImm c u rn rd imm12 => fullWord 0x04100000#32 c [putBit 23 u, putReg 16 rn, putReg 12 rd, put 0 imm12]
  | .aLdrtImm c u rn rd imm12 => fullWord 0x04300000#32 c [putBit 23 u, putReg 16 rn, putReg 12 rd, put 0 imm12]
  | .aStrbPreImm c u w rn rd imm12 => fullWord 0x05400000#32 c [putBit 23 u, putBit 21 w, putReg 16 rn, putReg 12 rd, put 0 imm12]
  | .aStrbPostImm c u rn rd imm12 => fullWord 0x04400000#32 c [putBit 23 u, putReg 16 rn, putReg 12 rd, put 0 imm12]
  | .aStrbtImm c u rn rd imm12 => fullWord 0x04600000#32 c [putBit 23 u, putReg 16 rn, putReg 12 rd, put 0 imm12]
  | .aLdrbPreImm c u w rn rd imm12 => fullWord 0x05500000#32 c [putBit 23 u, putBit 21 w, putReg 16 rn, putReg 12 rd, put 0 imm12]
  | .aLdrbPostImm c u rn rd imm12 => fullWord 0x04500000#32 c [putBit 23 u, putReg 16 rn, putReg 12 rd, put 0 imm12]
  | .aLdrbtImm c u rn rd imm12 => fullWord 0x04700000#32 c [putBit 23 u, putReg 16 rn, putReg 12 rd, put 0 imm12]
  | .aStrPreReg c u w rn rd shImm sh rm => fullWord 0x07000000#32 c [putBit 23 u, putBit 21 w, putReg 16 rn, putReg 12 rd, put 7 shImm, put 5 sh.code, putReg 0 rm]
  | .aStrPostReg c u rn rd shImm sh rm => fullWord 0x06000000#32 c [putBit 23 u, putReg 16 rn, putReg 12 rd, put 7 shImm, put 5 sh.code, putReg 0 rm]
  | .aStrtReg c u rn rd shImm sh rm => fullWord 0x06200000#32 c [putBit 23 u, putReg 16 rn, putReg 12 rd, put 7 shImm, put 5 sh.code, putReg 0 rm]
  | .aLdrPreReg c u w rn rd shImm sh rm => fullWord 0x07100000#32 c [putBit 23 u, putBit 21 w, putReg 16 rn, putReg 12 rd, put 7 shImm, put 5 sh.code, putReg 0 rm]
  | .aLdrPostReg c u rn rd shImm sh rm => fullWord 0x06100000#32 c [putBit 23 u, putReg 16 rn, putReg 12 rd, put 7 shImm, put 5 sh.code, putReg 0 rm]
  | .aLdrtReg c u rn rd shImm sh rm => fullWord 0x06300000#32 c [putBit 23 u, putReg 16 rn, putReg 12 rd, put 7 shImm, put 5 sh.code, putReg 0 rm]
  | .aStrbPreReg c u w rn rd shImm sh rm => fullWord 0x07400000#32 c [putBit 23 u, putBit 21 w, putReg 16 rn, putReg 12 rd, put 7 shImm, put 5 sh.code, putReg 0 rm]
  | .aStrbPostReg c u rn rd shImm sh rm => fullWord 0x06400000#32 c [putBit 23 u, putReg 16 rn, putReg 12 rd, put 7 shImm, put 5 sh.code, putReg 0 rm]
  | .aStrbtReg c u rn rd shImm sh rm => fullWord 0x06600000#32 c [putBit 23 u, putReg 16 rn, putReg 12 rd, put 7 shImm, put 5 sh.code, putReg 0 rm]
  | .aLdrbPreReg c u w rn rd shImm sh rm => fullWord 0x07500000#32 c [putBit 23 u, putBit 21 w, putReg 16 rn, putReg 12 rd, put 7 shImm, put 5 sh.code, putReg 0 rm]
  | .aLdrbPostReg c u rn rd shImm sh rm => fullWord 0x06500000#32 c [putBit 23 u, putReg 16 rn, putReg 12 rd, put 7 shImm, put 5 sh.code, putReg 0 rm]
  | .aLdrbtReg c u rn rd shImm sh rm => fullWord 0x06700000#32 c [putBit 23 u, putReg 16 rn, putReg 12 rd, put 7 shImm, put 5 sh.code, putReg 0 rm]
  | .aUndefRegOff c => fullWord 0x06000010#32 c []
  | .aStmda c sbit w rn rlist => fullWord 0x08000000#32 c [putBit 22 sbit, putBit 21 w, putReg 16 rn, put 0 rlist]
  | .aStmia c sbit w rn rlist => fullWord 0x08800000#32 c [putBit 22 sbit, putBit 21 w, putReg 16 rn, put 0 rlist]
  | .aStmdb c sbit w rn rlist => fullWord 0x09000000#32 c [putBit 22 sbit, putBit 21 w, putReg 16 rn, put 0 rlist]
  | .aStmib c sbit w rn rlist => fullWord 0x09800000#32 c [putBit 22 sbit, putBit 21 w, putReg 16 rn, put 0 rlist]
  | .aLdmda c sbit w rn rlist => fullWord 0x08100000#32 c [putBit 22 sbit, putBit 21 w, putReg 16 rn, put 0 rlist]
  | .aLdmia c sbit w rn rlist => fullWord 0x08900000#32 c [putBit 22 sbit, putBit 21 w, putReg 16 rn, put 0 rlist]
  | .aLdmdb c sbit w rn rlist => fullWord 0x09100000#32 c [putBit 22 sbit, putBit 21 w, putReg 16 rn, put 0 rlist]
  | .aLdmib c sbit w rn rlist => fullWord 0x09900000#32 c [putBit 22 sbit, putBit 21 w, putReg 16 rn, put 0 rlist]
  | .aB c offset => fullWord 0x0A000000#32 c [put 0 (BitVec.ofInt 24 (offset / 4))]
  | .aBl c offset => fullWord 0x0B000000#32 c [put 0 (BitVec.ofInt 24 (offset / 4))]
  | .aUndefCop c => fullWord 0x0C000000#32 c []

/-- The bytes of an instruction word in memory order (20_memory R85, 70_reset R584). -/
def InstrWord.bytes : InstrWord → List Byte
  | .compact h => toBytesLE 2 h.toNat
  | .full w => toBytesLE 4 w.toNat

/-- Whether the word is of the compact encoding. -/
def InstrWord.isCompact : InstrWord → Bool
  | .compact _ => true
  | .full _ => false

/-! ## The opcode table (30_encoding R185): mask and match of its 192 rows, and the row of each instruction -/

def compactTable0 : List (BitVec 16 × BitVec 16) :=
  [(0xF800, 0x0000), (0xF800, 0x0800), (0xF800, 0x1000), (0xFE00, 0x1800), (0xFE00, 0x1A00), (0xFE00, 0x1C00),
   (0xFE00, 0x1E00), (0xF800, 0x2000), (0xF800, 0x2800), (0xF800, 0x3000), (0xF800, 0x3800), (0xFFC0, 0x4000),
   (0xFFC0, 0x4040), (0xFFC0, 0x4080), (0xFFC0, 0x40C0), (0xFFC0, 0x4100), (0xFFC0, 0x4140), (0xFFC0, 0x4180),
   (0xFFC0, 0x41C0), (0xFFC0, 0x4200), (0xFFC0, 0x4240), (0xFFC0, 0x4280), (0xFFC0, 0x42C0), (0xFFC0, 0x4300),
   (0xFFC0, 0x4340), (0xFFC0, 0x4380), (0xFFC0, 0x43C0), (0xFF00, 0x4400), (0xFF00, 0x4500), (0xFF00, 0x4600),
   (0xFF80, 0x4700), (0xFF80, 0x4780)]

def compactTable1 : List (BitVec 16 × BitVec 16) :=
  [(0xF800, 0x4800), (0xFE00, 0x5000), (0xFE00, 0x5400), (0xFE00, 0x5800), (0xFE00, 0x5C00), (0xFE00, 0x5200),
   (0xFE00, 0x5600), (0xFE00, 0x5A00), (0xFE00, 0x5E00), (0xF800, 0x6000), (0xF800, 0x6800), (0xF800, 0x7000),
   (0xF800, 0x7800), (0xF800, 0x8000), (0xF800, 0x8800), (0xF800, 0x9000), (0xF800, 0x9800), (0xF800, 0xA000),
   (0xF800, 0xA800), (0xFF80, 0xB000), (0xFF80, 0xB080), (0xFF00, 0xB100), (0xFE00, 0xB200), (0xFE00, 0xB400),
   (0xFE00, 0xB600), (0xFC00, 0xB800), (0xFE00, 0xBC00), (0xFE00, 0xBE00), (0xF800, 0xC000), (0xF800, 0xC800),
   (0xF000, 0xD000), (0xF800, 0xE000)]

def compactTable2 : List (BitVec 16 × BitVec 16) :=
  [(0xF800, 0xE800), (0xF800, 0xF000), (0xF800, 0xF800)]

/-- (mask, match) of the compact rows, in the table's order. -/
def compactTable : List (BitVec 16 × BitVec 16) := compactTable0 ++ compactTable1 ++ compactTable2

def fullTable0 : List (BitVec 32 × BitVec 32) :=
  [(0x0FE000F0, 0x00000090), (0x0FE000F0, 0x00200090), (0x0FE000F0, 0x00800090), (0x0FE000F0, 0x00A00090),
   (0x0FE000F0, 0x00C00090), (0x0FE000F0, 0x00E00090), (0x0FF000F0, 0x01000090), (0x0FF000F0, 0x01400090),
   (0x0FC000F0, 0x00400090), (0x0F8000F0, 0x01800090), (0x0FB000F0, 0x01100090), (0x0FB000F0, 0x01200090),
   (0x0FB000F0, 0x01300090), (0x0E1000F0, 0x000000B0), (0x0E1000F0, 0x000000D0), (0x0E1000F0, 0x000000F0),
   (0x0E1000F0, 0x001000B0), (0x0E1000F0, 0x001000D0), (0x0E1000F0, 0x001000F0), (0x0FB000F0, 0x01000000),
   (0x0FB000F0, 0x01200000), (0x0FF000F0, 0x01200010), (0x0FF000F0, 0x01600010), (0x0FF000F0, 0x01200030),
   (0x0FF00090, 0x01000080), (0x0FF000B0, 0x01200080), (0x0FF000B0, 0x012000A0), (0x0FF00090, 0x01400080),
   (0x0FF00090, 0x01600080), (0x0FF000F0, 0x01000010), (0x0FF000F0, 0x01400010), (0x0FF000F0, 0x01000030)]

def fullTable1 : List (BitVec 32 × BitVec 32) :=
  [(0x0FF000F0, 0x01400030), (0x0FF000F0, 0x01600030), (0x0F9000F0, 0x01000020), (0x0F9000F0, 0x01000040),
   (0x0F9000F0, 0x01000050), (0x0F9000F0, 0x01000060), (0x0F9000F0, 0x01000070), (0x0FE00010, 0x00000000),
   (0x0FE00090, 0x00000010), (0x0FE00010, 0x00200000), (0x0FE00090, 0x00200010), (0x0FE00010, 0x00400000),
   (0x0FE00090, 0x00400010), (0x0FE00010, 0x00600000), (0x0FE00090, 0x00600010), (0x0FE00010, 0x00800000),
   (0x0FE00090, 0x00800010), (0x0FE00010, 0x00A00000), (0x0FE00090, 0x00A00010), (0x0FE00010, 0x00C00000),
   (0x0FE00090, 0x00C00010), (0x0FE00010, 0x00E00000), (0x0FE00090, 0x00E00010), (0x0FF00010, 0x01100000),
   (0x0FF00090, 0x01100010), (0x0FF00010, 0x01300000), (0x0FF00090, 0x01300010), (0x0FF00010, 0x01500000),
   (0x0FF00090, 0x01500010), (0x0FF00010, 0x01700000), (0x0FF00090, 0x01700010), (0x0FE00010, 0x01800000)]

def fullTable2 : List (BitVec 32 × BitVec 32) :=
  [(0x0FE00090, 0x01800010), (0x0FE00010, 0x01A00000), (0x0FE00090, 0x01A00010), (0x0FE00010, 0x01C00000),
   (0x0FE00090, 0x01C00010), (0x0FE00010, 0x01E00000), (0x0FE00090, 0x01E00010), (0x0FB00000, 0x03200000),
   (0x0FB00000, 0x03000000), (0x0FE00000, 0x02000000), (0x0FE00000, 0x02200000), (0x0FE00000, 0x02400000),
   (0x0FE00000, 0x02600000), (0x0FE00000, 0x02800000), (0x0FE00000, 0x02A00000), (0x0FE00000, 0x02C00000),
   (0x0FE00000, 0x02E00000), (0x0FF00000, 0x03100000), (0x0FF00000, 0x03300000), (0x0FF00000, 0x03500000),
   (0x0FF00000, 0x03700000), (0x0FE00000, 0x03800000), (0x0FE00000, 0x03A00000), (0x0FE00000, 0x03C00000),
   (0x0FE00000, 0x03E00000), (0x0F500000, 0x05000000), (0x0F700000, 0x04000000), (0x0F700000, 0x04200000),
   (0x0F500000, 0x05100000), (0x0F700000, 0x04100000), (0x0F700000, 0x04300000), (0x0F500000, 0x05400000)]

def fullTable3 : List (BitVec 32 × BitVec 32) :=
  [(0x0F700000, 0x04400000), (0x0F700000, 0x04600000), (0x0F500000, 0x05500000), (0x0F700000, 0x04500000),
   (0x0F700000, 0x04700000), (0x0F500010, 0x07000000), (0x0F700010, 0x06000000), (0x0F700010, 0x06200000),
   (0x0F500010, 0x07100000), (0x0F700010, 0x06100000), (0x0F700010, 0x06300000), (0x0F500010, 0x07400000),
   (0x0F700010, 0x06400000), (0x0F700010, 0x06600000), (0x0F500010, 0x07500000), (0x0F700010, 0x06500000),
   (0x0F700010, 0x06700000), (0x0E000010, 0x06000010), (0x0F900000, 0x08000000), (0x0F900000, 0x08800000),
   (0x0F900000, 0x09000000), (0x0F900000, 0x09800000), (0x0F900000, 0x08100000), (0x0F900000, 0x08900000),
   (0x0F900000, 0x09100000), (0x0F900000, 0x09900000), (0x0F000000, 0x0A000000), (0x0F000000, 0x0B000000),
   (0x0C000000, 0x0C000000)]

/-- (mask, match) of the full rows, in the table's order. -/
def fullTable : List (BitVec 32 × BitVec 32) := fullTable0 ++ fullTable1 ++ fullTable2 ++ fullTable3

/-- The place of an instruction's row: in `compactTable` for a compact instruction, in `fullTable` for a full one. -/
def Instr.tableRow : Instr → Nat
  | .tLslImm .. => 0
  | .tLsrImm .. => 1
  | .tAsrImm .. => 2
  | .tAddReg .. => 3
  | .tSubReg .. => 4
  | .tAddImm3 .. => 5
  | .tSubImm3 .. => 6
  | .tMovImm .. => 7
  | .tCmpImm .. => 8
  | .tAddImm8 .. => 9
  | .tSubImm8 .. => 10
  | .tAnd .. => 11
  | .tEor .. => 12
  | .tLslReg .. => 13
  | .tLsrReg .. => 14
  | .tAsrReg .. => 15
  | .tAdc .. => 16
  | .tSbc .. => 17
  | .tRorReg .. => 18
  | .tTst .. => 19
  | .tNeg .. => 20
  | .tCmpReg .. => 21
  | .tCmn .. => 22
  | .tOrr .. => 23
  | .tMul .. => 24
  | .tBic .. => 25
  | .tMvn .. => 26
  | .tAddHi .. => 27
  | .tCmpHi .. => 28
  | .tMovHi .. => 29
  | .tBx .. => 30
  | .tBlx .. => 31
  | .tLdrPc .. => 32
  | .tStrReg .. => 33
  | .tStrbReg .. => 34
  | .tLdrReg .. => 35
  | .tLdrbReg .. => 36
  | .tStrhReg .. => 37
  | .tLdrsbReg .. => 38
  | .tLdrhReg .. => 39
  | .tLdrshReg .. => 40
  | .tStrImm .. => 41
  | .tLdrImm .. => 42
  | .tStrbImm .. => 43
  | .tLdrbImm .. => 44
  | .tStrhImm .. => 45
  | .tLdrhImm .. => 46
  | .tStrSp .. => 47
  | .tLdrSp .. => 48
  | .tAddPc .. => 49
  | .tAddSp .. => 50
  | .tIncSp .. => 51
  | .tDecSp .. => 52
  | .tUndef12a => 53
  | .tUndef12b => 54
  | .tPush .. => 55
  | .tUndef13a => 56
  | .tUndef13b => 57
  | .tPop .. => 58
  | .tUndef13c => 59
  | .tStmia .. => 60
  | .tLdmia .. => 61
  | .tBCond .. => 62
  | .tB .. => 63
  | .tUndef17 => 64
  | .tBlFirst .. => 65
  | .tBlSecond .. => 66
  | .aMul .. => 0
  | .aMla .. => 1
  | .aUmull .. => 2
  | .aUmlal .. => 3
  | .aSmull .. => 4
  | .aSmlal .. => 5
  | .aSwp .. => 6
  | .aSwpb .. => 7
  | .aUndefMul001 .. => 8
  | .aUndefMul11 .. => 9
  | .aUndefSwap01 .. => 10
  | .aUndefSwap10 .. => 11
  | .aUndefSwap11 .. => 12
  | .aStrh .. => 13
  | .aUndefLdrd .. => 14
  | .aUndefStrd .. => 15
  | .aLdrh .. => 16
  | .aLdrsb .. => 17
  | .aLdrsh .. => 18
  | .aMrs .. => 19
  | .aMsrReg .. => 20
  | .aBx .. => 21
  | .aClz .. => 22
  | .aBlxReg .. => 23
  | .aSmlaxy .. => 24
  | .aSmlawy .. => 25
  | .aSmulwy .. => 26
  | .aSmlalxy .. => 27
  | .aSmulxy .. => 28
  | .aUndefMisc0001op00 .. => 29
  | .aUndefMisc0001op10 .. => 30
  | .aUndefMisc0011op00 .. => 31
  | .aUndefMisc0011op10 .. => 32
  | .aUndefMisc0011op11 .. => 33
  | .aUndefMisc0010 .. => 34
  | .aUndefMisc0100 .. => 35
  | .aUndefMisc0101 .. => 36
  | .aUndefMisc0110 .. => 37
  | .aUndefMisc0111 .. => 38
  | .aAndShImm .. => 39
  | .aAndShReg .. => 40
  | .aEorShImm .. => 41
  | .aEorShReg .. => 42
  | .aSubShImm .. => 43
  | .aSubShReg .. => 44
  | .aRsbShImm .. => 45
  | .aRsbShReg .. => 46
  | .aAddShImm .. => 47
  | .aAddShReg .. => 48
  | .aAdcShImm .. => 49
  | .aAdcShReg .. => 50
  | .aSbcShImm .. => 51
  | .aSbcShReg .. => 52
  | .aRscShImm .. => 53
  | .aRscShReg .. => 54
  | .aTstShImm .. => 55
  | .aTstShReg .. => 56
  | .aTeqShImm .. => 57
  | .aTeqShReg .. => 58
  | .aCmpShImm .. => 59
  | .aCmpShReg .. => 60
  | .aCmnShImm .. => 61
  | .aCmnShReg .. => 62
  | .aOrrShImm .. => 63
  | .aOrrShReg .. => 64
  | .aMovShImm .. => 65
  | .aMovShReg .. => 66
  | .aBicShImm .. => 67
  | .aBicShReg .. => 68
  | .aMvnShImm .. => 69
  | .aMvnShReg .. => 70
  | .aMsrImm .. => 71
  | .aUndefImm .. => 72
  | .aAndImm .. => 73
  | .aEorImm .. => 74
  | .aSubImm .. => 75
  | .aRsbImm .. => 76
  | .aAddImm .. => 77
  | .aAdcImm .. => 78
  | .aSbcImm .. => 79
  | .aRscImm .. => 80
  | .aTstImm .. => 81
  | .aTeqImm .. => 82
  | .aCmpImm .. => 83
  | .aCmnImm .. => 84
  | .aOrrImm .. => 85
  | .aMovImm .. => 86
  | .aBicImm .. => 87
  | .aMvnImm .. => 88
  | .aStrPreImm .. => 89
  | .aStrPostImm .. => 90
  | .aStrtImm .. => 91
  | .aLdrPreImm .. => 92
  | .aLdrPostImm .. => 93
  | .aLdrtImm .. => 94
  | .aStrbPreImm .. => 95
  | .aStrbPostImm .. => 96
  | .aStrbtImm .. => 97
  | .aLdrbPreImm .. => 98
  | .aLdrbPostImm .. => 99
  | .aLdrbtImm .. => 100
  | .aStrPreReg .. => 101
  | .aStrPostReg .. => 102
  | .aStrtReg .. => 103
  | .aLdrPreReg .. => 104
  | .aLdrPostReg .. => 105
  | .aLdrtReg .. => 106
  | .aStrbPreReg .. => 107
  | .aStrbPostReg .. => 108
  | .aStrbtReg .. => 109
  | .aLdrbPreReg .. => 110
  | .aLdrbPostReg .. => 111
  | .aLdrbtReg .. => 112
  | .aUndefRegOff .. => 113
  | .aStmda .. => 114
  | .aStmia .. => 115
  | .aStmdb .. => 116
  | .aStmib .. => 117
  | .aLdmda .. => 118
  | .aLdmia .. => 119
  | .aLdmdb .. => 120
  | .aLdmib .. => 121
  | .aB .. => 122
  | .aBl .. => 123
  | .aUndefCop .. => 124

/-- The condition field of a full instruction; a compact instruction has no condition gate (30_encoding R132). -/
def Instr.gate : Instr → Option Cond
  | .tLslImm .. | .tLsrImm .. | .tAsrImm .. | .tAddReg .. | .tSubReg .. | .tAddImm3 .. | .tSubImm3 ..
  | .tMovImm .. | .tCmpImm .. | .tAddImm8 .. | .tSubImm8 .. | .tAnd .. | .tEor .. | .tLslReg .. | .tLsrReg ..
  | .tAsrReg .. | .tAdc .. | .tSbc .. | .tRorReg .. | .tTst .. | .tNeg .. | .tCmpReg .. | .tCmn .. | .tOrr ..
  | .tMul .. | .tBic .. | .tMvn .. | .tAddHi .. | .tCmpHi .. | .tMovHi .. | .tBx .. | .tBlx .. | .tLdrPc ..
  | .tStrReg .. | .tStrbReg .. | .tLdrReg .. | .tLdrbReg .. | .tStrhReg .. | .tLdrsbReg .. | .tLdrhReg ..
  | .tLdrshReg .. | .tStrImm .. | .tLdrImm .. | .tStrbImm .. | .tLdrbImm .. | .tStrhImm .. | .tLdrhImm ..
  | .tStrSp .. | .tLdrSp .. | .tAddPc .. | .tAddSp .. | .tIncSp .. | .tDecSp .. | .tUndef12a | .tUndef12b
  | .tPush .. | .tUndef13a | .tUndef13b | .tPop .. | .tUndef13c | .tStmia .. | .tLdmia .. | .tBCond ..
  | .tB .. | .tUndef17 | .tBlFirst .. | .tBlSecond .. => none
  | .aMul c .. => some c
  | .aMla c .. => some c
  | .aUmull c .. => some c
  | .aUmlal c .. => some c
  | .aSmull c .. => some c
  | .aSmlal c .. => some c
  | .aSwp c .. => some c
  | .aSwpb c .. => some c
  | .aUndefMul001 c => some c
  | .aUndefMul11 c => some c
  | .aUndefSwap01 c => some c
  | .aUndefSwap10 c => some c
  | .aUndefSwap11 c => some c
  | .aStrh c .. => some c
  | .aUndefLdrd c => some c
  | .aUndefStrd c => some c
  | .aLdrh c .. => some c
  | .aLdrsb c .. => some c
  | .aLdrsh c .. => some c
  | .aMrs c .. => some c
  | .aMsrReg c .. => some c
  | .aBx c .. => some c
  | .aClz c .. => some c
  | .aBlxReg c .. => some c
  | .aSmlaxy c .. => some c
  | .aSmlawy c .. => some c
  | .aSmulwy c .. => some c
  | .aSmlalxy c .. => some c
  | .aSmulxy c .. => some c
  | .aUndefMisc0001op00 c => some c
  | .aUndefMisc0001op10 c => some c
  | .aUndefMisc0011op00 c => some c
  | .aUndefMisc0011op10 c => some c
  | .aUndefMisc0011op11 c => some c
  | .aUndefMisc0010 c => some c
  | .aUndefMisc0100 c => some c
  | .aUndefMisc0101 c => some c
  | .aUndefMisc0110 c => some c
  | .aUndefMisc0111 c => some c
  | .aAndShImm c .. => some c
  | .aAndShReg c .. => some c
  | .aEorShImm c .. => some c
  | .aEorShReg c .. => some c
  | .aSubShImm c .. => some c
  | .aSubShReg c .. => some c
  | .aRsbShImm c .. => some c
  | .aRsbShReg c .. => some c
  | .aAddShImm c .. => some c
  | .aAddShReg c .. => some c
  | .aAdcShImm c .. => some c
  | .aAdcShReg c .. => some c
  | .aSbcShImm c .. => some c
  | .aSbcShReg c .. => some c
  | .aRscShImm c .. => some c
  | .aRscShReg c .. => some c
  | .aTstShImm c .. => some c
  | .aTstShReg c .. => some c
  | .aTeqShImm c .. => some c
  | .aTeqShReg c .. => some c
  | .aCmpShImm c .. => some c
  | .aCmpShReg c .. => some c
  | .aCmnShImm c .. => some c
  | .aCmnShReg c .. => some c
  | .aOrrShImm c .. => some c
  | .aOrrShReg c .. => some c
  | .aMovShImm c .. => some c
  | .aMovShReg c .. => some c
  | .aBicShImm c .. => some c
  | .aBicShReg c .. => some c
  | .aMvnShImm c .. => some c
  | .aMvnShReg c .. => some c
  | .aMsrImm c .. => some c
  | .aUndefImm c => some c
  | .aAndImm c .. => some c
  | .aEorImm c .. => some c
  | .aSubImm c .. => some c
  | .aRsbImm c .. => some c
  | .aAddImm c .. => some c
  | .aAdcImm c .. => some c
  | .aSbcImm c .. => some c
  | .aRscImm c .. => some c
  | .aTstImm c .. => some c
  | .aTeqImm c .. => some c
  | .aCmpImm c .. => some c
  | .aCmnImm c .. => some c
  | .aOrrImm c .. => some c
  | .aMovImm c .. => some c
  | .aBicImm c .. => some c
  | .aMvnImm c .. => some c
  | .aStrPreImm c .. => some c
  | .aStrPostImm c .. => some c
  | .aStrtImm c .. => some c
  | .aLdrPreImm c .. => some c
  | .aLdrPostImm c .. => some c
  | .aLdrtImm c .. => some c
  | .aStrbPreImm c .. => some c
  | .aStrbPostImm c .. => some c
  | .aStrbtImm c .. => some c
  | .aLdrbPreImm c .. => some c
  | .aLdrbPostImm c .. => some c
  | .aLdrbtImm c .. => some c
  | .aStrPreReg c .. => some c
  | .aStrPostReg c .. => some c
  | .aStrtReg c .. => some c
  | .aLdrPreReg c .. => some c
  | .aLdrPostReg c .. => some c
  | .aLdrtReg c .. => some c
  | .aStrbPreReg c .. => some c
  | .aStrbPostReg c .. => some c
  | .aStrbtReg c .. => some c
  | .aLdrbPreReg c .. => some c
  | .aLdrbPostReg c .. => some c
  | .aLdrbtReg c .. => some c
  | .aUndefRegOff c => some c
  | .aStmda c .. => some c
  | .aStmia c .. => some c
  | .aStmdb c .. => some c
  | .aStmib c .. => some c
  | .aLdmda c .. => some c
  | .aLdmia c .. => some c
  | .aLdmdb c .. => some c
  | .aLdmib c .. => some c
  | .aB c .. => some c
  | .aBl c .. => some c
  | .aUndefCop c => some c

end Sys2Proof
end

