-- ==== Sys2Proof/Config.lean ====
section
/-! DEFINITION. What the host fixes before the first instruction and the spec leaves to it: the launch values this model
takes at `State.reset` (log entries 1 to 5). The parameters themselves (region lengths, monitor sets, DMA bit positions)
are fields of State, so that statements over all states hold for all their values. No value of this hardware is open
after an instruction, so there is no free value here. -/

namespace Sys2Proof

/-- What a byte nothing has written reads as. DESIGN CHOICE (unsafe, log entry 4): the region bytes are the host's
(20_memory R81); the test vectors' convention "Memory starts all zero" is taken. -/
def Config.unlistedByte : Byte := 0

/-- The length of every region at reset. DESIGN CHOICE (unsafe, log entry 3): Len[0..15] are host parameters
(00_scope R10); 2^24 is the length at which every 24-bit offset names a byte of its own. -/
def Config.launchLen : Nat := 0x1000000

/-- SP of the preset and at reset. DESIGN CHOICE (unsafe, log entry 1): the preset GBA_CART_LAUNCH (70_reset R582). -/
def Config.launchSp : Word := 0x03007F00

/-- x[15] as the preset GBA_CART_LAUNCH prints it (70_reset R582). -/
def Config.presetPc : Word := 0x08000008

/-- The entry of that preset (70_reset R582), where `State.reset` is entered. DESIGN CHOICE (unsafe, log entry 2). -/
def Config.launchEntry : Word := 0x08000000

/-- PSR of the preset and at reset. DESIGN CHOICE (unsafe, log entry 1): full mode, flags 0 (70_reset R582). -/
def Config.launchPsr : Word := 0x0000001F

/-- The spec's default of DMA_ENABLE_BIT (00_scope R10, 92 D34). -/
def Config.dmaEnableBit : Fin 16 := 7

/-- The spec's default of DMA_WIDTH_BIT (00_scope R10, 92 D35). -/
def Config.dmaWidthBit : Fin 16 := 10

end Sys2Proof
end

