-- ==== Sys2Proof/Machine/State.lean ====
section
/-! DEFINITION. The machine's state as plain data (10_state, 20_memory R80 to R83, 00_scope R10), the reasons a step can
stop, and the state at reset. -/

namespace Sys2Proof.Machine

/-- The access sizes: 1, 2 and 4 bytes (20_memory R91). -/
inductive Size
  | byte | half | word
  deriving DecidableEq, Repr

/-- The number of bytes of an access. -/
def Size.bytes : Size → Nat
  | .byte => 1
  | .half => 2
  | .word => 4

/-- One of the 16 byte buffers M_r[0 .. Len[r]-1] (20_memory R81): its length and its bytes, as offset and byte pairs in
canonical form (offsets strictly rising and below the length, no byte equal to what an unlisted offset reads as). -/
structure Region where
  len : Nat
  cells : List Host.Cell
  deriving DecidableEq, Repr

/-- The 16 regions (20_memory R80). -/
abbrev Memory := Vector Region 16

/-- Canonical cells: offsets at least `low`, strictly rising and below `len`, no unlisted byte. -/
def cellsWf (len : Nat) : Nat → List Host.Cell → Bool
  | _, [] => true
  | low, (k, b) :: rest => decide (low ≤ k) && decide (k < len) && b != Config.unlistedByte && cellsWf len (k + 1) rest

/-- A region in canonical form. -/
def Region.wf (r : Region) : Bool := cellsWf r.len 0 r.cells

/-- The memory is in its canonical form. -/
abbrev Memory.wf (m : Memory) : Prop := ∀ r : Fin 16, (m.get r).wf = true

/-- The monitor output: none, or the event of the last monitored access of the instruction (10_state R50; 92 D39). -/
inductive BreakState
  | none
  | readHit (addr : Word) (size : Size) (value : Word)
  | watchHit (addr : Word) (size : Size) (old new : Word)
  deriving DecidableEq, Repr

/-- The host's parameters the core reads or is given and never changes (00_scope R10, 10_state R51): the monitored
address sets, the conditional break expressions (text no rule reads, R98), and the two DMA bit positions (20_memory R101). -/
structure HostParams where
  readSet : List Word
  watchSet : List Word
  breakSet : List Word
  condBreaks : List String
  dmaEnableBit : Fin 16
  dmaWidthBit : Fin 16
  deriving DecidableEq, Repr

/-- The whole state. `regs` holds slots 0 to 15 of the register file (slot 15 is the PC and holds the next instruction's
address plus its width between calls, 10_state R39) and `psr` is slot 16 (R30, R34 to R37). -/
structure State where
  regs : Vector Word 16
  psr : Word
  mem : Memory
  breakState : BreakState
  host : HostParams
  deriving DecidableEq, Repr

/-- HostDefect, the only way a step ends without a successor (60_exceptions R552). Each carries the state the defect
leaves (92 D55). All are safe: the spec gives these states no successor. -/
inductive Fault
  /-- Raised by `execute` when the mode argument disagrees with PSR.T (10_state R47). Safe. -/
  | modeMismatch (s : State)
  /-- Raised by `execute` in compact mode for a value of 0x10000 or more (10_state R48). Safe. -/
  | wideCompact (s : State)
  /-- Raised by an access to region `r` when it is shorter than the access (20_memory R82). Safe. -/
  | regionShort (s : State) (r : Fin 16)
  /-- Raised by MemCopy when a region is shorter than the copy (20_memory R93). Safe. -/
  | copyTooLong (s : State)
  deriving DecidableEq, Repr

/-- Why an instruction is given no meaning. Every instruction of this hardware has one, so no step answers a refusal. -/
inductive Refusal
  /-- Raised by an arm of `exec` for an instruction without a meaning (none is left). Safe. -/
  | notModelled (mnemonic : String)
  deriving DecidableEq, Repr

/-- What a meaning answers. -/
abbrev Result := Host.Outcome State Fault Refusal

/-- The launch preset GBA_CART_LAUNCH with its registers and PSR as the spec prints them (70_reset R582). BreakState none is the
spec's (10_state R56); memory and the host's parameters, which the preset leaves open, are chosen as log entries 3 to 5 say. -/
def State.gbaCartLaunch : State where
  regs := #v[0, 0, 0, 0, 0, 0, 0, 0, 0, 0, 0, 0, 0, Config.launchSp, 0, Config.presetPc]
  psr := Config.launchPsr
  mem := Vector.replicate 16 ⟨Config.launchLen, []⟩
  breakState := .none
  host := ⟨[], [], [], [], Config.dmaEnableBit, Config.dmaWidthBit⟩

/-- The host points the core at an entry: x[15] is the entry plus the width of the mode PSR.T names (70_reset R581, R583;
10_state R39). -/
def State.enteredAt (s : State) (entry : Word) : State :=
  { s with regs := s.regs.set 15 (entry + if s.psr.getLsbD 5 then 2 else 4) }

/-- The launch state of this model. The core has no reset (70_reset R580) and its launch values are the host's: it is the preset,
entered at the preset's entry (log entries 1 to 5). -/
def State.reset : State := State.gbaCartLaunch.enteredAt Config.launchEntry

end Sys2Proof.Machine
end

