-- ==== Sys2Proof/Machine/Ops.lean ====
section
/-! DEFINITION. The named operations over registers, PSR bits, memory, monitors and the DMA (10_state, 20_memory).
TAKING AN EXCEPTION: this hardware has no exception entry and no return from one (60_exceptions R550, R554, R555); what
stands in its place is `undefinedFallback` (R551) and the HostDefect faults (R552). -/

namespace Sys2Proof.Machine

/-! ## Registers and the program counter -/

/-- x[r], slots 0 to 15. Slot 15 reads PCread, what the advance of 30_encoding R131 left there (10_state R41). -/
def State.x (s : State) (r : Reg) : Word := s.regs.get r

/-- A plain slot write. -/
def State.setX (s : State) (r : Reg) (v : Word) : State := { s with regs := s.regs.set r v }

/-- Bit `k` of a word made `b`, every other bit kept. -/
def setBit (w : Word) (k : Nat) (b : Bool) : Word :=
  if b then w ||| (1#32 <<< k) else w &&& ~~~(1#32 <<< k)

/-- PSR.T, bit 5: the compact encoding is executing (10_state R35). -/
def State.flagT (s : State) : Bool := s.psr.getLsbD 5

/-- The mode switch of BX and BLX: PSR.T and nothing else of PSR. -/
def State.setT (s : State) (b : Bool) : State := { s with psr := setBit s.psr 5 b }

/-- The width w of an instruction in the mode the core is in (00_scope R16). -/
def State.width (s : State) : Word := if s.flagT then 2 else 4

/-- The pc-write primitive `pc <- t` (10_state R43): aligned for the mode the core is in after the instruction's PSR writes,
plus that mode's width. -/
def State.writePc (s : State) (t : Word) : State :=
  if s.flagT then s.setX Reg.pc ((t &&& 0xFFFFFFFE) + 2) else s.setX Reg.pc ((t &&& 0xFFFFFFFC) + 4)

/-- A register write by an instruction: slot 15 goes through the pc-write primitive (10_state R44). -/
def State.writeReg (s : State) (r : Reg) (v : Word) : State :=
  if r = Reg.pc then s.writePc v else s.setX r v

/-- The PC advance of `execute` (30_encoding R131), modulo 2^32 (10_state R45). -/
def State.advance (s : State) : State := s.setX Reg.pc (s.x Reg.pc + s.width)

/-- The BreakState reset at the start of every `execute` (10_state R50). -/
def State.clearBreak (s : State) : State := { s with breakState := .none }

/-- The address the host fetches the next instruction from: x[15] - w (10_state R40). -/
def State.fetchAddr (s : State) : Word := s.x Reg.pc - s.width

/-- The undefined fallback handler: nothing beyond what `execute` did before dispatch (60_exceptions R551). -/
def undefinedFallback (s : State) : State := s

/-! ## Outcomes -/

/-- An operation that can raise HostDefect, as the outcome of an instruction. -/
def outcome : Except Fault State → Result
  | .ok s => .next s
  | .error f => .fault f

/-! ## Region bytes -/

/-- The region an address selects: bits 27:24 (20_memory R80). -/
def regionIndex (a : Word) : Fin 16 := (bits a 24 4).toFin

def State.region (s : State) (r : Fin 16) : Region := s.mem.get r

def State.setRegion (s : State) (r : Fin 16) (m : Region) : State := { s with mem := s.mem.set r m }

/-- The byte at offset `o`; an unlisted offset reads `Config.unlistedByte`. -/
def lookupCell (o : Nat) : List Host.Cell → Byte
  | [] => Config.unlistedByte
  | (k, b) :: rest => if k = o then b else lookupCell o rest

/-- The cells with offset `o` made `b`, in canonical form. -/
def storeCell (o : Nat) (b : Byte) : List Host.Cell → List Host.Cell
  | [] => if b = Config.unlistedByte then [] else [(o, b)]
  | (k, c) :: rest =>
    if o < k then (if b = Config.unlistedByte then (k, c) :: rest else (o, b) :: (k, c) :: rest)
    else if o = k then (if b = Config.unlistedByte then rest else (o, b) :: rest)
    else (k, c) :: storeCell o b rest

def Region.get (m : Region) (o : Nat) : Byte := lookupCell o m.cells

def Region.set (m : Region) (o : Nat) (b : Byte) : Region := { m with cells := storeCell o b m.cells }

/-- The `n` bytes from offset `o` on, wrapping at the region's end (20_memory R84). -/
def Region.readSpan (m : Region) (o : Nat) : Nat → List Byte
  | 0 => []
  | n + 1 => m.get (o % m.len) :: m.readSpan (o + 1) n

/-- The bytes written from offset `o` on, wrapping at the region's end (20_memory R84). -/
def Region.writeSpan (m : Region) (o : Nat) : List Byte → Region
  | [] => m
  | b :: bs => (m.set (o % m.len) b).writeSpan (o + 1) bs

/-- `off(addr)`: the whole 32-bit address modulo the length of its region (20_memory R83). -/
def State.offset (s : State) (a : Word) : Nat := a.toNat % (s.region (regionIndex a)).len

/-- The byte of memory an address selects. -/
def State.byteAt (s : State) (a : Word) : Byte := (s.region (regionIndex a)).get (s.offset a)

/-! ## Access primitives -/

/-- `v[8n-1:0]` as a word. -/
def Size.low (z : Size) (v : Word) : Word :=
  match z with
  | .byte => (v.setWidth 8).setWidth 32
  | .half => (v.setWidth 16).setWidth 32
  | .word => v

/-- `sext_{8n}` (00_scope R14). -/
def Size.signed (z : Size) (v : Word) : Word :=
  match z with
  | .byte => (v.setWidth 8).signExtend 32
  | .half => (v.setWidth 16).signExtend 32
  | .word => v

/-- `RawRead(addr, n)`: the little-endian value, no monitor (20_memory R82, R85, R86). -/
def State.rawRead (s : State) (a : Word) (z : Size) : Except Fault Word :=
  if (s.region (regionIndex a)).len < z.bytes then .error (.regionShort s (regionIndex a))
  else .ok (BitVec.ofNat 32 (ofBytesLE ((s.region (regionIndex a)).readSpan (s.offset a) z.bytes)))

/-- `RawWrite(addr, n, v)`: bits 8n-1:0 of v, no monitor, no DMA (20_memory R82, R87). -/
def State.rawWrite (s : State) (a : Word) (z : Size) (v : Word) : Except Fault State :=
  if (s.region (regionIndex a)).len < z.bytes then .error (.regionShort s (regionIndex a))
  else .ok (s.setRegion (regionIndex a)
    ((s.region (regionIndex a)).writeSpan (s.offset a) (toBytesLE z.bytes v.toNat)))

/-- The read-point test, on the exact start address (20_memory R95). -/
def State.noteRead (s : State) (a : Word) (z : Size) (v : Word) : State :=
  if a ∈ s.host.readSet then { s with breakState := .readHit a z v } else s

/-- The watch-point test, on the exact start address (20_memory R96). -/
def State.noteWrite (s : State) (a : Word) (z : Size) (old new : Word) : State :=
  if a ∈ s.host.watchSet then { s with breakState := .watchHit a z old new } else s

/-- `MemRead(addr, n)` (20_memory R88). -/
def State.memRead (s : State) (a : Word) (z : Size) : Except Fault (Word × State) :=
  match s.rawRead a z with
  | .error f => .error f
  | .ok v => .ok (v, s.noteRead a z v)

/-- `MemReadS(addr, n)`: the event records the unsigned value (20_memory R89). -/
def State.memReadS (s : State) (a : Word) (z : Size) : Except Fault (Word × State) :=
  match s.memRead a z with
  | .error f => .error f
  | .ok (v, s') => .ok (z.signed v, s')

/-- `MemCopy(src, dst, n)`: all reads, then all writes; no monitor, no DMA trigger (20_memory R93, R94). -/
def State.memCopy (s : State) (src dst : Word) (n : Nat) : Except Fault State :=
  if n = 0 then .ok s
  else if (s.region (regionIndex src)).len < n ∨ (s.region (regionIndex dst)).len < n then .error (.copyTooLong s)
  else
    let b := (s.region (regionIndex src)).readSpan (s.offset src) n
    .ok (s.setRegion (regionIndex dst) ((s.region (regionIndex dst)).writeSpan (s.offset dst) b))

/-! ## The DMA trigger (20_memory R100 to R106) -/

/-- SAD, the DMA source address register (R100; 92 D33). -/
def dmaSad : Word := 0x040000D4

/-- DAD, the DMA destination address register (R100; 92 D33). -/
def dmaDad : Word := 0x040000D8

/-- CNT, the DMA count register (R100; 92 D33). -/
def dmaCnt : Word := 0x040000DC

/-- CTRL, the DMA control register (R100). -/
def dmaCtrl : Word := 0x040000DE

/-- EA, the enable byte's address (R101). -/
def State.enableAddr (s : State) : Word := dmaCtrl + BitVec.ofNat 32 (s.host.dmaEnableBit.val / 8)

/-- eb, the enable bit's place in that byte (R101). -/
def State.enableBit (s : State) : Nat := s.host.dmaEnableBit.val % 8

/-- Whether an access to `a` of size `z` has the enable byte among its bytes (R102). -/
def State.touchesEnable (s : State) (a : Word) (z : Size) : Bool :=
  regionIndex a == 4 &&
    (List.range z.bytes).any fun i =>
      (s.offset a + i) % (s.region 4).len == s.enableAddr.toNat % (s.region 4).len

/-- The DMA transfer (R103): one copy of CNT elements of 2 or 4 bytes, then the enable bit cleared. -/
def State.dmaTransfer (s : State) : Except Fault State := do
  let src ← s.rawRead dmaSad .word
  let dst ← s.rawRead dmaDad .word
  let count ← s.rawRead dmaCnt .half
  let control ← s.rawRead dmaCtrl .half
  let size := count.toNat * (if control.getLsbD s.host.dmaWidthBit.val then 4 else 2)
  let s' ← s.memCopy src dst size
  let enable ← s'.rawRead s'.enableAddr .byte
  s'.rawWrite s'.enableAddr .byte (setBit enable s'.enableBit false)

/-- `DmaCheck(addr, n)`: the transfer runs when the write touched the enable byte and left the enable bit 1 (R102). -/
def State.dmaCheck (s : State) (a : Word) (z : Size) : Except Fault State :=
  if s.touchesEnable a z then do
    let enable ← s.rawRead s.enableAddr .byte
    if enable.getLsbD s.enableBit then s.dmaTransfer else .ok s
  else .ok s

/-- `MemWrite(addr, n, v)` (20_memory R90): the write, the watch-point event, then the DMA if triggered. -/
def State.memWrite (s : State) (a : Word) (z : Size) (v : Word) : Except Fault State := do
  let old ← s.rawRead a z
  let s1 ← s.rawWrite a z v
  (s1.noteWrite a z old (z.low v)).dmaCheck a z

end Sys2Proof.Machine
end

