-- ==== Sys2Proof/Machine/Flags.lean ====
section
/-! DEFINITION. The condition evaluator, the adder and the flag updates (40_alu_condition R200 to R207, R220, R221). -/

namespace Sys2Proof.Machine

/-- N, Z, C, V are PSR bits 31, 30, 29, 28 (10_state R34). -/
def State.flagN (s : State) : Bool := s.psr.getLsbD 31

def State.flagZ (s : State) : Bool := s.psr.getLsbD 30

def State.flagC (s : State) : Bool := s.psr.getLsbD 29

def State.flagV (s : State) : Bool := s.psr.getLsbD 28

/-- `ConditionPassed(cond)`: the 16-entry table (R200, R201). -/
def State.passes (s : State) : Cond → Bool
  | .eq => s.flagZ
  | .ne => !s.flagZ
  | .cs => s.flagC
  | .cc => !s.flagC
  | .mi => s.flagN
  | .pl => !s.flagN
  | .vs => s.flagV
  | .vc => !s.flagV
  | .hi => s.flagC && !s.flagZ
  | .ls => !s.flagC || s.flagZ
  | .ge => s.flagN == s.flagV
  | .lt => s.flagN != s.flagV
  | .gt => !s.flagZ && s.flagN == s.flagV
  | .le => s.flagZ || s.flagN != s.flagV
  | .al => true
  | .nv => false

/-- The condition gate of a full instruction (30_encoding R131): a failed condition leaves only the PC advance made before. -/
def whenPassed (c : Cond) (s : State) (out : Result) : Result := if s.passes c then out else .next s

/-- What the adder gives: the 32-bit result, the carry-out and the overflow. -/
structure AddResult where
  result : Word
  carry : Bool
  overflow : Bool
  deriving DecidableEq, Repr

/-- `AddWithCarry(a, b, cin)` (R202). -/
def addWithCarry (a b : Word) (cin : Bool) : AddResult :=
  let sum := a.toNat + b.toNat + cin.toNat
  let result := BitVec.ofNat 32 sum
  ⟨result, sum.testBit 32, a.msb == b.msb && result.msb != a.msb⟩

/-- `SetNZ(result)`: C, V and bits 27:0 kept (R205). -/
def State.setNZ (s : State) (result : Word) : State :=
  { s with psr := setBit (setBit s.psr 31 result.msb) 30 (result == 0) }

/-- `SetNZC(result, c)` (R205, R214). -/
def State.setNZC (s : State) (result : Word) (c : Bool) : State :=
  { s with psr := setBit (s.setNZ result).psr 29 c }

/-- `SetNZCV(result, c, v)`: bits 27:0 kept (R204). -/
def State.setNZCV (s : State) (r : AddResult) : State :=
  { s with psr := setBit (setBit (s.setNZ r.result).psr 29 r.carry) 28 r.overflow }

/-- `SetMulNZ32(result)`: N and Z only (R220). -/
def State.setMulNZ32 (s : State) (result : Word) : State := s.setNZ result

/-- `SetMulNZ64(hi, lo)`: N = hi[31], Z = (hi = 0 and lo = 0) (R221). -/
def State.setMulNZ64 (s : State) (hi lo : Word) : State :=
  { s with psr := setBit (setBit s.psr 31 hi.msb) 30 (hi == 0 && lo == 0) }

/-! ## The add-family operations, each one AddWithCarry call (R206) -/

def add (a b : Word) : AddResult := addWithCarry a b false

def adc (a b : Word) (c : Bool) : AddResult := addWithCarry a b c

/-- a - b (R203). -/
def sub (a b : Word) : AddResult := addWithCarry a (~~~b) true

def sbc (a b : Word) (c : Bool) : AddResult := addWithCarry a (~~~b) c

def rsb (a b : Word) : AddResult := addWithCarry b (~~~a) true

def rsc (a b : Word) (c : Bool) : AddResult := addWithCarry b (~~~a) c

def neg (b : Word) : AddResult := addWithCarry 0 (~~~b) true

end Sys2Proof.Machine
end

