-- ==== Sys2Proof/Machine/Operands.lean ====
section
/-! DEFINITION. The barrel shifter, the operand forms, the addressing modes and the transfer orders
(40_alu_condition R210 to R224; 47_arm_memory R500, R501, R515, R540; 42_thumb_memory). -/

namespace Sys2Proof.Machine

/-! ## The barrel shifter -/

/-- `ROR(v, n)` (00_scope R19). -/
def ror (v : Word) (n : Nat) : Word := (v >>> (n % 32)) ||| (v <<< (32 - n % 32))

/-- A non-zero amount: LSL, LSR and ASR clamp it to 32, ROR takes it modulo 32; the carry-out is the last bit shifted
out (R211; 90_conflicts C8). -/
def shiftNonzero (v : Word) (n : Nat) : ShiftKind → Word × Bool
  | .lsl => (v <<< min n 32, v.getLsbD (32 - min n 32))
  | .lsr => (v >>> min n 32, v.getLsbD (min n 32 - 1))
  | .asr => (v.sshiftRight (min n 32), v.getLsbD (min n 32 - 1))
  | .ror => (ror v (n % 32), (ror v (n % 32)).msb)

/-- An amount of 0, from an immediate field or a register byte alike (R212; 90_conflicts C3, C4). -/
def shiftZero (v : Word) (cin : Bool) : ShiftKind → Word × Bool
  | .lsl => (v, cin)
  | .lsr => (0, v.msb)
  | .asr => (if v.msb then 0xFFFFFFFF else 0, v.msb)
  | .ror => (setBit (v >>> 1) 31 cin, v.getLsbD 0)

/-- `Shift(v, n, kind, cin)`: the result and the carry-out (R210). -/
def shift (v : Word) (n : Nat) (kind : ShiftKind) (cin : Bool) : Word × Bool :=
  if n = 0 then shiftZero v cin kind else shiftNonzero v n kind

/-- A register-specified amount: the register's bottom byte (R213). -/
def State.amount (s : State) (r : Reg) : Nat := ((s.x r).setWidth 8).toNat

/-- The rotated immediate and its carry-out; a rotate field of 0 is no RRX (R217). -/
def rotatedImm (rot : BitVec 4) (imm8 : BitVec 8) (cin : Bool) : Word × Bool :=
  let value := ror (imm8.setWidth 32) (2 * rot.toNat)
  (value, if rot = 0 then cin else value.msb)

/-! ## Operand 2 of data processing and its carry (R218) -/

/-- A1. -/
def State.op2Imm (s : State) (rot : BitVec 4) (imm8 : BitVec 8) : Word × Bool := rotatedImm rot imm8 s.flagC

/-- A2. -/
def State.op2ShImm (s : State) (shImm : BitVec 5) (sh : ShiftKind) (rm : Reg) : Word × Bool :=
  shift (s.x rm) shImm.toNat sh s.flagC

/-- A3. Rm = 15 or Rs = 15 reads F + 8 as everywhere (44 R400). -/
def State.op2ShReg (s : State) (rs : Reg) (sh : ShiftKind) (rm : Reg) : Word × Bool :=
  shift (s.x rm) (s.amount rs) sh s.flagC

/-! ## Multiplier operands -/

/-- `half(v, top)`: the sign-extended half-word (R223). -/
def half (v : Word) (top : Bool) : Int := if top then (bits v 16 16).toInt else (bits v 0 16).toInt

/-- The number of 0 bits above the most significant 1 among bits k-1:0. -/
def leadingZeros (v : Word) : Nat → Nat
  | 0 => 0
  | k + 1 => if v.getLsbD k then 0 else 1 + leadingZeros v k

/-- `CountLeadingZeros(v)` (R224). -/
def countLeadingZeros (v : Word) : Nat := leadingZeros v 32

/-! ## Addressing of single transfers (47 R500, R515) -/

/-- The address of the access, the indexed address, and whether the base is written back. -/
structure Address where
  addr : Word
  offAddr : Word
  writeBack : Bool
  deriving DecidableEq, Repr

/-- R500: `p` pre-index, `u` up, `w` write-back; P = 0 always writes back. -/
def State.address (s : State) (p u w : Bool) (rn : Reg) (offset : Word) : Address :=
  let base := s.x rn
  let offAddr := if u then base + offset else base - offset
  ⟨if p then offAddr else base, offAddr, !p || w⟩

/-- The shifted register offset of A13; the carry is discarded (R215, R500). -/
def State.shiftedOffset (s : State) (shImm : BitVec 5) (sh : ShiftKind) (rm : Reg) : Word :=
  (shift (s.x rm) shImm.toNat sh s.flagC).1

/-- The offset of A14 (R515). -/
def State.halfOffset (s : State) : HalfOffset → Word
  | .imm off => off.setWidth 32
  | .reg rm => s.x rm

/-- Base write-back, when the addressing asks for it. -/
def State.writeBack (s : State) (m : Address) (rn : Reg) : State :=
  if m.writeBack then s.writeReg rn m.offAddr else s

/-- R501, load: read, write back, then write Rd. -/
def State.load (s : State) (m : Address) (rn rd : Reg) (z : Size) : Except Fault State := do
  let (v, s') ← s.memRead m.addr z
  .ok ((s'.writeBack m rn).writeReg rd v)

/-- R501 for a sign-extending load. -/
def State.loadSigned (s : State) (m : Address) (rn rd : Reg) (z : Size) : Except Fault State := do
  let (v, s') ← s.memReadS m.addr z
  .ok ((s'.writeBack m rn).writeReg rd v)

/-- R501, store: read Rd, write memory, then write back. -/
def State.store (s : State) (m : Address) (rn rd : Reg) (z : Size) : Except Fault State := do
  let s' ← s.memWrite m.addr z (z.low (s.x rd))
  .ok (s'.writeBack m rn)

/-! ## Compact single transfers: no write-back, low registers (42 R301) -/

def State.loadLow (s : State) (a : Word) (z : Size) (rd : LowReg) : Except Fault State := do
  let (v, s') ← s.memRead a z
  .ok (s'.setX rd.slot v)

def State.loadLowSigned (s : State) (a : Word) (z : Size) (rd : LowReg) : Except Fault State := do
  let (v, s') ← s.memReadS a z
  .ok (s'.setX rd.slot v)

def State.storeLow (s : State) (a : Word) (z : Size) (rd : LowReg) : Except Fault State :=
  s.memWrite a z (z.low (s.x rd.slot))

/-- The base of the compact PC-relative forms: PCread with bit 1 cleared (42 R300, R320). -/
def State.pcBase (s : State) : Word := s.x Reg.pc &&& 0xFFFFFFFD

/-- An unsigned byte offset as a word. -/
def offsetWord (offset : Nat) : Word := BitVec.ofNat 32 offset

/-- A signed byte offset as a word. -/
def branchOffset (offset : Int) : Word := BitVec.ofInt 32 offset

/-! ## Multi-register transfers (47 R540; 42 R325 to R331) -/

/-- The registers of a list, ascending. -/
def listUp {n : Nat} (rlist : BitVec n) : List Nat := (List.range n).filter (fun i => rlist.getLsbD i)

/-- The slots of a full list in the traversal order: ascending for up, descending for down (R540). -/
def blockOrder (up : Bool) (rlist : BitVec 16) : List Reg :=
  let asc := (listUp rlist).map (Fin.ofNat 16)
  if up then asc else asc.reverse

/-- The slots of a compact list, ascending. -/
def lowOrder (rlist : BitVec 8) : List Reg := (listUp rlist).map (Fin.ofNat 16)

/-- The address one word on in the traversal's direction. -/
def stepAddr (up : Bool) (a : Word) : Word := if up then a + 4 else a - 4

/-- Store the registers in order, indexing before (`pre`) or after each access; answers the final address. -/
def State.storeMany (s : State) (pre up : Bool) : List Reg → Word → Except Fault (Word × State)
  | [], a => .ok (a, s)
  | r :: rs, a => do
    let at' := if pre then stepAddr up a else a
    let s' ← s.memWrite at' .word (s.x r)
    s'.storeMany pre up rs (stepAddr up a)

/-- Load the registers in order, each written as it is read (slot 15 by the pc-write). -/
def State.loadMany (s : State) (pre up : Bool) : List Reg → Word → Except Fault (Word × State)
  | [], a => .ok (a, s)
  | r :: rs, a => do
    let at' := if pre then stepAddr up a else a
    let (v, s') ← s.memRead at' .word
    (s'.writeReg r v).loadMany pre up rs (stepAddr up a)

/-- STM: every store, then the write-back (R540). -/
def State.storeBlock (s : State) (pre up w : Bool) (rn : Reg) (rlist : BitVec 16) : Except Fault State := do
  let (a, s') ← s.storeMany pre up (blockOrder up rlist) (s.x rn)
  .ok (if w then s'.writeReg rn a else s')

/-- LDM: every load, then the write-back unless the base was loaded (R540). -/
def State.loadBlock (s : State) (pre up w : Bool) (rn : Reg) (rlist : BitVec 16) : Except Fault State := do
  let (a, s') ← s.loadMany pre up (blockOrder up rlist) (s.x rn)
  .ok (if w && !rlist.getLsbD rn.val then s'.writeReg rn a else s')

end Sys2Proof.Machine
end

