-- ==== Sys2Proof/Machine/ArmBlock.lean ====
section
/-! DEFINITION. The meanings of the block transfers (47_arm_memory R540 to R549). -/

namespace Sys2Proof.Machine

/-- STMDA (R543); the S bit is ignored (R549). -/
def execAStmda (c : Cond) (_sbit w : Bool) (rn : Reg) (rlist : BitVec 16) (s : State) : Result :=
  whenPassed c s (outcome (s.storeBlock false false w rn rlist))

/-- STMIA (R541); the S bit is ignored (R549). -/
def execAStmia (c : Cond) (_sbit w : Bool) (rn : Reg) (rlist : BitVec 16) (s : State) : Result :=
  whenPassed c s (outcome (s.storeBlock false true w rn rlist))

/-- STMDB (R544); the S bit is ignored (R549). -/
def execAStmdb (c : Cond) (_sbit w : Bool) (rn : Reg) (rlist : BitVec 16) (s : State) : Result :=
  whenPassed c s (outcome (s.storeBlock true false w rn rlist))

/-- STMIB (R542); the S bit is ignored (R549). -/
def execAStmib (c : Cond) (_sbit w : Bool) (rn : Reg) (rlist : BitVec 16) (s : State) : Result :=
  whenPassed c s (outcome (s.storeBlock true true w rn rlist))

/-- LDMDA (R547); the S bit is ignored (R549). -/
def execALdmda (c : Cond) (_sbit w : Bool) (rn : Reg) (rlist : BitVec 16) (s : State) : Result :=
  whenPassed c s (outcome (s.loadBlock false false w rn rlist))

/-- LDMIA (R545); the S bit is ignored (R549). -/
def execALdmia (c : Cond) (_sbit w : Bool) (rn : Reg) (rlist : BitVec 16) (s : State) : Result :=
  whenPassed c s (outcome (s.loadBlock false true w rn rlist))

/-- LDMDB (R548); the S bit is ignored (R549). -/
def execALdmdb (c : Cond) (_sbit w : Bool) (rn : Reg) (rlist : BitVec 16) (s : State) : Result :=
  whenPassed c s (outcome (s.loadBlock true false w rn rlist))

/-- LDMIB (R546); the S bit is ignored (R549). -/
def execALdmib (c : Cond) (_sbit w : Bool) (rn : Reg) (rlist : BitVec 16) (s : State) : Result :=
  whenPassed c s (outcome (s.loadBlock true true w rn rlist))

end Sys2Proof.Machine
end

