-- ==== Sys2Proof/Machine/ThumbAlu.lean ====
section
/-! DEFINITION. The meanings of the compact register and ALU operations, T1 to T5 (41_thumb_alu). -/

namespace Sys2Proof.Machine

/-! ## Shared forms -/

/-- Write a shifter result to a low register and N, Z, C from it (41 R250 to R252, R266 to R268, R271). -/
def State.shiftLow (s : State) (rd : LowReg) (r : Word × Bool) : State := (s.setX rd.slot r.1).setNZC r.1 r.2

/-- Write an adder result to a low register and N, Z, C, V from it. -/
def State.addLow (s : State) (rd : LowReg) (r : AddResult) : State := (s.setX rd.slot r.result).setNZCV r

/-- Write a logical result to a low register and N, Z from it. -/
def State.logicLow (s : State) (rd : LowReg) (r : Word) : State := (s.setX rd.slot r).setNZ r

/-- The branch-exchange: PSR.T from bit 0 of the target, then the pc-write in the new mode (41 R284, 45 R452). -/
def State.branchExchange (s : State) (t : Word) : State := (s.setT (t.getLsbD 0)).writePc t

/-! ## T1: shift by immediate -/

/-- LSL Rd, Rs, #imm5 (R250). -/
def execTLslImm (imm5 : BitVec 5) (rs rd : LowReg) (s : State) : Result :=
  .next (s.shiftLow rd (shift (s.x rs.slot) imm5.toNat .lsl s.flagC))

/-- LSR Rd, Rs, #imm5 (R251). -/
def execTLsrImm (imm5 : BitVec 5) (rs rd : LowReg) (s : State) : Result :=
  .next (s.shiftLow rd (shift (s.x rs.slot) imm5.toNat .lsr s.flagC))

/-- ASR Rd, Rs, #imm5 (R252). -/
def execTAsrImm (imm5 : BitVec 5) (rs rd : LowReg) (s : State) : Result :=
  .next (s.shiftLow rd (shift (s.x rs.slot) imm5.toNat .asr s.flagC))

/-! ## T2, T3: add, subtract, move, compare -/

/-- ADD Rd, Rs, Rn (R255). -/
def execTAddReg (rn rs rd : LowReg) (s : State) : Result := .next (s.addLow rd (add (s.x rs.slot) (s.x rn.slot)))

/-- SUB Rd, Rs, Rn (R256). -/
def execTSubReg (rn rs rd : LowReg) (s : State) : Result := .next (s.addLow rd (sub (s.x rs.slot) (s.x rn.slot)))

/-- ADD Rd, Rs, #imm3 (R258). -/
def execTAddImm3 (imm3 : BitVec 3) (rs rd : LowReg) (s : State) : Result :=
  .next (s.addLow rd (add (s.x rs.slot) (imm3.setWidth 32)))

/-- SUB Rd, Rs, #imm3 (R259). -/
def execTSubImm3 (imm3 : BitVec 3) (rs rd : LowReg) (s : State) : Result :=
  .next (s.addLow rd (sub (s.x rs.slot) (imm3.setWidth 32)))

/-- MOV Rd, #imm8 (R260). -/
def execTMovImm (rd : LowReg) (imm8 : BitVec 8) (s : State) : Result := .next (s.logicLow rd (imm8.setWidth 32))

/-- CMP Rd, #imm8; no register is written (R261). -/
def execTCmpImm (rd : LowReg) (imm8 : BitVec 8) (s : State) : Result :=
  .next (s.setNZCV (sub (s.x rd.slot) (imm8.setWidth 32)))

/-- ADD Rd, #imm8 (R262). -/
def execTAddImm8 (rd : LowReg) (imm8 : BitVec 8) (s : State) : Result :=
  .next (s.addLow rd (add (s.x rd.slot) (imm8.setWidth 32)))

/-- SUB Rd, #imm8 (R263). -/
def execTSubImm8 (rd : LowReg) (imm8 : BitVec 8) (s : State) : Result :=
  .next (s.addLow rd (sub (s.x rd.slot) (imm8.setWidth 32)))

/-! ## T4: ALU register-register operations -/

/-- AND Rd, Rs (R264). -/
def execTAnd (rs rd : LowReg) (s : State) : Result := .next (s.logicLow rd (s.x rd.slot &&& s.x rs.slot))

/-- EOR Rd, Rs (R265). -/
def execTEor (rs rd : LowReg) (s : State) : Result := .next (s.logicLow rd (s.x rd.slot ^^^ s.x rs.slot))

/-- LSL Rd, Rs (R266). -/
def execTLslReg (rs rd : LowReg) (s : State) : Result :=
  .next (s.shiftLow rd (shift (s.x rd.slot) (s.amount rs.slot) .lsl s.flagC))

/-- LSR Rd, Rs (R267). -/
def execTLsrReg (rs rd : LowReg) (s : State) : Result :=
  .next (s.shiftLow rd (shift (s.x rd.slot) (s.amount rs.slot) .lsr s.flagC))

/-- ASR Rd, Rs (R268). -/
def execTAsrReg (rs rd : LowReg) (s : State) : Result :=
  .next (s.shiftLow rd (shift (s.x rd.slot) (s.amount rs.slot) .asr s.flagC))

/-- ADC Rd, Rs (R269). -/
def execTAdc (rs rd : LowReg) (s : State) : Result := .next (s.addLow rd (adc (s.x rd.slot) (s.x rs.slot) s.flagC))

/-- SBC Rd, Rs (R270). -/
def execTSbc (rs rd : LowReg) (s : State) : Result := .next (s.addLow rd (sbc (s.x rd.slot) (s.x rs.slot) s.flagC))

/-- ROR Rd, Rs (R271). -/
def execTRorReg (rs rd : LowReg) (s : State) : Result :=
  .next (s.shiftLow rd (shift (s.x rd.slot) (s.amount rs.slot) .ror s.flagC))

/-- TST Rd, Rs (R272). -/
def execTTst (rs rd : LowReg) (s : State) : Result := .next (s.setNZ (s.x rd.slot &&& s.x rs.slot))

/-- NEG Rd, Rs (R273). -/
def execTNeg (rs rd : LowReg) (s : State) : Result := .next (s.addLow rd (neg (s.x rs.slot)))

/-- CMP Rd, Rs (R274). -/
def execTCmpReg (rs rd : LowReg) (s : State) : Result := .next (s.setNZCV (sub (s.x rd.slot) (s.x rs.slot)))

/-- CMN Rd, Rs (R275). -/
def execTCmn (rs rd : LowReg) (s : State) : Result := .next (s.setNZCV (add (s.x rd.slot) (s.x rs.slot)))

/-- ORR Rd, Rs (R276). -/
def execTOrr (rs rd : LowReg) (s : State) : Result := .next (s.logicLow rd (s.x rd.slot ||| s.x rs.slot))

/-- MUL Rd, Rs (R277). -/
def execTMul (rs rd : LowReg) (s : State) : Result :=
  .next ((s.setX rd.slot (s.x rd.slot * s.x rs.slot)).setMulNZ32 (s.x rd.slot * s.x rs.slot))

/-- BIC Rd, Rs (R278). -/
def execTBic (rs rd : LowReg) (s : State) : Result := .next (s.logicLow rd (s.x rd.slot &&& ~~~(s.x rs.slot)))

/-- MVN Rd, Rs (R279). -/
def execTMvn (rs rd : LowReg) (s : State) : Result := .next (s.logicLow rd (~~~(s.x rs.slot)))

/-! ## T5: high registers and branch-exchange -/

/-- ADD hd, hs; hd = 15 is a branch; no flag (R281). -/
def execTAddHi (hd hs : Reg) (s : State) : Result := .next (s.writeReg hd (s.x hd + s.x hs))

/-- CMP hd, hs (R282). -/
def execTCmpHi (hd hs : Reg) (s : State) : Result := .next (s.setNZCV (sub (s.x hd) (s.x hs)))

/-- MOV hd, hs; hd = 15 is a branch; no flag (R283). -/
def execTMovHi (hd hs : Reg) (s : State) : Result := .next (s.writeReg hd (s.x hs))

/-- BX hs (R284). -/
def execTBx (hs : Reg) (s : State) : Result := .next (s.branchExchange (s.x hs))

/-- BLX hs: the target is read before the link F + 2 with bit 0 set is written (R285). -/
def execTBlx (hs : Reg) (s : State) : Result := .next ((s.setX Reg.lr ((s.x Reg.pc - 2) ||| 1)).branchExchange (s.x hs))

end Sys2Proof.Machine
end

