-- ==== Sys2Proof/Machine/ArmBranch.lean ====
section
/-! DEFINITION. The meanings of the full branches and branch-exchanges (45_arm_branch). -/

namespace Sys2Proof.Machine

/-- B label; the offset is sext(imm24) << 2 (R450). -/
def execAB (c : Cond) (offset : Int) (s : State) : Result :=
  whenPassed c s (.next (s.writePc (s.x Reg.pc + branchOffset offset)))

/-- BL label; the link is F + 4 (R451). -/
def execABl (c : Cond) (offset : Int) (s : State) : Result :=
  whenPassed c s (.next ((s.setX Reg.lr (s.x Reg.pc - 4)).writePc (s.x Reg.pc + branchOffset offset)))

/-- BX Rm (R452). -/
def execABx (c : Cond) (rm : Reg) (s : State) : Result := whenPassed c s (.next (s.branchExchange (s.x rm)))

/-- BLX Rm: the target is read before the link is written (R453). -/
def execABlxReg (c : Cond) (rm : Reg) (s : State) : Result :=
  whenPassed c s (.next ((s.setX Reg.lr (s.x Reg.pc - 4)).branchExchange (s.x rm)))

end Sys2Proof.Machine
end

