-- ==== Sys2Proof/Machine/ArmDataProcessing.lean ====
section
/-! DEFINITION. The meanings of the sixteen full data-processing operations in their three operand-2 forms (44_arm_data_processing). -/

namespace Sys2Proof.Machine

/-! ## Shared forms (R381, R399): flags by the normal rule when S = 1, result through the pc-write when Rd = 15 -/

/-- A logical operation with a destination: N, Z and C = the shifter carry when S = 1. -/
def State.logic (s : State) (sf : Bool) (rd : Reg) (r : Word) (sc : Bool) : State :=
  (if sf then s.setNZC r sc else s).writeReg rd r

/-- An arithmetic operation with a destination: N, Z, C, V when S = 1. -/
def State.arith (s : State) (sf : Bool) (rd : Reg) (r : AddResult) : State :=
  (if sf then s.setNZCV r else s).writeReg rd r.result

/-! The sixteen operations on a first operand `a` and an operand 2 with its carry `o` (R382 to R397). -/

def State.dpAnd (s : State) (sf : Bool) (rd : Reg) (a : Word) (o : Word × Bool) : State := s.logic sf rd (a &&& o.1) o.2

def State.dpEor (s : State) (sf : Bool) (rd : Reg) (a : Word) (o : Word × Bool) : State := s.logic sf rd (a ^^^ o.1) o.2

def State.dpSub (s : State) (sf : Bool) (rd : Reg) (a : Word) (o : Word × Bool) : State := s.arith sf rd (sub a o.1)

def State.dpRsb (s : State) (sf : Bool) (rd : Reg) (a : Word) (o : Word × Bool) : State := s.arith sf rd (rsb a o.1)

def State.dpAdd (s : State) (sf : Bool) (rd : Reg) (a : Word) (o : Word × Bool) : State := s.arith sf rd (add a o.1)

def State.dpAdc (s : State) (sf : Bool) (rd : Reg) (a : Word) (o : Word × Bool) : State :=
  s.arith sf rd (adc a o.1 s.flagC)

def State.dpSbc (s : State) (sf : Bool) (rd : Reg) (a : Word) (o : Word × Bool) : State :=
  s.arith sf rd (sbc a o.1 s.flagC)

def State.dpRsc (s : State) (sf : Bool) (rd : Reg) (a : Word) (o : Word × Bool) : State :=
  s.arith sf rd (rsc a o.1 s.flagC)

def State.dpTst (s : State) (a : Word) (o : Word × Bool) : State := s.setNZC (a &&& o.1) o.2

def State.dpTeq (s : State) (a : Word) (o : Word × Bool) : State := s.setNZC (a ^^^ o.1) o.2

def State.dpCmp (s : State) (a : Word) (o : Word × Bool) : State := s.setNZCV (sub a o.1)

def State.dpCmn (s : State) (a : Word) (o : Word × Bool) : State := s.setNZCV (add a o.1)

def State.dpOrr (s : State) (sf : Bool) (rd : Reg) (a : Word) (o : Word × Bool) : State := s.logic sf rd (a ||| o.1) o.2

def State.dpMov (s : State) (sf : Bool) (rd : Reg) (o : Word × Bool) : State := s.logic sf rd o.1 o.2

def State.dpBic (s : State) (sf : Bool) (rd : Reg) (a : Word) (o : Word × Bool) : State :=
  s.logic sf rd (a &&& ~~~o.1) o.2

def State.dpMvn (s : State) (sf : Bool) (rd : Reg) (o : Word × Bool) : State := s.logic sf rd (~~~o.1) o.2

/-! ## AND (R382) -/

/-- AND, form A2 (R382). -/
def execAAndShImm (c : Cond) (sf : Bool) (rn rd : Reg) (shImm : BitVec 5) (sh : ShiftKind) (rm : Reg) (s : State) : Result :=
  whenPassed c s (.next (s.dpAnd sf rd (s.x rn) (s.op2ShImm shImm sh rm)))

/-- AND, form A3 (R382). -/
def execAAndShReg (c : Cond) (sf : Bool) (rn rd rs : Reg) (sh : ShiftKind) (rm : Reg) (s : State) : Result :=
  whenPassed c s (.next (s.dpAnd sf rd (s.x rn) (s.op2ShReg rs sh rm)))

/-- AND, form A1 (R382). -/
def execAAndImm (c : Cond) (sf : Bool) (rn rd : Reg) (rot : BitVec 4) (imm8 : BitVec 8) (s : State) : Result :=
  whenPassed c s (.next (s.dpAnd sf rd (s.x rn) (s.op2Imm rot imm8)))

/-! ## EOR (R383) -/

/-- EOR, form A2 (R383). -/
def execAEorShImm (c : Cond) (sf : Bool) (rn rd : Reg) (shImm : BitVec 5) (sh : ShiftKind) (rm : Reg) (s : State) : Result :=
  whenPassed c s (.next (s.dpEor sf rd (s.x rn) (s.op2ShImm shImm sh rm)))

/-- EOR, form A3 (R383). -/
def execAEorShReg (c : Cond) (sf : Bool) (rn rd rs : Reg) (sh : ShiftKind) (rm : Reg) (s : State) : Result :=
  whenPassed c s (.next (s.dpEor sf rd (s.x rn) (s.op2ShReg rs sh rm)))

/-- EOR, form A1 (R383). -/
def execAEorImm (c : Cond) (sf : Bool) (rn rd : Reg) (rot : BitVec 4) (imm8 : BitVec 8) (s : State) : Result :=
  whenPassed c s (.next (s.dpEor sf rd (s.x rn) (s.op2Imm rot imm8)))

/-! ## SUB (R384) -/

/-- SUB, form A2 (R384). -/
def execASubShImm (c : Cond) (sf : Bool) (rn rd : Reg) (shImm : BitVec 5) (sh : ShiftKind) (rm : Reg) (s : State) : Result :=
  whenPassed c s (.next (s.dpSub sf rd (s.x rn) (s.op2ShImm shImm sh rm)))

/-- SUB, form A3 (R384). -/
def execASubShReg (c : Cond) (sf : Bool) (rn rd rs : Reg) (sh : ShiftKind) (rm : Reg) (s : State) : Result :=
  whenPassed c s (.next (s.dpSub sf rd (s.x rn) (s.op2ShReg rs sh rm)))

/-- SUB, form A1 (R384). -/
def execASubImm (c : Cond) (sf : Bool) (rn rd : Reg) (rot : BitVec 4) (imm8 : BitVec 8) (s : State) : Result :=
  whenPassed c s (.next (s.dpSub sf rd (s.x rn) (s.op2Imm rot imm8)))

/-! ## RSB (R385) -/

/-- RSB, form A2 (R385). -/
def execARsbShImm (c : Cond) (sf : Bool) (rn rd : Reg) (shImm : BitVec 5) (sh : ShiftKind) (rm : Reg) (s : State) : Result :=
  whenPassed c s (.next (s.dpRsb sf rd (s.x rn) (s.op2ShImm shImm sh rm)))

/-- RSB, form A3 (R385). -/
def execARsbShReg (c : Cond) (sf : Bool) (rn rd rs : Reg) (sh : ShiftKind) (rm : Reg) (s : State) : Result :=
  whenPassed c s (.next (s.dpRsb sf rd (s.x rn) (s.op2ShReg rs sh rm)))

/-- RSB, form A1 (R385). -/
def execARsbImm (c : Cond) (sf : Bool) (rn rd : Reg) (rot : BitVec 4) (imm8 : BitVec 8) (s : State) : Result :=
  whenPassed c s (.next (s.dpRsb sf rd (s.x rn) (s.op2Imm rot imm8)))

/-! ## ADD (R386) -/

/-- ADD, form A2 (R386). -/
def execAAddShImm (c : Cond) (sf : Bool) (rn rd : Reg) (shImm : BitVec 5) (sh : ShiftKind) (rm : Reg) (s : State) : Result :=
  whenPassed c s (.next (s.dpAdd sf rd (s.x rn) (s.op2ShImm shImm sh rm)))

/-- ADD, form A3 (R386). -/
def execAAddShReg (c : Cond) (sf : Bool) (rn rd rs : Reg) (sh : ShiftKind) (rm : Reg) (s : State) : Result :=
  whenPassed c s (.next (s.dpAdd sf rd (s.x rn) (s.op2ShReg rs sh rm)))

/-- ADD, form A1 (R386). -/
def execAAddImm (c : Cond) (sf : Bool) (rn rd : Reg) (rot : BitVec 4) (imm8 : BitVec 8) (s : State) : Result :=
  whenPassed c s (.next (s.dpAdd sf rd (s.x rn) (s.op2Imm rot imm8)))

/-! ## ADC (R387) -/

/-- ADC, form A2 (R387). -/
def execAAdcShImm (c : Cond) (sf : Bool) (rn rd : Reg) (shImm : BitVec 5) (sh : ShiftKind) (rm : Reg) (s : State) : Result :=
  whenPassed c s (.next (s.dpAdc sf rd (s.x rn) (s.op2ShImm shImm sh rm)))

/-- ADC, form A3 (R387). -/
def execAAdcShReg (c : Cond) (sf : Bool) (rn rd rs : Reg) (sh : ShiftKind) (rm : Reg) (s : State) : Result :=
  whenPassed c s (.next (s.dpAdc sf rd (s.x rn) (s.op2ShReg rs sh rm)))

/-- ADC, form A1 (R387). -/
def execAAdcImm (c : Cond) (sf : Bool) (rn rd : Reg) (rot : BitVec 4) (imm8 : BitVec 8) (s : State) : Result :=
  whenPassed c s (.next (s.dpAdc sf rd (s.x rn) (s.op2Imm rot imm8)))

/-! ## SBC (R388) -/

/-- SBC, form A2 (R388). -/
def execASbcShImm (c : Cond) (sf : Bool) (rn rd : Reg) (shImm : BitVec 5) (sh : ShiftKind) (rm : Reg) (s : State) : Result :=
  whenPassed c s (.next (s.dpSbc sf rd (s.x rn) (s.op2ShImm shImm sh rm)))

/-- SBC, form A3 (R388). -/
def execASbcShReg (c : Cond) (sf : Bool) (rn rd rs : Reg) (sh : ShiftKind) (rm : Reg) (s : State) : Result :=
  whenPassed c s (.next (s.dpSbc sf rd (s.x rn) (s.op2ShReg rs sh rm)))

/-- SBC, form A1 (R388). -/
def execASbcImm (c : Cond) (sf : Bool) (rn rd : Reg) (rot : BitVec 4) (imm8 : BitVec 8) (s : State) : Result :=
  whenPassed c s (.next (s.dpSbc sf rd (s.x rn) (s.op2Imm rot imm8)))

/-! ## RSC (R389) -/

/-- RSC, form A2 (R389). -/
def execARscShImm (c : Cond) (sf : Bool) (rn rd : Reg) (shImm : BitVec 5) (sh : ShiftKind) (rm : Reg) (s : State) : Result :=
  whenPassed c s (.next (s.dpRsc sf rd (s.x rn) (s.op2ShImm shImm sh rm)))

/-- RSC, form A3 (R389). -/
def execARscShReg (c : Cond) (sf : Bool) (rn rd rs : Reg) (sh : ShiftKind) (rm : Reg) (s : State) : Result :=
  whenPassed c s (.next (s.dpRsc sf rd (s.x rn) (s.op2ShReg rs sh rm)))

/-- RSC, form A1 (R389). -/
def execARscImm (c : Cond) (sf : Bool) (rn rd : Reg) (rot : BitVec 4) (imm8 : BitVec 8) (s : State) : Result :=
  whenPassed c s (.next (s.dpRsc sf rd (s.x rn) (s.op2Imm rot imm8)))

/-! ## TST (R390) -/

/-- TST, form A2 (R390). -/
def execATstShImm (c : Cond) (rn : Reg) (shImm : BitVec 5) (sh : ShiftKind) (rm : Reg) (s : State) : Result :=
  whenPassed c s (.next (s.dpTst (s.x rn) (s.op2ShImm shImm sh rm)))

/-- TST, form A3 (R390). -/
def execATstShReg (c : Cond) (rn rs : Reg) (sh : ShiftKind) (rm : Reg) (s : State) : Result :=
  whenPassed c s (.next (s.dpTst (s.x rn) (s.op2ShReg rs sh rm)))

/-- TST, form A1 (R390). -/
def execATstImm (c : Cond) (rn : Reg) (rot : BitVec 4) (imm8 : BitVec 8) (s : State) : Result :=
  whenPassed c s (.next (s.dpTst (s.x rn) (s.op2Imm rot imm8)))

/-! ## TEQ (R391) -/

/-- TEQ, form A2 (R391). -/
def execATeqShImm (c : Cond) (rn : Reg) (shImm : BitVec 5) (sh : ShiftKind) (rm : Reg) (s : State) : Result :=
  whenPassed c s (.next (s.dpTeq (s.x rn) (s.op2ShImm shImm sh rm)))

/-- TEQ, form A3 (R391). -/
def execATeqShReg (c : Cond) (rn rs : Reg) (sh : ShiftKind) (rm : Reg) (s : State) : Result :=
  whenPassed c s (.next (s.dpTeq (s.x rn) (s.op2ShReg rs sh rm)))

/-- TEQ, form A1 (R391). -/
def execATeqImm (c : Cond) (rn : Reg) (rot : BitVec 4) (imm8 : BitVec 8) (s : State) : Result :=
  whenPassed c s (.next (s.dpTeq (s.x rn) (s.op2Imm rot imm8)))

/-! ## CMP (R392) -/

/-- CMP, form A2 (R392). -/
def execACmpShImm (c : Cond) (rn : Reg) (shImm : BitVec 5) (sh : ShiftKind) (rm : Reg) (s : State) : Result :=
  whenPassed c s (.next (s.dpCmp (s.x rn) (s.op2ShImm shImm sh rm)))

/-- CMP, form A3 (R392). -/
def execACmpShReg (c : Cond) (rn rs : Reg) (sh : ShiftKind) (rm : Reg) (s : State) : Result :=
  whenPassed c s (.next (s.dpCmp (s.x rn) (s.op2ShReg rs sh rm)))

/-- CMP, form A1 (R392). -/
def execACmpImm (c : Cond) (rn : Reg) (rot : BitVec 4) (imm8 : BitVec 8) (s : State) : Result :=
  whenPassed c s (.next (s.dpCmp (s.x rn) (s.op2Imm rot imm8)))

/-! ## CMN (R393) -/

/-- CMN, form A2 (R393). -/
def execACmnShImm (c : Cond) (rn : Reg) (shImm : BitVec 5) (sh : ShiftKind) (rm : Reg) (s : State) : Result :=
  whenPassed c s (.next (s.dpCmn (s.x rn) (s.op2ShImm shImm sh rm)))

/-- CMN, form A3 (R393). -/
def execACmnShReg (c : Cond) (rn rs : Reg) (sh : ShiftKind) (rm : Reg) (s : State) : Result :=
  whenPassed c s (.next (s.dpCmn (s.x rn) (s.op2ShReg rs sh rm)))

/-- CMN, form A1 (R393). -/
def execACmnImm (c : Cond) (rn : Reg) (rot : BitVec 4) (imm8 : BitVec 8) (s : State) : Result :=
  whenPassed c s (.next (s.dpCmn (s.x rn) (s.op2Imm rot imm8)))

/-! ## ORR (R394) -/

/-- ORR, form A2 (R394). -/
def execAOrrShImm (c : Cond) (sf : Bool) (rn rd : Reg) (shImm : BitVec 5) (sh : ShiftKind) (rm : Reg) (s : State) : Result :=
  whenPassed c s (.next (s.dpOrr sf rd (s.x rn) (s.op2ShImm shImm sh rm)))

/-- ORR, form A3 (R394). -/
def execAOrrShReg (c : Cond) (sf : Bool) (rn rd rs : Reg) (sh : ShiftKind) (rm : Reg) (s : State) : Result :=
  whenPassed c s (.next (s.dpOrr sf rd (s.x rn) (s.op2ShReg rs sh rm)))

/-- ORR, form A1 (R394). -/
def execAOrrImm (c : Cond) (sf : Bool) (rn rd : Reg) (rot : BitVec 4) (imm8 : BitVec 8) (s : State) : Result :=
  whenPassed c s (.next (s.dpOrr sf rd (s.x rn) (s.op2Imm rot imm8)))

/-! ## MOV (R395) -/

/-- MOV, form A2 (R395). -/
def execAMovShImm (c : Cond) (sf : Bool) (rd : Reg) (shImm : BitVec 5) (sh : ShiftKind) (rm : Reg) (s : State) : Result :=
  whenPassed c s (.next (s.dpMov sf rd (s.op2ShImm shImm sh rm)))

/-- MOV, form A3 (R395). -/
def execAMovShReg (c : Cond) (sf : Bool) (rd rs : Reg) (sh : ShiftKind) (rm : Reg) (s : State) : Result :=
  whenPassed c s (.next (s.dpMov sf rd (s.op2ShReg rs sh rm)))

/-- MOV, form A1 (R395). -/
def execAMovImm (c : Cond) (sf : Bool) (rd : Reg) (rot : BitVec 4) (imm8 : BitVec 8) (s : State) : Result :=
  whenPassed c s (.next (s.dpMov sf rd (s.op2Imm rot imm8)))

/-! ## BIC (R396) -/

/-- BIC, form A2 (R396). -/
def execABicShImm (c : Cond) (sf : Bool) (rn rd : Reg) (shImm : BitVec 5) (sh : ShiftKind) (rm : Reg) (s : State) : Result :=
  whenPassed c s (.next (s.dpBic sf rd (s.x rn) (s.op2ShImm shImm sh rm)))

/-- BIC, form A3 (R396). -/
def execABicShReg (c : Cond) (sf : Bool) (rn rd rs : Reg) (sh : ShiftKind) (rm : Reg) (s : State) : Result :=
  whenPassed c s (.next (s.dpBic sf rd (s.x rn) (s.op2ShReg rs sh rm)))

/-- BIC, form A1 (R396). -/
def execABicImm (c : Cond) (sf : Bool) (rn rd : Reg) (rot : BitVec 4) (imm8 : BitVec 8) (s : State) : Result :=
  whenPassed c s (.next (s.dpBic sf rd (s.x rn) (s.op2Imm rot imm8)))

/-! ## MVN (R397) -/

/-- MVN, form A2 (R397). -/
def execAMvnShImm (c : Cond) (sf : Bool) (rd : Reg) (shImm : BitVec 5) (sh : ShiftKind) (rm : Reg) (s : State) : Result :=
  whenPassed c s (.next (s.dpMvn sf rd (s.op2ShImm shImm sh rm)))

/-- MVN, form A3 (R397). -/
def execAMvnShReg (c : Cond) (sf : Bool) (rd rs : Reg) (sh : ShiftKind) (rm : Reg) (s : State) : Result :=
  whenPassed c s (.next (s.dpMvn sf rd (s.op2ShReg rs sh rm)))

/-- MVN, form A1 (R397). -/
def execAMvnImm (c : Cond) (sf : Bool) (rd : Reg) (rot : BitVec 4) (imm8 : BitVec 8) (s : State) : Result :=
  whenPassed c s (.next (s.dpMvn sf rd (s.op2Imm rot imm8)))

end Sys2Proof.Machine
end

