-- ==== Sys2Proof/Machine/ArmMultiply.lean ====
section
/-! DEFINITION. The meanings of the multiply family (46_arm_multiply). All operands are read before any destination is written. -/

namespace Sys2Proof.Machine

/-- Write a 32-bit product: N and Z when S = 1, then Rd (R470, R471). -/
def State.product (s : State) (sf : Bool) (rd : Reg) (r : Word) : State :=
  (if sf then s.setMulNZ32 r else s).writeReg rd r

/-- Write a 64-bit value: RdLo first, then RdHi, so RdHi = RdLo keeps the high word (R472, R484). -/
def State.writeLong (s : State) (rdHi rdLo : Reg) (p : BitVec 64) : State :=
  (s.writeReg rdLo (bits p 0 32)).writeReg rdHi (bits p 32 32)

/-- The long multiplies' results: the flags when S = 1, then the two registers (R472). -/
def State.longProduct (s : State) (sf : Bool) (rdHi rdLo : Reg) (p : BitVec 64) : State :=
  (if sf then s.setMulNZ64 (bits p 32 32) (bits p 0 32) else s).writeLong rdHi rdLo p

/-- The accumulator RdHi:RdLo (R474, R476, R484). -/
def State.accumulator (s : State) (rdHi rdLo : Reg) : BitVec 64 := s.x rdHi ++ s.x rdLo

/-- The exact unsigned product, modulo 2^64 (R222). -/
def unsignedProduct (a b : Word) : BitVec 64 := BitVec.ofNat 64 (a.toNat * b.toNat)

/-- The exact signed product as two's complement (R222). -/
def signedProduct (a b : Word) : BitVec 64 := BitVec.ofInt 64 (a.toInt * b.toInt)

/-- Bits 47:16 of a word by half-word product: floor of the product over 2^16 (R482, R483). -/
def wordHalfProduct (a b : Word) (top : Bool) : Word := BitVec.ofInt 32 (a.toInt * half b top / 65536)

/-- MUL (R470). -/
def execAMul (c : Cond) (sf : Bool) (rd rs rm : Reg) (s : State) : Result :=
  whenPassed c s (.next (s.product sf rd (s.x rm * s.x rs)))

/-- MLA (R471). -/
def execAMla (c : Cond) (sf : Bool) (rd rn rs rm : Reg) (s : State) : Result :=
  whenPassed c s (.next (s.product sf rd (s.x rm * s.x rs + s.x rn)))

/-- UMULL (R473). -/
def execAUmull (c : Cond) (sf : Bool) (rdHi rdLo rs rm : Reg) (s : State) : Result :=
  whenPassed c s (.next (s.longProduct sf rdHi rdLo (unsignedProduct (s.x rm) (s.x rs))))

/-- UMLAL (R474). -/
def execAUmlal (c : Cond) (sf : Bool) (rdHi rdLo rs rm : Reg) (s : State) : Result :=
  whenPassed c s (.next (s.longProduct sf rdHi rdLo (unsignedProduct (s.x rm) (s.x rs) + s.accumulator rdHi rdLo)))

/-- SMULL (R475). -/
def execASmull (c : Cond) (sf : Bool) (rdHi rdLo rs rm : Reg) (s : State) : Result :=
  whenPassed c s (.next (s.longProduct sf rdHi rdLo (signedProduct (s.x rm) (s.x rs))))

/-- SMLAL (R476). -/
def execASmlal (c : Cond) (sf : Bool) (rdHi rdLo rs rm : Reg) (s : State) : Result :=
  whenPassed c s (.next (s.longProduct sf rdHi rdLo (signedProduct (s.x rm) (s.x rs) + s.accumulator rdHi rdLo)))

/-- SMLAxy; no PSR bit (R480, R481). -/
def execASmlaxy (c : Cond) (y x : Bool) (rd rn rs rm : Reg) (s : State) : Result :=
  whenPassed c s (.next (s.writeReg rd (BitVec.ofInt 32 (half (s.x rm) x * half (s.x rs) y + (s.x rn).toInt))))

/-- SMLAWy; no PSR bit (R480, R482). -/
def execASmlawy (c : Cond) (y : Bool) (rd rn rs rm : Reg) (s : State) : Result :=
  whenPassed c s (.next (s.writeReg rd (wordHalfProduct (s.x rm) (s.x rs) y + s.x rn)))

/-- SMULWy (R483). -/
def execASmulwy (c : Cond) (y : Bool) (rd rs rm : Reg) (s : State) : Result :=
  whenPassed c s (.next (s.writeReg rd (wordHalfProduct (s.x rm) (s.x rs) y)))

/-- SMLALxy (R484). -/
def execASmlalxy (c : Cond) (y x : Bool) (rdHi rdLo rs rm : Reg) (s : State) : Result :=
  whenPassed c s (.next (s.writeLong rdHi rdLo (BitVec.ofInt 64 (half (s.x rm) x * half (s.x rs) y) + s.accumulator rdHi rdLo)))

/-- SMULxy (R485). -/
def execASmulxy (c : Cond) (y x : Bool) (rd rs rm : Reg) (s : State) : Result :=
  whenPassed c s (.next (s.writeReg rd (BitVec.ofInt 32 (half (s.x rm) x * half (s.x rs) y))))

end Sys2Proof.Machine
end

