-- ==== Sys2Proof/Machine/ArmStatus.lean ====
section
/-! DEFINITION. The meanings of the status-register transfers and of CLZ (44_arm_data_processing R410 to R430). -/

namespace Sys2Proof.Machine

/-- The byte mask of MSR (R420). -/
def fieldMask (mask : BitVec 4) : Word :=
  (if mask.getLsbD 3 then 0xFF000000 else 0) ||| (if mask.getLsbD 2 then 0x00FF0000 else 0) |||
  (if mask.getLsbD 1 then 0x0000FF00 else 0) ||| (if mask.getLsbD 0 then 0x000000FF else 0)

/-- The masked write of x[16], T included (R420). -/
def State.writePsr (s : State) (mask : BitVec 4) (v : Word) : State :=
  { s with psr := (s.psr &&& ~~~(fieldMask mask)) ||| (v &&& fieldMask mask) }

/-- MRS Rd, PSR; R is ignored, there is one status register (R410). -/
def execAMrs (c : Cond) (_r : Bool) (rd : Reg) (s : State) : Result := whenPassed c s (.next (s.writeReg rd s.psr))

/-- MSR PSR_fields, Rm; x[15] is not adjusted (R421, 70 R594). -/
def execAMsrReg (c : Cond) (_r : Bool) (mask : BitVec 4) (rm : Reg) (s : State) : Result :=
  whenPassed c s (.next (s.writePsr mask (s.x rm)))

/-- MSR PSR_fields, #imm; the rotate writes no carry (R422). -/
def execAMsrImm (c : Cond) (_r : Bool) (mask rot : BitVec 4) (imm8 : BitVec 8) (s : State) : Result :=
  whenPassed c s (.next (s.writePsr mask (rotatedImm rot imm8 s.flagC).1))

/-- CLZ Rd, Rm (R430). -/
def execAClz (c : Cond) (rd rm : Reg) (s : State) : Result :=
  whenPassed c s (.next (s.writeReg rd (BitVec.ofNat 32 (countLeadingZeros (s.x rm)))))

end Sys2Proof.Machine
end

