-- ==== Sys2Proof/Machine/ArmTransfer.lean ====
section
/-! DEFINITION. The meanings of the full single transfers and of the swap (47_arm_memory R500 to R531). -/

namespace Sys2Proof.Machine

/-! ## A13: word and byte transfers (R500 to R510). The T forms are ordinary post-indexed accesses (R506 to R509) -/

/-- STR, pre-indexed or offset, immediate offset (R503). -/
def execAStrPreImm (c : Cond) (u w : Bool) (rn rd : Reg) (imm12 : BitVec 12) (s : State) : Result :=
  whenPassed c s (outcome (s.store (s.address true u w rn (imm12.setWidth 32)) rn rd .word))

/-- STR, post-indexed, immediate offset (R503). -/
def execAStrPostImm (c : Cond) (u : Bool) (rn rd : Reg) (imm12 : BitVec 12) (s : State) : Result :=
  whenPassed c s (outcome (s.store (s.address false u false rn (imm12.setWidth 32)) rn rd .word))

/-- STRT, post-indexed, immediate offset (R507). -/
def execAStrtImm (c : Cond) (u : Bool) (rn rd : Reg) (imm12 : BitVec 12) (s : State) : Result :=
  whenPassed c s (outcome (s.store (s.address false u true rn (imm12.setWidth 32)) rn rd .word))

/-- LDR, pre-indexed or offset, immediate offset (R502). -/
def execALdrPreImm (c : Cond) (u w : Bool) (rn rd : Reg) (imm12 : BitVec 12) (s : State) : Result :=
  whenPassed c s (outcome (s.load (s.address true u w rn (imm12.setWidth 32)) rn rd .word))

/-- LDR, post-indexed, immediate offset (R502). -/
def execALdrPostImm (c : Cond) (u : Bool) (rn rd : Reg) (imm12 : BitVec 12) (s : State) : Result :=
  whenPassed c s (outcome (s.load (s.address false u false rn (imm12.setWidth 32)) rn rd .word))

/-- LDRT, post-indexed, immediate offset (R506). -/
def execALdrtImm (c : Cond) (u : Bool) (rn rd : Reg) (imm12 : BitVec 12) (s : State) : Result :=
  whenPassed c s (outcome (s.load (s.address false u true rn (imm12.setWidth 32)) rn rd .word))

/-- STRB, pre-indexed or offset, immediate offset (R505). -/
def execAStrbPreImm (c : Cond) (u w : Bool) (rn rd : Reg) (imm12 : BitVec 12) (s : State) : Result :=
  whenPassed c s (outcome (s.store (s.address true u w rn (imm12.setWidth 32)) rn rd .byte))

/-- STRB, post-indexed, immediate offset (R505). -/
def execAStrbPostImm (c : Cond) (u : Bool) (rn rd : Reg) (imm12 : BitVec 12) (s : State) : Result :=
  whenPassed c s (outcome (s.store (s.address false u false rn (imm12.setWidth 32)) rn rd .byte))

/-- STRBT, post-indexed, immediate offset (R509). -/
def execAStrbtImm (c : Cond) (u : Bool) (rn rd : Reg) (imm12 : BitVec 12) (s : State) : Result :=
  whenPassed c s (outcome (s.store (s.address false u true rn (imm12.setWidth 32)) rn rd .byte))

/-- LDRB, pre-indexed or offset, immediate offset (R504). -/
def execALdrbPreImm (c : Cond) (u w : Bool) (rn rd : Reg) (imm12 : BitVec 12) (s : State) : Result :=
  whenPassed c s (outcome (s.load (s.address true u w rn (imm12.setWidth 32)) rn rd .byte))

/-- LDRB, post-indexed, immediate offset (R504). -/
def execALdrbPostImm (c : Cond) (u : Bool) (rn rd : Reg) (imm12 : BitVec 12) (s : State) : Result :=
  whenPassed c s (outcome (s.load (s.address false u false rn (imm12.setWidth 32)) rn rd .byte))

/-- LDRBT, post-indexed, immediate offset (R508). -/
def execALdrbtImm (c : Cond) (u : Bool) (rn rd : Reg) (imm12 : BitVec 12) (s : State) : Result :=
  whenPassed c s (outcome (s.load (s.address false u true rn (imm12.setWidth 32)) rn rd .byte))

/-- STR, pre-indexed or offset, shifted register offset (R503). -/
def execAStrPreReg (c : Cond) (u w : Bool) (rn rd : Reg) (shImm : BitVec 5) (sh : ShiftKind) (rm : Reg) (s : State) : Result :=
  whenPassed c s (outcome (s.store (s.address true u w rn (s.shiftedOffset shImm sh rm)) rn rd .word))

/-- STR, post-indexed, shifted register offset (R503). -/
def execAStrPostReg (c : Cond) (u : Bool) (rn rd : Reg) (shImm : BitVec 5) (sh : ShiftKind) (rm : Reg) (s : State) : Result :=
  whenPassed c s (outcome (s.store (s.address false u false rn (s.shiftedOffset shImm sh rm)) rn rd .word))

/-- STRT, post-indexed, shifted register offset (R507). -/
def execAStrtReg (c : Cond) (u : Bool) (rn rd : Reg) (shImm : BitVec 5) (sh : ShiftKind) (rm : Reg) (s : State) : Result :=
  whenPassed c s (outcome (s.store (s.address false u true rn (s.shiftedOffset shImm sh rm)) rn rd .word))

/-- LDR, pre-indexed or offset, shifted register offset (R502). -/
def execALdrPreReg (c : Cond) (u w : Bool) (rn rd : Reg) (shImm : BitVec 5) (sh : ShiftKind) (rm : Reg) (s : State) : Result :=
  whenPassed c s (outcome (s.load (s.address true u w rn (s.shiftedOffset shImm sh rm)) rn rd .word))

/-- LDR, post-indexed, shifted register offset (R502). -/
def execALdrPostReg (c : Cond) (u : Bool) (rn rd : Reg) (shImm : BitVec 5) (sh : ShiftKind) (rm : Reg) (s : State) : Result :=
  whenPassed c s (outcome (s.load (s.address false u false rn (s.shiftedOffset shImm sh rm)) rn rd .word))

/-- LDRT, post-indexed, shifted register offset (R506). -/
def execALdrtReg (c : Cond) (u : Bool) (rn rd : Reg) (shImm : BitVec 5) (sh : ShiftKind) (rm : Reg) (s : State) : Result :=
  whenPassed c s (outcome (s.load (s.address false u true rn (s.shiftedOffset shImm sh rm)) rn rd .word))

/-- STRB, pre-indexed or offset, shifted register offset (R505). -/
def execAStrbPreReg (c : Cond) (u w : Bool) (rn rd : Reg) (shImm : BitVec 5) (sh : ShiftKind) (rm : Reg) (s : State) : Result :=
  whenPassed c s (outcome (s.store (s.address true u w rn (s.shiftedOffset shImm sh rm)) rn rd .byte))

/-- STRB, post-indexed, shifted register offset (R505). -/
def execAStrbPostReg (c : Cond) (u : Bool) (rn rd : Reg) (shImm : BitVec 5) (sh : ShiftKind) (rm : Reg) (s : State) : Result :=
  whenPassed c s (outcome (s.store (s.address false u false rn (s.shiftedOffset shImm sh rm)) rn rd .byte))

/-- STRBT, post-indexed, shifted register offset (R509). -/
def execAStrbtReg (c : Cond) (u : Bool) (rn rd : Reg) (shImm : BitVec 5) (sh : ShiftKind) (rm : Reg) (s : State) : Result :=
  whenPassed c s (outcome (s.store (s.address false u true rn (s.shiftedOffset shImm sh rm)) rn rd .byte))

/-- LDRB, pre-indexed or offset, shifted register offset (R504). -/
def execALdrbPreReg (c : Cond) (u w : Bool) (rn rd : Reg) (shImm : BitVec 5) (sh : ShiftKind) (rm : Reg) (s : State) : Result :=
  whenPassed c s (outcome (s.load (s.address true u w rn (s.shiftedOffset shImm sh rm)) rn rd .byte))

/-- LDRB, post-indexed, shifted register offset (R504). -/
def execALdrbPostReg (c : Cond) (u : Bool) (rn rd : Reg) (shImm : BitVec 5) (sh : ShiftKind) (rm : Reg) (s : State) : Result :=
  whenPassed c s (outcome (s.load (s.address false u false rn (s.shiftedOffset shImm sh rm)) rn rd .byte))

/-- LDRBT, post-indexed, shifted register offset (R508). -/
def execALdrbtReg (c : Cond) (u : Bool) (rn rd : Reg) (shImm : BitVec 5) (sh : ShiftKind) (rm : Reg) (s : State) : Result :=
  whenPassed c s (outcome (s.load (s.address false u true rn (s.shiftedOffset shImm sh rm)) rn rd .byte))

/-! ## A14: half-word and signed transfers (R515 to R519) -/

/-- STRH (R517). -/
def execAStrh (c : Cond) (p u w : Bool) (rn rd : Reg) (off : HalfOffset) (s : State) : Result :=
  whenPassed c s (outcome (s.store (s.address p u w rn (s.halfOffset off)) rn rd .half))

/-- LDRH (R516). -/
def execALdrh (c : Cond) (p u w : Bool) (rn rd : Reg) (off : HalfOffset) (s : State) : Result :=
  whenPassed c s (outcome (s.load (s.address p u w rn (s.halfOffset off)) rn rd .half))

/-- LDRSB (R518). -/
def execALdrsb (c : Cond) (p u w : Bool) (rn rd : Reg) (off : HalfOffset) (s : State) : Result :=
  whenPassed c s (outcome (s.loadSigned (s.address p u w rn (s.halfOffset off)) rn rd .byte))

/-- LDRSH (R519). -/
def execALdrsh (c : Cond) (p u w : Bool) (rn rd : Reg) (off : HalfOffset) (s : State) : Result :=
  whenPassed c s (outcome (s.loadSigned (s.address p u w rn (s.halfOffset off)) rn rd .half))

/-! ## A12: swap (R530, R531) -/

/-- Read, write, then write Rd; both registers are read first (R530). -/
def State.swap (s : State) (rn rd rm : Reg) (z : Size) : Except Fault State := do
  let (t, s1) ← s.memRead (s.x rn) z
  let s2 ← s1.memWrite (s.x rn) z (z.low (s.x rm))
  .ok (s2.writeReg rd t)

/-- SWP (R530). -/
def execASwp (c : Cond) (rn rd rm : Reg) (s : State) : Result := whenPassed c s (outcome (s.swap rn rd rm .word))

/-- SWPB (R531). -/
def execASwpb (c : Cond) (rn rd rm : Reg) (s : State) : Result := whenPassed c s (outcome (s.swap rn rd rm .byte))

end Sys2Proof.Machine
end

