-- ==== Sys2Proof/Machine/ThumbBranch.lean ====
section
/-! DEFINITION. The meanings of the compact branches, T16, T18, T19 (43_thumb_branch). -/

namespace Sys2Proof.Machine

/-- B<cond> label; the offset is sext(imm8) << 1 (R350). -/
def execTBCond (cond : Cond) (offset : Int) (s : State) : Result :=
  .next (if s.passes cond then s.writePc (s.x Reg.pc + branchOffset offset) else s)

/-- B label; the offset is sext(imm11) << 1 (R351). -/
def execTB (offset : Int) (s : State) : Result := .next (s.writePc (s.x Reg.pc + branchOffset offset))

/-- BL first half; the offset is sext(imm11) << 12 (R353). -/
def execTBlFirst (offset : Int) (s : State) : Result := .next (s.setX Reg.lr (s.x Reg.pc + branchOffset offset))

/-- BL second half; the offset is imm11 << 1; the target takes the old LR (R354). -/
def execTBlSecond (offset : Nat) (s : State) : Result :=
  .next ((s.setX Reg.lr ((s.x Reg.pc - 2) ||| 1)).writePc (s.x Reg.lr + offsetWord offset))

end Sys2Proof.Machine
end

