-- ==== Sys2Proof/Machine/ThumbMemory.lean ====
section
/-! DEFINITION. The meanings of the compact memory, address and stack operations, T6 to T15 (42_thumb_memory). -/

namespace Sys2Proof.Machine

/-! ## T6 to T11: loads and stores -/

/-- LDR Rd, [PC, #imm8*4] (R300). -/
def execTLdrPc (rd : LowReg) (offset : Nat) (s : State) : Result :=
  outcome (s.loadLow (s.pcBase + offsetWord offset) .word rd)

/-- STR Rd, [Rb, Ro] (R302). -/
def execTStrReg (ro rb rd : LowReg) (s : State) : Result := outcome (s.storeLow (s.x rb.slot + s.x ro.slot) .word rd)

/-- STRB Rd, [Rb, Ro] (R303). -/
def execTStrbReg (ro rb rd : LowReg) (s : State) : Result := outcome (s.storeLow (s.x rb.slot + s.x ro.slot) .byte rd)

/-- LDR Rd, [Rb, Ro] (R304). -/
def execTLdrReg (ro rb rd : LowReg) (s : State) : Result := outcome (s.loadLow (s.x rb.slot + s.x ro.slot) .word rd)

/-- LDRB Rd, [Rb, Ro] (R305). -/
def execTLdrbReg (ro rb rd : LowReg) (s : State) : Result := outcome (s.loadLow (s.x rb.slot + s.x ro.slot) .byte rd)

/-- STRH Rd, [Rb, Ro] (R306). -/
def execTStrhReg (ro rb rd : LowReg) (s : State) : Result := outcome (s.storeLow (s.x rb.slot + s.x ro.slot) .half rd)

/-- LDRSB Rd, [Rb, Ro] (R307). -/
def execTLdrsbReg (ro rb rd : LowReg) (s : State) : Result :=
  outcome (s.loadLowSigned (s.x rb.slot + s.x ro.slot) .byte rd)

/-- LDRH Rd, [Rb, Ro] (R308). -/
def execTLdrhReg (ro rb rd : LowReg) (s : State) : Result := outcome (s.loadLow (s.x rb.slot + s.x ro.slot) .half rd)

/-- LDRSH Rd, [Rb, Ro] (R309). -/
def execTLdrshReg (ro rb rd : LowReg) (s : State) : Result :=
  outcome (s.loadLowSigned (s.x rb.slot + s.x ro.slot) .half rd)

/-- STR Rd, [Rb, #imm5*4] (R310). -/
def execTStrImm (offset : Nat) (rb rd : LowReg) (s : State) : Result :=
  outcome (s.storeLow (s.x rb.slot + offsetWord offset) .word rd)

/-- LDR Rd, [Rb, #imm5*4] (R311). -/
def execTLdrImm (offset : Nat) (rb rd : LowReg) (s : State) : Result :=
  outcome (s.loadLow (s.x rb.slot + offsetWord offset) .word rd)

/-- STRB Rd, [Rb, #imm5] (R312). -/
def execTStrbImm (offset : Nat) (rb rd : LowReg) (s : State) : Result :=
  outcome (s.storeLow (s.x rb.slot + offsetWord offset) .byte rd)

/-- LDRB Rd, [Rb, #imm5] (R313). -/
def execTLdrbImm (offset : Nat) (rb rd : LowReg) (s : State) : Result :=
  outcome (s.loadLow (s.x rb.slot + offsetWord offset) .byte rd)

/-- STRH Rd, [Rb, #imm5*2] (R314). -/
def execTStrhImm (offset : Nat) (rb rd : LowReg) (s : State) : Result :=
  outcome (s.storeLow (s.x rb.slot + offsetWord offset) .half rd)

/-- LDRH Rd, [Rb, #imm5*2] (R315). -/
def execTLdrhImm (offset : Nat) (rb rd : LowReg) (s : State) : Result :=
  outcome (s.loadLow (s.x rb.slot + offsetWord offset) .half rd)

/-- STR Rd, [SP, #imm8*4] (R316). -/
def execTStrSp (rd : LowReg) (offset : Nat) (s : State) : Result :=
  outcome (s.storeLow (s.x Reg.sp + offsetWord offset) .word rd)

/-- LDR Rd, [SP, #imm8*4] (R317). -/
def execTLdrSp (rd : LowReg) (offset : Nat) (s : State) : Result :=
  outcome (s.loadLow (s.x Reg.sp + offsetWord offset) .word rd)

/-! ## T12, T13: address generation and SP adjust -/

/-- ADD Rd, PC, #imm8*4 (R320). -/
def execTAddPc (rd : LowReg) (offset : Nat) (s : State) : Result :=
  .next (s.setX rd.slot (s.pcBase + offsetWord offset))

/-- ADD Rd, SP, #imm8*4 (R321). -/
def execTAddSp (rd : LowReg) (offset : Nat) (s : State) : Result :=
  .next (s.setX rd.slot (s.x Reg.sp + offsetWord offset))

/-- ADD SP, #imm7*4 (R322). -/
def execTIncSp (offset : Nat) (s : State) : Result := .next (s.setX Reg.sp (s.x Reg.sp + offsetWord offset))

/-- SUB SP, #imm7*4 (R323). -/
def execTDecSp (offset : Nat) (s : State) : Result := .next (s.setX Reg.sp (s.x Reg.sp - offsetWord offset))

/-! ## T14: push and pop -/

/-- PUSH: LR first at the highest address, then r7 down to r0, pre-decrement (R325). -/
def State.push (s : State) (lr : Bool) (rlist : BitVec 8) : Except Fault State := do
  let order := (if lr then [Reg.lr] else []) ++ (lowOrder rlist).reverse
  let (a, s') ← s.storeMany true false order (s.x Reg.sp)
  .ok (s'.setX Reg.sp a)

/-- POP: r0 up to r7, then the PC value; SP is written, then the pc-write (R326). -/
def State.pop (s : State) (pc : Bool) (rlist : BitVec 8) : Except Fault State := do
  let (a, s1) ← s.loadMany false true (lowOrder rlist) (s.x Reg.sp)
  if pc then
    let (v, s2) ← s1.memRead a .word
    .ok ((s2.setX Reg.sp (a + 4)).writePc v)
  else .ok (s1.setX Reg.sp a)

/-- PUSH {rlist, LR if R} (R325). -/
def execTPush (lr : Bool) (rlist : BitVec 8) (s : State) : Result := outcome (s.push lr rlist)

/-- POP {rlist, PC if R} (R326). -/
def execTPop (pc : Bool) (rlist : BitVec 8) (s : State) : Result := outcome (s.pop pc rlist)

/-! ## T15: load and store multiple -/

/-- STMIA Rb!: every store, then the write-back (R330). -/
def State.storeLowMany (s : State) (rb : LowReg) (rlist : BitVec 8) : Except Fault State := do
  let (a, s') ← s.storeMany false true (lowOrder rlist) (s.x rb.slot)
  .ok (s'.setX rb.slot a)

/-- LDMIA Rb!: every load, then the write-back unless Rb was loaded (R331). -/
def State.loadLowMany (s : State) (rb : LowReg) (rlist : BitVec 8) : Except Fault State := do
  let (a, s') ← s.loadMany false true (lowOrder rlist) (s.x rb.slot)
  .ok (if rlist.getLsbD rb.val then s' else s'.setX rb.slot a)

/-- STMIA Rb!, {rlist} (R330). -/
def execTStmia (rb : LowReg) (rlist : BitVec 8) (s : State) : Result := outcome (s.storeLowMany rb rlist)

/-- LDMIA Rb!, {rlist} (R331). -/
def execTLdmia (rb : LowReg) (rlist : BitVec 8) (s : State) : Result := outcome (s.loadLowMany rb rlist)

end Sys2Proof.Machine
end

