-- ==== Sys2Proof/Machine/Undefined.lean ====
section
/-! DEFINITION. The undefined fallback, one meaning for each row of the table that names it (60_exceptions R551, 30_encoding R175). -/

namespace Sys2Proof.Machine

/-- `UNDEFINED (family 12)`: no-op (R551). -/
def execTUndef12a (s : State) : Result := .next (undefinedFallback s)

/-- `UNDEFINED (family 12)`: no-op (R551). -/
def execTUndef12b (s : State) : Result := .next (undefinedFallback s)

/-- `UNDEFINED (family 13, bits 10:9 = 11)`: no-op (R551). -/
def execTUndef13a (s : State) : Result := .next (undefinedFallback s)

/-- `UNDEFINED (family 13, bits 10:9 = 00 or 01)`: no-op (R551). -/
def execTUndef13b (s : State) : Result := .next (undefinedFallback s)

/-- `UNDEFINED (family 13, bits 10:9 = 11)`: no-op (R551). -/
def execTUndef13c (s : State) : Result := .next (undefinedFallback s)

/-- `UNDEFINED (family 17)`: no-op (R551). -/
def execTUndef17 (s : State) : Result := .next (undefinedFallback s)

/-- `UNDEFINED (multiply space, bits 24:22 = 001)`: no-op (R551). -/
def execAUndefMul001 (c : Cond) (s : State) : Result := whenPassed c s (.next (undefinedFallback s))

/-- `UNDEFINED (multiply space, bits 24:23 = 11)`: no-op (R551). -/
def execAUndefMul11 (c : Cond) (s : State) : Result := whenPassed c s (.next (undefinedFallback s))

/-- `UNDEFINED (swap space, bits 21:20 = 01)`: no-op (R551). -/
def execAUndefSwap01 (c : Cond) (s : State) : Result := whenPassed c s (.next (undefinedFallback s))

/-- `UNDEFINED (swap space, bits 21:20 = 10)`: no-op (R551). -/
def execAUndefSwap10 (c : Cond) (s : State) : Result := whenPassed c s (.next (undefinedFallback s))

/-- `UNDEFINED (swap space, bits 21:20 = 11)`: no-op (R551). -/
def execAUndefSwap11 (c : Cond) (s : State) : Result := whenPassed c s (.next (undefinedFallback s))

/-- `UNDEFINED (LDRD space, L = 0, SH = 10)`: no-op (R551). -/
def execAUndefLdrd (c : Cond) (s : State) : Result := whenPassed c s (.next (undefinedFallback s))

/-- `UNDEFINED (STRD space, L = 0, SH = 11)`: no-op (R551). -/
def execAUndefStrd (c : Cond) (s : State) : Result := whenPassed c s (.next (undefinedFallback s))

/-- `UNDEFINED (miscellaneous, bits 7:4 = 0001, bits 22:21 = 00)`: no-op (R551). -/
def execAUndefMisc0001op00 (c : Cond) (s : State) : Result := whenPassed c s (.next (undefinedFallback s))

/-- `UNDEFINED (miscellaneous, bits 7:4 = 0001, bits 22:21 = 10)`: no-op (R551). -/
def execAUndefMisc0001op10 (c : Cond) (s : State) : Result := whenPassed c s (.next (undefinedFallback s))

/-- `UNDEFINED (miscellaneous, bits 7:4 = 0011, bits 22:21 = 00)`: no-op (R551). -/
def execAUndefMisc0011op00 (c : Cond) (s : State) : Result := whenPassed c s (.next (undefinedFallback s))

/-- `UNDEFINED (miscellaneous, bits 7:4 = 0011, bits 22:21 = 10)`: no-op (R551). -/
def execAUndefMisc0011op10 (c : Cond) (s : State) : Result := whenPassed c s (.next (undefinedFallback s))

/-- `UNDEFINED (miscellaneous, bits 7:4 = 0011, bits 22:21 = 11)`: no-op (R551). -/
def execAUndefMisc0011op11 (c : Cond) (s : State) : Result := whenPassed c s (.next (undefinedFallback s))

/-- `UNDEFINED (miscellaneous, bits 7:4 = 0010)`: no-op (R551). -/
def execAUndefMisc0010 (c : Cond) (s : State) : Result := whenPassed c s (.next (undefinedFallback s))

/-- `UNDEFINED (miscellaneous, bits 7:4 = 0100)`: no-op (R551). -/
def execAUndefMisc0100 (c : Cond) (s : State) : Result := whenPassed c s (.next (undefinedFallback s))

/-- `UNDEFINED (miscellaneous, bits 7:4 = 0101, saturating arithmetic on ARMv5TE)`: no-op (R551). -/
def execAUndefMisc0101 (c : Cond) (s : State) : Result := whenPassed c s (.next (undefinedFallback s))

/-- `UNDEFINED (miscellaneous, bits 7:4 = 0110)`: no-op (R551). -/
def execAUndefMisc0110 (c : Cond) (s : State) : Result := whenPassed c s (.next (undefinedFallback s))

/-- `UNDEFINED (miscellaneous, bits 7:4 = 0111, BKPT on ARMv5TE)`: no-op (R551). -/
def execAUndefMisc0111 (c : Cond) (s : State) : Result := whenPassed c s (.next (undefinedFallback s))

/-- `UNDEFINED (immediate test-opcode space with S = 0: bits 24:23 = 10, bit 21 = 0, bit 20 = 0)`: no-op (R551). -/
def execAUndefImm (c : Cond) (s : State) : Result := whenPassed c s (.next (undefinedFallback s))

/-- `UNDEFINED (register-offset space with bit 4 = 1)`: no-op (R551). -/
def execAUndefRegOff (c : Cond) (s : State) : Result := whenPassed c s (.next (undefinedFallback s))

/-- `UNDEFINED (coprocessor and software-interrupt space)`: no-op (R551). -/
def execAUndefCop (c : Cond) (s : State) : Result := whenPassed c s (.next (undefinedFallback s))

end Sys2Proof.Machine
end

