-- ==== Sys2Proof/Machine/Dispatch.lean ====
section
/-! DEFINITION. Dispatch: one arm for each constructor of Instr, each one call of its meaning. -/

namespace Sys2Proof.Machine

def exec (i : Instr) (s : State) : Host.Outcome State Fault Refusal :=
  match i with
  | .tLslImm imm5 rs rd => Sys2Proof.Machine.execTLslImm imm5 rs rd s
  | .tLsrImm imm5 rs rd => Sys2Proof.Machine.execTLsrImm imm5 rs rd s
  | .tAsrImm imm5 rs rd => Sys2Proof.Machine.execTAsrImm imm5 rs rd s
  | .tAddReg rn rs rd => Sys2Proof.Machine.execTAddReg rn rs rd s
  | .tSubReg rn rs rd => Sys2Proof.Machine.execTSubReg rn rs rd s
  | .tAddImm3 imm3 rs rd => Sys2Proof.Machine.execTAddImm3 imm3 rs rd s
  | .tSubImm3 imm3 rs rd => Sys2Proof.Machine.execTSubImm3 imm3 rs rd s
  | .tMovImm rd imm8 => Sys2Proof.Machine.execTMovImm rd imm8 s
  | .tCmpImm rd imm8 => Sys2Proof.Machine.execTCmpImm rd imm8 s
  | .tAddImm8 rd imm8 => Sys2Proof.Machine.execTAddImm8 rd imm8 s
  | .tSubImm8 rd imm8 => Sys2Proof.Machine.execTSubImm8 rd imm8 s
  | .tAnd rs rd => Sys2Proof.Machine.execTAnd rs rd s
  | .tEor rs rd => Sys2Proof.Machine.execTEor rs rd s
  | .tLslReg rs rd => Sys2Proof.Machine.execTLslReg rs rd s
  | .tLsrReg rs rd => Sys2Proof.Machine.execTLsrReg rs rd s
  | .tAsrReg rs rd => Sys2Proof.Machine.execTAsrReg rs rd s
  | .tAdc rs rd => Sys2Proof.Machine.execTAdc rs rd s
  | .tSbc rs rd => Sys2Proof.Machine.execTSbc rs rd s
  | .tRorReg rs rd => Sys2Proof.Machine.execTRorReg rs rd s
  | .tTst rs rd => Sys2Proof.Machine.execTTst rs rd s
  | .tNeg rs rd => Sys2Proof.Machine.execTNeg rs rd s
  | .tCmpReg rs rd => Sys2Proof.Machine.execTCmpReg rs rd s
  | .tCmn rs rd => Sys2Proof.Machine.execTCmn rs rd s
  | .tOrr rs rd => Sys2Proof.Machine.execTOrr rs rd s
  | .tMul rs rd => Sys2Proof.Machine.execTMul rs rd s
  | .tBic rs rd => Sys2Proof.Machine.execTBic rs rd s
  | .tMvn rs rd => Sys2Proof.Machine.execTMvn rs rd s
  | .tAddHi hd hs => Sys2Proof.Machine.execTAddHi hd hs s
  | .tCmpHi hd hs => Sys2Proof.Machine.execTCmpHi hd hs s
  | .tMovHi hd hs => Sys2Proof.Machine.execTMovHi hd hs s
  | .tBx hs => Sys2Proof.Machine.execTBx hs s
  | .tBlx hs => Sys2Proof.Machine.execTBlx hs s
  | .tLdrPc rd offset => Sys2Proof.Machine.execTLdrPc rd offset s
  | .tStrReg ro rb rd => Sys2Proof.Machine.execTStrReg ro rb rd s
  | .tStrbReg ro rb rd => Sys2Proof.Machine.execTStrbReg ro rb rd s
  | .tLdrReg ro rb rd => Sys2Proof.Machine.execTLdrReg ro rb rd s
  | .tLdrbReg ro rb rd => Sys2Proof.Machine.execTLdrbReg ro rb rd s
  | .tStrhReg ro rb rd => Sys2Proof.Machine.execTStrhReg ro rb rd s
  | .tLdrsbReg ro rb rd => Sys2Proof.Machine.execTLdrsbReg ro rb rd s
  | .tLdrhReg ro rb rd => Sys2Proof.Machine.execTLdrhReg ro rb rd s
  | .tLdrshReg ro rb rd => Sys2Proof.Machine.execTLdrshReg ro rb rd s
  | .tStrImm offset rb rd => Sys2Proof.Machine.execTStrImm offset rb rd s
  | .tLdrImm offset rb rd => Sys2Proof.Machine.execTLdrImm offset rb rd s
  | .tStrbImm offset rb rd => Sys2Proof.Machine.execTStrbImm offset rb rd s
  | .tLdrbImm offset rb rd => Sys2Proof.Machine.execTLdrbImm offset rb rd s
  | .tStrhImm offset rb rd => Sys2Proof.Machine.execTStrhImm offset rb rd s
  | .tLdrhImm offset rb rd => Sys2Proof.Machine.execTLdrhImm offset rb rd s
  | .tStrSp rd offset => Sys2Proof.Machine.execTStrSp rd offset s
  | .tLdrSp rd offset => Sys2Proof.Machine.execTLdrSp rd offset s
  | .tAddPc rd offset => Sys2Proof.Machine.execTAddPc rd offset s
  | .tAddSp rd offset => Sys2Proof.Machine.execTAddSp rd offset s
  | .tIncSp offset => Sys2Proof.Machine.execTIncSp offset s
  | .tDecSp offset => Sys2Proof.Machine.execTDecSp offset s
  | .tUndef12a => Sys2Proof.Machine.execTUndef12a s
  | .tUndef12b => Sys2Proof.Machine.execTUndef12b s
  | .tPush lr rlist => Sys2Proof.Machine.execTPush lr rlist s
  | .tUndef13a => Sys2Proof.Machine.execTUndef13a s
  | .tUndef13b => Sys2Proof.Machine.execTUndef13b s
  | .tPop pc rlist => Sys2Proof.Machine.execTPop pc rlist s
  | .tUndef13c => Sys2Proof.Machine.execTUndef13c s
  | .tStmia rb rlist => Sys2Proof.Machine.execTStmia rb rlist s
  | .tLdmia rb rlist => Sys2Proof.Machine.execTLdmia rb rlist s
  | .tBCond cond offset => Sys2Proof.Machine.execTBCond cond offset s
  | .tB offset => Sys2Proof.Machine.execTB offset s
  | .tUndef17 => Sys2Proof.Machine.execTUndef17 s
  | .tBlFirst offset => Sys2Proof.Machine.execTBlFirst offset s
  | .tBlSecond offset => Sys2Proof.Machine.execTBlSecond offset s
  | .aMul c sf rd rs rm => Sys2Proof.Machine.execAMul c sf rd rs rm s
  | .aMla c sf rd rn rs rm => Sys2Proof.Machine.execAMla c sf rd rn rs rm s
  | .aUmull c sf rdHi rdLo rs rm => Sys2Proof.Machine.execAUmull c sf rdHi rdLo rs rm s
  | .aUmlal c sf rdHi rdLo rs rm => Sys2Proof.Machine.execAUmlal c sf rdHi rdLo rs rm s
  | .aSmull c sf rdHi rdLo rs rm => Sys2Proof.Machine.execASmull c sf rdHi rdLo rs rm s
  | .aSmlal c sf rdHi rdLo rs rm => Sys2Proof.Machine.execASmlal c sf rdHi rdLo rs rm s
  | .aSwp c rn rd rm => Sys2Proof.Machine.execASwp c rn rd rm s
  | .aSwpb c rn rd rm => Sys2Proof.Machine.execASwpb c rn rd rm s
  | .aUndefMul001 c => Sys2Proof.Machine.execAUndefMul001 c s
  | .aUndefMul11 c => Sys2Proof.Machine.execAUndefMul11 c s
  | .aUndefSwap01 c => Sys2Proof.Machine.execAUndefSwap01 c s
  | .aUndefSwap10 c => Sys2Proof.Machine.execAUndefSwap10 c s
  | .aUndefSwap11 c => Sys2Proof.Machine.execAUndefSwap11 c s
  | .aStrh c p u w rn rd off => Sys2Proof.Machine.execAStrh c p u w rn rd off s
  | .aUndefLdrd c => Sys2Proof.Machine.execAUndefLdrd c s
  | .aUndefStrd c => Sys2Proof.Machine.execAUndefStrd c s
  | .aLdrh c p u w rn rd off => Sys2Proof.Machine.execALdrh c p u w rn rd off s
  | .aLdrsb c p u w rn rd off => Sys2Proof.Machine.execALdrsb c p u w rn rd off s
  | .aLdrsh c p u w rn rd off => Sys2Proof.Machine.execALdrsh c p u w rn rd off s
  | .aMrs c r rd => Sys2Proof.Machine.execAMrs c r rd s
  | .aMsrReg c r mask rm => Sys2Proof.Machine.execAMsrReg c r mask rm s
  | .aBx c rm => Sys2Proof.Machine.execABx c rm s
  | .aClz c rd rm => Sys2Proof.Machine.execAClz c rd rm s
  | .aBlxReg c rm => Sys2Proof.Machine.execABlxReg c rm s
  | .aSmlaxy c y x rd rn rs rm => Sys2Proof.Machine.execASmlaxy c y x rd rn rs rm s
  | .aSmlawy c y rd rn rs rm => Sys2Proof.Machine.execASmlawy c y rd rn rs rm s
  | .aSmulwy c y rd rs rm => Sys2Proof.Machine.execASmulwy c y rd rs rm s
  | .aSmlalxy c y x rdHi rdLo rs rm => Sys2Proof.Machine.execASmlalxy c y x rdHi rdLo rs rm s
  | .aSmulxy c y x rd rs rm => Sys2Proof.Machine.execASmulxy c y x rd rs rm s
  | .aUndefMisc0001op00 c => Sys2Proof.Machine.execAUndefMisc0001op00 c s
  | .aUndefMisc0001op10 c => Sys2Proof.Machine.execAUndefMisc0001op10 c s
  | .aUndefMisc0011op00 c => Sys2Proof.Machine.execAUndefMisc0011op00 c s
  | .aUndefMisc0011op10 c => Sys2Proof.Machine.execAUndefMisc0011op10 c s
  | .aUndefMisc0011op11 c => Sys2Proof.Machine.execAUndefMisc0011op11 c s
  | .aUndefMisc0010 c => Sys2Proof.Machine.execAUndefMisc0010 c s
  | .aUndefMisc0100 c => Sys2Proof.Machine.execAUndefMisc0100 c s
  | .aUndefMisc0101 c => Sys2Proof.Machine.execAUndefMisc0101 c s
  | .aUndefMisc0110 c => Sys2Proof.Machine.execAUndefMisc0110 c s
  | .aUndefMisc0111 c => Sys2Proof.Machine.execAUndefMisc0111 c s
  | .aAndShImm c sf rn rd shImm sh rm => Sys2Proof.Machine.execAAndShImm c sf rn rd shImm sh rm s
  | .aAndShReg c sf rn rd rs sh rm => Sys2Proof.Machine.execAAndShReg c sf rn rd rs sh rm s
  | .aEorShImm c sf rn rd shImm sh rm => Sys2Proof.Machine.execAEorShImm c sf rn rd shImm sh rm s
  | .aEorShReg c sf rn rd rs sh rm => Sys2Proof.Machine.execAEorShReg c sf rn rd rs sh rm s
  | .aSubShImm c sf rn rd shImm sh rm => Sys2Proof.Machine.execASubShImm c sf rn rd shImm sh rm s
  | .aSubShReg c sf rn rd rs sh rm => Sys2Proof.Machine.execASubShReg c sf rn rd rs sh rm s
  | .aRsbShImm c sf rn rd shImm sh rm => Sys2Proof.Machine.execARsbShImm c sf rn rd shImm sh rm s
  | .aRsbShReg c sf rn rd rs sh rm => Sys2Proof.Machine.execARsbShReg c sf rn rd rs sh rm s
  | .aAddShImm c sf rn rd shImm sh rm => Sys2Proof.Machine.execAAddShImm c sf rn rd shImm sh rm s
  | .aAddShReg c sf rn rd rs sh rm => Sys2Proof.Machine.execAAddShReg c sf rn rd rs sh rm s
  | .aAdcShImm c sf rn rd shImm sh rm => Sys2Proof.Machine.execAAdcShImm c sf rn rd shImm sh rm s
  | .aAdcShReg c sf rn rd rs sh rm => Sys2Proof.Machine.execAAdcShReg c sf rn rd rs sh rm s
  | .aSbcShImm c sf rn rd shImm sh rm => Sys2Proof.Machine.execASbcShImm c sf rn rd shImm sh rm s
  | .aSbcShReg c sf rn rd rs sh rm => Sys2Proof.Machine.execASbcShReg c sf rn rd rs sh rm s
  | .aRscShImm c sf rn rd shImm sh rm => Sys2Proof.Machine.execARscShImm c sf rn rd shImm sh rm s
  | .aRscShReg c sf rn rd rs sh rm => Sys2Proof.Machine.execARscShReg c sf rn rd rs sh rm s
  | .aTstShImm c rn shImm sh rm => Sys2Proof.Machine.execATstShImm c rn shImm sh rm s
  | .aTstShReg c rn rs sh rm => Sys2Proof.Machine.execATstShReg c rn rs sh rm s
  | .aTeqShImm c rn shImm sh rm => Sys2Proof.Machine.execATeqShImm c rn shImm sh rm s
  | .aTeqShReg c rn rs sh rm => Sys2Proof.Machine.execATeqShReg c rn rs sh rm s
  | .aCmpShImm c rn shImm sh rm => Sys2Proof.Machine.execACmpShImm c rn shImm sh rm s
  | .aCmpShReg c rn rs sh rm => Sys2Proof.Machine.execACmpShReg c rn rs sh rm s
  | .aCmnShImm c rn shImm sh rm => Sys2Proof.Machine.execACmnShImm c rn shImm sh rm s
  | .aCmnShReg c rn rs sh rm => Sys2Proof.Machine.execACmnShReg c rn rs sh rm s
  | .aOrrShImm c sf rn rd shImm sh rm => Sys2Proof.Machine.execAOrrShImm c sf rn rd shImm sh rm s
  | .aOrrShReg c sf rn rd rs sh rm => Sys2Proof.Machine.execAOrrShReg c sf rn rd rs sh rm s
  | .aMovShImm c sf rd shImm sh rm => Sys2Proof.Machine.execAMovShImm c sf rd shImm sh rm s
  | .aMovShReg c sf rd rs sh rm => Sys2Proof.Machine.execAMovShReg c sf rd rs sh rm s
  | .aBicShImm c sf rn rd shImm sh rm => Sys2Proof.Machine.execABicShImm c sf rn rd shImm sh rm s
  | .aBicShReg c sf rn rd rs sh rm => Sys2Proof.Machine.execABicShReg c sf rn rd rs sh rm s
  | .aMvnShImm c sf rd shImm sh rm => Sys2Proof.Machine.execAMvnShImm c sf rd shImm sh rm s
  | .aMvnShReg c sf rd rs sh rm => Sys2Proof.Machine.execAMvnShReg c sf rd rs sh rm s
  | .aMsrImm c r mask rot imm8 => Sys2Proof.Machine.execAMsrImm c r mask rot imm8 s
  | .aUndefImm c => Sys2Proof.Machine.execAUndefImm c s
  | .aAndImm c sf rn rd rot imm8 => Sys2Proof.Machine.execAAndImm c sf rn rd rot imm8 s
  | .aEorImm c sf rn rd rot imm8 => Sys2Proof.Machine.execAEorImm c sf rn rd rot imm8 s
  | .aSubImm c sf rn rd rot imm8 => Sys2Proof.Machine.execASubImm c sf rn rd rot imm8 s
  | .aRsbImm c sf rn rd rot imm8 => Sys2Proof.Machine.execARsbImm c sf rn rd rot imm8 s
  | .aAddImm c sf rn rd rot imm8 => Sys2Proof.Machine.execAAddImm c sf rn rd rot imm8 s
  | .aAdcImm c sf rn rd rot imm8 => Sys2Proof.Machine.execAAdcImm c sf rn rd rot imm8 s
  | .aSbcImm c sf rn rd rot imm8 => Sys2Proof.Machine.execASbcImm c sf rn rd rot imm8 s
  | .aRscImm c sf rn rd rot imm8 => Sys2Proof.Machine.execARscImm c sf rn rd rot imm8 s
  | .aTstImm c rn rot imm8 => Sys2Proof.Machine.execATstImm c rn rot imm8 s
  | .aTeqImm c rn rot imm8 => Sys2Proof.Machine.execATeqImm c rn rot imm8 s
  | .aCmpImm c rn rot imm8 => Sys2Proof.Machine.execACmpImm c rn rot imm8 s
  | .aCmnImm c rn rot imm8 => Sys2Proof.Machine.execACmnImm c rn rot imm8 s
  | .aOrrImm c sf rn rd rot imm8 => Sys2Proof.Machine.execAOrrImm c sf rn rd rot imm8 s
  | .aMovImm c sf rd rot imm8 => Sys2Proof.Machine.execAMovImm c sf rd rot imm8 s
  | .aBicImm c sf rn rd rot imm8 => Sys2Proof.Machine.execABicImm c sf rn rd rot imm8 s
  | .aMvnImm c sf rd rot imm8 => Sys2Proof.Machine.execAMvnImm c sf rd rot imm8 s
  | .aStrPreImm c u w rn rd imm12 => Sys2Proof.Machine.execAStrPreImm c u w rn rd imm12 s
  | .aStrPostImm c u rn rd imm12 => Sys2Proof.Machine.execAStrPostImm c u rn rd imm12 s
  | .aStrtImm c u rn rd imm12 => Sys2Proof.Machine.execAStrtImm c u rn rd imm12 s
  | .aLdrPreImm c u w rn rd imm12 => Sys2Proof.Machine.execALdrPreImm c u w rn rd imm12 s
  | .aLdrPostImm c u rn rd imm12 => Sys2Proof.Machine.execALdrPostImm c u rn rd imm12 s
  | .aLdrtImm c u rn rd imm12 => Sys2Proof.Machine.execALdrtImm c u rn rd imm12 s
  | .aStrbPreImm c u w rn rd imm12 => Sys2Proof.Machine.execAStrbPreImm c u w rn rd imm12 s
  | .aStrbPostImm c u rn rd imm12 => Sys2Proof.Machine.execAStrbPostImm c u rn rd imm12 s
  | .aStrbtImm c u rn rd imm12 => Sys2Proof.Machine.execAStrbtImm c u rn rd imm12 s
  | .aLdrbPreImm c u w rn rd imm12 => Sys2Proof.Machine.execALdrbPreImm c u w rn rd imm12 s
  | .aLdrbPostImm c u rn rd imm12 => Sys2Proof.Machine.execALdrbPostImm c u rn rd imm12 s
  | .aLdrbtImm c u rn rd imm12 => Sys2Proof.Machine.execALdrbtImm c u rn rd imm12 s
  | .aStrPreReg c u w rn rd shImm sh rm => Sys2Proof.Machine.execAStrPreReg c u w rn rd shImm sh rm s
  | .aStrPostReg c u rn rd shImm sh rm => Sys2Proof.Machine.execAStrPostReg c u rn rd shImm sh rm s
  | .aStrtReg c u rn rd shImm sh rm => Sys2Proof.Machine.execAStrtReg c u rn rd shImm sh rm s
  | .aLdrPreReg c u w rn rd shImm sh rm => Sys2Proof.Machine.execALdrPreReg c u w rn rd shImm sh rm s
  | .aLdrPostReg c u rn rd shImm sh rm => Sys2Proof.Machine.execALdrPostReg c u rn rd shImm sh rm s
  | .aLdrtReg c u rn rd shImm sh rm => Sys2Proof.Machine.execALdrtReg c u rn rd shImm sh rm s
  | .aStrbPreReg c u w rn rd shImm sh rm => Sys2Proof.Machine.execAStrbPreReg c u w rn rd shImm sh rm s
  | .aStrbPostReg c u rn rd shImm sh rm => Sys2Proof.Machine.execAStrbPostReg c u rn rd shImm sh rm s
  | .aStrbtReg c u rn rd shImm sh rm => Sys2Proof.Machine.execAStrbtReg c u rn rd shImm sh rm s
  | .aLdrbPreReg c u w rn rd shImm sh rm => Sys2Proof.Machine.execALdrbPreReg c u w rn rd shImm sh rm s
  | .aLdrbPostReg c u rn rd shImm sh rm => Sys2Proof.Machine.execALdrbPostReg c u rn rd shImm sh rm s
  | .aLdrbtReg c u rn rd shImm sh rm => Sys2Proof.Machine.execALdrbtReg c u rn rd shImm sh rm s
  | .aUndefRegOff c => Sys2Proof.Machine.execAUndefRegOff c s
  | .aStmda c sbit w rn rlist => Sys2Proof.Machine.execAStmda c sbit w rn rlist s
  | .aStmia c sbit w rn rlist => Sys2Proof.Machine.execAStmia c sbit w rn rlist s
  | .aStmdb c sbit w rn rlist => Sys2Proof.Machine.execAStmdb c sbit w rn rlist s
  | .aStmib c sbit w rn rlist => Sys2Proof.Machine.execAStmib c sbit w rn rlist s
  | .aLdmda c sbit w rn rlist => Sys2Proof.Machine.execALdmda c sbit w rn rlist s
  | .aLdmia c sbit w rn rlist => Sys2Proof.Machine.execALdmia c sbit w rn rlist s
  | .aLdmdb c sbit w rn rlist => Sys2Proof.Machine.execALdmdb c sbit w rn rlist s
  | .aLdmib c sbit w rn rlist => Sys2Proof.Machine.execALdmib c sbit w rn rlist s
  | .aB c offset => Sys2Proof.Machine.execAB c offset s
  | .aBl c offset => Sys2Proof.Machine.execABl c offset s
  | .aUndefCop c => Sys2Proof.Machine.execAUndefCop c s

end Sys2Proof.Machine
end

