-- ==== Sys2Proof/Machine/Execute.lean ====
section
/-! DEFINITION. The execute cycle (30_encoding R131) and the host's fetch (70_reset R584). -/

namespace Sys2Proof.Machine

/-- What `execute` has done when it dispatches: BreakState reset and PC advanced (R131). -/
def State.begin (s : State) : State := s.clearBreak.advance

/-- `execute(instruction, mode)` (30_encoding R131): BreakState reset, the two host checks in their order (60_exceptions R552),
the PC advance, then the handler. The condition gate of a full instruction stands in its meaning. -/
def execute (value : Word) (compact : Bool) (s : State) : Result :=
  if compact ≠ s.flagT then .fault (.modeMismatch s.clearBreak)
  else
    match decodeValue compact value with
    | .error _ => .fault (.wideCompact s.clearBreak)
    | .ok i => exec i s.begin

/-- The size of an instruction in the mode the core is in (30_encoding R134). -/
def State.fetchSize (s : State) : Size := if s.flagT then .half else .word

/-- The host's fetch: RawRead(x[15] - w, w), no monitor event (10_state R40, 70_reset R584). -/
def State.fetch (s : State) : Except Fault Word := s.rawRead s.fetchAddr s.fetchSize

/-- One round of the host's loop: fetch, then `execute` with mode = (PSR.T = 1) (70_reset R584). -/
def hostRound (s : State) : Result :=
  match s.fetch with
  | .error f => .fault f
  | .ok value => execute value s.flagT s

/-- The state with an instruction word stored where the next fetch reads it, in the mode of that word: PSR.T is set, and the
word's bytes are written at x[15] - w for the new w. A region shorter than the word is left as it is. -/
def State.placeWord (s : State) (compact : Bool) (value : Word) : State :=
  let s' := s.setT compact
  match s'.rawWrite s'.fetchAddr s'.fetchSize value with
  | .ok s'' => s''
  | .error _ => s'

end Sys2Proof.Machine
end

