-- ==== Sys2Proof/Machine/Step.lean ====
section
/-! DEFINITION. One step: one round of the host's loop (70_reset R584). -/

namespace Sys2Proof.Machine

/-- Fetch the next instruction and run it. -/
def step (s : State) : Host.Outcome State Fault Refusal := hostRound s

/-- The state with the table word `w` of `nbits` bits stored where the next step fetches (compact when `nbits ≤ 16`). -/
def State.withFetchWord (s : State) (nbits w : Nat) : State :=
  s.placeWord (decide (nbits ≤ 16)) (BitVec.ofNat 32 (w % 2 ^ nbits))

end Sys2Proof.Machine
end

