-- ==== Sys2Proof/Machine/Run.lean ====
section
/-! DEFINITION. Runs and their end (70_reset R586). The machine has no halt: a run is a sequence of steps from a launch state
that ends at the first state whose next fetch address is the launch parameter STOP. -/

namespace Sys2Proof.Machine

/-- The next instruction would be fetched from STOP (70_reset R586). -/
abbrev AtStop (stop : Word) (s : State) : Prop := s.fetchAddr = stop

/-- Where a run is after a number of steps. -/
inductive RunState
  /-- It goes on from `s`. -/
  | running (s : State)
  /-- It has ended, and `s` is its end state. -/
  | ended (s : State)
  /-- A step was a HostDefect, which ends no run: it is a fault without a successor (60_exceptions R552). -/
  | defect (f : Fault)
  /-- A step was refused. No step of this machine is. -/
  | refused (r : Refusal)
  deriving DecidableEq, Repr

/-- The run with STOP = `stop` from `s`, after at most `n` steps: the test for STOP comes before each step, so the instruction
at STOP is not executed (70_reset R586). DEDUCED (unsafe, log entry 16): the launch state counts, so a run launched at STOP has
ended. -/
def run (stop : Word) : Nat → State → RunState
  | 0, s => if AtStop stop s then .ended s else .running s
  | n + 1, s =>
    if AtStop stop s then .ended s
    else
      match step s with
      | .next t => run stop n t
      | .fault f => .defect f
      | .refused r => .refused r

/-- The run ends, and `t` is its end state (70_reset R586). -/
def RunEndsIn (stop : Word) (s t : State) : Prop := ∃ n, run stop n s = .ended t

/-- The run never reaches STOP and never stops: it is infinite (70_reset R586). -/
def RunIsInfinite (stop : Word) (s : State) : Prop := ∀ n, ∃ t, run stop n s = .running t

/-- The run meets a HostDefect, which is no end state (70_reset R586, 60_exceptions R552). -/
def RunMeetsDefect (stop : Word) (s : State) (f : Fault) : Prop := ∃ n, run stop n s = .defect f

end Sys2Proof.Machine
end

