-- ==== Sys2Proof/Safety.lean ====
section
/-! DEFINITION. What counts as a safe run and the terms the claims use: the invariant of the machine, HostDefect
(60_exceptions R552), what an access reads and stores (20_memory R80 to R106) written down byte by
byte and not through the access operations, the frame of an instruction, and the exact arithmetic of the adder. -/

namespace Sys2Proof.Machine

/-! ## Runs -/

/-- `n` steps lead from one state to the other. -/
def StepsTo : Nat → State → State → Prop
  | 0, s, t => t = s
  | n + 1, s, t => ∃ u, step s = .next u ∧ StepsTo n u t

/-- A step that ends in HostDefect has no successor (60_exceptions R552). -/
def HostDefect (s : State) : Prop := ∃ f, step s = .fault f

/-- x[15] is even, and a multiple of 4 in full mode: what every pc-write establishes (10_state R43). -/
def State.PcAligned (s : State) : Prop :=
  (s.x Reg.pc).getLsbD 0 = false ∧ (s.flagT = false → (s.x Reg.pc).getLsbD 1 = false)

/-- The invariant every step keeps: canonical memory, aligned PC. -/
def State.Inv (s : State) : Prop := s.mem.wf ∧ s.PcAligned

/-- Every region is long enough for any access and for any DMA copy (at most 0xFFFF elements of 4 bytes, 20_memory R103). -/
def State.Roomy (s : State) : Prop := ∀ r : Fin 16, 0x3FFFC ≤ (s.region r).len

/-- The instruction completes: `exec` answers a next state, and `P` holds of it. -/
def Completes (i : Instr) (s : State) (P : State → Prop) : Prop := ∃ t, exec i s = .next t ∧ P t

/-! ## The frame of an instruction -/

/-- Every register slot outside `ds` holds what it held. -/
def State.KeepsRegs (s t : State) (ds : List Reg) : Prop := ∀ r, r ∉ ds → t.x r = s.x r

/-- Every PSR bit outside `ks` holds what it held. -/
def State.KeepsPsr (s t : State) (ks : List Nat) : Prop :=
  ∀ k, k < 32 → k ∉ ks → t.psr.getLsbD k = s.psr.getLsbD k

/-- Every address reads the byte it read, and the regions are the same. -/
def State.KeepsMemory (s t : State) : Prop := (∀ a, t.byteAt a = s.byteAt a) ∧ t.mem = s.mem

/-- The frame of an instruction that makes no access: registers outside `ds`, PSR bits outside `ks`, memory, the monitor
output and the host's parameters are unchanged. -/
def State.Frame (s t : State) (ds : List Reg) (ks : List Nat) : Prop :=
  s.KeepsRegs t ds ∧ s.KeepsPsr t ks ∧ s.KeepsMemory t ∧ t.breakState = s.breakState ∧ t.host = s.host

/-- N and Z as a result sets them (40 R205). -/
def State.NzOf (t : State) (r : Word) : Prop := t.flagN = r.msb ∧ t.flagZ = (r == 0)

/-- What `pc <- t` stores into slot 15, T being `m` (10_state R43). -/
def pcStored (m : Bool) (t : Word) : Word :=
  if m then (t &&& 0xFFFFFFFE) + 2 else (t &&& 0xFFFFFFFC) + 4

/-- What an instruction's write of `v` to register `r` leaves in it: slot 15 takes the pc-write (10_state R44). -/
def stored (m : Bool) (r : Reg) (v : Word) : Word := if r = Reg.pc then pcStored m v else v

/-! ## Exact arithmetic (40 R202, R203, R206, R207) -/

/-- A flag as an integer. -/
def flagInt (b : Bool) : Int := if b then 1 else 0

/-- Outside -2^31 .. 2^31 - 1. -/
def overflows (n : Int) : Bool := decide (n < -2147483648 ∨ 2147483647 < n)

/-- a + b + cin: wrapped, with the carry out of bit 31 and the signed overflow of the exact sum. -/
def exactAdd (a b : Word) (cin : Bool) : AddResult :=
  ⟨BitVec.ofInt 32 (a.toNat + b.toNat + flagInt cin), decide (2 ^ 32 ≤ a.toNat + b.toNat + cin.toNat),
    overflows (a.toInt + b.toInt + flagInt cin)⟩

/-- a - b - (1 - cin): wrapped, carry 1 exactly when nothing is borrowed, the signed overflow of the exact difference. -/
def exactSub (a b : Word) (cin : Bool) : AddResult :=
  ⟨BitVec.ofInt 32 (a.toInt - b.toInt - (1 - flagInt cin)), decide (b.toNat + (1 - cin.toNat) ≤ a.toNat),
    overflows (a.toInt - b.toInt - (1 - flagInt cin))⟩

/-! ## Bytes of an access (20_memory R84, R85) -/

/-- Byte `i` of an access at `a`: M_r[(off(a) + i) mod Len[r]] (R84). -/
def State.spanByte (s : State) (a : Word) (i : Nat) : Byte :=
  (s.region (regionIndex a)).get ((s.offset a + i) % (s.region (regionIndex a)).len)

/-- The value of an access: the sum over i of byte i times 2^(8i) (R85). -/
def State.valueAt (s : State) (a : Word) (z : Size) : Word :=
  BitVec.ofNat 32 ((List.range z.bytes).map fun i => (s.spanByte a i).toNat * 2 ^ (8 * i)).sum

/-- Offset `o` of region `r` is one of the `n` bytes of an access at `a`. -/
def State.spans (s : State) (a : Word) (n : Nat) (r : Fin 16) (o : Nat) : Bool :=
  r == regionIndex a && (List.range n).any fun i => (s.offset a + i) % (s.region (regionIndex a)).len == o

/-- The byte address `b` selects is one of the `n` bytes of an access at `a`. -/
def State.covers (s : State) (a : Word) (n : Nat) (b : Word) : Bool := s.spans a n (regionIndex b) (s.offset b)

/-- The region of `a` holds an access of this size (20_memory R82). -/
def State.Fits (s : State) (a : Word) (z : Size) : Prop := z.bytes ≤ (s.region (regionIndex a)).len

/-- Storing `v` at `a` starts the DMA: one of its bytes is the enable byte, and that byte has the enable bit (20_memory R102). -/
def State.triggersDma (s : State) (a : Word) (z : Size) (v : Word) : Bool :=
  regionIndex a == 4 &&
    (List.range z.bytes).any fun i =>
      (s.offset a + i) % (s.region 4).len == s.enableAddr.toNat % (s.region 4).len &&
        (bits v (8 * i) 8).getLsbD s.enableBit

/-- The monitor output after a read of `v` at `a` (20_memory R95). -/
def State.afterRead (s : State) (a : Word) (z : Size) (v : Word) : BreakState :=
  if a ∈ s.host.readSet then .readHit a z v else s.breakState

/-- The monitor output after a store of `v` at `a` (20_memory R96). -/
def State.afterStore (s : State) (a : Word) (z : Size) (v : Word) : BreakState :=
  if a ∈ s.host.watchSet then .watchHit a z (s.valueAt a z) (z.low v) else s.breakState

/-- The regions have the lengths they had. -/
def State.KeepsLengths (s t : State) : Prop := ∀ r : Fin 16, (t.region r).len = (s.region r).len

/-- What a store leaves before any DMA: the value's bytes at the access, every other byte of every region as before, registers,
PSR, lengths and host parameters as they were, and the memory in its canonical form (20_memory R87, R90). This says the state
whole: two states that meet it are equal. -/
def State.StoredPlain (s t : State) (a : Word) (z : Size) (v : Word) : Prop :=
  (∀ i, i < z.bytes → t.spanByte a i = bits v (8 * i) 8) ∧
  (∀ r o, s.spans a z.bytes r o = false → (t.region r).get o = (s.region r).get o) ∧
  s.KeepsRegs t [] ∧ t.psr = s.psr ∧ t.host = s.host ∧ s.KeepsLengths t ∧ t.breakState = s.afterStore a z v ∧ t.mem.wf

/-- What a store leaves: as above, or the DMA transfer of that state when the store starts it (20_memory R90, R102, R105). -/
def State.Stored (s t : State) (a : Word) (z : Size) (v : Word) : Prop :=
  ∃ u, s.StoredPlain u a z v ∧
    if s.triggersDma a z v then u.dmaTransfer = .ok t else t = u

/-- The number of bytes the DMA transfer copies: CNT elements of 4 bytes when the width bit of CTRL is 1, of 2 when it is 0
(20_memory R103). -/
def State.dmaSize (s : State) : Nat :=
  (s.valueAt dmaCnt .half).toNat *
    (if (s.valueAt dmaCtrl .half).getLsbD s.host.dmaWidthBit.val then 4 else 2)

/-- The DMA transfer has room: region 4 holds the DMA registers, and the regions that SAD and DAD name hold the copy
(20_memory R82, R93, R103). -/
def State.DmaFits (s : State) : Prop :=
  4 ≤ (s.region 4).len ∧
    (s.dmaSize = 0 ∨ s.dmaSize ≤ (s.region (regionIndex (s.valueAt dmaSad .word))).len ∧
      s.dmaSize ≤ (s.region (regionIndex (s.valueAt dmaDad .word))).len)

/-- The HostDefect of a DMA transfer without room (20_memory R82, R93). -/
def State.dmaDefect (s : State) : Fault := if (s.region 4).len < 4 then .regionShort s 4 else .copyTooLong s

/-- The state and the operands let a store complete: the region holds it, and the DMA it starts has room in the state the
store leaves. -/
def State.StoreFits (s : State) (a : Word) (z : Size) (v : Word) : Prop :=
  s.Fits a z ∧ (s.triggersDma a z v = true → ∀ u, s.StoredPlain u a z v → u.DmaFits)

/-- The words of a store-multiple, one after the other in the order of the list. -/
def State.StoredAll : State → List (Word × Word) → State → Prop
  | s, [], t => t = s
  | s, p :: ps, t => ∃ u, s.Stored u p.1 .word p.2 ∧ u.StoredAll ps t

/-- The state and the operands let every store of the list complete, each in the state the stores before it leave. -/
def State.AllStoreFit : State → List (Word × Word) → Prop
  | _, [] => True
  | s, p :: ps => s.StoreFits p.1 .word p.2 ∧ ∀ u, s.Stored u p.1 .word p.2 → u.AllStoreFit ps

/-- `f` is the HostDefect of a list of stores whose first word without room ends it: the words before it are stored. A region too
short for the word leaves the state before its store, a DMA without room the word stored (20_memory R82, R90, R93; 60 R552). -/
def State.AllStoreFault : State → List (Word × Word) → Fault → Prop
  | _, [], _ => False
  | s, p :: ps, f =>
    (¬ s.Fits p.1 .word ∧ f = .regionShort s (regionIndex p.1)) ∨
    (s.Fits p.1 .word ∧ ¬ s.StoreFits p.1 .word p.2 ∧ ∃ u, s.StoredPlain u p.1 .word p.2 ∧ f = u.dmaDefect) ∨
    (s.StoreFits p.1 .word p.2 ∧ ∃ u, s.Stored u p.1 .word p.2 ∧ u.AllStoreFault ps f)

/-- No word of the list starts the DMA. -/
def State.NoDma (s : State) (ps : List (Word × Word)) : Prop := ∀ p ∈ ps, s.triggersDma p.1 .word p.2 = false

/-- The address lies outside every word of the list. -/
def State.Outside (s : State) (ps : List (Word × Word)) (b : Word) : Prop := ∀ p ∈ ps, s.covers p.1 4 b = false

/-- The monitor output after reading words at the addresses in order (20_memory R97). -/
def State.afterReads (s : State) (as : List Word) : BreakState :=
  as.foldl (fun e a => if a ∈ s.host.readSet then .readHit a .word (s.valueAt a .word) else e) s.breakState

/-! ## Register lists: register k of the list, ascending, lies at `low + 4k` -/

/-- The slots of a list, ascending, each with its address: the lowest register at the lowest address (47 R540). -/
def listSlots {n : Nat} (rlist : BitVec n) (low : Word) : List (Reg × Word) :=
  (listUp rlist).zipIdx.map fun p => (Fin.ofNat 16 p.1, low + BitVec.ofNat 32 (4 * p.2))

/-- The number of registers in a list, in bytes. -/
def listBytes {n : Nat} (rlist : BitVec n) : Word := BitVec.ofNat 32 (4 * (listUp rlist).length)

/-- The lowest address of a block of the four addressing modes (47 R540). -/
def blockLow (pre up : Bool) (base : Word) (rlist : BitVec 16) : Word :=
  match pre, up with
  | true, true => base + 4
  | false, true => base
  | false, false => base - listBytes rlist + 4
  | true, false => base - listBytes rlist

/-- The address the write-back leaves in the base. -/
def blockEnd (up : Bool) (base : Word) (rlist : BitVec 16) : Word :=
  if up then base + listBytes rlist else base - listBytes rlist

/-- The words a store-multiple writes, in the order it writes them: ascending registers for up, descending for down. -/
def State.storeList (s : State) (up : Bool) (slots : List (Reg × Word)) : List (Word × Word) :=
  let ps := slots.map fun p => (p.2, s.x p.1)
  if up then ps else ps.reverse

/-- The slots in the order a block transfer accesses them: ascending for up, descending for down (47 R540). -/
def accessOrder (up : Bool) (slots : List (Reg × Word)) : List (Reg × Word) := if up then slots else slots.reverse

/-- The addresses a load-multiple reads, in its order. -/
def readList (up : Bool) (slots : List (Reg × Word)) : List Word := (accessOrder up slots).map (·.2)

/-! ## The sixteen conditions (40 R200) -/

/-- The predicate of each code of the table over N, Z, C, V. -/
def conditionHolds (n z c v : Bool) : Nat → Prop
  | 0 => z = true
  | 1 => z = false
  | 2 => c = true
  | 3 => c = false
  | 4 => n = true
  | 5 => n = false
  | 6 => v = true
  | 7 => v = false
  | 8 => c = true ∧ z = false
  | 9 => c = false ∨ z = true
  | 10 => n = v
  | 11 => n ≠ v
  | 12 => z = false ∧ n = v
  | 13 => z = true ∨ n ≠ v
  | 14 => True
  | _ => False

/-! ## What each shape of instruction leaves -/

/-- N and Z, C, and V as an addition or subtraction sets them (40 R204). -/
def State.NzcvOf (t : State) (r : AddResult) : Prop := t.NzOf r.result ∧ t.flagC = r.carry ∧ t.flagV = r.overflow

/-- A register takes a value, nothing else changes. -/
def State.MoveDone (s t : State) (rd : Reg) (v : Word) : Prop := t.x rd = v ∧ s.Frame t [rd] []

/-- A low register takes a result, N and Z follow it, C and V stay. -/
def State.LogicDone (s t : State) (rd : Reg) (r : Word) : Prop := t.x rd = r ∧ t.NzOf r ∧ s.Frame t [rd] [30, 31]

/-- A low register takes a shifter result, N and Z follow it, C is the carry-out, V stays. -/
def State.ShiftDone (s t : State) (rd : Reg) (r : Word × Bool) : Prop :=
  t.x rd = r.1 ∧ t.NzOf r.1 ∧ t.flagC = r.2 ∧ s.Frame t [rd] [29, 30, 31]

/-- A low register takes a sum or difference and all four flags follow it. -/
def State.ArithDone (s t : State) (rd : Reg) (r : AddResult) : Prop :=
  t.x rd = r.result ∧ t.NzcvOf r ∧ s.Frame t [rd] [28, 29, 30, 31]

/-- The four flags follow a sum or difference, no register changes. -/
def State.CompareDone (s t : State) (r : AddResult) : Prop := t.NzcvOf r ∧ s.Frame t [] [28, 29, 30, 31]

/-- A logical data-processing result: Rd by R44, N, Z and C = `sc` when S = 1 (44 R381). -/
def State.DpLogic (s t : State) (sf : Bool) (rd : Reg) (r : Word) (sc : Bool) : Prop :=
  t.x rd = stored s.flagT rd r ∧
    if sf then t.NzOf r ∧ t.flagC = sc ∧ s.Frame t [rd] [29, 30, 31] else s.Frame t [rd] []

/-- An arithmetic data-processing result: Rd by R44, the four flags when S = 1 (44 R381). -/
def State.DpArith (s t : State) (sf : Bool) (rd : Reg) (r : AddResult) : Prop :=
  t.x rd = stored s.flagT rd r.result ∧
    if sf then t.NzcvOf r ∧ s.Frame t [rd] [28, 29, 30, 31] else s.Frame t [rd] []

/-- A 64-bit result: RdLo, then RdHi (so the high word stays when they are one register), N and Z when S = 1 (46 R472). -/
def State.LongDone (s t : State) (sf : Bool) (rdHi rdLo : Reg) (p : BitVec 64) : Prop :=
  t.x rdHi = stored s.flagT rdHi (bits p 32 32) ∧
  (rdLo ≠ rdHi → t.x rdLo = stored s.flagT rdLo (bits p 0 32)) ∧
    if sf then t.flagN = p.msb ∧ t.flagZ = (p == 0) ∧ s.Frame t [rdHi, rdLo] [30, 31] else s.Frame t [rdHi, rdLo] []

/-- The frame of a load: registers outside `ds`, PSR, memory and host parameters are unchanged, the monitor output is the
read's (20_memory R88, R111). -/
def State.ReadFrame (s t : State) (ds : List Reg) (a : Word) (z : Size) : Prop :=
  s.KeepsRegs t ds ∧ t.psr = s.psr ∧ s.KeepsMemory t ∧ t.host = s.host ∧ t.breakState = s.afterRead a z (s.valueAt a z)

/-- The frame and the memory of a store of `v` at `a`: memory and monitor output are the store's, registers outside `ds`, PSR,
host parameters and lengths are unchanged, and where no DMA starts every address outside the stored bytes reads as before. -/
def State.StoreDone (s t : State) (ds : List Reg) (a : Word) (z : Size) (v : Word) : Prop :=
  (∃ u, s.Stored u a z v ∧ t.mem = u.mem ∧ t.breakState = u.breakState) ∧
  s.KeepsRegs t ds ∧ t.psr = s.psr ∧ t.host = s.host ∧ s.KeepsLengths t ∧
  (s.triggersDma a z v = false → ∀ b, s.covers a z.bytes b = false → t.byteAt b = s.byteAt b)

/-- The same for the stores of a list, one after the other. -/
def State.StoreAllDone (s t : State) (ds : List Reg) (ps : List (Word × Word)) : Prop :=
  (∃ u, s.StoredAll ps u ∧ t.mem = u.mem ∧ t.breakState = u.breakState) ∧
  s.KeepsRegs t ds ∧ t.psr = s.psr ∧ t.host = s.host ∧ s.KeepsLengths t ∧
  (s.NoDma ps → ∀ b, s.Outside ps b → t.byteAt b = s.byteAt b)

/-- The frame and the registers of a load-multiple: each slot takes the word at its address (slot 15 by R43), registers outside
the list and `ds` are unchanged, so are PSR, memory and host parameters; the monitor output is the last hit's. -/
def State.LoadAllDone (s t : State) (ds : List Reg) (slots : List (Reg × Word)) (reads : List Word) : Prop :=
  (∀ p ∈ slots, t.x p.1 = stored s.flagT p.1 (s.valueAt p.2 .word)) ∧
  s.KeepsRegs t (slots.map (·.1) ++ ds) ∧ t.psr = s.psr ∧ s.KeepsMemory t ∧ t.host = s.host ∧
  t.breakState = s.afterReads reads

/-! ## Instructions of one shape -/

/-- A compact load: Rd takes `f` of the value at `a`; a region too short for it is HostDefect (20_memory R82). -/
def CompactLoad (i : Instr) (s : State) (rd : LowReg) (a : Word) (z : Size) (f : Word → Word) : Prop :=
  (s.Fits a z → Completes i s fun t => t.x rd.slot = f (s.valueAt a z) ∧ s.ReadFrame t [rd.slot] a z) ∧
  (¬ s.Fits a z → exec i s = .fault (.regionShort s (regionIndex a)))

/-- A store of `v` at `a` without room: a region too short for it is HostDefect, and so is a DMA without room, which leaves the
bytes stored and the watch event (20_memory R82, R90, R93; 92 D55). `r` is the state its reads before the store leave. -/
def StoreStops (i : Instr) (s r : State) (a : Word) (z : Size) (v : Word) : Prop :=
  (¬ s.Fits a z → exec i s = .fault (.regionShort s (regionIndex a))) ∧
  (s.Fits a z → ¬ s.StoreFits a z v → ∃ u, r.StoredPlain u a z v ∧ exec i s = .fault u.dmaDefect)

/-- A list of stores without room is HostDefect at its first word without room. SP, base and every other register are as they
were: a write-back comes after the last store (42 R325, R330; 47 R540). -/
def StoreAllStops (i : Instr) (s : State) (ps : List (Word × Word)) : Prop :=
  ¬ s.AllStoreFit ps → ∃ f, exec i s = .fault f ∧ s.AllStoreFault ps f

/-- A list of loads, in the order of its accesses, is HostDefect at its first access without room: the registers read before it
are written, with the monitor output of their reads, and nothing else, SP and base among it, is (20_memory R82; 60 R552). -/
def LoadAllStops (i : Instr) (s : State) (slots : List (Reg × Word)) : Prop :=
  ¬ (∀ p ∈ slots, s.Fits p.2 .word) → ∃ before p after u, slots = before ++ p :: after ∧
    (∀ q ∈ before, s.Fits q.2 .word) ∧ ¬ s.Fits p.2 .word ∧ exec i s = .fault (.regionShort u (regionIndex p.2)) ∧
    s.LoadAllDone u [] before (before.map (·.2))

/-- A compact store of Rd at `a`: it completes where it has room and stops where it has none. -/
def CompactStore (i : Instr) (s : State) (rd : LowReg) (a : Word) (z : Size) : Prop :=
  (s.StoreFits a z (s.x rd.slot) → Completes i s fun t => s.StoreDone t [] a z (s.x rd.slot)) ∧
  StoreStops i s s a z (s.x rd.slot)

/-- The indexed address of 47 R500. -/
def State.indexed (s : State) (u : Bool) (rn : Reg) (offset : Word) : Word :=
  if u then s.x rn + offset else s.x rn - offset

/-- The address a full transfer accesses (47 R500). -/
def State.accessed (s : State) (p u : Bool) (rn : Reg) (offset : Word) : Word :=
  if p then s.indexed u rn offset else s.x rn

/-- A full load: the value, the write-back when `wb` (overwritten by the value when Rn = Rd), the frame (47 R500, R501). -/
def FullLoad (i : Instr) (s : State) (p u wb : Bool) (rn rd : Reg) (offset : Word) (z : Size) (f : Word → Word) : Prop :=
  (s.Fits (s.accessed p u rn offset) z → Completes i s fun t =>
    t.x rd = stored s.flagT rd (f (s.valueAt (s.accessed p u rn offset) z)) ∧
    (wb = true → rn ≠ rd → t.x rn = stored s.flagT rn (s.indexed u rn offset)) ∧
    s.ReadFrame t (if wb then [rn, rd] else [rd]) (s.accessed p u rn offset) z) ∧
  (¬ s.Fits (s.accessed p u rn offset) z →
    exec i s = .fault (.regionShort s (regionIndex (s.accessed p u rn offset))))

/-- A full store of the old Rd, then the write-back when `wb` (47 R500, R501). -/
def FullStore (i : Instr) (s : State) (p u wb : Bool) (rn rd : Reg) (offset : Word) (z : Size) : Prop :=
  (s.StoreFits (s.accessed p u rn offset) z (s.x rd) → Completes i s fun t =>
    (wb = true → t.x rn = stored s.flagT rn (s.indexed u rn offset)) ∧
    s.StoreDone t (if wb then [rn] else []) (s.accessed p u rn offset) z (s.x rd)) ∧
  StoreStops i s s (s.accessed p u rn offset) z (s.x rd)

/-- A store-multiple of the four addressing modes: it completes where it has room and stops where it has none (47 R540). -/
def BlockStore (i : Instr) (s : State) (pre up w : Bool) (rn : Reg) (rlist : BitVec 16) : Prop :=
  (s.AllStoreFit (s.storeList up (listSlots rlist (blockLow pre up (s.x rn) rlist))) → Completes i s fun t =>
    (w = true → t.x rn = stored s.flagT rn (blockEnd up (s.x rn) rlist)) ∧
    s.StoreAllDone t (if w then [rn] else []) (s.storeList up (listSlots rlist (blockLow pre up (s.x rn) rlist)))) ∧
  StoreAllStops i s (s.storeList up (listSlots rlist (blockLow pre up (s.x rn) rlist)))

/-- A load-multiple of the four addressing modes: it completes where it has room, the write-back skipped when the base is in the
list, and stops where it has none (47 R540). -/
def BlockLoad (i : Instr) (s : State) (pre up w : Bool) (rn : Reg) (rlist : BitVec 16) : Prop :=
  ((∀ p ∈ listSlots rlist (blockLow pre up (s.x rn) rlist), s.Fits p.2 .word) → Completes i s fun t =>
    (w = true → rlist.getLsbD rn.val = false → t.x rn = stored s.flagT rn (blockEnd up (s.x rn) rlist)) ∧
    s.LoadAllDone t (if w then [rn] else []) (listSlots rlist (blockLow pre up (s.x rn) rlist))
      (readList up (listSlots rlist (blockLow pre up (s.x rn) rlist)))) ∧
  LoadAllStops i s (accessOrder up (listSlots rlist (blockLow pre up (s.x rn) rlist)))

/-- A logical data-processing operation in its three operand-2 forms (40 R218): rotated immediate, register shifted by an
immediate, register shifted by the bottom byte of a register. -/
def LogicForms (s : State) (sf : Bool) (rd : Reg) (f : Word → Word) (imm : BitVec 4 → BitVec 8 → Instr)
    (shImm : BitVec 5 → ShiftKind → Reg → Instr) (shReg : Reg → ShiftKind → Reg → Instr) : Prop :=
  (∀ rot imm8, Completes (imm rot imm8) s fun t =>
    s.DpLogic t sf rd (f (rotatedImm rot imm8 s.flagC).1) (rotatedImm rot imm8 s.flagC).2) ∧
  (∀ n sh rm, Completes (shImm n sh rm) s fun t =>
    s.DpLogic t sf rd (f (shift (s.x rm) n.toNat sh s.flagC).1) (shift (s.x rm) n.toNat sh s.flagC).2) ∧
  (∀ rs sh rm, Completes (shReg rs sh rm) s fun t =>
    s.DpLogic t sf rd (f (shift (s.x rm) ((s.x rs).toNat % 256) sh s.flagC).1)
      (shift (s.x rm) ((s.x rs).toNat % 256) sh s.flagC).2)

/-- An arithmetic data-processing operation in its three operand-2 forms; the shifter's carry is discarded (40 R215). -/
def ArithForms (s : State) (sf : Bool) (rd : Reg) (f : Word → AddResult) (imm : BitVec 4 → BitVec 8 → Instr)
    (shImm : BitVec 5 → ShiftKind → Reg → Instr) (shReg : Reg → ShiftKind → Reg → Instr) : Prop :=
  (∀ rot imm8, Completes (imm rot imm8) s fun t => s.DpArith t sf rd (f (rotatedImm rot imm8 s.flagC).1)) ∧
  (∀ n sh rm, Completes (shImm n sh rm) s fun t => s.DpArith t sf rd (f (shift (s.x rm) n.toNat sh s.flagC).1)) ∧
  (∀ rs sh rm, Completes (shReg rs sh rm) s fun t =>
    s.DpArith t sf rd (f (shift (s.x rm) ((s.x rs).toNat % 256) sh s.flagC).1))

/-- A logical compare in its three operand-2 forms: N, Z and C from the shifter, no register. -/
def TestForms (s : State) (f : Word → Word) (imm : BitVec 4 → BitVec 8 → Instr)
    (shImm : BitVec 5 → ShiftKind → Reg → Instr) (shReg : Reg → ShiftKind → Reg → Instr) : Prop :=
  (∀ rot imm8, Completes (imm rot imm8) s fun t => t.NzOf (f (rotatedImm rot imm8 s.flagC).1) ∧
    t.flagC = (rotatedImm rot imm8 s.flagC).2 ∧ s.Frame t [] [29, 30, 31]) ∧
  (∀ n sh rm, Completes (shImm n sh rm) s fun t => t.NzOf (f (shift (s.x rm) n.toNat sh s.flagC).1) ∧
    t.flagC = (shift (s.x rm) n.toNat sh s.flagC).2 ∧ s.Frame t [] [29, 30, 31]) ∧
  (∀ rs sh rm, Completes (shReg rs sh rm) s fun t =>
    t.NzOf (f (shift (s.x rm) ((s.x rs).toNat % 256) sh s.flagC).1) ∧
    t.flagC = (shift (s.x rm) ((s.x rs).toNat % 256) sh s.flagC).2 ∧ s.Frame t [] [29, 30, 31])

/-- An arithmetic compare in its three operand-2 forms: the four flags, no register. -/
def CompareForms (s : State) (f : Word → AddResult) (imm : BitVec 4 → BitVec 8 → Instr)
    (shImm : BitVec 5 → ShiftKind → Reg → Instr) (shReg : Reg → ShiftKind → Reg → Instr) : Prop :=
  (∀ rot imm8, Completes (imm rot imm8) s fun t => s.CompareDone t (f (rotatedImm rot imm8 s.flagC).1)) ∧
  (∀ n sh rm, Completes (shImm n sh rm) s fun t => s.CompareDone t (f (shift (s.x rm) n.toNat sh s.flagC).1)) ∧
  (∀ rs sh rm, Completes (shReg rs sh rm) s fun t =>
    s.CompareDone t (f (shift (s.x rm) ((s.x rs).toNat % 256) sh s.flagC).1))

/-- The sign-extended half of a word: floor(s32(v) / 2^16), or the low 16 bits taken into -2^15 .. 2^15 - 1 (40 R223). -/
def halfInt (v : Word) (top : Bool) : Int := if top then v.toInt / 65536 else Int.bmod v.toNat 65536

/-- The accumulator RdHi:RdLo as a number (46 R474, R476, R484). -/
def State.longAcc (s : State) (rdHi rdLo : Reg) : Nat := (s.x rdHi).toNat * 2 ^ 32 + (s.x rdLo).toNat

/-! ## Whole-machine rules -/

/-- Two states that differ at most in the monitor sets, the conditional breaks and the monitor output. -/
def State.SameButMonitors (s t : State) : Prop :=
  t.regs = s.regs ∧ t.psr = s.psr ∧ t.mem = s.mem ∧ t.host.dmaEnableBit = s.host.dmaEnableBit ∧
  t.host.dmaWidthBit = s.host.dmaWidthBit

end Sys2Proof.Machine

namespace Sys2Proof

/-- The instructions that can write N, Z, C or V (10_state R38). -/
def Instr.writesFlags : Instr → Bool
  | .tLslImm .. | .tLsrImm .. | .tAsrImm .. | .tAddReg .. | .tSubReg .. | .tAddImm3 .. | .tSubImm3 ..
  | .tMovImm .. | .tCmpImm .. | .tAddImm8 .. | .tSubImm8 .. | .tAnd .. | .tEor .. | .tLslReg .. | .tLsrReg ..
  | .tAsrReg .. | .tAdc .. | .tSbc .. | .tRorReg .. | .tTst .. | .tNeg .. | .tCmpReg .. | .tCmn .. | .tOrr ..
  | .tMul .. | .tBic .. | .tMvn .. | .tCmpHi .. | .aMul .. | .aMla .. | .aUmull .. | .aUmlal .. | .aSmull ..
  | .aSmlal .. | .aMsrReg .. | .aAndShImm .. | .aAndShReg .. | .aEorShImm .. | .aEorShReg .. | .aSubShImm ..
  | .aSubShReg .. | .aRsbShImm .. | .aRsbShReg .. | .aAddShImm .. | .aAddShReg .. | .aAdcShImm .. | .aAdcShReg ..
  | .aSbcShImm .. | .aSbcShReg .. | .aRscShImm .. | .aRscShReg .. | .aTstShImm .. | .aTstShReg .. | .aTeqShImm ..
  | .aTeqShReg .. | .aCmpShImm .. | .aCmpShReg .. | .aCmnShImm .. | .aCmnShReg .. | .aOrrShImm .. | .aOrrShReg ..
  | .aMovShImm .. | .aMovShReg .. | .aBicShImm .. | .aBicShReg .. | .aMvnShImm .. | .aMvnShReg .. | .aMsrImm ..
  | .aAndImm .. | .aEorImm .. | .aSubImm .. | .aRsbImm .. | .aAddImm .. | .aAdcImm .. | .aSbcImm .. | .aRscImm ..
  | .aTstImm .. | .aTeqImm .. | .aCmpImm .. | .aCmnImm .. | .aOrrImm .. | .aMovImm .. | .aBicImm .. | .aMvnImm .. => true
  | _ => false

/-- The instructions that can write PSR.T (10_state R35, R44). -/
def Instr.writesMode : Instr → Bool
  | .tBx .. | .tBlx .. | .aMsrReg .. | .aBx .. | .aBlxReg .. | .aMsrImm .. => true
  | _ => false

/-- The instructions that can write the storage bits of PSR (10_state R36). -/
def Instr.writesPsrStorage : Instr → Bool
  | .aMsrReg .. | .aMsrImm .. => true
  | _ => false

/-- The instructions that store (20_memory R107, R111). -/
def Instr.writesMemory : Instr → Bool
  | .tStrReg .. | .tStrbReg .. | .tStrhReg .. | .tStrImm .. | .tStrbImm .. | .tStrhImm .. | .tStrSp .. | .tPush ..
  | .tStmia .. | .aSwp .. | .aSwpb .. | .aStrh .. | .aStrPreImm .. | .aStrPostImm .. | .aStrtImm ..
  | .aStrbPreImm .. | .aStrbPostImm .. | .aStrbtImm .. | .aStrPreReg .. | .aStrPostReg .. | .aStrtReg ..
  | .aStrbPreReg .. | .aStrbPostReg .. | .aStrbtReg .. | .aStmda .. | .aStmia .. | .aStmdb .. | .aStmib .. => true
  | _ => false

/-- The bits of a full word the hardware never tests: should-be fields and fields the instruction does not read
(30_encoding R163; 44 R401; 46 R470, R483, R485). -/
def Instr.unread : Instr → Word
  | .aMul .. | .aSmulwy .. | .aSmulxy .. | .aMsrImm .. => 0x0000F000
  | .aTstShImm .. | .aTstShReg .. | .aTstImm .. | .aTeqShImm .. | .aTeqShReg .. | .aTeqImm .. => 0x0000F000
  | .aCmpShImm .. | .aCmpShReg .. | .aCmpImm .. | .aCmnShImm .. | .aCmnShReg .. | .aCmnImm .. => 0x0000F000
  | .aMovShImm .. | .aMovShReg .. | .aMovImm .. | .aMvnShImm .. | .aMvnShReg .. | .aMvnImm .. => 0x000F0000
  | .aSwp .. | .aSwpb .. => 0x00000F00
  | .aMrs .. => 0x000F0F0F
  | .aMsrReg .. => 0x0000FF00
  | .aBx .. | .aBlxReg .. => 0x000FFF00
  | .aClz .. => 0x000F0F00
  | .aStrh _ _ _ _ _ _ (.reg _) | .aLdrh _ _ _ _ _ _ (.reg _) => 0x00000F00
  | .aLdrsb _ _ _ _ _ _ (.reg _) | .aLdrsh _ _ _ _ _ _ (.reg _) => 0x00000F00
  | _ => 0

end Sys2Proof
end

