-- ==== Sys2Proof/Certificates/Slice0/Obligations.lean ====
section
/-! DEFINITION. The statements for the provers. Each says which rules of spec/ it formalises. A full instruction's statement
takes a condition that passes; what a failed condition does is `FailedConditionOnlyAdvances`. The state a statement takes is
the one `execute` dispatches on, after the PC advance (30_encoding R131), so x[15] there is F + 2w (10_state R41). -/

open Sys2Proof Sys2Proof.Machine

/-! ## Reset, invariants, the step -/

/-- The launch preset as printed (70 R582), the entry of any state (x[15] is the entry plus w, nothing else changes and the next
fetch is at the entry: 70 R581, 10 R39) and the launch state, which is the preset entered at 0x08000000. The core has no reset (70
R580); BreakState none is the spec's (10 R56), every other value at reset is the model's choice: log entries 1 (registers, PSR), 2
(x[15]), 3 (lengths), 4 (bytes), 5 (monitor sets, DMA bits). -/
def Obligations.ResetIsTheLaunchState : Prop :=
  (∀ r : Reg, State.reset.x r = if r = 13 then 0x03007F00 else if r = 15 then 0x08000004 else 0) ∧
  State.reset.psr = 0x0000001F ∧ State.reset.breakState = .none ∧ State.reset.fetchAddr = 0x08000000 ∧
  (∀ r : Fin 16, State.reset.region r = ⟨0x1000000, []⟩) ∧ State.reset.host = ⟨[], [], [], [], 7, 10⟩ ∧
  (∀ r : Reg, State.gbaCartLaunch.x r = if r = 13 then 0x03007F00 else if r = 15 then 0x08000008 else 0) ∧
  State.gbaCartLaunch.psr = 0x0000001F ∧ State.reset = State.gbaCartLaunch.enteredAt 0x08000000 ∧
  ∀ (s : State) (entry : Word), (s.enteredAt entry).x Reg.pc = entry + s.width ∧ (s.enteredAt entry).fetchAddr = entry ∧
    s.Frame (s.enteredAt entry) [Reg.pc] []

/-- The launch state has the invariant. -/
def Obligations.ResetMeetsTheInvariant : Prop := State.reset.Inv

/-- Every step keeps the memory canonical and the PC aligned for the mode (10 R39, R43). -/
def Obligations.StepKeepsTheInvariant : Prop := ∀ s t : State, s.Inv → step s = .next t → t.Inv

/-- No step resizes a region (20 R81) or changes a host parameter or a monitor set (00 R10, 10 R51). -/
def Obligations.StepKeepsLengthsAndHostParameters : Prop :=
  ∀ s t : State, step s = .next t → s.KeepsLengths t ∧ t.host = s.host

/-- Where the bytes at the fetch address decode to `i`, a step is `exec i` on the state with BreakState none and x[15] advanced
to F + 2w, all else as it was (30 R131; 10 R40, R41, R50; 70 R584); a region too short for the fetch is HostDefect. -/
def Obligations.StepRunsTheDecodedInstruction : Prop :=
  ∀ s : State,
    (∀ i rest, s.Fits s.fetchAddr s.fetchSize →
      decodeBytes s.flagT ((List.range s.fetchSize.bytes).map (s.spanByte s.fetchAddr)) = .ok (i, rest) →
        step s = exec i s.begin) ∧
    (¬ s.Fits s.fetchAddr s.fetchSize → step s = .fault (.regionShort s (regionIndex s.fetchAddr))) ∧
    s.begin.x Reg.pc = s.fetchAddr + s.width + s.width ∧ s.KeepsRegs s.begin [Reg.pc] ∧ s.begin.psr = s.psr ∧
    s.begin.mem = s.mem ∧ s.begin.host = s.host ∧ s.begin.breakState = .none

/-! ## Encoding -/

/-- Decoding the word, or the bytes, of a well-formed instruction gives it back, in the encoding its condition field tells. -/
def Obligations.DecodeOfEncodeIsTheInstruction : Prop :=
  ∀ i : Instr, i.wellFormed = true →
    decode (encode i) = i ∧ (encode i).isCompact = i.gate.isNone ∧
      decodeBytes (encode i).isCompact (encode i).bytes = .ok (i, [])

/-- Every word matches exactly the opcode-table row of the instruction it decodes to (30 R185), and what it decodes to is well
formed; a full instruction carries the condition of bits 31:28. -/
def Obligations.OpcodeTableRowsPartitionTheWords : Prop :=
  (∀ (h : BitVec 16) (k : Nat), k < 67 →
    (h &&& (compactTable.getD k (0, 0)).1 = (compactTable.getD k (0, 0)).2 ↔ (decodeCompact h).tableRow = k)) ∧
  (∀ h : BitVec 16, (decodeCompact h).tableRow < 67 ∧ (decodeCompact h).gate = none ∧
    (decodeCompact h).wellFormed = true) ∧
  (∀ (w : Word) (k : Nat), k < 125 →
    (w &&& (fullTable.getD k (0, 0)).1 = (fullTable.getD k (0, 0)).2 ↔ (decodeFull w).tableRow = k)) ∧
  (∀ w : Word, (decodeFull w).tableRow < 125 ∧ (decodeFull w).gate = some (Cond.ofCode (bits w 28 4)) ∧
    (decodeFull w).wellFormed = true)

/-- Words that differ only in fields the hardware never tests decode to one instruction and behave the same (30 R163), the bits
2:0 of the compact BX and BLX among them (41 R284, R285). -/
def Obligations.ShouldBeFieldsAreNeverTested : Prop :=
  (∀ w w' : Word, (w ^^^ w') &&& ~~~(decodeFull w).unread = 0 →
    decodeFull w' = decodeFull w ∧ ∀ s, execute w' false s = execute w false s) ∧
  (∀ h h' : BitVec 16, (h ^^^ h') &&& 0xFFF8 = 0 → 0x4700 ≤ h.toNat → h.toNat < 0x4800 →
    decodeCompact h' = decodeCompact h)

/-- Words printed in the examples of 41 to 47 decode to the instructions they are examples of. -/
def Obligations.SampleWordsDecode : Prop :=
  decodeCompact 0x0048 = .tLslImm 1 1 0 ∧ decodeCompact 0x1FDB = .tSubImm3 7 3 3 ∧
  decodeCompact 0x4770 = .tBx 14 ∧ decodeCompact 0x4901 = .tLdrPc 1 4 ∧
  decodeCompact 0xB503 = .tPush true 0b11 ∧ decodeCompact 0xD1FC = .tBCond .ne (-8) ∧
  decodeCompact 0xF7FE = .tBlFirst (-8192) ∧ decodeCompact 0xFFFE = .tBlSecond 4092 ∧
  decodeFull 0xE2510001 = .aSubImm .al true 1 0 0 1 ∧ decodeFull 0xE1A00211 = .aMovShReg .al false 0 2 .lsl 1 ∧
  decodeFull 0xE128F000 = .aMsrReg .al false 0b1000 0 ∧ decodeFull 0xE0810392 = .aUmull .al false 1 0 3 2 ∧
  decodeFull 0xE7D10102 = .aLdrbPreReg .al true false 1 0 2 .lsl 2 ∧
  decodeFull 0xE0D100B2 = .aLdrh .al false true false 1 0 (.imm 2) ∧
  decodeFull 0xE9200006 = .aStmdb .al false true 0 0b110 ∧ decodeFull 0xEAFFFFFE = .aB .al (-8)

/-- A full word with cond = 1111 is a no-op beyond the PC advance (30 R164). -/
def Obligations.NvWordsAreNeverDispatched : Prop :=
  ∀ (w : Word) (s : State), s.flagT = false → 0xF0000000 ≤ w.toNat → execute w false s = .next s.begin

/-- A full instruction whose condition fails changes nothing: after the advance the next fetch is the next address (30 R131,
10 R42). A condition is evaluated on the flags at entry (30 R132). -/
def Obligations.FailedConditionOnlyAdvances : Prop :=
  (∀ (i : Instr) (c : Cond) (s : State), i.gate = some c → s.passes c = false → exec i s = .next s) ∧
  (∀ (w : Word) (s : State), s.flagT = false → s.passes (Cond.ofCode (bits w 28 4)) = false →
    ∃ t, execute w false s = .next t ∧ t.fetchAddr = s.fetchAddr + 4 ∧ s.KeepsRegs t [Reg.pc] ∧ t.psr = s.psr ∧
      t.mem = s.mem ∧ t.host = s.host ∧ t.breakState = .none)

/-! ## Shared units -/

/-- The 16-entry condition table over N = [31], Z = [30], C = [29], V = [28], which are all it reads (40 R200, R201; 10 R34). -/
def Obligations.ConditionTableHolds : Prop :=
  (∀ (s : State) (k : Nat), k < 16 →
    (s.passes (Cond.ofCode (BitVec.ofNat 4 k)) = true ↔
      conditionHolds (s.psr.getLsbD 31) (s.psr.getLsbD 30) (s.psr.getLsbD 29) (s.psr.getLsbD 28) k)) ∧
  (∀ (s t : State) (c : Cond), bits s.psr 28 4 = bits t.psr 28 4 → s.passes c = t.passes c)

/-- AddWithCarry is the exact sum: the low 32 bits, bit 32, and the sign rule (40 R202), which says that the signed sum lies
outside -2^31 .. 2^31 - 1. -/
def Obligations.AdderIsTheExactSum : Prop :=
  ∀ (a b : Word) (cin : Bool),
    (addWithCarry a b cin).result.toNat = (a.toNat + b.toNat + cin.toNat) % 2 ^ 32 ∧
    (addWithCarry a b cin).carry = decide (2 ^ 32 ≤ a.toNat + b.toNat + cin.toNat) ∧
    ((addWithCarry a b cin).overflow = true ↔
      a.getLsbD 31 = b.getLsbD 31 ∧ (addWithCarry a b cin).result.getLsbD 31 ≠ a.getLsbD 31) ∧
    addWithCarry a b cin = exactAdd a b cin

/-- Subtraction as AddWithCarry(a, NOT b, 1): u32(a - b), carry exactly when a ≥ b unsigned, overflow exactly when the signed
difference lies outside -2^31 .. 2^31 - 1 (40 R203). -/
def Obligations.SubtractionIsTheExactDifference : Prop :=
  ∀ a b : Word,
    (addWithCarry a (~~~b) true).result = a - b ∧
    ((addWithCarry a (~~~b) true).carry = true ↔ b.toNat ≤ a.toNat) ∧
    ((addWithCarry a (~~~b) true).overflow = true ↔
      a.toInt - b.toInt < -2147483648 ∨ 2147483647 < a.toInt - b.toInt)

/-- The add-family calls (40 R206) are exact sums and differences with their carry inputs (40 R207). -/
def Obligations.AddFamilyIsExact : Prop :=
  ∀ (a b : Word) (c : Bool),
    add a b = exactAdd a b false ∧ adc a b c = exactAdd a b c ∧ sub a b = exactSub a b true ∧
    sbc a b c = exactSub a b c ∧ rsb a b = exactSub b a true ∧ rsc a b c = exactSub b a c ∧ neg b = exactSub 0 b true

/-- The flag writers: SetNZCV packs the top four bits (40 R204), SetNZ, SetNZC (R205), SetMulNZ32 (R220) and SetMulNZ64 (R221)
keep every bit they do not name; none touches anything but PSR. -/
def Obligations.FlagWritersPackTheirBits : Prop :=
  ∀ (s : State) (a : AddResult) (r hi lo : Word) (c : Bool),
    (s.setNZCV a).psr = (BitVec.ofBool (a.result.getLsbD 31)).setWidth 32 <<< 31 |||
      (BitVec.ofBool (decide (a.result = 0))).setWidth 32 <<< 30 ||| (BitVec.ofBool a.carry).setWidth 32 <<< 29 |||
      (BitVec.ofBool a.overflow).setWidth 32 <<< 28 ||| (s.psr &&& 0x0FFFFFFF) ∧
    (s.setNZ r).NzOf r ∧ s.Frame (s.setNZ r) [] [30, 31] ∧
    (s.setNZC r c).NzOf r ∧ (s.setNZC r c).flagC = c ∧ s.Frame (s.setNZC r c) [] [29, 30, 31] ∧
    (s.setMulNZ32 r).NzOf r ∧ s.Frame (s.setMulNZ32 r) [] [30, 31] ∧
    (s.setMulNZ64 hi lo).flagN = hi.getLsbD 31 ∧ (s.setMulNZ64 hi lo).flagZ = decide (hi = 0 ∧ lo = 0) ∧
    s.Frame (s.setMulNZ64 hi lo) [] [30, 31] ∧ s.Frame (s.setNZCV a) [] [28, 29, 30, 31]

/-- The shifter by a non-zero amount, bit by bit: LSL, LSR and ASR clamp to 32, ROR is modulo 32, the carry-out is the last
bit shifted out (40 R211). -/
def Obligations.ShifterByNonzeroAmounts : Prop :=
  ∀ (v : Word) (n : Nat) (cin : Bool), 1 ≤ n →
    (∀ i, i < 32 → (shift v n .lsl cin).1.getLsbD i = (decide (min n 32 ≤ i) && v.getLsbD (i - min n 32))) ∧
    (shift v n .lsl cin).2 = v.getLsbD (32 - min n 32) ∧
    (∀ i, i < 32 → (shift v n .lsr cin).1.getLsbD i = v.getLsbD (i + min n 32)) ∧
    (shift v n .lsr cin).2 = v.getLsbD (min n 32 - 1) ∧
    (∀ i, i < 32 → (shift v n .asr cin).1.getLsbD i = v.getLsbD (min (i + min n 32) 31)) ∧
    (shift v n .asr cin).2 = v.getLsbD (min n 32 - 1) ∧
    (∀ i, i < 32 → (shift v n .ror cin).1.getLsbD i = v.getLsbD ((i + n) % 32)) ∧
    (shift v n .ror cin).2 = v.getLsbD ((31 + n) % 32)

/-- The shifter by zero, whatever the amount came from: LSL unchanged, LSR and ASR as by 32, ROR is RRX (40 R212). -/
def Obligations.ShifterByZero : Prop :=
  ∀ (v : Word) (cin : Bool),
    shift v 0 .lsl cin = (v, cin) ∧ shift v 0 .lsr cin = (0, v.getLsbD 31) ∧
    shift v 0 .asr cin = (if v.getLsbD 31 then 0xFFFFFFFF else 0, v.getLsbD 31) ∧
    (shift v 0 .ror cin).1 = (BitVec.ofBool cin).setWidth 32 <<< 31 ||| v >>> 1 ∧
    (shift v 0 .ror cin).2 = v.getLsbD 0

/-- The rotated immediate: bit i is bit (i + 2 rot) mod 32 of the zero-extended byte; its carry is bit 31 when rot ≠ 0 and the
incoming carry when rot = 0, which is no RRX (40 R217). -/
def Obligations.RotatedImmediateOperand : Prop :=
  ∀ (rot : BitVec 4) (imm8 : BitVec 8) (cin : Bool),
    (∀ i, i < 32 → (rotatedImm rot imm8 cin).1.getLsbD i =
      (imm8.setWidth 32 : Word).getLsbD ((i + 2 * rot.toNat) % 32)) ∧
    (rot ≠ 0 → (rotatedImm rot imm8 cin).2 = (rotatedImm rot imm8 cin).1.getLsbD 31) ∧
    (rotatedImm 0 imm8 cin = (imm8.setWidth 32, cin))

/-- CountLeadingZeros is 32 for 0; for any other word the bit below that many zeros is its most significant 1 (40 R224). -/
def Obligations.CountLeadingZerosOfAWord : Prop :=
  countLeadingZeros 0 = 32 ∧
  ∀ v : Word, v ≠ 0 → countLeadingZeros v ≤ 31 ∧ v.getLsbD (31 - countLeadingZeros v) = true ∧
    ∀ k, 31 - countLeadingZeros v < k → v.getLsbD k = false

/-- `pc <- T`: the next fetch is at T with bit 0 cleared in compact mode, bits 1:0 cleared in full mode; nothing but slot 15
changes, and every write of slot 15 by a register write is this one (10 R43, R44). -/
def Obligations.PcWriteAlignsTheNextFetch : Prop :=
  ∀ (s : State) (t : Word),
    (s.writePc t).fetchAddr = (if s.flagT then t &&& 0xFFFFFFFE else t &&& 0xFFFFFFFC) ∧
    (s.writePc t).x Reg.pc = (if s.flagT then (t &&& 0xFFFFFFFE) + 2 else (t &&& 0xFFFFFFFC) + 4) ∧
    s.Frame (s.writePc t) [Reg.pc] [] ∧ s.writeReg Reg.pc t = s.writePc t

/-! ## Compact register operations -/

/-- The compact shifts by an immediate (41 R250 to R252) and by the bottom byte of a register (R266 to R268, R271). -/
def Obligations.CompactShifts : Prop :=
  ∀ (imm5 : BitVec 5) (rs rd : LowReg) (s : State),
    Completes (.tLslImm imm5 rs rd) s (s.ShiftDone · rd.slot (shift (s.x rs.slot) imm5.toNat .lsl s.flagC)) ∧
    Completes (.tLsrImm imm5 rs rd) s (s.ShiftDone · rd.slot (shift (s.x rs.slot) imm5.toNat .lsr s.flagC)) ∧
    Completes (.tAsrImm imm5 rs rd) s (s.ShiftDone · rd.slot (shift (s.x rs.slot) imm5.toNat .asr s.flagC)) ∧
    Completes (.tLslReg rs rd) s
      (s.ShiftDone · rd.slot (shift (s.x rd.slot) ((s.x rs.slot).toNat % 256) .lsl s.flagC)) ∧
    Completes (.tLsrReg rs rd) s
      (s.ShiftDone · rd.slot (shift (s.x rd.slot) ((s.x rs.slot).toNat % 256) .lsr s.flagC)) ∧
    Completes (.tAsrReg rs rd) s
      (s.ShiftDone · rd.slot (shift (s.x rd.slot) ((s.x rs.slot).toNat % 256) .asr s.flagC)) ∧
    Completes (.tRorReg rs rd) s
      (s.ShiftDone · rd.slot (shift (s.x rd.slot) ((s.x rs.slot).toNat % 256) .ror s.flagC))

/-- The compact additions and subtractions with their exact results and flags (41 R255, R256, R258, R259, R262, R263, R269,
R270, R273). -/
def Obligations.CompactAddAndSubtract : Prop :=
  ∀ (rn rs rd : LowReg) (imm3 : BitVec 3) (imm8 : BitVec 8) (s : State),
    Completes (.tAddReg rn rs rd) s (s.ArithDone · rd.slot (exactAdd (s.x rs.slot) (s.x rn.slot) false)) ∧
    Completes (.tSubReg rn rs rd) s (s.ArithDone · rd.slot (exactSub (s.x rs.slot) (s.x rn.slot) true)) ∧
    Completes (.tAddImm3 imm3 rs rd) s (s.ArithDone · rd.slot (exactAdd (s.x rs.slot) (imm3.setWidth 32) false)) ∧
    Completes (.tSubImm3 imm3 rs rd) s (s.ArithDone · rd.slot (exactSub (s.x rs.slot) (imm3.setWidth 32) true)) ∧
    Completes (.tAddImm8 rd imm8) s (s.ArithDone · rd.slot (exactAdd (s.x rd.slot) (imm8.setWidth 32) false)) ∧
    Completes (.tSubImm8 rd imm8) s (s.ArithDone · rd.slot (exactSub (s.x rd.slot) (imm8.setWidth 32) true)) ∧
    Completes (.tAdc rs rd) s (s.ArithDone · rd.slot (exactAdd (s.x rd.slot) (s.x rs.slot) s.flagC)) ∧
    Completes (.tSbc rs rd) s (s.ArithDone · rd.slot (exactSub (s.x rd.slot) (s.x rs.slot) s.flagC)) ∧
    Completes (.tNeg rs rd) s (s.ArithDone · rd.slot (exactSub 0 (s.x rs.slot) true))

/-- The compact compares write the four flags and no register (41 R261, R274, R275, R282). -/
def Obligations.CompactCompares : Prop :=
  ∀ (rs rd : LowReg) (hd hs : Reg) (imm8 : BitVec 8) (s : State),
    Completes (.tCmpImm rd imm8) s (s.CompareDone · (exactSub (s.x rd.slot) (imm8.setWidth 32) true)) ∧
    Completes (.tCmpReg rs rd) s (s.CompareDone · (exactSub (s.x rd.slot) (s.x rs.slot) true)) ∧
    Completes (.tCmn rs rd) s (s.CompareDone · (exactAdd (s.x rd.slot) (s.x rs.slot) false)) ∧
    Completes (.tCmpHi hd hs) s (s.CompareDone · (exactSub (s.x hd) (s.x hs) true))

/-- The compact logical operations, the move and the multiply write N and Z (41 R260, R264, R265, R272, R276 to R279). -/
def Obligations.CompactLogicMoveAndMultiply : Prop :=
  ∀ (rs rd : LowReg) (imm8 : BitVec 8) (s : State),
    Completes (.tMovImm rd imm8) s (s.LogicDone · rd.slot (imm8.setWidth 32)) ∧
    Completes (.tAnd rs rd) s (s.LogicDone · rd.slot (s.x rd.slot &&& s.x rs.slot)) ∧
    Completes (.tEor rs rd) s (s.LogicDone · rd.slot (s.x rd.slot ^^^ s.x rs.slot)) ∧
    Completes (.tOrr rs rd) s (s.LogicDone · rd.slot (s.x rd.slot ||| s.x rs.slot)) ∧
    Completes (.tBic rs rd) s (s.LogicDone · rd.slot (s.x rd.slot &&& ~~~(s.x rs.slot))) ∧
    Completes (.tMvn rs rd) s (s.LogicDone · rd.slot (~~~(s.x rs.slot))) ∧
    Completes (.tMul rs rd) s
      (s.LogicDone · rd.slot (BitVec.ofNat 32 ((s.x rd.slot).toNat * (s.x rs.slot).toNat))) ∧
    Completes (.tTst rs rd) s fun t => t.NzOf (s.x rd.slot &&& s.x rs.slot) ∧ s.Frame t [] [30, 31]

/-- The high-register add and move write no flag; with hd = 15 they branch (41 R281, R283). -/
def Obligations.HighRegisterAddAndMove : Prop :=
  ∀ (hd hs : Reg) (s : State),
    Completes (.tAddHi hd hs) s (s.MoveDone · hd (stored s.flagT hd (s.x hd + s.x hs))) ∧
    Completes (.tMovHi hd hs) s (s.MoveDone · hd (stored s.flagT hd (s.x hs)))

/-! ## Branches -/

/-- BX and BLX of both encodings: PSR.T is bit 0 of the target and nothing else of PSR changes; the pc-write is that of the new
mode; the target is read before the link is written (41 R284, R285; 45 R452, R453). -/
def Obligations.BranchExchange : Prop :=
  ∀ (r : Reg) (c : Cond) (s : State), s.passes c = true →
    (Completes (.tBx r) s fun t => t.flagT = (s.x r).getLsbD 0 ∧
      t.x Reg.pc = pcStored ((s.x r).getLsbD 0) (s.x r) ∧ s.Frame t [Reg.pc] [5]) ∧
    (Completes (.aBx c r) s fun t => t.flagT = (s.x r).getLsbD 0 ∧
      t.x Reg.pc = pcStored ((s.x r).getLsbD 0) (s.x r) ∧ s.Frame t [Reg.pc] [5]) ∧
    (Completes (.tBlx r) s fun t => t.flagT = (s.x r).getLsbD 0 ∧
      t.x Reg.pc = pcStored ((s.x r).getLsbD 0) (s.x r) ∧ t.x Reg.lr = (s.x Reg.pc - 2) ||| 1 ∧
      s.Frame t [Reg.pc, Reg.lr] [5]) ∧
    (Completes (.aBlxReg c r) s fun t => t.flagT = (s.x r).getLsbD 0 ∧
      t.x Reg.pc = pcStored ((s.x r).getLsbD 0) (s.x r) ∧ t.x Reg.lr = s.x Reg.pc - 4 ∧
      s.Frame t [Reg.pc, Reg.lr] [5])

/-- The compact branches: the conditional one changes nothing when its condition fails (43 R350, R351). -/
def Obligations.CompactBranches : Prop :=
  ∀ (cond : Cond) (offset : Int) (s : State),
    (s.passes cond = true → Completes (.tBCond cond offset) s
      (s.MoveDone · Reg.pc (pcStored s.flagT (s.x Reg.pc + BitVec.ofInt 32 offset)))) ∧
    (s.passes cond = false → exec (.tBCond cond offset) s = .next s) ∧
    Completes (.tB offset) s (s.MoveDone · Reg.pc (pcStored s.flagT (s.x Reg.pc + BitVec.ofInt 32 offset)))

/-- The two halves of the compact BL: the first writes LR alone; the second takes its target from the old LR and leaves the
return address with bit 0 set in LR (43 R353, R354). -/
def Obligations.BranchLinkHalves : Prop :=
  ∀ (high : Int) (low : Nat) (s : State),
    Completes (.tBlFirst high) s (s.MoveDone · Reg.lr (s.x Reg.pc + BitVec.ofInt 32 high)) ∧
    Completes (.tBlSecond low) s fun t =>
      t.x Reg.pc = pcStored s.flagT (s.x Reg.lr + BitVec.ofNat 32 low) ∧ t.x Reg.lr = (s.x Reg.pc - 2) ||| 1 ∧
      s.Frame t [Reg.pc, Reg.lr] []

/-- The pair at F1 (x[15] = F1 + 4 in compact mode): the next fetch is at F1 + 4 + high + low with bit 0 cleared and
LR = (F1 + 4) OR 1 (43 R355). -/
def Obligations.BranchLinkPair : Prop :=
  ∀ (high : Int) (low : Nat) (s : State), s.flagT = true →
    Completes (.tBlFirst high) s fun t => Completes (.tBlSecond low) t.begin fun u =>
      u.fetchAddr = (s.x Reg.pc + BitVec.ofInt 32 high + BitVec.ofNat 32 low) &&& 0xFFFFFFFE ∧
      u.x Reg.lr = s.x Reg.pc ||| 1 ∧ s.KeepsRegs u [Reg.pc, Reg.lr] ∧ u.psr = s.psr ∧ u.mem = s.mem

/-- The full branches: target x[15] + offset, link F + 4 (45 R450, R451). -/
def Obligations.FullBranches : Prop :=
  ∀ (c : Cond) (offset : Int) (s : State), s.passes c = true →
    Completes (.aB c offset) s
      (s.MoveDone · Reg.pc (pcStored s.flagT (s.x Reg.pc + BitVec.ofInt 32 offset))) ∧
    Completes (.aBl c offset) s fun t =>
      t.x Reg.pc = pcStored s.flagT (s.x Reg.pc + BitVec.ofInt 32 offset) ∧ t.x Reg.lr = s.x Reg.pc - 4 ∧
      s.Frame t [Reg.pc, Reg.lr] []

/-! ## Compact memory operations -/

/-- The compact address generation and stack adjust write one register and no flag (42 R320 to R323). -/
def Obligations.AddressGenerationAndStackAdjust : Prop :=
  ∀ (rd : LowReg) (offset : Nat) (s : State),
    Completes (.tAddPc rd offset) s
      (s.MoveDone · rd.slot ((s.x Reg.pc &&& 0xFFFFFFFD) + BitVec.ofNat 32 offset)) ∧
    Completes (.tAddSp rd offset) s (s.MoveDone · rd.slot (s.x Reg.sp + BitVec.ofNat 32 offset)) ∧
    Completes (.tIncSp offset) s (s.MoveDone · Reg.sp (s.x Reg.sp + BitVec.ofNat 32 offset)) ∧
    Completes (.tDecSp offset) s (s.MoveDone · Reg.sp (s.x Reg.sp - BitVec.ofNat 32 offset))

/-- The compact loads: the value's bytes at exactly the address, zero- or sign-extended, into Rd; nothing else but the monitor
output changes (42 R300, R304, R305, R307 to R309, R311, R313, R315, R317). -/
def Obligations.CompactLoads : Prop :=
  ∀ (ro rb rd : LowReg) (offset : Nat) (s : State),
    CompactLoad (.tLdrPc rd offset) s rd ((s.x Reg.pc &&& 0xFFFFFFFD) + BitVec.ofNat 32 offset) .word id ∧
    CompactLoad (.tLdrReg ro rb rd) s rd (s.x rb.slot + s.x ro.slot) .word id ∧
    CompactLoad (.tLdrbReg ro rb rd) s rd (s.x rb.slot + s.x ro.slot) .byte id ∧
    CompactLoad (.tLdrhReg ro rb rd) s rd (s.x rb.slot + s.x ro.slot) .half id ∧
    CompactLoad (.tLdrsbReg ro rb rd) s rd (s.x rb.slot + s.x ro.slot) .byte (fun v => (bits v 0 8).signExtend 32) ∧
    CompactLoad (.tLdrshReg ro rb rd) s rd (s.x rb.slot + s.x ro.slot) .half
      (fun v => (bits v 0 16).signExtend 32) ∧
    CompactLoad (.tLdrImm offset rb rd) s rd (s.x rb.slot + BitVec.ofNat 32 offset) .word id ∧
    CompactLoad (.tLdrbImm offset rb rd) s rd (s.x rb.slot + BitVec.ofNat 32 offset) .byte id ∧
    CompactLoad (.tLdrhImm offset rb rd) s rd (s.x rb.slot + BitVec.ofNat 32 offset) .half id ∧
    CompactLoad (.tLdrSp rd offset) s rd (s.x Reg.sp + BitVec.ofNat 32 offset) .word id

/-- The compact stores: the low bytes of Rd at exactly the address, the watch event, and the DMA when the store starts it; no
register changes. A region too short for the store is HostDefect, and so is a DMA without room, after the store (42 R302, R303,
R306, R310, R312, R314, R316; 20 R82, R90, R102). -/
def Obligations.CompactStores : Prop :=
  ∀ (ro rb rd : LowReg) (offset : Nat) (s : State), s.mem.wf →
    CompactStore (.tStrReg ro rb rd) s rd (s.x rb.slot + s.x ro.slot) .word ∧
    CompactStore (.tStrbReg ro rb rd) s rd (s.x rb.slot + s.x ro.slot) .byte ∧
    CompactStore (.tStrhReg ro rb rd) s rd (s.x rb.slot + s.x ro.slot) .half ∧
    CompactStore (.tStrImm offset rb rd) s rd (s.x rb.slot + BitVec.ofNat 32 offset) .word ∧
    CompactStore (.tStrbImm offset rb rd) s rd (s.x rb.slot + BitVec.ofNat 32 offset) .byte ∧
    CompactStore (.tStrhImm offset rb rd) s rd (s.x rb.slot + BitVec.ofNat 32 offset) .half ∧
    CompactStore (.tStrSp rd offset) s rd (s.x Reg.sp + BitVec.ofNat 32 offset) .word

/-- PUSH: LR first at the highest address, then the listed registers down to the lowest-numbered at the lowest address; SP ends
four bytes lower for each. The first word without room is HostDefect, the words before it stored and SP as it was (42 R325; 20
R82, R93). -/
def Obligations.PushStoresDescending : Prop :=
  ∀ (lr : Bool) (rlist : BitVec 8) (s : State), s.mem.wf →
    let low := s.x Reg.sp - (if lr then 4 else 0) - listBytes rlist
    let words := (if lr then [(s.x Reg.sp - 4, s.x Reg.lr)] else []) ++ s.storeList false (listSlots rlist low)
    (s.AllStoreFit words → Completes (.tPush lr rlist) s fun t =>
      t.x Reg.sp = low ∧ s.StoreAllDone t [Reg.sp] words) ∧
    StoreAllStops (.tPush lr rlist) s words

/-- POP: the listed registers upwards from SP, then the PC value; SP ends four bytes higher for each, and the PC is written by
the pc-write without a mode change. The first word without room is HostDefect, the registers before it loaded and SP as it was (42
R326; 20 R82). -/
def Obligations.PopLoadsAscending : Prop :=
  ∀ (pc : Bool) (rlist : BitVec 8) (s : State),
    let slots := listSlots rlist (s.x Reg.sp) ++ (if pc then [(Reg.pc, s.x Reg.sp + listBytes rlist)] else [])
    ((∀ p ∈ slots, s.Fits p.2 .word) → Completes (.tPop pc rlist) s fun t =>
      t.x Reg.sp = s.x Reg.sp + listBytes rlist + (if pc then 4 else 0) ∧
      s.LoadAllDone t [Reg.sp] slots (slots.map (·.2))) ∧
    LoadAllStops (.tPop pc rlist) s slots

/-- STMIA: the listed registers upwards from the base, the old base among them, then the write-back. The first word
without room is HostDefect, the words before it stored and the base as it was (42 R330; 20 R82, R93). -/
def Obligations.CompactStoreMultiple : Prop :=
  ∀ (rb : LowReg) (rlist : BitVec 8) (s : State), s.mem.wf →
    (s.AllStoreFit (s.storeList true (listSlots rlist (s.x rb.slot))) → Completes (.tStmia rb rlist) s fun t =>
      t.x rb.slot = s.x rb.slot + listBytes rlist ∧
      s.StoreAllDone t [rb.slot] (s.storeList true (listSlots rlist (s.x rb.slot)))) ∧
    StoreAllStops (.tStmia rb rlist) s (s.storeList true (listSlots rlist (s.x rb.slot)))

/-- LDMIA: the listed registers upwards from the base; the write-back is skipped when the base is listed. The first
word without room is HostDefect, the registers before it loaded and nothing else (42 R331; 20 R82). -/
def Obligations.CompactLoadMultiple : Prop :=
  ∀ (rb : LowReg) (rlist : BitVec 8) (s : State),
    ((∀ p ∈ listSlots rlist (s.x rb.slot), s.Fits p.2 .word) → Completes (.tLdmia rb rlist) s fun t =>
      (rlist.getLsbD rb.val = false → t.x rb.slot = s.x rb.slot + listBytes rlist) ∧
      s.LoadAllDone t [rb.slot] (listSlots rlist (s.x rb.slot)) (readList true (listSlots rlist (s.x rb.slot)))) ∧
    LoadAllStops (.tLdmia rb rlist) s (listSlots rlist (s.x rb.slot))

/-! ## Full data processing and status transfer -/

/-- AND, EOR, ORR, BIC, MOV and MVN in their three operand-2 forms: the result to Rd (a branch for Rd = 15), with S = 1 the
flags N, Z and C = the shifter carry, with S = 0 none (44 R381 to R383, R394 to R397, R399, R400). -/
def Obligations.DataProcessingLogical : Prop :=
  ∀ (c : Cond) (sf : Bool) (rn rd : Reg) (s : State), s.passes c = true →
    LogicForms s sf rd (s.x rn &&& ·) (.aAndImm c sf rn rd) (.aAndShImm c sf rn rd) (.aAndShReg c sf rn rd) ∧
    LogicForms s sf rd (s.x rn ^^^ ·) (.aEorImm c sf rn rd) (.aEorShImm c sf rn rd) (.aEorShReg c sf rn rd) ∧
    LogicForms s sf rd (s.x rn ||| ·) (.aOrrImm c sf rn rd) (.aOrrShImm c sf rn rd) (.aOrrShReg c sf rn rd) ∧
    LogicForms s sf rd (s.x rn &&& ~~~ ·) (.aBicImm c sf rn rd) (.aBicShImm c sf rn rd) (.aBicShReg c sf rn rd) ∧
    LogicForms s sf rd id (.aMovImm c sf rd) (.aMovShImm c sf rd) (.aMovShReg c sf rd) ∧
    LogicForms s sf rd (~~~ ·) (.aMvnImm c sf rd) (.aMvnShImm c sf rd) (.aMvnShReg c sf rd)

/-- ADD, ADC, SUB, SBC, RSB and RSC in their three operand-2 forms: the exact wrapped result to Rd (a branch for Rd = 15), with
S = 1 the four flags, with S = 0 none; the carry in is C before the instruction (44 R381, R384 to R389, R399, R400). -/
def Obligations.DataProcessingArithmetic : Prop :=
  ∀ (c : Cond) (sf : Bool) (rn rd : Reg) (s : State), s.passes c = true →
    ArithForms s sf rd (exactAdd (s.x rn) · false) (.aAddImm c sf rn rd) (.aAddShImm c sf rn rd)
      (.aAddShReg c sf rn rd) ∧
    ArithForms s sf rd (exactAdd (s.x rn) · s.flagC) (.aAdcImm c sf rn rd) (.aAdcShImm c sf rn rd)
      (.aAdcShReg c sf rn rd) ∧
    ArithForms s sf rd (exactSub (s.x rn) · true) (.aSubImm c sf rn rd) (.aSubShImm c sf rn rd)
      (.aSubShReg c sf rn rd) ∧
    ArithForms s sf rd (exactSub (s.x rn) · s.flagC) (.aSbcImm c sf rn rd) (.aSbcShImm c sf rn rd)
      (.aSbcShReg c sf rn rd) ∧
    ArithForms s sf rd (exactSub · (s.x rn) true) (.aRsbImm c sf rn rd) (.aRsbShImm c sf rn rd)
      (.aRsbShReg c sf rn rd) ∧
    ArithForms s sf rd (exactSub · (s.x rn) s.flagC) (.aRscImm c sf rn rd) (.aRscShImm c sf rn rd)
      (.aRscShReg c sf rn rd)

/-- TST and TEQ write N, Z and C = the shifter carry, CMP and CMN the four flags, in their three operand-2 forms; no register is
written (44 R390 to R393). -/
def Obligations.DataProcessingCompares : Prop :=
  ∀ (c : Cond) (rn : Reg) (s : State), s.passes c = true →
    TestForms s (s.x rn &&& ·) (.aTstImm c rn) (.aTstShImm c rn) (.aTstShReg c rn) ∧
    TestForms s (s.x rn ^^^ ·) (.aTeqImm c rn) (.aTeqShImm c rn) (.aTeqShReg c rn) ∧
    CompareForms s (exactSub (s.x rn) · true) (.aCmpImm c rn) (.aCmpShImm c rn) (.aCmpShReg c rn) ∧
    CompareForms s (exactAdd (s.x rn) · false) (.aCmnImm c rn) (.aCmnShImm c rn) (.aCmnShReg c rn)

/-- MRS copies all of x[16]; MSR writes exactly the bytes its mask names, T included, and leaves x[15] alone; R is ignored
(44 R410, R420 to R422; 70 R594). -/
def Obligations.StatusRegisterTransfers : Prop :=
  ∀ (c : Cond) (r : Bool) (rd rm : Reg) (mask rot : BitVec 4) (imm8 : BitVec 8) (s : State), s.passes c = true →
    Completes (.aMrs c r rd) s (s.MoveDone · rd (stored s.flagT rd s.psr)) ∧
    (Completes (.aMsrReg c r mask rm) s fun t =>
      (∀ k, k < 32 → t.psr.getLsbD k = if mask.getLsbD (k / 8) then (s.x rm).getLsbD k else s.psr.getLsbD k) ∧
      s.KeepsRegs t [] ∧ s.KeepsMemory t ∧ t.breakState = s.breakState ∧ t.host = s.host) ∧
    (Completes (.aMsrImm c r mask rot imm8) s fun t =>
      (∀ k, k < 32 → t.psr.getLsbD k =
        if mask.getLsbD (k / 8) then (imm8.setWidth 32 : Word).getLsbD ((k + 2 * rot.toNat) % 32)
        else s.psr.getLsbD k) ∧
      s.KeepsRegs t [] ∧ s.KeepsMemory t ∧ t.breakState = s.breakState ∧ t.host = s.host)

/-- CLZ writes the count to Rd (a branch for Rd = 15) and no flag (44 R430). -/
def Obligations.CountLeadingZerosInstruction : Prop :=
  ∀ (c : Cond) (rd rm : Reg) (s : State), s.passes c = true →
    Completes (.aClz c rd rm) s fun t => ∃ n : Nat,
      s.MoveDone t rd (stored s.flagT rd (BitVec.ofNat 32 n)) ∧ n ≤ 32 ∧
      (∀ k, k < n → (s.x rm).getLsbD (31 - k) = false) ∧ (n < 32 → (s.x rm).getLsbD (31 - n) = true)

/-! ## Multiplies -/

/-- MUL and MLA: the low 32 bits, N and Z when S = 1 (46 R470, R471; 40 R220). -/
def Obligations.MultipliesOf32Bits : Prop :=
  ∀ (c : Cond) (sf : Bool) (rd rn rs rm : Reg) (s : State), s.passes c = true →
    (Completes (.aMul c sf rd rs rm) s fun t =>
      t.x rd = stored s.flagT rd (BitVec.ofNat 32 ((s.x rm).toNat * (s.x rs).toNat)) ∧
      if sf then t.NzOf (BitVec.ofNat 32 ((s.x rm).toNat * (s.x rs).toNat)) ∧ s.Frame t [rd] [30, 31]
      else s.Frame t [rd] []) ∧
    (Completes (.aMla c sf rd rn rs rm) s fun t =>
      t.x rd = stored s.flagT rd (BitVec.ofNat 32 ((s.x rm).toNat * (s.x rs).toNat + (s.x rn).toNat)) ∧
      if sf then
        t.NzOf (BitVec.ofNat 32 ((s.x rm).toNat * (s.x rs).toNat + (s.x rn).toNat)) ∧ s.Frame t [rd] [30, 31]
      else s.Frame t [rd] [])

/-- The long multiplies: the 64-bit product or sum, low word first (46 R472 to R476; 40 R221, R222). -/
def Obligations.MultipliesOf64Bits : Prop :=
  ∀ (c : Cond) (sf : Bool) (rdHi rdLo rs rm : Reg) (s : State), s.passes c = true →
    Completes (.aUmull c sf rdHi rdLo rs rm) s
      (s.LongDone · sf rdHi rdLo (BitVec.ofNat 64 ((s.x rm).toNat * (s.x rs).toNat))) ∧
    Completes (.aUmlal c sf rdHi rdLo rs rm) s
      (s.LongDone · sf rdHi rdLo (BitVec.ofNat 64 ((s.x rm).toNat * (s.x rs).toNat + s.longAcc rdHi rdLo))) ∧
    Completes (.aSmull c sf rdHi rdLo rs rm) s
      (s.LongDone · sf rdHi rdLo (BitVec.ofInt 64 ((s.x rm).toInt * (s.x rs).toInt))) ∧
    Completes (.aSmlal c sf rdHi rdLo rs rm) s
      (s.LongDone · sf rdHi rdLo (BitVec.ofInt 64 ((s.x rm).toInt * (s.x rs).toInt + s.longAcc rdHi rdLo)))

/-- The half-word multiplies: halves by x and y, wrapped sums, no PSR bit (46 R480 to R485; 40 R223). -/
def Obligations.HalfWordMultiplies : Prop :=
  ∀ (c : Cond) (y x : Bool) (rd rn rs rm rdHi rdLo : Reg) (s : State), s.passes c = true →
    Completes (.aSmulxy c y x rd rs rm) s
      (s.MoveDone · rd (stored s.flagT rd (BitVec.ofInt 32 (halfInt (s.x rm) x * halfInt (s.x rs) y)))) ∧
    Completes (.aSmlaxy c y x rd rn rs rm) s
      (s.MoveDone · rd
        (stored s.flagT rd (BitVec.ofInt 32 (halfInt (s.x rm) x * halfInt (s.x rs) y + (s.x rn).toInt)))) ∧
    Completes (.aSmulwy c y rd rs rm) s
      (s.MoveDone · rd (stored s.flagT rd (BitVec.ofInt 32 ((s.x rm).toInt * halfInt (s.x rs) y / 65536)))) ∧
    Completes (.aSmlawy c y rd rn rs rm) s
      (s.MoveDone · rd
        (stored s.flagT rd (BitVec.ofInt 32 ((s.x rm).toInt * halfInt (s.x rs) y / 65536 + (s.x rn).toInt)))) ∧
    Completes (.aSmlalxy c y x rdHi rdLo rs rm) s
      (s.LongDone · false rdHi rdLo
        (BitVec.ofInt 64 (halfInt (s.x rm) x * halfInt (s.x rs) y + s.longAcc rdHi rdLo)))

/-! ## Full memory operations -/

/-- LDR, LDRB and their T forms in both offset forms, LDRH, LDRSB and LDRSH: address, write-back and value by R500, R501 and
R515; every other register, PSR and memory unchanged (47 R502, R504, R506, R508, R516, R518, R519). -/
def Obligations.FullLoads : Prop :=
  ∀ (c : Cond) (p u w : Bool) (rn rd rm : Reg) (imm12 : BitVec 12) (n : BitVec 5) (sh : ShiftKind)
    (off : HalfOffset) (s : State), s.passes c = true →
    let o1 := imm12.setWidth 32
    let o2 := (shift (s.x rm) n.toNat sh s.flagC).1
    let o3 := match off with | .imm k => k.setWidth 32 | .reg r => s.x r
    FullLoad (.aLdrPreImm c u w rn rd imm12) s true u w rn rd o1 .word id ∧
    FullLoad (.aLdrPostImm c u rn rd imm12) s false u true rn rd o1 .word id ∧
    FullLoad (.aLdrtImm c u rn rd imm12) s false u true rn rd o1 .word id ∧
    FullLoad (.aLdrbPreImm c u w rn rd imm12) s true u w rn rd o1 .byte id ∧
    FullLoad (.aLdrbPostImm c u rn rd imm12) s false u true rn rd o1 .byte id ∧
    FullLoad (.aLdrbtImm c u rn rd imm12) s false u true rn rd o1 .byte id ∧
    FullLoad (.aLdrPreReg c u w rn rd n sh rm) s true u w rn rd o2 .word id ∧
    FullLoad (.aLdrPostReg c u rn rd n sh rm) s false u true rn rd o2 .word id ∧
    FullLoad (.aLdrtReg c u rn rd n sh rm) s false u true rn rd o2 .word id ∧
    FullLoad (.aLdrbPreReg c u w rn rd n sh rm) s true u w rn rd o2 .byte id ∧
    FullLoad (.aLdrbPostReg c u rn rd n sh rm) s false u true rn rd o2 .byte id ∧
    FullLoad (.aLdrbtReg c u rn rd n sh rm) s false u true rn rd o2 .byte id ∧
    FullLoad (.aLdrh c p u w rn rd off) s p u (!p || w) rn rd o3 .half id ∧
    FullLoad (.aLdrsb c p u w rn rd off) s p u (!p || w) rn rd o3 .byte (fun v => (bits v 0 8).signExtend 32) ∧
    FullLoad (.aLdrsh c p u w rn rd off) s p u (!p || w) rn rd o3 .half (fun v => (bits v 0 16).signExtend 32)

/-- STR, STRB and their T forms in both offset forms and STRH: the old Rd's low bytes at the address of R500 and R515, then the
write-back; every other register, PSR and byte unchanged, save by a DMA the store starts. A region too short for the store is
HostDefect, and so is a DMA without room, after the store and before the write-back (47 R501, R503, R505, R507, R509, R517). -/
def Obligations.FullStores : Prop :=
  ∀ (c : Cond) (p u w : Bool) (rn rd rm : Reg) (imm12 : BitVec 12) (n : BitVec 5) (sh : ShiftKind)
    (off : HalfOffset) (s : State), s.passes c = true → s.mem.wf →
    let o1 := imm12.setWidth 32
    let o2 := (shift (s.x rm) n.toNat sh s.flagC).1
    let o3 := match off with | .imm k => k.setWidth 32 | .reg r => s.x r
    FullStore (.aStrPreImm c u w rn rd imm12) s true u w rn rd o1 .word ∧
    FullStore (.aStrPostImm c u rn rd imm12) s false u true rn rd o1 .word ∧
    FullStore (.aStrtImm c u rn rd imm12) s false u true rn rd o1 .word ∧
    FullStore (.aStrbPreImm c u w rn rd imm12) s true u w rn rd o1 .byte ∧
    FullStore (.aStrbPostImm c u rn rd imm12) s false u true rn rd o1 .byte ∧
    FullStore (.aStrbtImm c u rn rd imm12) s false u true rn rd o1 .byte ∧
    FullStore (.aStrPreReg c u w rn rd n sh rm) s true u w rn rd o2 .word ∧
    FullStore (.aStrPostReg c u rn rd n sh rm) s false u true rn rd o2 .word ∧
    FullStore (.aStrtReg c u rn rd n sh rm) s false u true rn rd o2 .word ∧
    FullStore (.aStrbPreReg c u w rn rd n sh rm) s true u w rn rd o2 .byte ∧
    FullStore (.aStrbPostReg c u rn rd n sh rm) s false u true rn rd o2 .byte ∧
    FullStore (.aStrbtReg c u rn rd n sh rm) s false u true rn rd o2 .byte ∧
    FullStore (.aStrh c p u w rn rd off) s p u (!p || w) rn rd o3 .half

/-- SWP and SWPB: both registers and the memory value are read first, then Rm is stored at x[Rn], then Rd takes the old value;
the write's monitor event is the later one; a region too short is HostDefect, and so is a DMA without room, after the read's event
and the store (47 R530, R531; 20 R82). -/
def Obligations.SwapReadsThenWrites : Prop :=
  ∀ (c : Cond) (rn rd rm : Reg) (s : State) (z : Size) (i : Instr), s.passes c = true → s.mem.wf →
    (z, i) ∈ [(Size.word, Instr.aSwp c rn rd rm), (Size.byte, Instr.aSwpb c rn rd rm)] →
    let read : State := { s with breakState := s.afterRead (s.x rn) z (s.valueAt (s.x rn) z) }
    (s.StoreFits (s.x rn) z (s.x rm) → Completes i s fun t =>
      t.x rd = stored s.flagT rd (s.valueAt (s.x rn) z) ∧ read.StoreDone t [rd] (s.x rn) z (s.x rm)) ∧
    StoreStops i s read (s.x rn) z (s.x rm)

/-- The four store-multiples: the lowest register at the lowest address of the mode's block, in ascending order for up and
descending for down, the old base stored, then the write-back; S is ignored. The first word without room is HostDefect, the words
before it stored and no register written (47 R540 to R544, R549; 20 R82, R93). -/
def Obligations.BlockStores : Prop :=
  ∀ (c : Cond) (sbit w : Bool) (rn : Reg) (rlist : BitVec 16) (s : State), s.passes c = true → s.mem.wf →
    BlockStore (.aStmia c sbit w rn rlist) s false true w rn rlist ∧
    BlockStore (.aStmib c sbit w rn rlist) s true true w rn rlist ∧
    BlockStore (.aStmda c sbit w rn rlist) s false false w rn rlist ∧
    BlockStore (.aStmdb c sbit w rn rlist) s true false w rn rlist

/-- The four load-multiples: each listed register takes the word at its address, register 15 by the pc-write; the write-back is
skipped when the base is listed; S is ignored. The first word without room, in the mode's order, is HostDefect, the registers
before it loaded and nothing else (47 R540, R545 to R549; 20 R82). -/
def Obligations.BlockLoads : Prop :=
  ∀ (c : Cond) (sbit w : Bool) (rn : Reg) (rlist : BitVec 16) (s : State), s.passes c = true →
    BlockLoad (.aLdmia c sbit w rn rlist) s false true w rn rlist ∧
    BlockLoad (.aLdmib c sbit w rn rlist) s true true w rn rlist ∧
    BlockLoad (.aLdmda c sbit w rn rlist) s false false w rn rlist ∧
    BlockLoad (.aLdmdb c sbit w rn rlist) s true false w rn rlist

/-! ## Undefined encodings and defects -/

/-- The undefined fallback: every instruction of an undefined row leaves the state as it finds it, so a value that decodes to one
is a no-op beyond the advance and the sequential instruction is next; every compact value of the undefined ranges is one (60
R551, 30 R175). -/
def Obligations.UndefinedEncodingsDoNothing : Prop :=
  (∀ (c : Cond) (s : State) (i : Instr),
    i ∈ [Instr.tUndef12a, .tUndef12b, .tUndef13a, .tUndef13b, .tUndef13c, .tUndef17, .aUndefMul001 c, .aUndefMul11 c,
      .aUndefSwap01 c, .aUndefSwap10 c, .aUndefSwap11 c, .aUndefLdrd c, .aUndefStrd c, .aUndefMisc0001op00 c,
      .aUndefMisc0001op10 c, .aUndefMisc0011op00 c, .aUndefMisc0011op10 c, .aUndefMisc0011op11 c, .aUndefMisc0010 c,
      .aUndefMisc0100 c, .aUndefMisc0101 c, .aUndefMisc0110 c, .aUndefMisc0111 c, .aUndefImm c, .aUndefRegOff c,
      .aUndefCop c] → exec i s = .next s ∧
      ∀ v mode, mode = s.flagT → decodeValue mode v = .ok i → execute v mode s = .next s.begin) ∧
  (∀ s : State, s.begin.x Reg.pc = s.fetchAddr + s.width + s.width ∧ s.begin.fetchAddr = s.fetchAddr + s.width ∧
    s.KeepsRegs s.begin [Reg.pc] ∧ s.begin.psr = s.psr ∧ s.KeepsMemory s.begin) ∧
  (∀ (v : Word) (s : State), s.flagT = true →
    (0xB100 ≤ v.toNat ∧ v.toNat ≤ 0xB3FF) ∨ (0xB600 ≤ v.toNat ∧ v.toNat ≤ 0xBBFF) ∨
      (0xBE00 ≤ v.toNat ∧ v.toNat ≤ 0xBFFF) ∨ (0xE800 ≤ v.toNat ∧ v.toNat ≤ 0xEFFF) →
    execute v true s = .next s.begin)

/-- The mode argument must be PSR.T, and a compact value below 0x10000; the first defect is the one raised, with BreakState none
and x[15] not advanced, and any other call is `exec` of the value's instruction in the encoding the mode selects (10 R47, R48;
60 R552). -/
def Obligations.ModeAndWidthDefects : Prop :=
  ∀ (v : Word) (mode : Bool) (s : State),
    (mode ≠ s.flagT → execute v mode s = .fault (.modeMismatch { s with breakState := .none })) ∧
    (mode = true → s.flagT = true → 0x10000 ≤ v.toNat →
      execute v mode s = .fault (.wideCompact { s with breakState := .none })) ∧
    (mode = true → s.flagT = true → v.toNat < 0x10000 →
      execute v mode s = exec (decodeCompact (v.setWidth 16)) s.begin) ∧
    (mode = false → s.flagT = false → execute v mode s = exec (decodeFull v) s.begin)

/-- An access to a region shorter than it is HostDefect, whatever the access (20 R82), and so is a copy (R93). -/
def Obligations.ShortRegionDefect : Prop :=
  ∀ (s : State) (a b v : Word) (z : Size) (n : Nat),
    ((s.region (regionIndex a)).len < z.bytes →
      s.rawRead a z = .error (.regionShort s (regionIndex a)) ∧ s.memRead a z = .error (.regionShort s (regionIndex a)) ∧
      s.memReadS a z = .error (.regionShort s (regionIndex a)) ∧
      s.rawWrite a z v = .error (.regionShort s (regionIndex a)) ∧
      s.memWrite a z v = .error (.regionShort s (regionIndex a))) ∧
    (n ≠ 0 → (s.region (regionIndex a)).len < n ∨ (s.region (regionIndex b)).len < n →
      s.memCopy a b n = .error (.copyTooLong s))

/-! ## Memory and the DMA -/

/-- MemWrite then MemRead of the same span returns the low 8n bits, whether or not the span wraps; a word written k bytes before
the region's wrap leaves its top bytes at offsets 0 .. k-1 of the same region (20 R92; R84, R85). -/
def Obligations.ReadBackAfterWrite : Prop :=
  ∀ (s t : State) (a v : Word) (z : Size), s.mem.wf → s.triggersDma a z v = false → s.memWrite a z v = .ok t →
    (∃ u, t.memRead a z = .ok (BitVec.ofNat 32 (v.toNat % 2 ^ (8 * z.bytes)), u)) ∧
    (∀ k, 0 < k → k < 4 → z = .word → s.offset a = (s.region (regionIndex a)).len - 4 + k →
      ∀ j, j < k → (t.region (regionIndex a)).get j = bits v (8 * (4 - k + j)) 8)

/-- MemCopy reads every source byte before it writes any: each destination byte is the old source byte, overlap or not; every
other byte, the registers, PSR, the monitor output and the lengths are as they were, and the memory stays canonical; a copy
longer than a region is HostDefect (20 R93, R94). -/
def Obligations.CopyReadsBeforeItWrites : Prop :=
  ∀ (s : State) (src dst : Word) (n : Nat), s.mem.wf →
    s.memCopy src dst 0 = .ok s ∧
    (n ≠ 0 → (s.region (regionIndex src)).len < n ∨ (s.region (regionIndex dst)).len < n →
      s.memCopy src dst n = .error (.copyTooLong s)) ∧
    (n ≤ (s.region (regionIndex src)).len → n ≤ (s.region (regionIndex dst)).len → ∃ t, s.memCopy src dst n = .ok t ∧
      (∀ i, i < n → t.spanByte dst i = s.spanByte src i) ∧
      (∀ b, s.covers dst n b = false → t.byteAt b = s.byteAt b) ∧
      t.regs = s.regs ∧ t.psr = s.psr ∧ t.breakState = s.breakState ∧ t.host = s.host ∧ s.KeepsLengths t ∧ t.mem.wf)

/-- The DMA transfer: one copy of CNT elements of 4 or 2 bytes from SAD to DAD, then the enable bit cleared in what the copy left;
every byte outside the copy and the enable byte, the registers, PSR and the monitor output are as they were, and the memory stays
canonical; a region 4 too short for the DMA registers or a region too short for the copy is HostDefect (20 R82, R103, R104,
R106). -/
def Obligations.DmaTransferCopiesThenClears : Prop :=
  ∀ s : State, s.mem.wf →
    let src := s.valueAt 0x040000D4 .word
    let dst := s.valueAt 0x040000D8 .word
    let size := (s.valueAt 0x040000DC .half).toNat *
      (if (s.valueAt 0x040000DE .half).getLsbD s.host.dmaWidthBit.val then 4 else 2)
    let enable := 0x040000DE + BitVec.ofNat 32 (s.host.dmaEnableBit.val / 8)
    ((s.region 4).len < 4 → s.dmaTransfer = .error (.regionShort s 4)) ∧
    (4 ≤ (s.region 4).len → size ≠ 0 →
      (s.region (regionIndex src)).len < size ∨ (s.region (regionIndex dst)).len < size →
      s.dmaTransfer = .error (.copyTooLong s)) ∧
    (4 ≤ (s.region 4).len →
      size = 0 ∨ size ≤ (s.region (regionIndex src)).len ∧ size ≤ (s.region (regionIndex dst)).len →
    ∃ t, s.dmaTransfer = .ok t ∧
      (∀ b, s.covers enable 1 b = false → s.covers dst size b = false → t.byteAt b = s.byteAt b) ∧
      (∀ i, i < size → ∀ b, regionIndex b = regionIndex dst →
        s.offset b = (s.offset dst + i) % (s.region (regionIndex dst)).len → s.covers enable 1 b = false →
          t.byteAt b = s.spanByte src i) ∧
      (t.byteAt enable).getLsbD (s.host.dmaEnableBit.val % 8) = false ∧
      (∀ k, k ≠ s.host.dmaEnableBit.val % 8 → s.covers dst size enable = false →
        (t.byteAt enable).getLsbD k = (s.byteAt enable).getLsbD k) ∧
      (∀ i k, i < size → regionIndex enable = regionIndex dst →
        s.offset enable = (s.offset dst + i) % (s.region (regionIndex dst)).len → k ≠ s.host.dmaEnableBit.val % 8 →
          (t.byteAt enable).getLsbD k = (s.spanByte src i).getLsbD k) ∧
      t.regs = s.regs ∧ t.psr = s.psr ∧ t.breakState = s.breakState ∧ t.host = s.host ∧ s.KeepsLengths t ∧ t.mem.wf)

/-! ## Whole-machine rules -/

/-- A monitor hit changes nothing but the monitor output: two states that differ only in monitor sets, conditional breaks and
monitor output step to two such states, or both stop (20 R98; 10 R50; 60 R565). -/
def Obligations.MonitorsChangeOnlyTheMonitorOutput : Prop :=
  ∀ s s' : State, s.SameButMonitors s' →
    (∀ t, step s = .next t → ∃ t', step s' = .next t' ∧ t.SameButMonitors t') ∧
    ((∃ f, step s = .fault f) → ∃ f, step s' = .fault f)

/-- Only the flag writers write N, Z, C, V (10 R38); only BX, BLX and MSR write T (10 R35, R44; 45 R454); only MSR writes the
storage bits of PSR (10 R36); only the stores write memory (20 R111). -/
def Obligations.OnlyTheirInstructionsWritePsrAndMemory : Prop :=
  ∀ (i : Instr) (s t : State), exec i s = .next t →
    (i.writesFlags = false → s.KeepsPsr t ((List.range 28))) ∧ (i.writesMode = false → t.flagT = s.flagT) ∧
    (i.writesPsrStorage = false → s.KeepsPsr t [5, 28, 29, 30, 31]) ∧ (i.writesMemory = false → s.KeepsMemory t)

/-- Where every region is long enough for any access and any DMA copy, every instruction completes and so does every step, and the
regions stay so long: no defect is reached, so with any STOP a run ends or is infinite (60 R550, R552; 70 R583). Of every machine:
a run ends in `t` exactly when `t` is the first state of its steps whose next fetch is at STOP, it is infinite exactly when every
number of steps completes short of STOP, and a run that meets a defect does neither (70 R586). THE MODEL'S READING: the launch state
counts (n = 0), so a machine launched at STOP has ended before its first step. R586 says only "the first state between calls"; that
the launch state is one is log entry 16 (DEDUCED, unsafe for such a launch), not the rule. -/
def Obligations.RoomyMachineNeverStops : Prop :=
  (∀ s : State, s.Roomy →
    (∀ i : Instr, ∃ t, exec i s = .next t) ∧ (∃ t, step s = .next t ∧ t.Roomy) ∧
    ∀ stop, (∃ t, RunEndsIn stop s t) ∨ RunIsInfinite stop s) ∧
  (∀ (stop : Word) (s t : State), RunEndsIn stop s t ↔
    ∃ n, StepsTo n s t ∧ t.fetchAddr = stop ∧ ∀ m u, m < n → StepsTo m s u → u.fetchAddr ≠ stop) ∧
  (∀ (stop : Word) (s : State), RunIsInfinite stop s ↔ ∀ n, ∃ t, StepsTo n s t ∧ t.fetchAddr ≠ stop) ∧
  (∀ (stop : Word) (s : State) (f : Fault), RunMeetsDefect stop s f →
    (∀ t, ¬ RunEndsIn stop s t) ∧ ¬ RunIsInfinite stop s)
end

