-- ==== Sys2Proof/Laws/State.lean ====
section
/-! SUPPORT. One lemma per field per update: what each named update of State leaves in each field, and what the accessors read
after it. Later proofs cite these and never unfold a record update. -/

namespace Sys2Proof.Machine

/-! ## setBit -/

theorem getLsbD_setBit (w : Word) (k i : Nat) (b : Bool) (hi : i < 32) :
    (setBit w k b).getLsbD i = if i = k then b else w.getLsbD i := by
  unfold setBit
  by_cases h : i = k
  · subst h
    cases b <;> simp [hi]
  · have hne : ¬ (i - k = 0 ∧ k ≤ i) := by omega
    cases b
    · by_cases hk : i < k
      · simp [hi, h, hk]
      · have : i - k ≠ 0 := by omega
        simp [hi, h, hk, this]
    · by_cases hk : i < k
      · simp [hi, h, hk]
      · have : i - k ≠ 0 := by omega
        simp [hi, h, hk, this]

@[simp] theorem getElem_setBit (w : Word) (k i : Nat) (b : Bool) (hi : i < 32) :
    (setBit w k b)[i] = if i = k then b else w[i] := by
  simpa only [BitVec.getLsbD_eq_getElem hi] using getLsbD_setBit w k i b hi

/-! ## setX -/

@[simp] theorem x_setX (s : State) (r r' : Reg) (v : Word) :
    (s.setX r v).x r' = if r' = r then v else s.x r' := by
  simp only [State.setX, State.x, Vector.get_eq_getElem, Vector.getElem_set]
  by_cases h : r' = r
  · simp [h]
  · have : r.val ≠ r'.val := fun e => h (Fin.ext e.symm)
    simp [h, this]

theorem x_setX_self (s : State) (r : Reg) (v : Word) : (s.setX r v).x r = v := by simp

@[simp] theorem setX_psr (s : State) (r : Reg) (v : Word) : (s.setX r v).psr = s.psr := rfl
@[simp] theorem setX_mem (s : State) (r : Reg) (v : Word) : (s.setX r v).mem = s.mem := rfl
@[simp] theorem setX_breakState (s : State) (r : Reg) (v : Word) : (s.setX r v).breakState = s.breakState := rfl
@[simp] theorem setX_host (s : State) (r : Reg) (v : Word) : (s.setX r v).host = s.host := rfl

/-! ## enteredAt -/

theorem enteredAt_eq (s : State) (entry : Word) : s.enteredAt entry = s.setX Reg.pc (entry + s.width) := rfl

@[simp] theorem enteredAt_psr (s : State) (entry : Word) : (s.enteredAt entry).psr = s.psr := rfl
@[simp] theorem enteredAt_mem (s : State) (entry : Word) : (s.enteredAt entry).mem = s.mem := rfl
@[simp] theorem enteredAt_breakState (s : State) (entry : Word) : (s.enteredAt entry).breakState = s.breakState := rfl
@[simp] theorem enteredAt_host (s : State) (entry : Word) : (s.enteredAt entry).host = s.host := rfl
@[simp] theorem enteredAt_x (s : State) (entry : Word) (r : Reg) :
    (s.enteredAt entry).x r = if r = Reg.pc then entry + s.width else s.x r := by rw [enteredAt_eq, x_setX]

/-! ## setT -/

@[simp] theorem setT_regs (s : State) (b : Bool) : (s.setT b).regs = s.regs := rfl
@[simp] theorem setT_psr (s : State) (b : Bool) : (s.setT b).psr = setBit s.psr 5 b := rfl
@[simp] theorem setT_mem (s : State) (b : Bool) : (s.setT b).mem = s.mem := rfl
@[simp] theorem setT_breakState (s : State) (b : Bool) : (s.setT b).breakState = s.breakState := rfl
@[simp] theorem setT_host (s : State) (b : Bool) : (s.setT b).host = s.host := rfl
@[simp] theorem setT_x (s : State) (b : Bool) (r : Reg) : (s.setT b).x r = s.x r := rfl
@[simp] theorem setT_flagT (s : State) (b : Bool) : (s.setT b).flagT = b := by simp [State.flagT]

/-! ## The pc-write and the register write -/

theorem writePc_eq (s : State) (t : Word) : s.writePc t = s.setX Reg.pc (pcStored s.flagT t) := by
  unfold State.writePc pcStored; split <;> rfl

@[simp] theorem writePc_psr (s : State) (t : Word) : (s.writePc t).psr = s.psr := by simp [writePc_eq]
@[simp] theorem writePc_mem (s : State) (t : Word) : (s.writePc t).mem = s.mem := by simp [writePc_eq]
@[simp] theorem writePc_breakState (s : State) (t : Word) : (s.writePc t).breakState = s.breakState := by simp [writePc_eq]
@[simp] theorem writePc_host (s : State) (t : Word) : (s.writePc t).host = s.host := by simp [writePc_eq]
@[simp] theorem writePc_x (s : State) (t : Word) (r : Reg) :
    (s.writePc t).x r = if r = Reg.pc then pcStored s.flagT t else s.x r := by simp [writePc_eq]

theorem writeReg_eq (s : State) (r : Reg) (v : Word) : s.writeReg r v = s.setX r (stored s.flagT r v) := by
  unfold State.writeReg stored
  by_cases h : r = Reg.pc
  · subst h; simp [writePc_eq]
  · simp [h]

@[simp] theorem writeReg_psr (s : State) (r : Reg) (v : Word) : (s.writeReg r v).psr = s.psr := by simp [writeReg_eq]
@[simp] theorem writeReg_mem (s : State) (r : Reg) (v : Word) : (s.writeReg r v).mem = s.mem := by simp [writeReg_eq]
@[simp] theorem writeReg_breakState (s : State) (r : Reg) (v : Word) : (s.writeReg r v).breakState = s.breakState := by
  simp [writeReg_eq]
@[simp] theorem writeReg_host (s : State) (r : Reg) (v : Word) : (s.writeReg r v).host = s.host := by simp [writeReg_eq]
@[simp] theorem writeReg_x (s : State) (r r' : Reg) (v : Word) :
    (s.writeReg r v).x r' = if r' = r then stored s.flagT r v else s.x r' := by simp [writeReg_eq]

/-! ## The start of execute -/

@[simp] theorem clearBreak_x (s : State) (r : Reg) : s.clearBreak.x r = s.x r := rfl
@[simp] theorem clearBreak_psr (s : State) : s.clearBreak.psr = s.psr := rfl
@[simp] theorem clearBreak_mem (s : State) : s.clearBreak.mem = s.mem := rfl
@[simp] theorem clearBreak_host (s : State) : s.clearBreak.host = s.host := rfl
@[simp] theorem clearBreak_breakState (s : State) : s.clearBreak.breakState = .none := rfl

@[simp] theorem advance_psr (s : State) : s.advance.psr = s.psr := rfl
@[simp] theorem advance_mem (s : State) : s.advance.mem = s.mem := rfl
@[simp] theorem advance_host (s : State) : s.advance.host = s.host := rfl
@[simp] theorem advance_breakState (s : State) : s.advance.breakState = s.breakState := rfl
@[simp] theorem advance_x (s : State) (r : Reg) :
    s.advance.x r = if r = Reg.pc then s.x Reg.pc + s.width else s.x r := by simp [State.advance]

@[simp] theorem begin_psr (s : State) : s.begin.psr = s.psr := rfl
@[simp] theorem begin_mem (s : State) : s.begin.mem = s.mem := rfl
@[simp] theorem begin_host (s : State) : s.begin.host = s.host := rfl
@[simp] theorem begin_breakState (s : State) : s.begin.breakState = .none := rfl
@[simp] theorem begin_x (s : State) (r : Reg) :
    s.begin.x r = if r = Reg.pc then s.x Reg.pc + s.width else s.x r := by
  unfold State.begin; rw [advance_x]; rfl

/-! ## The flag writers -/

@[simp] theorem setNZ_regs (s : State) (r : Word) : (s.setNZ r).regs = s.regs := rfl
@[simp] theorem setNZ_mem (s : State) (r : Word) : (s.setNZ r).mem = s.mem := rfl
@[simp] theorem setNZ_breakState (s : State) (r : Word) : (s.setNZ r).breakState = s.breakState := rfl
@[simp] theorem setNZ_host (s : State) (r : Word) : (s.setNZ r).host = s.host := rfl
@[simp] theorem setNZ_x (s : State) (r : Word) (i : Reg) : (s.setNZ r).x i = s.x i := rfl

@[simp] theorem setNZC_regs (s : State) (r : Word) (c : Bool) : (s.setNZC r c).regs = s.regs := rfl
@[simp] theorem setNZC_mem (s : State) (r : Word) (c : Bool) : (s.setNZC r c).mem = s.mem := rfl
@[simp] theorem setNZC_breakState (s : State) (r : Word) (c : Bool) : (s.setNZC r c).breakState = s.breakState := rfl
@[simp] theorem setNZC_host (s : State) (r : Word) (c : Bool) : (s.setNZC r c).host = s.host := rfl
@[simp] theorem setNZC_x (s : State) (r : Word) (c : Bool) (i : Reg) : (s.setNZC r c).x i = s.x i := rfl

@[simp] theorem setNZCV_regs (s : State) (r : AddResult) : (s.setNZCV r).regs = s.regs := rfl
@[simp] theorem setNZCV_mem (s : State) (r : AddResult) : (s.setNZCV r).mem = s.mem := rfl
@[simp] theorem setNZCV_breakState (s : State) (r : AddResult) : (s.setNZCV r).breakState = s.breakState := rfl
@[simp] theorem setNZCV_host (s : State) (r : AddResult) : (s.setNZCV r).host = s.host := rfl
@[simp] theorem setNZCV_x (s : State) (r : AddResult) (i : Reg) : (s.setNZCV r).x i = s.x i := rfl

@[simp] theorem setMulNZ32_regs (s : State) (r : Word) : (s.setMulNZ32 r).regs = s.regs := rfl
@[simp] theorem setMulNZ32_mem (s : State) (r : Word) : (s.setMulNZ32 r).mem = s.mem := rfl
@[simp] theorem setMulNZ32_breakState (s : State) (r : Word) : (s.setMulNZ32 r).breakState = s.breakState := rfl
@[simp] theorem setMulNZ32_host (s : State) (r : Word) : (s.setMulNZ32 r).host = s.host := rfl
@[simp] theorem setMulNZ32_x (s : State) (r : Word) (i : Reg) : (s.setMulNZ32 r).x i = s.x i := rfl

@[simp] theorem setMulNZ64_regs (s : State) (h l : Word) : (s.setMulNZ64 h l).regs = s.regs := rfl
@[simp] theorem setMulNZ64_mem (s : State) (h l : Word) : (s.setMulNZ64 h l).mem = s.mem := rfl
@[simp] theorem setMulNZ64_breakState (s : State) (h l : Word) : (s.setMulNZ64 h l).breakState = s.breakState := rfl
@[simp] theorem setMulNZ64_host (s : State) (h l : Word) : (s.setMulNZ64 h l).host = s.host := rfl
@[simp] theorem setMulNZ64_x (s : State) (h l : Word) (i : Reg) : (s.setMulNZ64 h l).x i = s.x i := rfl

/-! The PSR bits after each flag writer. -/

theorem setNZ_bit (s : State) (r : Word) (i : Nat) (hi : i < 32) :
    (s.setNZ r).psr.getLsbD i = if i = 30 then (r == 0) else if i = 31 then r.msb else s.psr.getLsbD i := by
  simp only [State.setNZ, getLsbD_setBit _ _ _ _ hi]

theorem setNZC_bit (s : State) (r : Word) (c : Bool) (i : Nat) (hi : i < 32) :
    (s.setNZC r c).psr.getLsbD i =
      if i = 29 then c else if i = 30 then (r == 0) else if i = 31 then r.msb else s.psr.getLsbD i := by
  simp only [State.setNZC, getLsbD_setBit _ _ _ _ hi, setNZ_bit s r i hi]

theorem setNZCV_bit (s : State) (r : AddResult) (i : Nat) (hi : i < 32) :
    (s.setNZCV r).psr.getLsbD i =
      if i = 28 then r.overflow else if i = 29 then r.carry else if i = 30 then (r.result == 0)
      else if i = 31 then r.result.msb else s.psr.getLsbD i := by
  simp only [State.setNZCV, getLsbD_setBit _ _ _ _ hi, setNZ_bit s _ i hi]

theorem setMulNZ64_bit (s : State) (h l : Word) (i : Nat) (hi : i < 32) :
    (s.setMulNZ64 h l).psr.getLsbD i =
      if i = 30 then (h == 0 && l == 0) else if i = 31 then h.msb else s.psr.getLsbD i := by
  simp only [State.setMulNZ64, getLsbD_setBit _ _ _ _ hi]

@[simp] theorem setNZ_flagT (s : State) (r : Word) : (s.setNZ r).flagT = s.flagT := by rw [State.flagT, setNZ_bit _ _ 5 (by decide)]; rfl
@[simp] theorem setNZC_flagT (s : State) (r : Word) (c : Bool) : (s.setNZC r c).flagT = s.flagT := by
  rw [State.flagT, setNZC_bit _ _ _ 5 (by decide)]; rfl
@[simp] theorem setNZCV_flagT (s : State) (r : AddResult) : (s.setNZCV r).flagT = s.flagT := by
  rw [State.flagT, setNZCV_bit _ _ 5 (by decide)]; rfl
@[simp] theorem setMulNZ32_flagT (s : State) (r : Word) : (s.setMulNZ32 r).flagT = s.flagT := by
  simp [State.setMulNZ32]
@[simp] theorem setMulNZ64_flagT (s : State) (h l : Word) : (s.setMulNZ64 h l).flagT = s.flagT := by
  rw [State.flagT, setMulNZ64_bit _ _ _ 5 (by decide)]; rfl

/-! A flag or T is read from PSR alone. -/

theorem flagT_congr {s t : State} (h : t.psr = s.psr) : t.flagT = s.flagT := by simp [State.flagT, h]

@[simp] theorem setX_flagT (s : State) (r : Reg) (v : Word) : (s.setX r v).flagT = s.flagT := rfl
@[simp] theorem writePc_flagT (s : State) (t : Word) : (s.writePc t).flagT = s.flagT := flagT_congr (by simp)
@[simp] theorem writeReg_flagT (s : State) (r : Reg) (v : Word) : (s.writeReg r v).flagT = s.flagT := flagT_congr (by simp)
@[simp] theorem begin_flagT (s : State) : s.begin.flagT = s.flagT := rfl

/-! ## Regions and monitors -/

@[simp] theorem region_setRegion (s : State) (r r' : Fin 16) (m : Region) :
    (s.setRegion r m).region r' = if r' = r then m else s.region r' := by
  simp only [State.setRegion, State.region, Vector.get_eq_getElem, Vector.getElem_set]
  by_cases h : r' = r
  · simp [h]
  · have : r.val ≠ r'.val := fun e => h (Fin.ext e.symm)
    simp [h, this]

@[simp] theorem setRegion_regs (s : State) (r : Fin 16) (m : Region) : (s.setRegion r m).regs = s.regs := rfl
@[simp] theorem setRegion_psr (s : State) (r : Fin 16) (m : Region) : (s.setRegion r m).psr = s.psr := rfl
@[simp] theorem setRegion_breakState (s : State) (r : Fin 16) (m : Region) :
    (s.setRegion r m).breakState = s.breakState := rfl
@[simp] theorem setRegion_host (s : State) (r : Fin 16) (m : Region) : (s.setRegion r m).host = s.host := rfl

@[simp] theorem noteRead_regs (s : State) (a : Word) (z : Size) (v : Word) : (s.noteRead a z v).regs = s.regs := by
  unfold State.noteRead; split <;> rfl
@[simp] theorem noteRead_psr (s : State) (a : Word) (z : Size) (v : Word) : (s.noteRead a z v).psr = s.psr := by
  unfold State.noteRead; split <;> rfl
@[simp] theorem noteRead_mem (s : State) (a : Word) (z : Size) (v : Word) : (s.noteRead a z v).mem = s.mem := by
  unfold State.noteRead; split <;> rfl
@[simp] theorem noteRead_host (s : State) (a : Word) (z : Size) (v : Word) : (s.noteRead a z v).host = s.host := by
  unfold State.noteRead; split <;> rfl
@[simp] theorem noteRead_x (s : State) (a : Word) (z : Size) (v : Word) (r : Reg) : (s.noteRead a z v).x r = s.x r := by
  simp [State.x]

@[simp] theorem noteWrite_regs (s : State) (a : Word) (z : Size) (o n : Word) : (s.noteWrite a z o n).regs = s.regs := by
  unfold State.noteWrite; split <;> rfl
@[simp] theorem noteWrite_psr (s : State) (a : Word) (z : Size) (o n : Word) : (s.noteWrite a z o n).psr = s.psr := by
  unfold State.noteWrite; split <;> rfl
@[simp] theorem noteWrite_mem (s : State) (a : Word) (z : Size) (o n : Word) : (s.noteWrite a z o n).mem = s.mem := by
  unfold State.noteWrite; split <;> rfl
@[simp] theorem noteWrite_host (s : State) (a : Word) (z : Size) (o n : Word) : (s.noteWrite a z o n).host = s.host := by
  unfold State.noteWrite; split <;> rfl

/-- The region of an address and its bytes depend on memory alone. -/
theorem region_congr {s t : State} (h : t.mem = s.mem) (r : Fin 16) : t.region r = s.region r := by
  simp [State.region, h]

theorem offset_congr {s t : State} (h : t.mem = s.mem) (a : Word) : t.offset a = s.offset a := by
  simp [State.offset, region_congr h]

theorem byteAt_congr {s t : State} (h : t.mem = s.mem) (a : Word) : t.byteAt a = s.byteAt a := by
  simp [State.byteAt, region_congr h, offset_congr h]

/-- Two states with equal registers, PSR, memory, monitor output and host parameters are one. -/
theorem State.eq_of {s t : State} (hx : ∀ r, t.x r = s.x r) (hp : t.psr = s.psr) (hm : t.mem = s.mem)
    (hb : t.breakState = s.breakState) (hh : t.host = s.host) : t = s := by
  have hr : t.regs = s.regs := Vector.ext fun i hi => hx ⟨i, hi⟩
  cases s; cases t
  simp_all

/-- A register reads what the slots hold. -/
theorem x_congr {s t : State} (h : t.regs = s.regs) (r : Reg) : t.x r = s.x r := by simp [State.x, h]

end Sys2Proof.Machine
end

