-- ==== Sys2Proof/Laws/Memory.lean ====
section
/-! SUPPORT. Memory: the get and set laws of cells and regions, that every write keeps the canonical form and the length, and
what reading or writing a span does (20_memory R84, R86, R87). -/

namespace Sys2Proof.Machine

/-! ## Cells -/

theorem cellsWf_mono {len low low' : Nat} (h : low' ≤ low) :
    ∀ {cs : List Host.Cell}, cellsWf len low cs = true → cellsWf len low' cs = true
  | [], _ => rfl
  | (k, b) :: rest, hw => by
    simp only [cellsWf, Bool.and_eq_true, decide_eq_true_eq] at hw ⊢
    exact ⟨⟨⟨by omega, hw.1.1.2⟩, hw.1.2⟩, hw.2⟩

/-- Below its first offset a canonical list holds nothing. -/
theorem lookupCell_of_lt {len low o : Nat} (h : o < low) :
    ∀ {cs : List Host.Cell}, cellsWf len low cs = true → lookupCell o cs = Config.unlistedByte
  | [], _ => rfl
  | (k, b) :: rest, hw => by
    simp only [cellsWf, Bool.and_eq_true, decide_eq_true_eq] at hw
    have : k ≠ o := by omega
    simp only [lookupCell, this, if_false]
    exact lookupCell_of_lt (by omega) hw.2

theorem lookupCell_storeCell {len o o' : Nat} {b : Byte} :
    ∀ {low : Nat} {cs : List Host.Cell}, cellsWf len low cs = true →
      lookupCell o' (storeCell o b cs) = if o' = o then b else lookupCell o' cs
  | _, [], _ => by
    unfold storeCell
    by_cases hb : b = Config.unlistedByte <;> by_cases ho : o' = o <;> simp [lookupCell, hb, ho]
    exact fun h => absurd h.symm ho
  | low, (k, c) :: rest, hw => by
    simp only [cellsWf, Bool.and_eq_true, decide_eq_true_eq] at hw
    unfold storeCell
    by_cases h1 : o < k
    · have hk : k ≠ o := by omega
      by_cases hb : b = Config.unlistedByte
      · by_cases ho : o' = o
        · subst ho
          simp only [h1, hb, if_true, lookupCell, hk, if_false]
          exact lookupCell_of_lt (by omega) hw.2
        · simp [h1, hb, ho]
      · by_cases ho : o' = o
        · simp [h1, hb, ho, lookupCell]
        · have : o ≠ o' := fun e => ho e.symm
          simp [h1, hb, ho, lookupCell, this]
    · by_cases h2 : o = k
      · subst h2
        by_cases hb : b = Config.unlistedByte
        · by_cases ho : o' = o
          · subst ho
            simp only [h1, hb, if_false, if_true]
            exact lookupCell_of_lt (by omega) hw.2
          · have : o ≠ o' := fun e => ho e.symm
            simp [hb, ho, lookupCell, this]
        · by_cases ho : o' = o
          · simp [hb, ho, lookupCell]
          · have : o ≠ o' := fun e => ho e.symm
            simp [hb, ho, lookupCell, this]
      · simp only [h1, h2, if_false, lookupCell]
        by_cases hk : k = o'
        · have : o' ≠ o := by omega
          simp [hk, this]
        · simp only [hk, if_false]
          exact lookupCell_storeCell hw.2

theorem cellsWf_storeCell {len o : Nat} {b : Byte} :
    ∀ {low : Nat} {cs : List Host.Cell}, cellsWf len low cs = true → low ≤ o → o < len →
      cellsWf len low (storeCell o b cs) = true
  | low, [], _, hl, hu => by
    unfold storeCell
    by_cases hb : b = Config.unlistedByte <;> simp [cellsWf, hb, hl, hu]
  | low, (k, c) :: rest, hw, hl, hu => by
    have hw' := hw
    simp only [cellsWf, Bool.and_eq_true, decide_eq_true_eq] at hw
    unfold storeCell
    by_cases h1 : o < k
    · by_cases hb : b = Config.unlistedByte
      · simpa [h1, hb] using hw'
      · simp only [h1, hb, if_true, if_false, cellsWf, Bool.and_eq_true, decide_eq_true_eq, bne_iff_ne, ne_eq]
        exact ⟨⟨⟨hl, hu⟩, not_false⟩, ⟨⟨by omega, hw.1.1.2⟩, by simpa using hw.1.2⟩, hw.2⟩
    · by_cases h2 : o = k
      · subst h2
        by_cases hb : b = Config.unlistedByte
        · simp only [h1, hb, if_false, if_true]
          exact cellsWf_mono (by omega) hw.2
        · simp only [h1, hb, if_true, if_false, cellsWf, Bool.and_eq_true, decide_eq_true_eq, bne_iff_ne, ne_eq]
          exact ⟨⟨⟨hl, hu⟩, not_false⟩, hw.2⟩
      · simp only [h1, h2, if_false, cellsWf, Bool.and_eq_true, decide_eq_true_eq]
        exact ⟨⟨⟨hw.1.1.1, hw.1.1.2⟩, hw.1.2⟩, cellsWf_storeCell hw.2 (by omega) hu⟩

/-- Canonical lists that hold the same bytes are the same list. -/
theorem cells_ext {len : Nat} : ∀ {low low' : Nat} {cs ds : List Host.Cell}, cellsWf len low cs = true →
    cellsWf len low' ds = true → (∀ o, lookupCell o cs = lookupCell o ds) → cs = ds
  | _, _, [], [], _, _, _ => rfl
  | _, _, [], (l, c) :: ds, _, hd, h => by
    simp only [cellsWf, Bool.and_eq_true, bne_iff_ne, ne_eq] at hd
    exact absurd (by simpa [lookupCell] using h l) (fun e => hd.1.2 (Eq.symm e))
  | _, _, (k, b) :: cs, [], hc, _, h => by
    simp only [cellsWf, Bool.and_eq_true, bne_iff_ne, ne_eq] at hc
    exact absurd (by simpa [lookupCell] using h k) hc.1.2
  | _, _, (k, b) :: cs, (l, c) :: ds, hc, hd, h => by
    simp only [cellsWf, Bool.and_eq_true, bne_iff_ne, ne_eq, decide_eq_true_eq] at hc hd
    have hk := h k
    have hl := h l
    have low (o : Nat) (ho : o < k + 1) : lookupCell o cs = Config.unlistedByte := lookupCell_of_lt ho hc.2
    have low' (o : Nat) (ho : o < l + 1) : lookupCell o ds = Config.unlistedByte := lookupCell_of_lt ho hd.2
    simp only [lookupCell, if_true] at hk hl
    obtain rfl : k = l := by
      by_contra hne
      rcases Nat.lt_or_gt_of_ne hne with hlt | hlt
      · rw [if_neg (Ne.symm hne), low' k (by omega)] at hk; exact hc.1.2 hk
      · rw [if_neg hne, low l (by omega)] at hl; exact hd.1.2 hl.symm
    obtain rfl : b = c := by simpa using hk
    have hrest : ∀ o, lookupCell o cs = lookupCell o ds := by
      intro o
      by_cases ho : k = o
      · rw [low o (by omega), low' o (by omega)]
      · simpa [lookupCell, ho] using h o
    rw [cells_ext hc.2 hd.2 hrest]

/-! ## Regions -/

@[simp] theorem Region.set_len (m : Region) (o : Nat) (b : Byte) : (m.set o b).len = m.len := rfl

theorem Region.get_set {m : Region} (h : m.wf = true) (o o' : Nat) (b : Byte) :
    (m.set o b).get o' = if o' = o then b else m.get o' := lookupCell_storeCell h

theorem Region.set_wf {m : Region} (h : m.wf = true) {o : Nat} (ho : o < m.len) (b : Byte) : (m.set o b).wf = true :=
  cellsWf_storeCell h (by omega) ho

@[simp] theorem Region.writeSpan_len (bs : List Byte) : ∀ (m : Region) (o : Nat), (m.writeSpan o bs).len = m.len := by
  induction bs with
  | nil => intros; rfl
  | cons b bs ih => intro m o; simp [Region.writeSpan, ih]

theorem Region.writeSpan_wf (bs : List Byte) :
    ∀ {m : Region} (o : Nat), m.wf = true → 0 < m.len → (m.writeSpan o bs).wf = true := by
  induction bs with
  | nil => intro m o h _; exact h
  | cons b bs ih =>
    intro m o h hl
    exact ih (o + 1) (Region.set_wf h (Nat.mod_lt _ hl) b) hl

/-- A byte outside the span is unchanged. -/
theorem Region.get_writeSpan_of_outside (bs : List Byte) :
    ∀ {m : Region} (o j : Nat), m.wf = true → 0 < m.len → (∀ i, i < bs.length → (o + i) % m.len ≠ j) →
      (m.writeSpan o bs).get j = m.get j := by
  induction bs with
  | nil => intros; rfl
  | cons b bs ih =>
    intro m o j h hl hj
    have h0 : (o + 0) % m.len ≠ j := hj 0 (by simp)
    rw [Region.writeSpan, ih (o + 1) j (Region.set_wf h (Nat.mod_lt _ hl) b) hl]
    · rw [Region.get_set h, if_neg (fun e => h0 (by simpa using e.symm))]
    · intro i hi
      have := hj (i + 1) (by simpa using hi)
      simpa [Nat.add_assoc, Nat.add_comm 1 i] using this

/-- Offsets of one span no longer than the region are distinct. -/
theorem span_injective {len o i j : Nat} (hi : i < len) (hj : j < len) (h : (o + i) % len = (o + j) % len) : i = j := by
  have h' : o + i ≡ o + j [MOD len] := h
  have := Nat.ModEq.add_left_cancel' o h'
  rwa [Nat.ModEq, Nat.mod_eq_of_lt hi, Nat.mod_eq_of_lt hj] at this

/-- A byte of the span is the byte written there. -/
theorem Region.get_writeSpan (bs : List Byte) :
    ∀ {m : Region} (o i : Nat), m.wf = true → bs.length ≤ m.len → (hi : i < bs.length) →
      (m.writeSpan o bs).get ((o + i) % m.len) = bs[i] := by
  induction bs with
  | nil => intro m o i _ _ hi; simp at hi
  | cons b bs ih =>
    intro m o i h hl hi
    have hl0 : 0 < m.len := by simp at hl; omega
    have hw := Region.set_wf h (Nat.mod_lt o hl0) b
    cases i with
    | zero =>
      rw [Region.writeSpan, Region.get_writeSpan_of_outside bs (o + 1) _ hw (by simpa using hl0)]
      · simp [Region.get_set h]
      · intro k hk e
        have := span_injective (len := m.len) (o := o) (i := k + 1) (j := 0) (by simp at hl; omega) hl0
          (by simpa [Nat.add_assoc, Nat.add_comm 1 k] using e)
        omega
    | succ i =>
      have := ih (m := m.set (o % m.len) b) (o + 1) i hw (by simp at hl ⊢; omega) (by simpa using hi)
      simpa [Region.writeSpan, Nat.add_assoc, Nat.add_comm 1 i] using this

@[simp] theorem Region.readSpan_length (n : Nat) : ∀ (m : Region) (o : Nat), (m.readSpan o n).length = n := by
  induction n with
  | zero => intros; rfl
  | succ n ih => intro m o; simp [Region.readSpan, ih]

theorem Region.getElem_readSpan (n : Nat) :
    ∀ (m : Region) (o i : Nat) (h : i < (m.readSpan o n).length), (m.readSpan o n)[i] = m.get ((o + i) % m.len) := by
  induction n with
  | zero => intro m o i h; simp at h
  | succ n ih =>
    intro m o i h
    cases i with
    | zero => simp [Region.readSpan]
    | succ i => simp [Region.readSpan, ih, Nat.add_assoc, Nat.add_comm 1 i]

/-! ## Memory -/

theorem region_wf {s : State} (h : s.mem.wf) (r : Fin 16) : (s.region r).wf = true := h r

theorem mem_wf_iff (s : State) : s.mem.wf ↔ ∀ r, (s.region r).wf = true := Iff.rfl

/-- Replacing a region by a canonical one keeps the memory canonical. -/
theorem wf_setRegion {s : State} (h : s.mem.wf) {r : Fin 16} {m : Region} (hm : m.wf = true) :
    (s.setRegion r m).mem.wf := by
  rw [mem_wf_iff]
  intro r'
  rw [region_setRegion]
  split
  · exact hm
  · exact h r'

theorem reset_mem_wf : State.reset.mem.wf := by decide

/-- Canonical regions of one length that hold the same bytes are one region. -/
theorem Region.eq_of_get {m m' : Region} (h : m.wf = true) (h' : m'.wf = true) (hl : m'.len = m.len)
    (hg : ∀ o, m'.get o = m.get o) : m' = m := by
  obtain ⟨len, cells⟩ := m
  obtain ⟨len', cells'⟩ := m'
  obtain rfl : len' = len := hl
  obtain rfl : cells' = cells := cells_ext h' h hg
  rfl

/-- Canonical memories of the same lengths that hold the same bytes are one memory. -/
theorem mem_eq_of_get {s t : State} (h : s.mem.wf) (h' : t.mem.wf) (hl : s.KeepsLengths t)
    (hg : ∀ r o, (t.region r).get o = (s.region r).get o) : t.mem = s.mem :=
  Vector.ext fun i hi => Region.eq_of_get (h ⟨i, hi⟩) (h' ⟨i, hi⟩) (hl ⟨i, hi⟩) (hg ⟨i, hi⟩)

/-- Equal lengths and an equal region index give equal offsets. -/
theorem offset_of_len {s t : State} {a : Word} (h : (t.region (regionIndex a)).len = (s.region (regionIndex a)).len) :
    t.offset a = s.offset a := by simp [State.offset, h]

theorem offset_lt {s : State} {a : Word} (h : 0 < (s.region (regionIndex a)).len) :
    s.offset a < (s.region (regionIndex a)).len := Nat.mod_lt _ h

/-- The first byte of an access is the byte the address selects. -/
theorem spanByte_zero (s : State) (a : Word) : s.spanByte a 0 = s.byteAt a := by
  simp [State.spanByte, State.byteAt, State.offset]

theorem spanByte_congr {s t : State} (h : t.mem = s.mem) (a : Word) (i : Nat) : t.spanByte a i = s.spanByte a i := by
  simp [State.spanByte, region_congr h, offset_congr h]

theorem valueAt_congr {s t : State} (h : t.mem = s.mem) (a : Word) (z : Size) : t.valueAt a z = s.valueAt a z := by
  simp only [State.valueAt, spanByte_congr h]

end Sys2Proof.Machine
end

