-- ==== Sys2Proof/Laws/Ops.lean ====
section
/-! SUPPORT. The access operations: each said once, what it answers and what it leaves (20_memory R86 to R106). -/

namespace Sys2Proof.Machine

/-! ## Little-endian values -/

@[simp] theorem toBytesLE_length (n : Nat) : ∀ v, (toBytesLE n v).length = n := by
  induction n with
  | zero => intro v; rfl
  | succ n ih => intro v; simp [toBytesLE, ih]

theorem getElem_toBytesLE (n : Nat) : ∀ (v i : Nat) (h : i < (toBytesLE n v).length),
    (toBytesLE n v)[i] = BitVec.ofNat 8 (v / 256 ^ i) := by
  induction n with
  | zero => intro v i h; simp at h
  | succ n ih =>
    intro v i h
    cases i with
    | zero => simp [toBytesLE]
    | succ i => simp [toBytesLE, ih, Nat.pow_succ, Nat.div_div_eq_div_mul, Nat.mul_comm]

theorem bits_eq_ofNat (v : Word) (i : Nat) : bits v (8 * i) 8 = BitVec.ofNat 8 (v.toNat / 256 ^ i) := by
  apply BitVec.eq_of_toNat_eq
  rw [show (256 : Nat) ^ i = 2 ^ (8 * i) by rw [Nat.pow_mul]]
  simp [bits, BitVec.extractLsb', Nat.shiftRight_eq_div_pow]

/-! ## Raw accesses -/

theorem byteWeights : (2 : Nat) ^ (8 * 0) = 1 ∧ (2 : Nat) ^ (8 * 1) = 256 ∧ (2 : Nat) ^ (8 * 2) = 65536 ∧
    (2 : Nat) ^ (8 * 3) = 16777216 := ⟨by norm_num, by norm_num, by norm_num, by norm_num⟩

/-- The sum of R85 for each size, with its weights evaluated. -/
theorem weightedSum (f : Nat → Nat) :
    ((List.range 1).map fun i => f i * 2 ^ (8 * i)).sum = f 0 ∧
    ((List.range 2).map fun i => f i * 2 ^ (8 * i)).sum = f 0 + f 1 * 256 ∧
    ((List.range 4).map fun i => f i * 2 ^ (8 * i)).sum = f 0 + f 1 * 256 + f 2 * 65536 + f 3 * 16777216 := by
  have l4 (g : Nat → Nat) : ((List.range 4).map g).sum = g 0 + g 1 + g 2 + g 3 := by
    simp [List.range_succ, Nat.add_assoc]
  refine ⟨by simp, by simp [List.range_succ], ?_⟩
  rw [l4, byteWeights.1, byteWeights.2.1, byteWeights.2.2.1, byteWeights.2.2.2, Nat.mul_one]

theorem valueAt_byte (s : State) (a : Word) : s.valueAt a .byte = BitVec.ofNat 32 (s.spanByte a 0).toNat :=
  congrArg _ (weightedSum fun i => (s.spanByte a i).toNat).1

theorem valueAt_half (s : State) (a : Word) :
    s.valueAt a .half = BitVec.ofNat 32 ((s.spanByte a 0).toNat + (s.spanByte a 1).toNat * 256) :=
  congrArg _ (weightedSum fun i => (s.spanByte a i).toNat).2.1

theorem valueAt_word (s : State) (a : Word) :
    s.valueAt a .word = BitVec.ofNat 32 ((s.spanByte a 0).toNat + (s.spanByte a 1).toNat * 256 +
      (s.spanByte a 2).toNat * 65536 + (s.spanByte a 3).toNat * 16777216) :=
  congrArg _ (weightedSum fun i => (s.spanByte a i).toNat).2.2

theorem rawRead_eq {s : State} {a : Word} {z : Size} (h : s.Fits a z) : s.rawRead a z = .ok (s.valueAt a z) := by
  have h' : ¬ (s.region (regionIndex a)).len < z.bytes := by unfold State.Fits at h; omega
  have hb : ∀ i, (s.region (regionIndex a)).get ((s.offset a + i) % (s.region (regionIndex a)).len) = s.spanByte a i :=
    fun _ => rfl
  have h0 : (s.region (regionIndex a)).get (s.offset a % (s.region (regionIndex a)).len) = s.spanByte a 0 := rfl
  rw [State.rawRead, if_neg h']
  cases z
  · rw [valueAt_byte]
    simp [Size.bytes, Region.readSpan, ofBytesLE, h0]
  · rw [valueAt_half]
    simp only [Size.bytes, Region.readSpan, ofBytesLE, h0, hb]
    congr 2; omega
  · rw [valueAt_word]
    simp only [Size.bytes, Region.readSpan, ofBytesLE, h0, hb, Nat.add_assoc, Nat.reduceAdd]
    congr 2; omega

theorem rawRead_short {s : State} {a : Word} {z : Size} (h : ¬ s.Fits a z) :
    s.rawRead a z = .error (.regionShort s (regionIndex a)) := by
  have h' : (s.region (regionIndex a)).len < z.bytes := by unfold State.Fits at h; omega
  rw [State.rawRead, if_pos h']

/-- The state a plain write leaves. -/
def State.written (s : State) (a : Word) (z : Size) (v : Word) : State :=
  s.setRegion (regionIndex a) ((s.region (regionIndex a)).writeSpan (s.offset a) (toBytesLE z.bytes v.toNat))

theorem rawWrite_eq {s : State} {a : Word} {z : Size} (v : Word) (h : s.Fits a z) :
    s.rawWrite a z v = .ok (s.written a z v) := by
  have h' : ¬ (s.region (regionIndex a)).len < z.bytes := by unfold State.Fits at h; omega
  rw [State.rawWrite, if_neg h']; rfl

theorem rawWrite_short {s : State} {a : Word} {z : Size} (v : Word) (h : ¬ s.Fits a z) :
    s.rawWrite a z v = .error (.regionShort s (regionIndex a)) := by
  have h' : (s.region (regionIndex a)).len < z.bytes := by unfold State.Fits at h; omega
  rw [State.rawWrite, if_pos h']

section Written
variable {s : State} {a : Word} {z : Size} {v : Word}

@[simp] theorem written_regs : (s.written a z v).regs = s.regs := rfl
@[simp] theorem written_psr : (s.written a z v).psr = s.psr := rfl
@[simp] theorem written_breakState : (s.written a z v).breakState = s.breakState := rfl
@[simp] theorem written_host : (s.written a z v).host = s.host := rfl

theorem Size.bytes_pos (z : Size) : 0 < z.bytes := by cases z <;> decide

theorem Fits.len_pos (h : s.Fits a z) : 0 < (s.region (regionIndex a)).len := Nat.lt_of_lt_of_le z.bytes_pos h

@[simp] theorem written_len (r : Fin 16) : ((s.written a z v).region r).len = (s.region r).len := by
  rw [State.written, region_setRegion]; split
  · subst_vars; simp
  · rfl

@[simp] theorem written_offset (b : Word) : (s.written a z v).offset b = s.offset b := offset_of_len (written_len _)

theorem written_wf (hw : s.mem.wf) (h : s.Fits a z) : (s.written a z v).mem.wf :=
  wf_setRegion hw (Region.writeSpan_wf _ _ (hw _) (Fits.len_pos h))

theorem written_spanByte (hw : s.mem.wf) (h : s.Fits a z) {i : Nat} (hi : i < z.bytes) :
    (s.written a z v).spanByte a i = bits v (8 * i) 8 := by
  rw [State.spanByte, written_offset, written_len, State.written, region_setRegion, if_pos rfl,
    Region.get_writeSpan _ _ i (region_wf hw _) (by simpa [State.Fits] using h) (by simpa using hi), getElem_toBytesLE,
    bits_eq_ofNat]

/-- A byte of a region is unchanged when it is no byte of the access. -/
theorem written_get (hw : s.mem.wf) (h : s.Fits a z) {r : Fin 16} {o : Nat}
    (ho : r = regionIndex a → ∀ i, i < z.bytes → (s.offset a + i) % (s.region (regionIndex a)).len ≠ o) :
    ((s.written a z v).region r).get o = (s.region r).get o := by
  rw [State.written, region_setRegion]
  split
  · next hr =>
    subst hr
    exact Region.get_writeSpan_of_outside _ _ o (hw _) (Fits.len_pos h) (by simpa using ho rfl)
  · rfl

/-- An address outside an access selects no byte of it. -/
theorem covers_false {n : Nat} {b : Word} (hb : s.covers a n b = false) :
    regionIndex b = regionIndex a → ∀ i, i < n → (s.offset a + i) % (s.region (regionIndex a)).len ≠ s.offset b := by
  intro hr i hi e
  simp [State.covers, State.spans, hr] at hb
  exact hb i hi e

/-- An offset outside an access is no byte of it. -/
theorem spans_false {n : Nat} {r : Fin 16} {o : Nat} (hb : s.spans a n r o = false) :
    r = regionIndex a → ∀ i, i < n → (s.offset a + i) % (s.region (regionIndex a)).len ≠ o := by
  intro hr i hi e
  simp [State.spans, hr] at hb
  exact hb i hi e

theorem written_byteAt (hw : s.mem.wf) (h : s.Fits a z) {b : Word} (hb : s.covers a z.bytes b = false) :
    (s.written a z v).byteAt b = s.byteAt b := by
  rw [State.byteAt, written_offset, written_get hw h (covers_false hb)]; rfl

end Written

/-- Reading back what was written gives its low bytes (20_memory R92). -/
theorem written_valueAt {s : State} {a : Word} {z : Size} {v : Word} (hw : s.mem.wf) (h : s.Fits a z) :
    (s.written a z v).valueAt a z = z.low v := by
  have hb : ∀ i, i < z.bytes → (s.written a z v).spanByte a i = bits v (8 * i) 8 := fun i hi => written_spanByte hw h hi
  have hv := v.isLt
  cases z
  · rw [valueAt_byte, hb 0 (by decide), bits_eq_ofNat]
    apply BitVec.eq_of_toNat_eq
    simp [Size.low]
  · rw [valueAt_half, hb 0 (by decide), hb 1 (by decide), bits_eq_ofNat, bits_eq_ofNat]
    apply BitVec.eq_of_toNat_eq
    simp [Size.low]
    omega
  · rw [valueAt_word, hb 0 (by decide), hb 1 (by decide), hb 2 (by decide), hb 3 (by decide)]
    simp only [bits_eq_ofNat]
    apply BitVec.eq_of_toNat_eq
    simp [Size.low]
    omega

/-! ## Monitored accesses -/

theorem memRead_eq {s : State} {a : Word} {z : Size} (h : s.Fits a z) :
    s.memRead a z = .ok (s.valueAt a z, s.noteRead a z (s.valueAt a z)) := by simp [State.memRead, rawRead_eq h]

theorem memRead_short {s : State} {a : Word} {z : Size} (h : ¬ s.Fits a z) :
    s.memRead a z = .error (.regionShort s (regionIndex a)) := by simp [State.memRead, rawRead_short h]

theorem memReadS_eq {s : State} {a : Word} {z : Size} (h : s.Fits a z) :
    s.memReadS a z = .ok (z.signed (s.valueAt a z), s.noteRead a z (s.valueAt a z)) := by
  simp [State.memReadS, memRead_eq h]

theorem memReadS_short {s : State} {a : Word} {z : Size} (h : ¬ s.Fits a z) :
    s.memReadS a z = .error (.regionShort s (regionIndex a)) := by simp [State.memReadS, memRead_short h]

@[simp] theorem noteRead_breakState (s : State) (a : Word) (z : Size) (v : Word) :
    (s.noteRead a z v).breakState = s.afterRead a z v := by
  unfold State.noteRead State.afterRead; split <;> rfl

/-- What a store leaves before the DMA check. -/
def State.plainStore (s : State) (a : Word) (z : Size) (v : Word) : State :=
  (s.written a z v).noteWrite a z (s.valueAt a z) (z.low v)

section PlainStore
variable {s : State} {a : Word} {z : Size} {v : Word}

@[simp] theorem plainStore_regs : (s.plainStore a z v).regs = s.regs := by simp [State.plainStore]
@[simp] theorem plainStore_psr : (s.plainStore a z v).psr = s.psr := by simp [State.plainStore]
@[simp] theorem plainStore_host : (s.plainStore a z v).host = s.host := by simp [State.plainStore]
theorem plainStore_mem : (s.plainStore a z v).mem = (s.written a z v).mem := by simp [State.plainStore]
@[simp] theorem plainStore_x (r : Reg) : (s.plainStore a z v).x r = s.x r := by simp [State.x]
@[simp] theorem plainStore_len (r : Fin 16) : ((s.plainStore a z v).region r).len = (s.region r).len := by
  rw [region_congr plainStore_mem, written_len]
@[simp] theorem plainStore_breakState : (s.plainStore a z v).breakState = s.afterStore a z v := by
  by_cases h : a ∈ s.host.watchSet <;> simp [State.plainStore, State.noteWrite, State.afterStore, h]

theorem plainStore_wf (hw : s.mem.wf) (h : s.Fits a z) : (s.plainStore a z v).mem.wf := by
  rw [plainStore_mem]; exact written_wf hw h

theorem storedPlain_plainStore (hw : s.mem.wf) (h : s.Fits a z) : s.StoredPlain (s.plainStore a z v) a z v :=
  ⟨fun i hi => by rw [spanByte_congr plainStore_mem, written_spanByte hw h hi],
   fun r o ho => by rw [region_congr plainStore_mem, written_get hw h (spans_false ho)],
   fun r _ => plainStore_x r, plainStore_psr, plainStore_host, fun r => plainStore_len r, plainStore_breakState,
   plainStore_wf hw h⟩

/-- An address outside a store reads the byte it read. -/
theorem State.StoredPlain.byteAt_outside {u : State} (hu : s.StoredPlain u a z v) {b : Word}
    (hb : s.covers a z.bytes b = false) : u.byteAt b = s.byteAt b := by
  rw [State.byteAt, offset_of_len (hu.2.2.2.2.2.1 _), hu.2.1 _ _ hb]; rfl

/-- What `StoredPlain` says is one state. -/
theorem State.StoredPlain.eq_plainStore {u : State} (hw : s.mem.wf) (h : s.Fits a z) (hu : s.StoredPlain u a z v) :
    u = s.plainStore a z v := by
  obtain ⟨p1, p2, -, -, -, p6, -, -⟩ := storedPlain_plainStore (v := v) hw h
  obtain ⟨h1, h2, h3, h4, h5, h6, h7, h8⟩ := hu
  refine State.eq_of (fun r => ?_) ?_ (mem_eq_of_get (plainStore_wf hw h) h8 ?_ fun r o => ?_) ?_ ?_
  · rw [h3 r (by simp), plainStore_x]
  · rw [h4, plainStore_psr]
  · exact fun r => (h6 r).trans (p6 r).symm
  · cases hs : s.spans a z.bytes r o
    · rw [h2 r o hs, p2 r o hs]
    · simp only [State.spans, Bool.and_eq_true, beq_iff_eq, List.any_eq_true, List.mem_range] at hs
      obtain ⟨rfl, i, hi, rfl⟩ := hs
      have e1 := h1 i hi
      have e2 := p1 i hi
      rw [State.spanByte, offset_of_len (h6 _), h6] at e1
      rw [State.spanByte, offset_of_len (p6 _), p6] at e2
      rw [e1, e2]
  · rw [h7, plainStore_breakState]
  · rw [h5, plainStore_host]

end PlainStore

/-! ## The DMA -/

theorem enableBit_lt (s : State) : s.enableBit < 8 := Nat.mod_lt _ (by decide)

theorem regionIndex_dma (s : State) :
    regionIndex dmaSad = 4 ∧ regionIndex dmaDad = 4 ∧ regionIndex dmaCnt = 4 ∧ regionIndex dmaCtrl = 4 ∧
      regionIndex s.enableAddr = 4 := by
  refine ⟨by decide, by decide, by decide, by decide, ?_⟩
  have h : ∀ b : Fin 16, regionIndex (dmaCtrl + BitVec.ofNat 32 (b.val / 8)) = 4 := by decide
  exact h _

theorem fits_of_len {s t : State} {a : Word} {z : Size} (h : (t.region (regionIndex a)).len = (s.region (regionIndex a)).len) :
    t.Fits a z ↔ s.Fits a z := by rw [State.Fits, State.Fits, h]

/-- A byte read as a word keeps its bits. -/
theorem getLsbD_valueAt_byte (s : State) (a : Word) {k : Nat} (hk : k < 8) :
    (s.valueAt a .byte).getLsbD k = (s.spanByte a 0).getLsbD k := by
  have h32 : k < 32 := by omega
  rw [valueAt_byte, BitVec.getLsbD_ofNat, BitVec.getLsbD]
  simp [h32]

/-- Two accesses with equal byte offsets in one region read one byte. -/
theorem spanByte_of_offset {s : State} {a b : Word} {i j : Nat} (hr : regionIndex a = regionIndex b)
    (ho : (s.offset a + i) % (s.region (regionIndex a)).len = (s.offset b + j) % (s.region (regionIndex b)).len) :
    s.spanByte a i = s.spanByte b j := by
  rw [State.spanByte, State.spanByte, ho, hr]

theorem enable_offset (s : State) : s.offset s.enableAddr = s.enableAddr.toNat % (s.region 4).len := by
  rw [State.offset, (regionIndex_dma s).2.2.2.2]

theorem touchesEnable_iff (s : State) (a : Word) (z : Size) :
    s.touchesEnable a z = true ↔ regionIndex a = 4 ∧
      ∃ i, i < z.bytes ∧ (s.offset a + i) % (s.region 4).len = s.enableAddr.toNat % (s.region 4).len := by
  simp [State.touchesEnable]

theorem triggersDma_iff (s : State) (a : Word) (z : Size) (v : Word) :
    s.triggersDma a z v = true ↔ regionIndex a = 4 ∧ ∃ i, i < z.bytes ∧
      (s.offset a + i) % (s.region 4).len = s.enableAddr.toNat % (s.region 4).len ∧
      (bits v (8 * i) 8).getLsbD s.enableBit = true := by
  simp only [State.triggersDma, Bool.and_eq_true, beq_iff_eq, List.any_eq_true, List.mem_range]

/-- Whether a store starts the DMA depends on the lengths and the host parameters alone. -/
theorem triggersDma_congr {s t : State} (hh : t.host = s.host) (hl : s.KeepsLengths t) (a : Word) (z : Size) (v : Word) :
    t.triggersDma a z v = s.triggersDma a z v := by
  have ho : t.offset a = s.offset a := offset_of_len (hl _)
  simp [State.triggersDma, State.enableAddr, State.enableBit, hh, ho, hl 4]

/-- The DMA check after a store runs the transfer exactly when the store starts it (20_memory R102). -/
theorem dmaCheck_plainStore {s : State} {a : Word} {z : Size} {v : Word} (hw : s.mem.wf) (h : s.Fits a z) :
    (s.plainStore a z v).dmaCheck a z =
      if s.triggersDma a z v then (s.plainStore a z v).dmaTransfer else .ok (s.plainStore a z v) := by
  have hl : s.KeepsLengths (s.plainStore a z v) := fun r => plainStore_len r
  have hea : (s.plainStore a z v).enableAddr = s.enableAddr := by simp [State.enableAddr]
  have heb : (s.plainStore a z v).enableBit = s.enableBit := by simp [State.enableBit]
  have hoff : ∀ b, (s.plainStore a z v).offset b = s.offset b := fun b => offset_of_len (hl _)
  have ht : (s.plainStore a z v).touchesEnable a z = s.touchesEnable a z := by
    simp [State.touchesEnable, hea, hoff, hl 4]
  rw [State.dmaCheck, ht]
  by_cases htouch : s.touchesEnable a z = true
  · obtain ⟨hr, i, hi, ho⟩ := (touchesEnable_iff s a z).1 htouch
    have hlen : 0 < (s.region 4).len := by rw [← hr]; exact Fits.len_pos h
    have hf : (s.plainStore a z v).Fits s.enableAddr .byte := by
      rw [fits_of_len (hl _), State.Fits, (regionIndex_dma s).2.2.2.2]; exact hlen
    have hbyte : (s.plainStore a z v).spanByte s.enableAddr 0 = bits v (8 * i) 8 := by
      rw [← (storedPlain_plainStore hw h).1 i hi]
      apply spanByte_of_offset ((regionIndex_dma s).2.2.2.2.trans hr.symm)
      rw [hoff, hoff, enable_offset, hl, hl, (regionIndex_dma s).2.2.2.2, hr, ho]
      simp
    have hbit : ((s.plainStore a z v).valueAt s.enableAddr .byte).getLsbD s.enableBit =
        (bits v (8 * i) 8).getLsbD s.enableBit := by
      rw [getLsbD_valueAt_byte _ _ (enableBit_lt s), hbyte]
    have htrig : s.triggersDma a z v = (bits v (8 * i) 8).getLsbD s.enableBit := by
      rw [Bool.eq_iff_iff, triggersDma_iff]
      constructor
      · rintro ⟨-, j, hj, hoj, hb⟩
        have hn : z.bytes ≤ (s.region 4).len := by rw [← hr]; exact h
        have : j = i := span_injective (by omega) (by omega) (hoj.trans ho.symm)
        rwa [← this]
      · intro hb; exact ⟨hr, i, hi, ho, hb⟩
    simp only [htouch, if_true, hea, heb, rawRead_eq hf, htrig]
    simp only [bind, Except.bind, hbit]
  · have hnt : s.triggersDma a z v = false := by
      rw [Bool.eq_false_iff]; intro hc
      obtain ⟨hr, i, hi, ho, -⟩ := (triggersDma_iff s a z v).1 hc
      exact htouch ((touchesEnable_iff s a z).2 ⟨hr, i, hi, ho⟩)
    simp [htouch, hnt]

/-! ## The store -/

/-- `MemWrite` on a region that holds the access: the plain store, or the transfer it starts (20_memory R90). -/
theorem memWrite_eq {s : State} {a : Word} {z : Size} {v : Word} (hw : s.mem.wf) (h : s.Fits a z) :
    s.memWrite a z v =
      if s.triggersDma a z v then (s.plainStore a z v).dmaTransfer else .ok (s.plainStore a z v) := by
  rw [← dmaCheck_plainStore hw h, State.memWrite, rawRead_eq h, rawWrite_eq v h]; rfl

theorem memWrite_short {s : State} {a : Word} {z : Size} {v : Word} (h : ¬ s.Fits a z) :
    s.memWrite a z v = .error (.regionShort s (regionIndex a)) := by
  rw [State.memWrite, rawRead_short h]; rfl

/-- What a store that completes leaves. -/
theorem stored_of_memWrite {s t : State} {a : Word} {z : Size} {v : Word} (hw : s.mem.wf)
    (h : s.memWrite a z v = .ok t) : s.Fits a z ∧ s.Stored t a z v := by
  by_cases hf : s.Fits a z
  · rw [memWrite_eq hw hf] at h
    refine ⟨hf, s.plainStore a z v, storedPlain_plainStore hw hf, ?_⟩
    split at h
    · next hd => simpa [hd] using h
    · next hd => simp only [hd]; simpa using h.symm
  · rw [memWrite_short hf] at h; cases h

/-- `Stored` says what a store that completes leaves, and says it whole. -/
theorem stored_iff {s t : State} {a : Word} {z : Size} {v : Word} (hw : s.mem.wf) (h : s.Fits a z) :
    s.Stored t a z v ↔ s.memWrite a z v = .ok t := by
  refine ⟨?_, fun h => (stored_of_memWrite hw h).2⟩
  rintro ⟨u, hu, ht⟩
  rw [memWrite_eq hw h, ← hu.eq_plainStore hw h]
  split
  · next hd => simpa [hd] using ht
  · next hd => simp only [hd] at ht; simpa using ht.symm

/-! ## The copy -/

/-- The state a copy of `n` bytes leaves (20_memory R93). -/
def State.copied (s : State) (src dst : Word) (n : Nat) : State :=
  s.setRegion (regionIndex dst) ((s.region (regionIndex dst)).writeSpan (s.offset dst)
    ((s.region (regionIndex src)).readSpan (s.offset src) n))

theorem memCopy_eq {s : State} {src dst : Word} {n : Nat} (hn : n ≠ 0) (hs : n ≤ (s.region (regionIndex src)).len)
    (hd : n ≤ (s.region (regionIndex dst)).len) : s.memCopy src dst n = .ok (s.copied src dst n) := by
  have : ¬ ((s.region (regionIndex src)).len < n ∨ (s.region (regionIndex dst)).len < n) := by omega
  rw [State.memCopy, if_neg hn, if_neg this]; rfl

/-- A copy that completes changes memory alone and keeps its form; one that does not is too long. -/
theorem memCopy_cases (s : State) (src dst : Word) (n : Nat) :
    (n = 0 ∧ s.memCopy src dst n = .ok s) ∨
    (n ≠ 0 ∧ n ≤ (s.region (regionIndex src)).len ∧ n ≤ (s.region (regionIndex dst)).len ∧
      s.memCopy src dst n = .ok (s.copied src dst n)) ∨
    (n ≠ 0 ∧ s.memCopy src dst n = .error (.copyTooLong s)) := by
  by_cases hn : n = 0
  · exact .inl ⟨hn, by rw [State.memCopy, if_pos hn]⟩
  · by_cases hc : (s.region (regionIndex src)).len < n ∨ (s.region (regionIndex dst)).len < n
    · exact .inr (.inr ⟨hn, by rw [State.memCopy, if_neg hn, if_pos hc]⟩)
    · exact .inr (.inl ⟨hn, by omega, by omega, memCopy_eq hn (by omega) (by omega)⟩)

section Copied
variable {s : State} {src dst : Word} {n : Nat}

@[simp] theorem copied_regs : (s.copied src dst n).regs = s.regs := rfl
@[simp] theorem copied_psr : (s.copied src dst n).psr = s.psr := rfl
@[simp] theorem copied_breakState : (s.copied src dst n).breakState = s.breakState := rfl
@[simp] theorem copied_host : (s.copied src dst n).host = s.host := rfl
@[simp] theorem copied_len (r : Fin 16) : ((s.copied src dst n).region r).len = (s.region r).len := by
  rw [State.copied, region_setRegion]; split
  · subst_vars; simp
  · rfl

theorem copied_wf (hw : s.mem.wf) (hn : n ≠ 0) (hd : n ≤ (s.region (regionIndex dst)).len) :
    (s.copied src dst n).mem.wf :=
  wf_setRegion hw (Region.writeSpan_wf _ _ (hw _) (by omega))

/-- Every byte of the destination is the source's byte as it was before the copy. -/
theorem copied_spanByte (hw : s.mem.wf) (hd : n ≤ (s.region (regionIndex dst)).len) {i : Nat} (hi : i < n) :
    (s.copied src dst n).spanByte dst i = s.spanByte src i := by
  have ho : (s.copied src dst n).offset dst = s.offset dst := offset_of_len (copied_len _)
  rw [State.spanByte, ho, copied_len, State.copied, region_setRegion, if_pos rfl,
    Region.get_writeSpan _ _ i (region_wf hw _) (by simpa using hd) (by simpa using hi), Region.getElem_readSpan]
  rfl

theorem copied_byteAt (hw : s.mem.wf) (hn : n ≠ 0) (hd : n ≤ (s.region (regionIndex dst)).len) {b : Word}
    (hb : s.covers dst n b = false) : (s.copied src dst n).byteAt b = s.byteAt b := by
  have ho : (s.copied src dst n).offset b = s.offset b := offset_of_len (copied_len _)
  rw [State.byteAt, ho, State.copied, region_setRegion]
  split
  · next hr =>
    rw [Region.get_writeSpan_of_outside _ _ _ (region_wf hw _) (by omega)]
    · simp only [State.byteAt, hr]
    · simpa using covers_false hb hr
  · rfl

end Copied

/-! ## The DMA transfer -/

/-- Operations that change memory alone and keep its form and lengths. -/
def State.MemoryOnly (s t : State) : Prop :=
  t.regs = s.regs ∧ t.psr = s.psr ∧ t.breakState = s.breakState ∧ t.host = s.host ∧ s.KeepsLengths t ∧
    (s.mem.wf → t.mem.wf)

theorem MemoryOnly.refl (s : State) : s.MemoryOnly s := ⟨rfl, rfl, rfl, rfl, fun _ => rfl, id⟩

theorem MemoryOnly.trans {s t u : State} (h : s.MemoryOnly t) (h' : t.MemoryOnly u) : s.MemoryOnly u := by
  obtain ⟨a, b, c, d, e, f⟩ := h
  obtain ⟨a', b', c', d', e', f'⟩ := h'
  exact ⟨a'.trans a, b'.trans b, c'.trans c, d'.trans d, fun r => (e' r).trans (e r), fun w => f' (f w)⟩

theorem memCopy_memoryOnly {s t : State} {src dst : Word} {n : Nat} (h : s.memCopy src dst n = .ok t) :
    s.MemoryOnly t := by
  rcases memCopy_cases s src dst n with ⟨-, e⟩ | ⟨hn, -, hd, e⟩ | ⟨-, e⟩ <;> rw [e] at h
  · cases h; exact MemoryOnly.refl s
  · cases h; exact ⟨rfl, rfl, rfl, rfl, fun r => copied_len r, fun w => copied_wf w hn hd⟩
  · cases h

theorem rawWrite_memoryOnly {s t : State} {a : Word} {z : Size} {v : Word} (h : s.rawWrite a z v = .ok t) :
    s.MemoryOnly t := by
  by_cases hf : s.Fits a z
  · rw [rawWrite_eq v hf] at h; cases h
    exact ⟨rfl, rfl, rfl, rfl, fun r => written_len r, fun w => written_wf w hf⟩
  · rw [rawWrite_short v hf] at h; cases h

/-- The state after the clear of the enable bit. -/
def State.dmaCleared (s : State) : State :=
  s.written s.enableAddr .byte (setBit (s.valueAt s.enableAddr .byte) s.enableBit false)

theorem dma_fits {s : State} (h : 4 ≤ (s.region 4).len) :
    s.Fits dmaSad .word ∧ s.Fits dmaDad .word ∧ s.Fits dmaCnt .half ∧ s.Fits dmaCtrl .half ∧
      s.Fits s.enableAddr .byte := by
  obtain ⟨h1, h2, h3, h4, h5⟩ := regionIndex_dma s
  simp only [State.Fits, h1, h2, h3, h4, h5, Size.bytes]
  omega

/-- The transfer, its reads evaluated (20_memory R103). -/
theorem dmaTransfer_eq {s : State} (h : 4 ≤ (s.region 4).len) :
    s.dmaTransfer =
      match s.memCopy (s.valueAt dmaSad .word) (s.valueAt dmaDad .word) s.dmaSize with
      | .error f => .error f
      | .ok t => .ok t.dmaCleared := by
  obtain ⟨h1, h2, h3, h4, -⟩ := dma_fits h
  rw [State.dmaTransfer, rawRead_eq h1, rawRead_eq h2, rawRead_eq h3, rawRead_eq h4]
  simp only [bind, Except.bind]
  rw [← State.dmaSize]
  cases hc : s.memCopy (s.valueAt dmaSad .word) (s.valueAt dmaDad .word) s.dmaSize with
  | error f => rfl
  | ok t =>
    have hl := (memCopy_memoryOnly hc).2.2.2.2.1
    have h5 : t.Fits t.enableAddr .byte := (dma_fits (by rw [hl]; exact h)).2.2.2.2
    simp only [rawRead_eq h5, rawWrite_eq _ h5]
    rfl

theorem dmaTransfer_short {s : State} (h : (s.region 4).len < 4) : s.dmaTransfer = .error (.regionShort s 4) := by
  have h1 : ¬ s.Fits dmaSad .word := by
    simp only [State.Fits, (regionIndex_dma s).1, Size.bytes]; omega
  rw [State.dmaTransfer, rawRead_short h1, (regionIndex_dma s).1]; rfl

theorem dmaTransfer_memoryOnly {s t : State} (h : s.dmaTransfer = .ok t) : s.MemoryOnly t := by
  by_cases h4 : 4 ≤ (s.region 4).len
  · rw [dmaTransfer_eq h4] at h
    split at h
    · cases h
    · next u hu =>
      cases h
      have hm := memCopy_memoryOnly hu
      have h5 : u.Fits u.enableAddr .byte := (dma_fits (by rw [hm.2.2.2.2.1]; exact h4)).2.2.2.2
      exact MemoryOnly.trans hm (rawWrite_memoryOnly (rawWrite_eq _ h5))
  · rw [dmaTransfer_short (by omega)] at h; cases h

theorem dmaSize_le (s : State) : s.dmaSize ≤ 0x3FFFC := by
  have h : (s.valueAt dmaCnt .half).toNat ≤ 65535 := by
    rw [valueAt_half, BitVec.toNat_ofNat]
    omega
  unfold State.dmaSize
  split <;> omega

/-- The transfer completes where it has room. -/
theorem dmaTransfer_ok {s : State} (h : s.DmaFits) : ∃ t, s.dmaTransfer = .ok t := by
  obtain ⟨h4, hsz⟩ := h
  rw [dmaTransfer_eq h4]
  rcases memCopy_cases s (s.valueAt dmaSad .word) (s.valueAt dmaDad .word) s.dmaSize with
    ⟨-, e⟩ | ⟨-, -, -, e⟩ | ⟨hn, -⟩
  · exact ⟨_, by rw [e]⟩
  · exact ⟨_, by rw [e]⟩
  · obtain ⟨hs, hd⟩ := hsz.resolve_left hn
    exact ⟨_, by rw [memCopy_eq hn hs hd]⟩

/-- The transfer is HostDefect where it has no room. -/
theorem dmaTransfer_defect {s : State} (h : ¬ s.DmaFits) : s.dmaTransfer = .error s.dmaDefect := by
  by_cases h4 : (s.region 4).len < 4
  · rw [dmaTransfer_short h4, State.dmaDefect, if_pos h4]
  · simp only [State.DmaFits, not_and, not_or] at h
    obtain ⟨hn, hf⟩ := h (by omega)
    rw [dmaTransfer_eq (by omega), State.memCopy, if_neg hn, if_pos (by omega), State.dmaDefect, if_neg h4]

theorem State.Roomy.dmaFits {s : State} (h : s.Roomy) : s.DmaFits := by
  have h4 := h 4
  have hs := h (regionIndex (s.valueAt dmaSad .word))
  have hd := h (regionIndex (s.valueAt dmaDad .word))
  have := dmaSize_le s
  exact ⟨by omega, .inr ⟨by omega, by omega⟩⟩

/-! ## The DMA registers as a store leaves them -/

/-- The room of a DMA depends on memory and the host parameters alone. -/
theorem dmaFits_congr {s t : State} (hm : t.mem = s.mem) (hh : t.host = s.host) : t.DmaFits ↔ s.DmaFits := by
  simp only [State.DmaFits, State.dmaSize, valueAt_congr hm, region_congr hm, hh]

/-- A store has room exactly when the region holds it and the plain store leaves room for the DMA it starts. -/
theorem storeFits_iff {s : State} {a : Word} {z : Size} {v : Word} (hw : s.mem.wf) :
    s.StoreFits a z v ↔ s.Fits a z ∧ (s.triggersDma a z v = true → (s.plainStore a z v).DmaFits) := by
  constructor
  · exact fun h => ⟨h.1, fun ht => h.2 ht _ (storedPlain_plainStore hw h.1)⟩
  · exact fun h => ⟨h.1, fun ht u hu => by rw [hu.eq_plainStore hw h.1]; exact h.2 ht⟩

theorem State.Roomy.storeFits {s : State} (h : s.Roomy) (a : Word) (z : Size) (v : Word) : s.StoreFits a z v := by
  refine ⟨?_, fun _ u hu => State.Roomy.dmaFits fun r => ?_⟩
  · have := h (regionIndex a); have hz : z.bytes ≤ 4 := by cases z <;> decide
    unfold State.Fits; omega
  · rw [hu.2.2.2.2.2.1]; exact h r

theorem storeFits_of_noDma {s : State} {a : Word} {z : Size} {v : Word} (h : s.Fits a z) (hd : s.triggersDma a z v = false) :
    s.StoreFits a z v := ⟨h, fun ht => by rw [hd] at ht; cases ht⟩

/-! ## The store completes -/

theorem memWrite_ok {s : State} {a : Word} {z : Size} {v : Word} (hw : s.mem.wf) (h : s.StoreFits a z v) :
    ∃ t, s.memWrite a z v = .ok t := by
  rw [memWrite_eq hw h.1]
  split
  · next hd => exact dmaTransfer_ok ((storeFits_iff hw).1 h |>.2 hd)
  · exact ⟨_, rfl⟩

/-- A store that starts a DMA without room is HostDefect, and the bytes stay stored. -/
theorem memWrite_defect {s : State} {a : Word} {z : Size} {v : Word} (hw : s.mem.wf) (h : s.Fits a z)
    (hn : ¬ s.StoreFits a z v) : s.memWrite a z v = .error (s.plainStore a z v).dmaDefect := by
  rw [storeFits_iff hw] at hn
  have hn : s.triggersDma a z v = true ∧ ¬ (s.plainStore a z v).DmaFits := by simpa [h] using hn
  rw [memWrite_eq hw h, if_pos hn.1, dmaTransfer_defect hn.2]

/-- Whether a store has room depends on memory and the host parameters alone. -/
theorem storeFits_congr {s t : State} {a : Word} {z : Size} {v : Word} (hw : s.mem.wf) (hm : t.mem = s.mem)
    (hh : t.host = s.host) : t.StoreFits a z v ↔ s.StoreFits a z v := by
  have hr : ∀ r, t.region r = s.region r := region_congr hm
  have hl : s.KeepsLengths t := fun r => by rw [hr]
  have hp : (t.plainStore a z v).mem = (s.plainStore a z v).mem := by
    rw [plainStore_mem, plainStore_mem, State.written, State.written, State.setRegion, State.setRegion, hm, hr,
      offset_of_len (hl _)]
  rw [storeFits_iff hw, storeFits_iff (by rw [hm]; exact hw), fits_of_len (hl _), triggersDma_congr hh hl,
    dmaFits_congr hp (by rw [plainStore_host, plainStore_host, hh])]

/-- A store changes memory and the monitor output alone, with any DMA it starts. -/
theorem stored_frame {s t : State} {a : Word} {z : Size} {v : Word} (h : s.Stored t a z v) :
    (∀ r, t.x r = s.x r) ∧ t.psr = s.psr ∧ t.host = s.host ∧ s.KeepsLengths t := by
  obtain ⟨u, ⟨-, -, h3, h4, h5, h6, -⟩, h⟩ := h
  have hx : ∀ r, u.x r = s.x r := fun r => h3 r (by simp)
  split at h
  · obtain ⟨m1, m2, -, m4, m5, -⟩ := dmaTransfer_memoryOnly h
    exact ⟨fun r => (x_congr m1 r).trans (hx r), m2.trans h4, m4.trans h5, fun r => (m5 r).trans (h6 r)⟩
  · subst h; exact ⟨hx, h4, h5, h6⟩

theorem State.AllStoreFit.of_roomy : ∀ (ps : List (Word × Word)) {s : State}, s.Roomy → s.AllStoreFit ps
  | [], _, _ => trivial
  | p :: ps, _, h => ⟨h.storeFits _ _ _, fun u hu => State.AllStoreFit.of_roomy ps fun r => by
      rw [(stored_frame hu).2.2.2]; exact h r⟩

theorem State.AllStoreFit.of_noDma : ∀ (ps : List (Word × Word)) {s : State}, (∀ p ∈ ps, s.Fits p.1 .word) → s.NoDma ps →
    s.AllStoreFit ps
  | [], _, _, _ => trivial
  | p :: ps, s, hf, hd => by
    refine ⟨storeFits_of_noDma (hf p (by simp)) (hd p (by simp)), fun u hu => ?_⟩
    obtain ⟨-, -, hh, hl⟩ := stored_frame hu
    refine State.AllStoreFit.of_noDma ps (fun q hq => (fits_of_len (hl _)).2 (hf q (by simp [hq]))) fun q hq => ?_
    rw [triggersDma_congr hh hl]; exact hd q (by simp [hq])

/-- A list whose first store alone can start the DMA has room where that store has. -/
theorem State.AllStoreFit.cons {p : Word × Word} {ps : List (Word × Word)} {s : State} (h : s.StoreFits p.1 .word p.2)
    (hf : ∀ q ∈ ps, s.Fits q.1 .word) (hd : s.NoDma ps) : s.AllStoreFit (p :: ps) := by
  refine ⟨h, fun u hu => State.AllStoreFit.of_noDma ps (fun q hq => ?_) fun q hq => ?_⟩
  · exact (fits_of_len ((stored_frame hu).2.2.2 _)).2 (hf q hq)
  · rw [triggersDma_congr (stored_frame hu).2.2.1 (stored_frame hu).2.2.2]; exact hd q hq

/-- A store changes memory and the monitor output alone; it keeps lengths and the canonical form. -/
theorem memWrite_frame {s t : State} {a : Word} {z : Size} {v : Word} (h : s.memWrite a z v = .ok t) :
    t.regs = s.regs ∧ t.psr = s.psr ∧ t.host = s.host ∧ s.KeepsLengths t ∧ (s.mem.wf → t.mem.wf) := by
  by_cases hf : s.Fits a z
  · have hp : (s.plainStore a z v).dmaCheck a z = .ok t := by
      rw [State.memWrite, rawRead_eq hf, rawWrite_eq v hf] at h; exact h
    have hm : (s.plainStore a z v).MemoryOnly t := by
      rw [State.dmaCheck] at hp
      split at hp
      · cases hr : (s.plainStore a z v).rawRead (s.plainStore a z v).enableAddr .byte with
        | error f => rw [hr] at hp; cases hp
        | ok e =>
          rw [hr] at hp
          simp only [bind, Except.bind] at hp
          split at hp
          · exact dmaTransfer_memoryOnly hp
          · cases hp; exact MemoryOnly.refl _
      · cases hp; exact MemoryOnly.refl _
    obtain ⟨e1, e2, -, e4, e5, e6⟩ := hm
    exact ⟨by rw [e1, plainStore_regs], by rw [e2, plainStore_psr], by rw [e4, plainStore_host],
      fun r => by rw [e5, plainStore_len], fun w => e6 (plainStore_wf w hf)⟩
  · rw [memWrite_short hf] at h; cases h

end Sys2Proof.Machine
end

