-- ==== Sys2Proof/Laws/Operands.lean ====
section
/-! SUPPORT. The operand forms and the multi-register transfers: each said once (47 R500, R501, R540; 42 R325 to R331). -/

namespace Sys2Proof.Machine

/-! ## Frames of single transfers -/

@[simp] theorem writeBack_psr (s : State) (m : Address) (rn : Reg) : (s.writeBack m rn).psr = s.psr := by
  unfold State.writeBack; split <;> simp
@[simp] theorem writeBack_mem (s : State) (m : Address) (rn : Reg) : (s.writeBack m rn).mem = s.mem := by
  unfold State.writeBack; split <;> simp
@[simp] theorem writeBack_breakState (s : State) (m : Address) (rn : Reg) :
    (s.writeBack m rn).breakState = s.breakState := by
  unfold State.writeBack; split <;> simp
@[simp] theorem writeBack_host (s : State) (m : Address) (rn : Reg) : (s.writeBack m rn).host = s.host := by
  unfold State.writeBack; split <;> simp
@[simp] theorem writeBack_flagT (s : State) (m : Address) (rn : Reg) : (s.writeBack m rn).flagT = s.flagT :=
  flagT_congr (by simp)
@[simp] theorem writeBack_x (s : State) (m : Address) (rn r : Reg) :
    (s.writeBack m rn).x r = if m.writeBack = true ∧ r = rn then stored s.flagT rn m.offAddr else s.x r := by
  unfold State.writeBack
  cases m.writeBack <;> simp

/-- A register read is a read of `regs`. -/
theorem load_eq {s : State} {m : Address} {rn rd : Reg} {z : Size} (h : s.Fits m.addr z) :
    s.load m rn rd z = .ok (((s.noteRead m.addr z (s.valueAt m.addr z)).writeBack m rn).writeReg rd (s.valueAt m.addr z)) := by
  rw [State.load, memRead_eq h]; rfl

theorem load_short {s : State} {m : Address} {rn rd : Reg} {z : Size} (h : ¬ s.Fits m.addr z) :
    s.load m rn rd z = .error (.regionShort s (regionIndex m.addr)) := by
  rw [State.load, memRead_short h]; rfl

theorem loadSigned_eq {s : State} {m : Address} {rn rd : Reg} {z : Size} (h : s.Fits m.addr z) :
    s.loadSigned m rn rd z =
      .ok (((s.noteRead m.addr z (s.valueAt m.addr z)).writeBack m rn).writeReg rd (z.signed (s.valueAt m.addr z))) := by
  rw [State.loadSigned, memReadS_eq h]; rfl

theorem loadSigned_short {s : State} {m : Address} {rn rd : Reg} {z : Size} (h : ¬ s.Fits m.addr z) :
    s.loadSigned m rn rd z = .error (.regionShort s (regionIndex m.addr)) := by
  rw [State.loadSigned, memReadS_short h]; rfl

theorem store_eq {s t : State} {m : Address} {rn rd : Reg} {z : Size}
    (h : s.memWrite m.addr z (z.low (s.x rd)) = .ok t) : s.store m rn rd z = .ok (t.writeBack m rn) := by
  rw [State.store, h]; rfl

theorem store_short {s : State} {m : Address} {rn rd : Reg} {z : Size} (h : ¬ s.Fits m.addr z) :
    s.store m rn rd z = .error (.regionShort s (regionIndex m.addr)) := by
  rw [State.store, memWrite_short h]; rfl

theorem loadLow_eq {s : State} {a : Word} {z : Size} {rd : LowReg} (h : s.Fits a z) :
    s.loadLow a z rd = .ok ((s.noteRead a z (s.valueAt a z)).setX rd.slot (s.valueAt a z)) := by
  rw [State.loadLow, memRead_eq h]; rfl

theorem loadLow_short {s : State} {a : Word} {z : Size} {rd : LowReg} (h : ¬ s.Fits a z) :
    s.loadLow a z rd = .error (.regionShort s (regionIndex a)) := by
  rw [State.loadLow, memRead_short h]; rfl

theorem loadLowSigned_eq {s : State} {a : Word} {z : Size} {rd : LowReg} (h : s.Fits a z) :
    s.loadLowSigned a z rd = .ok ((s.noteRead a z (s.valueAt a z)).setX rd.slot (z.signed (s.valueAt a z))) := by
  rw [State.loadLowSigned, memReadS_eq h]; rfl

theorem loadLowSigned_short {s : State} {a : Word} {z : Size} {rd : LowReg} (h : ¬ s.Fits a z) :
    s.loadLowSigned a z rd = .error (.regionShort s (regionIndex a)) := by
  rw [State.loadLowSigned, memReadS_short h]; rfl

/-! ## The low bits of a stored value -/

@[simp] theorem low_low (z : Size) (v : Word) : z.low (z.low v) = z.low v := by
  cases z <;> simp [Size.low]

theorem bits_low (z : Size) (v : Word) {i : Nat} (h : i < z.bytes) : bits (z.low v) (8 * i) 8 = bits v (8 * i) 8 := by
  cases z
  · obtain rfl : i = 0 := by simp only [Size.bytes] at h; omega
    ext j hj
    simp [bits, Size.low, show j < 32 by omega, hj]
  · have : i = 0 ∨ i = 1 := by simp only [Size.bytes] at h; omega
    ext j hj
    have h16 : 8 * i + j < 16 := by omega
    simp [bits, Size.low, h16, show 8 * i + j < 32 by omega]
  · rfl

/-- Only the low bits of a value decide whether its store starts the DMA. -/
theorem triggersDma_low (s : State) (a : Word) (z : Size) (v : Word) :
    s.triggersDma a z (z.low v) = s.triggersDma a z v := by
  rw [Bool.eq_iff_iff, triggersDma_iff, triggersDma_iff]
  constructor
  · rintro ⟨hr, i, hi, ho, hb⟩; exact ⟨hr, i, hi, ho, by rwa [bits_low z v hi] at hb⟩
  · rintro ⟨hr, i, hi, ho, hb⟩; exact ⟨hr, i, hi, ho, by rwa [bits_low z v hi]⟩

/-- Only the low bits of a value are stored. -/
theorem storedPlain_low {s t : State} {a : Word} {z : Size} {v : Word} :
    s.StoredPlain t a z (z.low v) ↔ s.StoredPlain t a z v := by
  simp only [State.StoredPlain, State.afterStore, low_low]
  constructor <;> rintro ⟨h1, h2⟩ <;> exact ⟨fun i hi => by rw [h1 i hi, bits_low z v hi], h2⟩

theorem stored_low {s t : State} {a : Word} {z : Size} {v : Word} : s.Stored t a z (z.low v) ↔ s.Stored t a z v := by
  simp only [State.Stored, triggersDma_low, storedPlain_low]

/-! ## Lists of transfers -/

/-- The addresses a list of `n` transfers accesses from `a`, in its order. -/
def transferAddrs (pre up : Bool) : Nat → Word → List Word
  | 0, _ => []
  | n + 1, a => (if pre then stepAddr up a else a) :: transferAddrs pre up n (stepAddr up a)

/-- The address after `n` transfers. -/
def endAddr (up : Bool) : Nat → Word → Word
  | 0, a => a
  | n + 1, a => endAddr up n (stepAddr up a)

theorem endAddr_up (n : Nat) : ∀ a, endAddr true n a = a + BitVec.ofNat 32 (4 * n) := by
  induction n with
  | zero => intro a; simp [endAddr]
  | succ n ih =>
    intro a
    rw [endAddr, ih, stepAddr, if_pos rfl, BitVec.add_assoc]
    rw [Nat.mul_add, Nat.add_comm, BitVec.ofNat_add]
    rfl

theorem endAddr_down (n : Nat) : ∀ a, endAddr false n a = a - BitVec.ofNat 32 (4 * n) := by
  induction n with
  | zero => intro a; simp [endAddr]
  | succ n ih =>
    intro a
    rw [endAddr, ih, stepAddr, if_neg (by decide), Nat.mul_add, Nat.add_comm, BitVec.ofNat_add, BitVec.sub_sub]
    rfl

/-- A store-multiple that completes: the stores of its words in order, and the final address. -/
theorem storeMany_spec (pre up : Bool) (rs : List Reg) : ∀ {s t : State} {a b : Word}, s.mem.wf →
    s.storeMany pre up rs a = .ok (b, t) →
      b = endAddr up rs.length a ∧
      s.StoredAll ((transferAddrs pre up rs.length a).zip (rs.map s.x)) t ∧
      t.regs = s.regs ∧ t.psr = s.psr ∧ t.host = s.host ∧ s.KeepsLengths t ∧ t.mem.wf := by
  induction rs with
  | nil =>
    intro s t a b hw h
    simp only [State.storeMany, Except.ok.injEq, Prod.mk.injEq] at h
    obtain ⟨rfl, rfl⟩ := h
    exact ⟨rfl, rfl, rfl, rfl, rfl, fun _ => rfl, hw⟩
  | cons r rs ih =>
    intro s t a b hw h
    rw [State.storeMany] at h
    simp only [bind, Except.bind] at h
    split at h
    · cases h
    · next u hu =>
      obtain ⟨f1, f2, f3, f4, f5⟩ := memWrite_frame hu
      obtain ⟨-, hst⟩ := stored_of_memWrite hw hu
      obtain ⟨g1, g2, g3, g4, g5, g6, g7⟩ := ih (f5 hw) h
      have hx : rs.map u.x = rs.map s.x := List.map_congr_left fun r _ => x_congr f1 r
      refine ⟨g1, ⟨u, hst, ?_⟩, g3.trans f1, g4.trans f2, g5.trans f3, fun r => (g6 r).trans (f4 r), g7⟩
      rw [← hx]; exact g2

/-- A store-multiple completes when each of its stores does. -/
theorem storeMany_ok (pre up : Bool) (rs : List Reg) : ∀ {s : State} {a : Word}, s.mem.wf →
    s.AllStoreFit ((transferAddrs pre up rs.length a).zip (rs.map s.x)) →
      ∃ b t, s.storeMany pre up rs a = .ok (b, t) := by
  induction rs with
  | nil => intro s a _ _; exact ⟨a, s, rfl⟩
  | cons r rs ih =>
    intro s a hw h
    obtain ⟨h0, hrest⟩ := h
    obtain ⟨u, hu⟩ := memWrite_ok hw h0
    obtain ⟨f1, -, -, -, f5⟩ := memWrite_frame hu
    have hx : rs.map u.x = rs.map s.x := List.map_congr_left fun r _ => x_congr f1 r
    obtain ⟨b, t, e⟩ := ih (f5 hw) (by rw [hx]; exact hrest u (stored_of_memWrite hw hu).2)
    refine ⟨b, t, ?_⟩
    rw [State.storeMany, hu]; exact e

/-- A list of stores without room stops at its first store without room, which answers that store's defect. -/
theorem storeMany_fault (pre up : Bool) (rs : List Reg) : ∀ {s : State} {a : Word}, s.mem.wf →
    ¬ s.AllStoreFit ((transferAddrs pre up rs.length a).zip (rs.map s.x)) →
      ∃ f, s.storeMany pre up rs a = .error f ∧
        s.AllStoreFault ((transferAddrs pre up rs.length a).zip (rs.map s.x)) f := by
  induction rs with
  | nil => intro s a _ h; exact absurd trivial h
  | cons r rs ih =>
    intro s a hw h
    rw [List.length_cons, transferAddrs, List.map_cons, List.zip_cons_cons] at h ⊢
    rw [State.storeMany]
    simp only [bind, Except.bind]
    generalize (if pre then stepAddr up a else a) = b at h ⊢
    by_cases hf : s.Fits b .word
    · by_cases hs : s.StoreFits b .word (s.x r)
      · obtain ⟨u, hu⟩ := memWrite_ok hw hs
        obtain ⟨f1, -, -, -, f5⟩ := memWrite_frame hu
        have hx : rs.map u.x = rs.map s.x := List.map_congr_left fun r _ => x_congr f1 r
        have hrest : ¬ u.AllStoreFit ((transferAddrs pre up rs.length (stepAddr up a)).zip (rs.map u.x)) := by
          rw [hx]
          refine fun hall => h ⟨hs, fun w hws => ?_⟩
          have hwu := (stored_iff hw hf).1 hws
          rw [hu] at hwu; cases hwu; exact hall
        obtain ⟨f, e, hfault⟩ := ih (f5 hw) hrest
        rw [hx] at hfault
        exact ⟨f, by rw [hu]; exact e, .inr (.inr ⟨hs, u, (stored_iff hw hf).2 hu, hfault⟩)⟩
      · exact ⟨_, by rw [memWrite_defect hw hf hs],
          .inr (.inl ⟨hf, hs, _, storedPlain_plainStore hw hf, rfl⟩)⟩
    · exact ⟨_, by rw [memWrite_short hf], .inl ⟨hf, rfl⟩⟩

/-- The footprint of an access depends on the lengths alone. -/
theorem covers_congr {s t : State} (hl : s.KeepsLengths t) (a : Word) (n : Nat) (b : Word) :
    t.covers a n b = s.covers a n b := by
  have h1 : t.offset a = s.offset a := offset_of_len (hl _)
  have h2 : t.offset b = s.offset b := offset_of_len (hl _)
  rw [State.covers, State.covers, State.spans, State.spans, h1, h2, hl (regionIndex a)]

/-- Where no word of a list starts the DMA, its stores leave every address outside them as it was. -/
theorem storedAll_outside : ∀ (ps : List (Word × Word)) {s t : State}, s.StoredAll ps t → s.NoDma ps →
    ∀ b, s.Outside ps b → t.byteAt b = s.byteAt b
  | [], s, t, h, _, b, _ => by cases h; rfl
  | p :: ps, s, t, h, hd, b, hb => by
    obtain ⟨u, ⟨w, hw, hif⟩, hrest⟩ := h
    have hnd := hd p (by simp)
    rw [hnd] at hif
    simp only [Bool.false_eq_true, if_false] at hif
    subst hif
    obtain ⟨-, -, -, -, h5, h6, -⟩ := id hw
    rw [storedAll_outside ps hrest (fun q hq => ?_) b (fun q hq => ?_), hw.byteAt_outside (hb p (by simp))]
    · rw [triggersDma_congr h5 h6]; exact hd q (by simp [hq])
    · rw [covers_congr h6]; exact hb q (by simp [hq])

/-- A load-multiple over distinct registers: it completes when each access has room; each register takes the word at its
address, slot 15 by the pc-write, and nothing but registers and the monitor output changes. -/
theorem loadMany_spec (pre up : Bool) (rs : List Reg) : ∀ {s : State} {a : Word}, rs.Nodup →
    (∀ b ∈ transferAddrs pre up rs.length a, s.Fits b .word) →
      ∃ t, s.loadMany pre up rs a = .ok (endAddr up rs.length a, t) ∧
        (∀ p ∈ rs.zip (transferAddrs pre up rs.length a), t.x p.1 = stored s.flagT p.1 (s.valueAt p.2 .word)) ∧
        s.KeepsRegs t rs ∧ t.psr = s.psr ∧ t.mem = s.mem ∧ t.host = s.host ∧
        t.breakState = s.afterReads (transferAddrs pre up rs.length a) := by
  induction rs with
  | nil =>
    intro s a _ _
    exact ⟨s, rfl, by simp, fun _ _ => rfl, rfl, rfl, rfl, rfl⟩
  | cons r rs ih =>
    intro s a hn hf
    have h0 : s.Fits (if pre then stepAddr up a else a) .word := hf _ List.mem_cons_self
    generalize hb : (if pre then stepAddr up a else a) = b at h0
    obtain ⟨hr, hn'⟩ := List.nodup_cons.1 hn
    obtain ⟨u, hu⟩ : ∃ u, (s.noteRead b .word (s.valueAt b .word)).writeReg r (s.valueAt b .word) = u := ⟨_, rfl⟩
    have umem : u.mem = s.mem := by rw [← hu]; simp
    have uhost : u.host = s.host := by rw [← hu]; simp
    have upsr : u.psr = s.psr := by rw [← hu]; simp
    have ubs : u.breakState = s.afterRead b .word (s.valueAt b .word) := by rw [← hu]; simp
    have nT : (s.noteRead b .word (s.valueAt b .word)).flagT = s.flagT := flagT_congr (by simp)
    have ux : ∀ q, u.x q = if q = r then stored s.flagT r (s.valueAt b .word) else s.x q := by
      intro q; rw [← hu]; simp [nT]
    have hf' : ∀ c ∈ transferAddrs pre up rs.length (stepAddr up a), u.Fits c .word := by
      intro c hc
      exact (fits_of_len (s := s) (by rw [region_congr umem])).2 (hf c (List.mem_cons_of_mem _ hc))
    obtain ⟨t, e, hv, hk, hp, hm, hh, hbs⟩ := ih hn' hf'
    refine ⟨t, ?_, ?_, ?_, hp.trans upsr, hm.trans umem, hh.trans uhost, ?_⟩
    · rw [State.loadMany]
      simp only [hb, memRead_eq h0, bind, Except.bind, hu, e]
      rfl
    · intro p hp'
      rw [List.length_cons, transferAddrs, List.zip_cons_cons, hb] at hp'
      rcases List.mem_cons.1 hp' with rfl | hp'
      · rw [hk r hr, ux, if_pos rfl]
      · rw [hv p hp', flagT_congr upsr, valueAt_congr umem]
    · intro q hq
      rw [List.mem_cons, not_or] at hq
      rw [hk q hq.2, ux, if_neg hq.1]
    · rw [hbs, List.length_cons, transferAddrs, hb]
      simp only [State.afterReads, List.foldl_cons, uhost, valueAt_congr umem, ubs]
      rfl

/-- A list of loads is the loads before a register, then the rest. -/
theorem loadMany_append (pre up : Bool) (rs rs' : List Reg) : ∀ {s t : State} {a b : Word},
    s.loadMany pre up rs a = .ok (b, t) → s.loadMany pre up (rs ++ rs') a = t.loadMany pre up rs' b := by
  induction rs with
  | nil => intro s t a b h; cases h; rfl
  | cons r rs ih =>
    intro s t a b h
    rw [List.cons_append, State.loadMany]
    rw [State.loadMany] at h
    simp only [bind, Except.bind] at h ⊢
    split at h
    · cases h
    · exact ih h

theorem loadMany_append_error (pre up : Bool) (rs rs' : List Reg) : ∀ {s : State} {a : Word} {f : Fault},
    s.loadMany pre up rs a = .error f → s.loadMany pre up (rs ++ rs') a = .error f := by
  induction rs with
  | nil => intro s a f h; cases h
  | cons r rs ih =>
    intro s a f h
    rw [List.cons_append, State.loadMany]
    rw [State.loadMany] at h
    simp only [bind, Except.bind] at h ⊢
    split at h
    · next e => simpa [e] using h
    · next e => simpa [e] using ih h

theorem transferAddrs_length (pre up : Bool) (n : Nat) : ∀ a, (transferAddrs pre up n a).length = n := by
  induction n with
  | zero => intro a; rfl
  | succ n ih => intro a; simp [transferAddrs, ih]

theorem transferAddrs_append (pre up : Bool) (m n : Nat) : ∀ a,
    transferAddrs pre up (m + n) a = transferAddrs pre up m a ++ transferAddrs pre up n (endAddr up m a) := by
  induction m with
  | zero => intro a; simp [transferAddrs, endAddr]
  | succ m ih => intro a; rw [Nat.add_right_comm, transferAddrs, ih]; rfl

/-- A list of loads without room stops at its first access without room, the registers before it loaded. -/
theorem loadMany_fault (pre up : Bool) (rs : List Reg) {s : State} {a : Word} (hn : rs.Nodup)
    (h : ¬ ∀ p ∈ rs.zip (transferAddrs pre up rs.length a), s.Fits p.2 .word) :
    ∃ before p after u, rs.zip (transferAddrs pre up rs.length a) = before ++ p :: after ∧
      (∀ q ∈ before, s.Fits q.2 .word) ∧ ¬ s.Fits p.2 .word ∧
      s.loadMany pre up rs a = .error (.regionShort u (regionIndex p.2)) ∧
      s.LoadAllDone u [] before (before.map (·.2)) := by
  induction rs using List.reverseRecOn with
  | nil => simp at h
  | append_singleton rs r ih =>
    have hlen : rs.length = (transferAddrs pre up rs.length a).length := (transferAddrs_length ..).symm
    have hz : (rs ++ [r]).zip (transferAddrs pre up (rs ++ [r]).length a) =
        rs.zip (transferAddrs pre up rs.length a) ++
          [(r, if pre then stepAddr up (endAddr up rs.length a) else endAddr up rs.length a)] := by
      rw [List.length_append, transferAddrs_append, List.zip_append hlen]; rfl
    rw [hz] at h ⊢
    generalize hb : (if pre then stepAddr up (endAddr up rs.length a) else endAddr up rs.length a) = b at h ⊢
    have hn' : rs.Nodup := hn.sublist (List.sublist_append_left rs [r])
    by_cases hall : ∀ p ∈ rs.zip (transferAddrs pre up rs.length a), s.Fits p.2 .word
    · have hnb : ¬ s.Fits b .word := by
        intro hfb
        refine h fun p hp => ?_
        rcases List.mem_append.1 hp with hp | hp
        · exact hall p hp
        · rw [List.mem_singleton.1 hp]; exact hfb
      have haddr : (rs.zip (transferAddrs pre up rs.length a)).map (·.2) = transferAddrs pre up rs.length a :=
        List.map_snd_zip (le_of_eq hlen.symm)
      have hreg : (rs.zip (transferAddrs pre up rs.length a)).map (·.1) = rs := List.map_fst_zip (le_of_eq hlen)
      obtain ⟨u, e, hv, hk, hp, hm, hh, hbs⟩ := loadMany_spec pre up rs (s := s) (a := a) hn' (by
        rw [← haddr]; intro c hc
        obtain ⟨p, hp, rfl⟩ := List.mem_map.1 hc
        exact hall p hp)
      have hnu : ¬ u.Fits b .word := by rw [fits_of_len (s := s) (by rw [region_congr hm])]; exact hnb
      refine ⟨_, (r, b), [], u, rfl, hall, hnb, ?_, hv, ?_, hp, ⟨fun c => byteAt_congr hm c, hm⟩, hh, ?_⟩
      · rw [loadMany_append pre up rs [r] e, State.loadMany, hb, memRead_short hnu]; rfl
      · rw [hreg, List.append_nil]; exact hk
      · rw [haddr]; exact hbs
    · obtain ⟨before, p, after, u, e, h1, h2, h3, h4⟩ := ih hn' hall
      exact ⟨before, p, after ++ [(r, b)], u, by rw [e]; simp, h1, h2, loadMany_append_error pre up rs [r] h3, h4⟩

/-! ## The block layout (47 R540): the accesses in order are the closed-form list -/

/-- The ascending addresses from `low`. -/
abbrev ascending (n : Nat) (low : Word) : List Word := transferAddrs false true n low

theorem ascending_snoc (n : Nat) : ∀ low, ascending (n + 1) low = ascending n low ++ [low + BitVec.ofNat 32 (4 * n)] := by
  induction n with
  | zero => intro low; simp [ascending, transferAddrs]
  | succ n ih =>
    intro low
    have h : stepAddr true low + BitVec.ofNat 32 (4 * n) = low + BitVec.ofNat 32 (4 * (n + 1)) := by
      rw [stepAddr, if_pos rfl, BitVec.add_assoc, Nat.mul_add, Nat.add_comm (4 * n), BitVec.ofNat_add]; rfl
    have ih' := ih (stepAddr true low)
    unfold ascending at ih' ⊢
    rw [transferAddrs, ih', h]; rfl

theorem transferAddrs_preUp (n : Nat) : ∀ a, transferAddrs true true n a = ascending n (a + 4) := by
  induction n with
  | zero => intro a; rfl
  | succ n ih => intro a; rw [transferAddrs, ih]; rfl

theorem sub_four_mul_succ (a : Word) (n : Nat) :
    a - BitVec.ofNat 32 (4 * (n + 1)) = (a - 4) - BitVec.ofNat 32 (4 * n) := by
  rw [Nat.mul_add, Nat.add_comm, BitVec.ofNat_add, BitVec.sub_sub]; rfl

theorem transferAddrs_preDown (n : Nat) :
    ∀ a, transferAddrs true false n a = (ascending n (a - BitVec.ofNat 32 (4 * n))).reverse := by
  induction n with
  | zero => intro a; rfl
  | succ n ih =>
    intro a
    rw [ascending_snoc, List.reverse_append, sub_four_mul_succ, transferAddrs, ih]
    simp [stepAddr]

theorem transferAddrs_postDown (n : Nat) :
    ∀ a, transferAddrs false false n a = (ascending n (a - BitVec.ofNat 32 (4 * n) + 4)).reverse := by
  induction n with
  | zero => intro a; rfl
  | succ n ih =>
    intro a
    have h : a - 4 - BitVec.ofNat 32 (4 * n) + 4 + BitVec.ofNat 32 (4 * n) = a := by
      rw [BitVec.add_assoc, BitVec.add_comm 4, ← BitVec.add_assoc]; simp
    rw [ascending_snoc, List.reverse_append, sub_four_mul_succ, transferAddrs, ih, h]
    simp [stepAddr]

theorem transferAddrs_block (pre up : Bool) (a : Word) (rlist : BitVec 16) :
    transferAddrs pre up (listUp rlist).length a =
      if up then ascending (listUp rlist).length (blockLow pre up a rlist)
      else (ascending (listUp rlist).length (blockLow pre up a rlist)).reverse := by
  cases pre <;> cases up
  · exact transferAddrs_postDown _ a
  · rfl
  · exact transferAddrs_preDown _ a
  · exact transferAddrs_preUp _ a

theorem zipIdx_slots (l : List Nat) : ∀ (k : Nat) (low : Word),
    (l.zipIdx k).map (fun p => ((Fin.ofNat 16 p.1 : Reg), low + BitVec.ofNat 32 (4 * p.2))) =
      (l.map (Fin.ofNat 16)).zip (ascending l.length (low + BitVec.ofNat 32 (4 * k))) := by
  induction l with
  | nil => intros; rfl
  | cons r l ih =>
    intro k low
    have h : low + BitVec.ofNat 32 (4 * (k + 1)) = stepAddr true (low + BitVec.ofNat 32 (4 * k)) := by
      rw [stepAddr, if_pos rfl, BitVec.add_assoc, Nat.mul_add, BitVec.ofNat_add]; rfl
    rw [List.zipIdx_cons, List.map_cons, ih, h]; rfl

/-- The slots of a list are its registers, ascending, zipped with the ascending addresses. -/
theorem listSlots_eq {n : Nat} (rlist : BitVec n) (low : Word) :
    listSlots rlist low = ((listUp rlist).map (Fin.ofNat 16)).zip (ascending (listUp rlist).length low) := by
  have := zipIdx_slots (listUp rlist) 0 low
  simpa [listSlots] using this

theorem listUp_nodup {n : Nat} (rlist : BitVec n) : (listUp rlist).Nodup := (List.nodup_range).filter _

theorem mem_listUp {n : Nat} (rlist : BitVec n) (k : Nat) : k ∈ listUp rlist ↔ rlist.getLsbD k = true := by
  simp only [listUp, List.mem_filter, List.mem_range]
  exact ⟨fun h => h.2, fun h => ⟨BitVec.lt_of_getLsbD h, h⟩⟩

/-- The slots named by a list of at most 16 bits, ascending, are distinct. -/
theorem slots_nodup {n : Nat} (hn : n ≤ 16) (rlist : BitVec n) : ((listUp rlist).map (Fin.ofNat 16 : Nat → Reg)).Nodup := by
  apply List.Nodup.map_on _ (listUp_nodup rlist)
  intro a ha b hb h
  have ha' := BitVec.lt_of_getLsbD ((mem_listUp rlist a).1 ha)
  have hb' := BitVec.lt_of_getLsbD ((mem_listUp rlist b).1 hb)
  have := congrArg Fin.val h
  simpa [Fin.ofNat, Nat.mod_eq_of_lt (show a < 16 by omega), Nat.mod_eq_of_lt (show b < 16 by omega)] using this

theorem mem_slots {n : Nat} (hn : n ≤ 16) (rlist : BitVec n) (r : Reg) :
    r ∈ (listUp rlist).map (Fin.ofNat 16 : Nat → Reg) ↔ rlist.getLsbD r.val = true := by
  rw [List.mem_map]
  constructor
  · rintro ⟨k, hk, rfl⟩
    have hk' := (mem_listUp rlist k).1 hk
    have := BitVec.lt_of_getLsbD hk'
    simpa [Fin.ofNat, Nat.mod_eq_of_lt (show k < 16 by omega)] using hk'
  · intro h
    exact ⟨r.val, (mem_listUp rlist _).2 h, by simp [Fin.ofNat, Nat.mod_eq_of_lt r.isLt]⟩

theorem listSlots_regs {n : Nat} (rlist : BitVec n) (low : Word) :
    (listSlots rlist low).map (·.1) = (listUp rlist).map (Fin.ofNat 16) := by
  rw [listSlots_eq, List.map_fst_zip]
  simp [ascending, transferAddrs_length]

theorem listSlots_addrs {n : Nat} (rlist : BitVec n) (low : Word) :
    (listSlots rlist low).map (·.2) = ascending (listUp rlist).length low := by
  rw [listSlots_eq, List.map_snd_zip]
  simp [ascending, transferAddrs_length]

/-- The words of a store-multiple as the order of registers zipped with their addresses. -/
theorem storeList_eq {n : Nat} (s : State) (up : Bool) (rlist : BitVec n) (low : Word) :
    s.storeList up (listSlots rlist low) =
      if up then (ascending (listUp rlist).length low).zip (((listUp rlist).map (Fin.ofNat 16)).map s.x)
      else ((ascending (listUp rlist).length low).reverse).zip ((((listUp rlist).map (Fin.ofNat 16)).reverse).map s.x) := by
  have h : (listSlots rlist low).map (fun p => (p.2, s.x p.1)) =
      (ascending (listUp rlist).length low).zip (((listUp rlist).map (Fin.ofNat 16)).map s.x) := by
    rw [listSlots_eq]
    generalize (listUp rlist).map (Fin.ofNat 16) = l
    generalize ascending (listUp rlist).length low = m
    induction l generalizing m with
    | nil => cases m <;> rfl
    | cons a l ih => cases m with
      | nil => rfl
      | cons b m => simp [ih]
  cases up
  · simp only [State.storeList, h, Bool.false_eq_true, if_false, List.map_reverse]
    exact List.reverse_zipWith (by simp [ascending, transferAddrs_length])
  · simp only [State.storeList, h, if_true]

end Sys2Proof.Machine
end

