-- ==== Sys2Proof/Laws/Effects.lean ====
section
/-! SUPPORT. What each shared operation of the meanings leaves, said once in the vocabulary of Safety.lean: the flags, the
frame, the exact arithmetic, the bits of the shifter and of MSR, the stores and the order of a block transfer. -/

namespace Sys2Proof.Machine

/-! ## Frames -/

theorem keepsMemory_of_mem {s t : State} (h : t.mem = s.mem) : s.KeepsMemory t := ⟨fun a => byteAt_congr h a, h⟩

theorem setNZ_frame (s : State) (r : Word) : s.Frame (s.setNZ r) [] [30, 31] :=
  ⟨fun _ _ => by simp, fun k hk h => by simp at h; rw [setNZ_bit _ _ _ hk]; simp [h], keepsMemory_of_mem (by simp), by simp, by simp⟩

theorem setNZC_frame (s : State) (r : Word) (c) : s.Frame (s.setNZC r c) [] [29, 30, 31] :=
  ⟨fun _ _ => by simp, fun k hk h => by simp at h; rw [setNZC_bit _ _ _ _ hk]; simp [h], keepsMemory_of_mem (by simp), by simp, by simp⟩

theorem setNZCV_frame (s : State) (r) : s.Frame (s.setNZCV r) [] [28, 29, 30, 31] :=
  ⟨fun _ _ => by simp, fun k hk h => by simp at h; rw [setNZCV_bit _ _ _ hk]; simp [h], keepsMemory_of_mem (by simp), by simp, by simp⟩

theorem setMulNZ64_frame (s : State) (r q) : s.Frame (s.setMulNZ64 r q) [] [30, 31] :=
  ⟨fun _ _ => by simp, fun k hk h => by simp at h; rw [setMulNZ64_bit _ _ _ _ hk]; simp [h], keepsMemory_of_mem (by simp), by simp, by simp⟩

theorem setX_frame (s : State) (r : Reg) (v : Word) : s.Frame (s.setX r v) [r] [] :=
  ⟨fun q h => by simp at h; simp [h], fun k hk h => by simp, keepsMemory_of_mem (by simp), by simp, by simp⟩

/-- Frames compose. -/
theorem frame_trans {s t u : State} {d d' k k'} (h : s.Frame t d k) (h' : t.Frame u d' k') : s.Frame u (d ++ d') (k ++ k') := by
  obtain ⟨a1,a2,a3,a4,a5⟩ := h
  obtain ⟨b1,b2,b3,b4,b5⟩ := h'
  exact ⟨fun r hr => by simp at hr; rw [b1 r hr.2, a1 r hr.1], fun r hk hr => by simp at hr; rw [b2 r hk hr.2, a2 r hk hr.1],
    ⟨fun a => by rw [b3.1, a3.1], b3.2.trans a3.2⟩, b4.trans a4, b5.trans a5⟩

theorem frame_mono {s t : State} {d d' : List Reg} {k k' : List Nat} (h : s.Frame t d k) (hd : ∀ r, r ∈ d → r ∈ d') (hk : ∀ r, r ∈ k → r ∈ k') : s.Frame t d' k' :=
  ⟨fun r hr => h.1 r (fun e => hr (hd r e)), fun r a hr => h.2.1 r a (fun e => hr (hk r e)), h.2.2⟩

/-! ## The flags each writer leaves -/

theorem setNZ_nz (s : State) (r : Word) : (s.setNZ r).NzOf r := by
  constructor
  · rw [State.flagN, setNZ_bit _ _ 31 (by decide)]; rfl
  · rw [State.flagZ, setNZ_bit _ _ 30 (by decide)]; rfl

theorem setNZC_nz (s : State) (r : Word) (c) : (s.setNZC r c).NzOf r := by
  constructor
  · rw [State.flagN, setNZC_bit _ _ _ 31 (by decide)]; rfl
  · rw [State.flagZ, setNZC_bit _ _ _ 30 (by decide)]; rfl

theorem setNZC_c (s : State) (r : Word) (c) : (s.setNZC r c).flagC = c := by
  rw [State.flagC, setNZC_bit _ _ _ 29 (by decide)]; rfl

theorem setNZCV_nzcv (s : State) (r) : (s.setNZCV r).NzcvOf r := by
  refine ⟨⟨?_,?_⟩,?_,?_⟩
  · rw [State.flagN, setNZCV_bit _ _ 31 (by decide)]; rfl
  · rw [State.flagZ, setNZCV_bit _ _ 30 (by decide)]; rfl
  · rw [State.flagC, setNZCV_bit _ _ 29 (by decide)]; rfl
  · rw [State.flagV, setNZCV_bit _ _ 28 (by decide)]; rfl

theorem nzOf_congr {s t : State} {r} (h : t.psr = s.psr) : s.NzOf r → t.NzOf r := by
  simp [State.NzOf, State.flagN, State.flagZ, h]

/-! ## What each shared operation of the meanings leaves -/

theorem moveDone_setX (s : State) (rd : Reg) (v) : s.MoveDone (s.setX rd v) rd v := ⟨by simp, setX_frame _ _ _⟩

theorem moveDone_writeReg (s : State) (rd : Reg) (v) : s.MoveDone (s.writeReg rd v) rd (stored s.flagT rd v) := by
  rw [writeReg_eq]; exact moveDone_setX _ _ _

theorem moveDone_writePc (s : State) (v) : s.MoveDone (s.writePc v) Reg.pc (pcStored s.flagT v) := by
  rw [writePc_eq]; exact moveDone_setX _ _ _

theorem shiftDone_shiftLow (s : State) (rd : LowReg) (r) : s.ShiftDone (s.shiftLow rd r) rd.slot r :=
  ⟨by simp [State.shiftLow], setNZC_nz _ _ _, setNZC_c _ _ _, frame_mono (frame_trans (setX_frame s rd.slot r.1) (setNZC_frame _ _ _)) (by simp) (by simp)⟩

theorem arithDone_addLow (s : State) (rd : LowReg) (r) : s.ArithDone (s.addLow rd r) rd.slot r :=
  ⟨by simp [State.addLow], setNZCV_nzcv _ _, frame_mono (frame_trans (setX_frame s rd.slot r.result) (setNZCV_frame _ _)) (by simp) (by simp)⟩

theorem logicDone_logicLow (s : State) (rd : LowReg) (r) : s.LogicDone (s.logicLow rd r) rd.slot r :=
  ⟨by simp [State.logicLow], setNZ_nz _ _, frame_mono (frame_trans (setX_frame s rd.slot r) (setNZ_frame _ _)) (by simp) (by simp)⟩

theorem compareDone_setNZCV (s : State) (r) : s.CompareDone (s.setNZCV r) r := ⟨setNZCV_nzcv _ _, setNZCV_frame _ _⟩

/-- A condition that passes lets the instruction run. -/
theorem whenPassed_of_passes {c s out} (h : State.passes s c = true) : whenPassed c s out = out := by simp [whenPassed, h]

/-- The mode switch and its pc-write (41 R284, 45 R452). -/
theorem branchExchange_done (s : State) (v : Word) : (s.branchExchange v).flagT = v.getLsbD 0 ∧ (s.branchExchange v).x Reg.pc = pcStored (v.getLsbD 0) v ∧
   s.Frame (s.branchExchange v) [Reg.pc] [5] := by
  unfold State.branchExchange
  refine ⟨by simp, by simp, fun r hr => ?_, fun k hk h => ?_, keepsMemory_of_mem (by simp), by simp, by simp⟩
  · simp at hr; simp [hr]
  · simp at h; simp only [writePc_psr, setT_psr]; rw [getLsbD_setBit _ _ _ _ hk]; simp [h]

theorem dpLogic_logic (s : State) (sf rd r sc) : s.DpLogic (s.logic sf rd r sc) sf rd r sc := by
  unfold State.DpLogic State.logic
  cases sf
  · exact moveDone_writeReg _ _ _
  · obtain ⟨-, f⟩ := moveDone_writeReg (s.setNZC r sc) rd r
    refine ⟨by simp, ?_, ?_, ?_⟩
    · have := setNZC_nz s r sc
      simpa [State.NzOf, State.flagN, State.flagZ] using this
    · have := setNZC_c s r sc
      simpa [State.flagC] using this
    · exact frame_mono (frame_trans (setNZC_frame _ _ _) f) (by simp) (by simp)

theorem dpArith_arith (s : State) (sf rd r) : s.DpArith (s.arith sf rd r) sf rd r := by
  unfold State.DpArith State.arith
  cases sf
  · exact moveDone_writeReg _ _ _
  · obtain ⟨-, f⟩ := moveDone_writeReg (s.setNZCV r) rd r.result
    refine ⟨by simp, ?_, ?_⟩
    · have := setNZCV_nzcv s r
      simpa [State.NzcvOf, State.NzOf, State.flagN, State.flagZ, State.flagC, State.flagV] using this
    · exact frame_mono (frame_trans (setNZCV_frame _ _) f) (by simp) (by simp)

theorem product_done (s : State) (sf rd r) : (s.product sf rd r).x rd = stored s.flagT rd r ∧
   if sf then (s.product sf rd r).NzOf r ∧ s.Frame (s.product sf rd r) [rd] [30, 31] else s.Frame (s.product sf rd r) [rd] [] := by
  unfold State.product
  cases sf
  · exact moveDone_writeReg _ _ _
  · obtain ⟨-, f⟩ := moveDone_writeReg (s.setMulNZ32 r) rd r
    refine ⟨by simp, nzOf_congr (by simp; rfl) (setNZ_nz s r), frame_mono (frame_trans (setNZ_frame s r) f) (by simp) (by simp)⟩

theorem writeLong_done (s : State) (hi lo p) : (s.writeLong hi lo p).x hi = stored s.flagT hi (bits p 32 32) ∧
  (lo ≠ hi → (s.writeLong hi lo p).x lo = stored s.flagT lo (bits p 0 32)) ∧ s.Frame (s.writeLong hi lo p) [hi, lo] [] := by
  unfold State.writeLong
  refine ⟨by simp, fun h => by simp [h], ?_⟩
  exact frame_mono (frame_trans (moveDone_writeReg _ _ _).2 (moveDone_writeReg _ _ _).2) (by simp) (by simp)

theorem halves_eq_zero (p : BitVec 64) : (bits p 32 32 == 0 && bits p 0 32 == 0) = (p == 0) := by
  rw [Bool.eq_iff_iff]; simp only [Bool.and_eq_true, beq_iff_eq]
  constructor
  · rintro ⟨a, b⟩
    ext i hi
    by_cases h : i < 32
    · have := congrArg (·.getLsbD i) b
      simpa [bits, h, BitVec.getLsbD_eq_getElem hi] using this
    · have := congrArg (·.getLsbD (i - 32)) a
      simpa [bits, show i - 32 < 32 by omega, show 32 + (i - 32) = i by omega, BitVec.getLsbD_eq_getElem hi] using this
  · rintro rfl; exact ⟨by decide, by decide⟩

theorem longDone_longProduct (s : State) (sf hi lo p) : s.LongDone (s.longProduct sf hi lo p) sf hi lo p := by
  unfold State.LongDone State.longProduct
  cases sf
  · exact writeLong_done s hi lo p
  · obtain ⟨a, b, f⟩ := writeLong_done (s.setMulNZ64 (bits p 32 32) (bits p 0 32)) hi lo p
    have hp : ((s.setMulNZ64 (bits p 32 32) (bits p 0 32)).writeLong hi lo p).psr = (s.setMulNZ64 (bits p 32 32) (bits p 0 32)).psr := by simp [State.writeLong]
    refine ⟨by simpa using a, by simpa using b, ?_, ?_, frame_mono (frame_trans (setMulNZ64_frame _ _ _) f) (by simp) (by simp)⟩
    · simp only [if_true, State.flagN, hp]; rw [setMulNZ64_bit _ _ _ 31 (by decide)]
      simp [bits, BitVec.msb_eq_getLsbD_last]
    · simp only [if_true, State.flagZ, hp]; rw [setMulNZ64_bit _ _ _ 30 (by decide)]
      exact halves_eq_zero p

/-! ## Exact arithmetic -/

/-- AddWithCarry is the exact sum (40 R202). -/
theorem addWithCarry_eq_exactAdd (a b : Word) (c : Bool) : addWithCarry a b c = exactAdd a b c := by
  have ha := a.isLt; have hb := b.isLt
  have hc : c.toNat ≤ 1 := by cases c <;> decide
  unfold addWithCarry exactAdd
  simp only [AddResult.mk.injEq]
  refine ⟨?_, ?_, ?_⟩
  · rw [show (a.toNat : Int) + b.toNat + flagInt c = ((a.toNat + b.toNat + c.toNat : Nat) : Int) by cases c <;> simp [flagInt]]
    exact (BitVec.ofInt_natCast _ _).symm
  · rw [Nat.testBit_eq_decide_div_mod_eq, decide_eq_decide]; omega
  · rw [Bool.eq_iff_iff]
    simp only [Bool.and_eq_true, beq_iff_eq, bne_iff_ne, ne_eq, overflows, decide_eq_true_eq, BitVec.msb_eq_decide, BitVec.toNat_ofNat, decide_eq_decide, BitVec.toInt_eq_toNat_cond]
    cases c <;> simp [flagInt] <;> split <;> split <;> omega

theorem toNat_not_word (b : Word) : (~~~b).toNat = 4294967295 - b.toNat := by simp

/-- Subtraction is the exact difference (40 R203). -/
theorem addWithCarry_not_eq_exactSub (a b : Word) (c : Bool) : addWithCarry a (~~~b) c = exactSub a b c := by
  have ha := a.isLt; have hb := b.isLt
  rw [addWithCarry_eq_exactAdd]
  unfold exactAdd exactSub
  have hn : (~~~b).toInt = -1 - b.toInt := by
    rw [BitVec.toInt_not]
    rw [BitVec.toInt_eq_toNat_cond]
    simp only [Int.bmod]
    split <;> split <;> omega
  simp only [AddResult.mk.injEq]
  refine ⟨?_, ?_, ?_⟩
  · apply BitVec.eq_of_toNat_eq
    simp only [BitVec.toNat_ofInt, toNat_not_word, BitVec.toInt_eq_toNat_cond]
    cases c <;> simp [flagInt] <;> split <;> omega
  · rw [decide_eq_decide, toNat_not_word]; cases c <;> simp <;> omega
  · congr 1; rw [hn]; ring

theorem amount_eq (s : State) (r : Reg) : s.amount r = (s.x r).toNat % 256 := by simp [State.amount]

theorem mul_eq_ofNat (a b : Word) : a * b = BitVec.ofNat 32 (a.toNat * b.toNat) := by
  apply BitVec.eq_of_toNat_eq; simp [BitVec.toNat_mul]

theorem mul_add_eq_ofNat (a b c : Word) : a * b + c = BitVec.ofNat 32 (a.toNat * b.toNat + c.toNat) := by
  apply BitVec.eq_of_toNat_eq; simp [BitVec.toNat_mul, BitVec.toNat_add]

theorem accumulator_eq (s : State) (hi lo) : s.accumulator hi lo = BitVec.ofNat 64 (s.longAcc hi lo) := by
  apply BitVec.eq_of_toNat_eq
  have h1 := (s.x hi).isLt; have h2 := (s.x lo).isLt
  rw [State.accumulator, BitVec.toNat_append, ← Nat.shiftLeft_add_eq_or_of_lt h2, Nat.shiftLeft_eq, State.longAcc, BitVec.toNat_ofNat, Nat.mod_eq_of_lt]
  omega

theorem half_eq_halfInt (v : Word) (t : Bool) : half v t = halfInt v t := by
  unfold half halfInt
  cases t
  · simp [bits, BitVec.toInt_eq_toNat_bmod]
    exact Int.emod_bmod _ _
  · have hv := v.isLt
    simp only [if_true, bits, BitVec.toInt_eq_toNat_cond, BitVec.extractLsb'_toNat, Nat.shiftRight_eq_div_pow]
    split <;> split <;> omega

/-! ## Bits of the shifter, of MSR and of CLZ -/

/-- Bit i of a rotation (00_scope R19). -/
theorem getLsbD_ror (v : Word) (n i : Nat) (hi : i < 32) : (ror v n).getLsbD i = v.getLsbD ((i + n) % 32) := by
  unfold ror
  simp only [BitVec.getLsbD_or, BitVec.getLsbD_ushiftRight, BitVec.getLsbD_shiftLeft, hi, decide_true, Bool.true_and]
  by_cases h : i + n % 32 < 32
  · have e : (i + n) % 32 = n % 32 + i := by omega
    have h1 : i < 32 - n % 32 := by omega
    simp [e, h1]
  · have e : (i + n) % 32 = i - (32 - n % 32) := by omega
    have h1 : ¬ i < 32 - n % 32 := by omega
    have h2 : 32 ≤ n % 32 + i := by omega
    simp [e, h1, BitVec.getLsbD_of_ge v _ h2]

theorem getLsbD_fieldMask (m : BitVec 4) (k : Nat) (hk : k < 32) : (fieldMask m).getLsbD k = m.getLsbD (k / 8) := by
  interval_cases k <;> revert m <;> decide

/-- MSR writes the bytes its mask names (44 R420). -/
theorem getLsbD_writePsr (s : State) (m v k) (hk : k < 32) : (s.writePsr m v).psr.getLsbD k = if m.getLsbD (k / 8) then v.getLsbD k else s.psr.getLsbD k := by
  have := getLsbD_fieldMask m k hk
  simp only [State.writePsr, BitVec.getLsbD_or, BitVec.getLsbD_and, BitVec.getLsbD_not, hk, this]
  cases m.getLsbD (k/8) <;> simp

/-- CountLeadingZeros bit by bit (40 R224). -/
theorem leadingZeros_spec (v : Word) : ∀ n, (leadingZeros v n ≤ n) ∧ (∀ k, k < leadingZeros v n → v.getLsbD (n - 1 - k) = false) ∧ (leadingZeros v n < n → v.getLsbD (n - 1 - leadingZeros v n) = true)
  | 0 => ⟨by simp [leadingZeros], by simp [leadingZeros], by simp [leadingZeros]⟩
  | n + 1 => by
    obtain ⟨h1, h2, h3⟩ := leadingZeros_spec v n
    unfold leadingZeros
    cases hb : v.getLsbD n
    · simp only [Bool.false_eq_true, if_false]
      refine ⟨by omega, fun k hk => ?_, fun hl => ?_⟩
      · cases k with
        | zero => simpa using hb
        | succ k => have := h2 k (by omega); rw [show n + 1 - 1 - (k+1) = n - 1 - k by omega]; exact this
      · rw [show n + 1 - 1 - (1 + leadingZeros v n) = n - 1 - leadingZeros v n by omega]; exact h3 (by omega)
    · simp [hb]

/-! ## What a store and a list of stores leave -/

theorem storeFits_low {s : State} {a z v} : s.StoreFits a z (z.low v) ↔ s.StoreFits a z v := by
  have h : ∀ u, s.StoredPlain u a z (z.low v) ↔ s.StoredPlain u a z v := fun u => storedPlain_low
  simp only [State.StoreFits, triggersDma_low, h]

/-- A store whose DMA has no room: the bytes are stored and it is HostDefect. -/
theorem memWrite_low_defect {s : State} {a z v} (hw : s.mem.wf) (h : s.Fits a z) (hn : ¬ s.StoreFits a z v) :
    ∃ u, s.StoredPlain u a z v ∧ s.memWrite a z (z.low v) = .error u.dmaDefect :=
  ⟨_, storedPlain_low.1 (storedPlain_plainStore hw h), memWrite_defect hw h fun h' => hn (storeFits_low.1 h')⟩

theorem storeDone_memWrite {s u : State} {a z v} (hw : s.mem.wf) (h : s.memWrite a z (z.low v) = .ok u) : s.StoreDone u [] a z v := by
  obtain ⟨hf, hs⟩ := stored_of_memWrite hw h
  obtain ⟨f1, f2, f3, f4, f5⟩ := memWrite_frame h
  refine ⟨⟨u, stored_low.1 hs, rfl, rfl⟩, fun r _ => x_congr f1 r, f2, f3, f4, fun hd b hb => ?_⟩
  obtain ⟨w, hw1, hw2⟩ := stored_low.1 hs
  simp [hd] at hw2
  subst hw2
  exact hw1.byteAt_outside hb

theorem storeDone_of_unchanged {s u t : State} {ds a z v} (h : s.StoreDone u [] a z v) (hm : t.mem = u.mem) (hb : t.breakState = u.breakState) (hp : t.psr = u.psr) (hh : t.host = u.host)
  (hx : ∀ r, r ∉ ds → t.x r = u.x r) : s.StoreDone t ds a z v := by
  obtain ⟨⟨w, h1, h1', h1''⟩, h2, h3, h4, h5, h6⟩ := h
  refine ⟨⟨w, h1, hm.trans h1', hb.trans h1''⟩, fun r hr => (hx r hr).trans (h2 r (by simp)), hp.trans h3, hh.trans h4, fun r => by rw [region_congr hm]; exact h5 r, fun hd b hc => by rw [byteAt_congr hm]; exact h6 hd b hc⟩

theorem storeAllDone_storeMany {s u t : State} {pre up rs a b ds ps} (hw : s.mem.wf) (h : s.storeMany pre up rs a = .ok (b, u)) (hps : (transferAddrs pre up rs.length a).zip (rs.map s.x) = ps)
   (hm : t.mem = u.mem) (hb : t.breakState = u.breakState) (hp : t.psr = u.psr) (hh : t.host = u.host)
  (hx : ∀ r, r ∉ ds → t.x r = u.x r) : s.StoreAllDone t ds ps := by
  obtain ⟨-, g2, g3, g4, g5, g6, g7⟩ := storeMany_spec pre up rs hw h
  rw [hps] at g2
  refine ⟨⟨u, g2, hm, hb⟩, fun r hr => (hx r hr).trans (x_congr g3 r), hp.trans g4, hh.trans g5, fun r => by rw [region_congr hm]; exact g6 r, fun hd c hc => ?_⟩
  rw [byteAt_congr hm]; exact storedAll_outside ps g2 hd c hc

/-! ## The order of a block transfer (47 R540) -/

theorem blockOrder_pairs (s : State) (pre up : Bool) (a : Word) (rlist : BitVec 16) :
  (transferAddrs pre up (blockOrder up rlist).length a).zip ((blockOrder up rlist).map s.x) = s.storeList up (listSlots rlist (blockLow pre up a rlist)) := by
  rw [storeList_eq]
  have hl : (blockOrder up rlist).length = (listUp rlist).length := by unfold blockOrder; cases up <;> simp
  rw [hl, transferAddrs_block]
  cases up <;> simp [blockOrder]

theorem endAddr_block (up : Bool) (a : Word) (rlist : BitVec 16) : endAddr up (blockOrder up rlist).length a = blockEnd up a rlist := by
  have hl : (blockOrder up rlist).length = (listUp rlist).length := by unfold blockOrder; cases up <;> simp
  rw [hl]
  cases up
  · exact endAddr_down _ _
  · exact endAddr_up _ _

theorem blockOrder_nodup (up rlist) : (blockOrder up rlist).Nodup := by
  unfold blockOrder; cases up <;> simp [List.nodup_reverse, slots_nodup]

theorem blockOrder_zip (pre up : Bool) (a : Word) (rlist : BitVec 16) :
  (blockOrder up rlist).zip (transferAddrs pre up (blockOrder up rlist).length a) = accessOrder up (listSlots rlist (blockLow pre up a rlist)) := by
  have hl : (blockOrder up rlist).length = (listUp rlist).length := by unfold blockOrder; cases up <;> simp
  rw [hl, transferAddrs_block, listSlots_eq]
  cases up
  · simp only [blockOrder, accessOrder, Bool.false_eq_true, if_false]
    exact (List.reverse_zipWith (by simp [ascending, transferAddrs_length])).symm
  · simp [blockOrder, accessOrder]

theorem blockOrder_reads (pre up : Bool) (a : Word) (rlist : BitVec 16) :
  transferAddrs pre up (blockOrder up rlist).length a = readList up (listSlots rlist (blockLow pre up a rlist)) := by
  rw [readList, ← blockOrder_zip, List.map_snd_zip (le_of_eq (transferAddrs_length ..))]

theorem mem_blockOrder (up rlist r) : r ∈ blockOrder up rlist ↔ rlist.getLsbD r.val = true := by
  rw [← mem_slots (by decide : 16 ≤ 16)]; unfold blockOrder; cases up <;> simp

@[simp] theorem mem_accessOrder (up : Bool) (slots : List (Reg × Word)) (p) : p ∈ accessOrder up slots ↔ p ∈ slots := by
  cases up <;> simp [accessOrder]

theorem fits_of_readList {s : State} {up slots} (h : ∀ p ∈ slots, s.Fits p.2 .word) : ∀ b ∈ readList up slots, s.Fits b .word := by
  intro b hb
  obtain ⟨p, hp, rfl⟩ := List.mem_map.1 hb
  exact h p ((mem_accessOrder up slots p).1 hp)

end Sys2Proof.Machine
end

