-- ==== Sys2Proof/Laws/Encoding.lean ====
section
/-! SUPPORT. The laws of bit fields (`bits`, `put`, `getBit` and the register fields) and the two dispatchers as trees over
single bits: what the decoder and the encoder of Decode.lean rest on. -/

namespace Sys2Proof

/-! ## Reading a field of an assembled word -/

theorem getBit_eq {m : Nat} (w : BitVec m) (k : Nat) : getBit w k = w.getLsbD k := by
  have h : (bits w k 1).getLsbD 0 = w.getLsbD k := by simp [bits]
  rw [getBit, ← h]
  generalize bits w k 1 = b
  revert b; decide

theorem bits_or {m : Nat} (a b : BitVec m) (lo len : Nat) : bits (a ||| b) lo len = bits a lo len ||| bits b lo len := by
  simp [bits, BitVec.extractLsb'_or]

theorem getBit_or {m : Nat} (a b : BitVec m) (k : Nat) : getBit (a ||| b) k = (getBit a k || getBit b k) := by
  simp [getBit_eq]

theorem bits_ofNat (m n lo len : Nat) :
    bits (BitVec.ofNat m n) lo len = BitVec.ofNat len ((n % 2 ^ m) >>> lo) := by
  apply BitVec.eq_of_toNat_eq; simp [bits, BitVec.extractLsb'_toNat]

theorem getBit_ofNat (m n k : Nat) : getBit (BitVec.ofNat m n) k = (decide (k < m) && n.testBit k) := by
  rw [getBit_eq, BitVec.getLsbD_ofNat]

theorem bits_put_same {m n : Nat} (lo : Nat) (f : BitVec n) (h : lo + n ≤ m) : bits (put lo f : BitVec m) lo n = f := by
  apply BitVec.eq_of_getLsbD_eq
  intro i hi
  rw [bits, put, BitVec.getLsbD_extractLsb', BitVec.getLsbD_shiftLeft, BitVec.getLsbD_setWidth, Nat.add_sub_cancel_left]
  have h1 : lo + i < m := by omega
  have h2 : i < m := by omega
  simp [hi, h1, h2]

theorem bits_put_disjoint {m n : Nat} (k lo len : Nat) (f : BitVec n) (h : lo + len ≤ k ∨ k + n ≤ lo) :
    bits (put k f : BitVec m) lo len = 0#len := by
  ext i hi
  simp only [bits, put, BitVec.getElem_extractLsb', BitVec.getLsbD_shiftLeft, BitVec.getLsbD_setWidth, BitVec.getElem_zero]
  rcases h with h | h
  · have : lo + i < k := by omega
    simp [this]
  · rw [BitVec.getLsbD_of_ge f _ (by omega)]; simp

theorem getBit_put {m n : Nat} (lo k : Nat) (f : BitVec n) (h : k < m) :
    getBit (put lo f : BitVec m) k = (decide (lo ≤ k) && f.getLsbD (k - lo)) := by
  rw [getBit_eq, put, BitVec.getLsbD_shiftLeft, BitVec.getLsbD_setWidth]
  by_cases hk : lo ≤ k
  · simp [h, hk, show k - lo < m by omega, show ¬ k < lo by omega]
  · simp [hk, show k < lo by omega]

theorem getBit_putBit {m : Nat} (lo k : Nat) (b : Bool) (h : k < m) :
    getBit (putBit lo b : BitVec m) k = (decide (k = lo) && b) := by
  rw [putBit, getBit_put _ _ _ h]
  by_cases hk : k = lo
  · subst hk; simp
  · by_cases hl : lo ≤ k
    · rw [BitVec.getLsbD_of_ge _ (k - lo) (by omega)]; simp [hk]
    · simp [hl, hk]

theorem bits_putReg_same {m : Nat} (lo : Nat) (r : Reg) (h : lo + 4 ≤ m) :
    bits (putReg lo r : BitVec m) lo 4 = BitVec.ofFin (w := 4) r := bits_put_same _ _ h

theorem bits_putReg_disjoint {m : Nat} (k lo len : Nat) (r : Reg) (h : lo + len ≤ k ∨ k + 4 ≤ lo) :
    bits (putReg k r : BitVec m) lo len = 0#len := bits_put_disjoint _ _ _ _ h

theorem bits_putLow_same {m : Nat} (lo : Nat) (r : LowReg) (h : lo + 3 ≤ m) :
    bits (putLow lo r : BitVec m) lo 3 = BitVec.ofFin (w := 3) r := bits_put_same _ _ h

theorem bits_putLow_disjoint {m : Nat} (k lo len : Nat) (r : LowReg) (h : lo + len ≤ k ∨ k + 3 ≤ lo) :
    bits (putLow k r : BitVec m) lo len = 0#len := bits_put_disjoint _ _ _ _ h

theorem bits_putBit_disjoint {m : Nat} (k lo len : Nat) (b : Bool) (h : lo + len ≤ k ∨ k + 1 ≤ lo) :
    bits (putBit k b : BitVec m) lo len = 0#len := bits_put_disjoint _ _ _ _ h

theorem getBit_putReg {m : Nat} (lo k : Nat) (r : Reg) (h : k < m) :
    getBit (putReg lo r : BitVec m) k = (decide (lo ≤ k) && (BitVec.ofFin (w := 4) r).getLsbD (k - lo)) := getBit_put _ _ _ h

theorem getBit_putLow {m : Nat} (lo k : Nat) (r : LowReg) (h : k < m) :
    getBit (putLow lo r : BitVec m) k = (decide (lo ≤ k) && (BitVec.ofFin (w := 3) r).getLsbD (k - lo)) := getBit_put _ _ _ h

/-! ## Codes -/

theorem Cond.ofCode_code (c : Cond) : Cond.ofCode c.code = c := by cases c <;> rfl

theorem Cond.code_ofCode (v : BitVec 4) : (Cond.ofCode v).code = v := by revert v; decide

theorem ShiftKind.ofCode_code (k : ShiftKind) : ShiftKind.ofCode k.code = k := by cases k <;> rfl

theorem ShiftKind.code_ofCode (v : BitVec 2) : (ShiftKind.ofCode v).code = v := by revert v; decide

/-! ## Bytes -/

theorem ofBytesLE_toBytesLE (n : Nat) : ∀ v, ofBytesLE (toBytesLE n v) = v % 256 ^ n := by
  induction n with
  | zero => intro v; simp [ofBytesLE, toBytesLE, Nat.mod_one]
  | succ n ih =>
    intro v
    rw [toBytesLE, ofBytesLE, ih, Nat.pow_succ, Nat.mul_comm (256 ^ n), Nat.mod_mul]
    simp

/-! ## The dispatchers as trees over single bits -/

/-- A masked comparison is a comparison of the masked bits. -/
theorem masked_eq_iff (w m v : Word) :
    w &&& m = v ↔ ∀ k, k < 32 → (getBit w k && m.getLsbD k) = v.getLsbD k := by
  constructor
  · rintro rfl k _; simp [getBit_eq]
  · intro h; apply BitVec.eq_of_getLsbD_eq; intro k hk; rw [← h k hk, getBit_eq, BitVec.getLsbD_and]

/-- The ordered pattern list of R160 over bits 27:20 and 7:4. -/
def familyTree (b27 b26 b25 b24 b23 b22 b21 b20 b7 b6 b5 b4 : Bool) : FullFamily :=
  if b27 then
    if b26 then .undefCop else if b25 then .branch else .block
  else if b26 then
    if b25 then (if b4 then .undefTransfer else .transferReg) else .transferImm
  else if b25 then
    if b24 && !b23 && !b20 then (if b21 then .msrImm else .undefImm) else .dataImm
  else if b7 && b4 then
    if b6 || b5 then .halfTransfer
    else if b24 then (if b23 || b21 || b20 then .undefMultiply else .swap)
    else if b23 then .multiplyLong
    else if b22 then .undefMultiply
    else .multiply
  else if b24 && !b23 && !b20 then .misc
  else .dataReg

/-- The full dispatcher's family is decided by those twelve bits (30_encoding R160). -/
theorem fullFamily_eq (w : Word) :
    fullFamily w = familyTree (getBit w 27) (getBit w 26) (getBit w 25) (getBit w 24) (getBit w 23) (getBit w 22)
      (getBit w 21) (getBit w 20) (getBit w 7) (getBit w 6) (getBit w 5) (getBit w 4) := by
  have masked (m v : Word) :
      (w &&& m = v) ↔ ((List.range 32).all fun k => (getBit w k && m.getLsbD k) == v.getLsbD k) = true := by
    rw [masked_eq_iff]; simp
  unfold fullFamily fullPatterns
  simp only [firstMatch, masked, List.range, List.range.loop]
  simp
  generalize getBit w 27 = b27
  generalize getBit w 26 = b26
  generalize getBit w 25 = b25
  generalize getBit w 24 = b24
  generalize getBit w 23 = b23
  generalize getBit w 22 = b22
  generalize getBit w 21 = b21
  generalize getBit w 20 = b20
  generalize getBit w 7 = b7
  generalize getBit w 6 = b6
  generalize getBit w 5 = b5
  generalize getBit w 4 = b4
  clear w masked
  cases b27 <;> cases b26 <;> cases b25 <;> cases b24 <;> (revert b23 b22 b21 b20 b7 b6 b5 b4; decide)

/-- The rank query of R140 over bits 15:8. -/
def rankTree (b15 b14 b13 b12 b11 b10 b9 b8 : Bool) : Nat :=
  if b15 then
    if b14 then
      if b13 then (if b12 then (if b11 then 19 else 18) else if b11 then 17 else 16)
      else if b12 then 15 else 14
    else if b13 then
      if b12 then (if b11 || b10 then 13 else if b9 || b8 then 12 else 11) else 10
    else if b12 then 9 else 8
  else if b14 then
    if b13 then 7 else if b12 then 6 else if b11 then 5 else if b10 then 4 else 3
  else if b13 then 2
  else if b12 && b11 then 1 else 0

/-- The compact dispatcher's rank is decided by the high byte (30_encoding R140). -/
theorem compactRank_eq (h : BitVec 16) :
    compactRank h = rankTree (getBit h 15) (getBit h 14) (getBit h 13) (getBit h 12) (getBit h 11) (getBit h 10)
      (getBit h 9) (getBit h 8) := by
  have key : ∀ t : BitVec 8, (compactBoundaries.filter (· ≤ t.toNat * 256)).length - 1 =
      rankTree (t.getLsbD 7) (t.getLsbD 6) (t.getLsbD 5) (t.getLsbD 4) (t.getLsbD 3) (t.getLsbD 2) (t.getLsbD 1)
        (t.getLsbD 0) := by decide
  have hb : ∀ k, k < 8 → getBit h (8 + k) = (bits h 8 8).getLsbD k := by
    intro k hk; rw [getBit_eq, bits, BitVec.getLsbD_extractLsb']; simp [hk]
  have ht : (bits h 8 8).toNat = h.toNat / 256 := by
    have := h.isLt
    simp [bits, BitVec.extractLsb'_toNat, Nat.shiftRight_eq_div_pow]; omega
  rw [hb 7 (by decide), hb 6 (by decide), hb 5 (by decide), hb 4 (by decide), hb 3 (by decide), hb 2 (by decide),
    hb 1 (by decide), hb 0 (by decide), ← key, compactRank, ht]
  have hm : ∀ b ∈ compactBoundaries, (b ≤ h.toNat ↔ b ≤ h.toNat / 256 * 256) := by
    have hd : ∀ b ∈ compactBoundaries, 256 ∣ b := by decide
    intro b hmem; have := hd b hmem; omega
  congr 2
  exact List.filter_congr fun b hmem => by simp only [decide_eq_decide]; exact hm b hmem

end Sys2Proof
end

