-- ==== Sys2Proof/Laws/Run.lean ====
section
/-! SUPPORT. One round of a run (70_reset R586): a run at STOP has ended, any other goes on with the step. -/

namespace Sys2Proof.Machine

@[simp] theorem run_of_atStop {stop : Word} {s : State} (n : Nat) (h : AtStop stop s) : run stop n s = .ended s := by
  cases n <;> simp [run, h]

theorem run_zero {stop : Word} {s : State} (h : ¬ AtStop stop s) : run stop 0 s = .running s := by simp [run, h]

theorem run_succ {stop : Word} {s t : State} (n : Nat) (h : ¬ AtStop stop s) (hs : step s = .next t) :
    run stop (n + 1) s = run stop n t := by simp [run, h, hs]

theorem run_fault {stop : Word} {s : State} {f : Fault} (n : Nat) (h : ¬ AtStop stop s) (hs : step s = .fault f) :
    run stop (n + 1) s = .defect f := by simp [run, h, hs]

/-- More steps allowed do not change a run that has ended or stopped. -/
theorem run_mono {stop : Word} : ∀ {n : Nat} (k : Nat) {s : State} {r : RunState}, run stop n s = r →
    (∀ t, r ≠ .running t) → run stop (n + k) s = r
  | 0, k, s, r, h, hr => by
    by_cases hs : AtStop stop s
    · rw [run_of_atStop _ hs] at h ⊢; exact h
    · rw [run_zero hs] at h; exact absurd h.symm (hr s)
  | n + 1, k, s, r, h, hr => by
    by_cases hs : AtStop stop s
    · rw [run_of_atStop _ hs] at h ⊢; exact h
    · rw [Nat.add_right_comm]
      cases e : step s with
      | next t => rw [run_succ _ hs e] at h ⊢; exact run_mono k h hr
      | fault f => rw [run_fault _ hs e] at h ⊢; exact h
      | refused f => simp only [run, hs, e, if_false] at h ⊢; exact h

/-- Steps lead to one state. -/
theorem StepsTo.unique : ∀ {n : Nat} {s t u : State}, StepsTo n s t → StepsTo n s u → t = u
  | 0, _, _, _, h, h' => h.trans h'.symm
  | n + 1, _, _, _, ⟨a, ha, h⟩, ⟨b, hb, h'⟩ => by
    rw [ha] at hb; cases hb; exact StepsTo.unique h h'

end Sys2Proof.Machine
end

