-- ==== Sys2Proof/Tests/Slice0.lean ====
section
/-! SUPPORT. Tests of Slice 0. Words are written field by field from the encodings of spec/opcode_table.json and 41 to 47;
expected results are the worked examples of 41 to 47 and the vectors of spec/95_test_vectors.md, under its conventions (§0).
Then one witness for every statement of Obligations.lean that has hypotheses. -/

open Sys2Proof Sys2Proof.Machine

namespace Sys2Proof.Tests

/-! ## Ill-formed terms are refused, the last well-formed value is taken (30_encoding R170, R171) -/

theorem test_wellFormed_scaled_offsets :
    [Instr.tLdrPc 0 2, .tLdrPc 0 1024, .tStrImm 3 0 0, .tStrImm 128 0 0, .tLdrImm 2 0 0, .tLdrImm 128 0 0, .tStrbImm 32 0 0,
      .tLdrbImm 32 0 0, .tStrhImm 1 0 0, .tStrhImm 64 0 0, .tLdrhImm 1 0 0, .tLdrhImm 64 0 0, .tStrSp 0 1, .tStrSp 0 1024,
      .tLdrSp 0 6, .tLdrSp 0 1024, .tAddPc 0 2, .tAddPc 0 1024, .tAddSp 0 1, .tAddSp 0 1024, .tIncSp 2, .tIncSp 512,
      .tDecSp 1, .tDecSp 512, .tBlSecond 1, .tBlSecond 4096].all (fun i => !i.wellFormed) = true := by decide

theorem test_wellFormed_signed_offsets :
    [Instr.tBCond .eq 1, .tBCond .eq 256, .tBCond .eq (-258), .tB 1, .tB 2048, .tB (-2050), .tBlFirst 2048,
      .tBlFirst 4194304, .tBlFirst (-4198400), .aB .al 2, .aB .al 33554432, .aB .al (-33554436), .aBl .al 2,
      .aBl .al 33554432, .aBl .al (-33554436)].all (fun i => !i.wellFormed) = true := by decide

theorem test_wellFormed_ends_of_ranges :
    [Instr.tLdrPc 0 1020, .tStrImm 124 0 0, .tStrbImm 31 0 0, .tStrhImm 62 0 0, .tIncSp 508, .tBlSecond 4094,
      .tBCond .eq (-256), .tBCond .eq 254, .tB (-2048), .tB 2046, .tBlFirst (-4194304), .tBlFirst 4190208,
      .aB .al (-33554432), .aBl .al 33554428].all (·.wellFormed) = true := by decide

/-! ## Decoding: the byte decoder, then every constructor by a word written from its encoding -/

theorem test_decodeBytes_refuses_short_input :
    decodeBytes true [0x48] = .error .tooShort ∧ decodeBytes false [0x01, 0x00, 0x51] = .error .tooShort := by decide

theorem test_decodeBytes_is_little_endian :
    decodeBytes true [0x48, 0x00, 0xFF] = .ok (.tLslImm 1 1 0, [0xFF]) ∧
      decodeBytes false [0x01, 0x00, 0x51, 0xE2] = .ok (.aSubImm .al true 1 0 0 1, []) := by decide

theorem test_decodeValue_refuses_a_wide_compact_value : decodeValue true 0x00012001 = .error .wideCompact := by decide

theorem test_decodeTableWord : decodeTableWord 16 0x0048 = some (.tLslImm 1 1 0) ∧
    decodeTableWord 32 0xE2510001 = some (.aSubImm .al true 1 0 0 1) := by decide

/-- Each word decodes to the instruction beside it. -/
def reads {n : Nat} (f : BitVec n → Instr) (rows : List (Nat × Instr)) : Bool :=
  rows.all fun p => f (BitVec.ofNat n p.1) == p.2

theorem test_decode_T1 :
    reads decodeCompact [
      (0b00000_10011_010_001, .tLslImm 0x13 2 1),
      (0b00001_10011_010_001, .tLsrImm 0x13 2 1),
      (0b00010_10011_010_001, .tAsrImm 0x13 2 1)] = true := by decide

theorem test_decode_T2 :
    reads decodeCompact [
      (0b0001100_110_010_001, .tAddReg 6 2 1),
      (0b0001101_110_010_001, .tSubReg 6 2 1),
      (0b0001110_101_010_001, .tAddImm3 5 2 1),
      (0b0001111_101_010_001, .tSubImm3 5 2 1)] = true := by decide

theorem test_decode_T3 :
    reads decodeCompact [
      (0b00100_001_10100111, .tMovImm 1 0xa7),
      (0b00101_001_10100111, .tCmpImm 1 0xa7),
      (0b00110_001_10100111, .tAddImm8 1 0xa7),
      (0b00111_001_10100111, .tSubImm8 1 0xa7)] = true := by decide

theorem test_decode_T4 :
    reads decodeCompact [
      (0b010000_0000_010_001, .tAnd 2 1),
      (0b010000_0001_010_001, .tEor 2 1),
      (0b010000_0010_010_001, .tLslReg 2 1),
      (0b010000_0011_010_001, .tLsrReg 2 1),
      (0b010000_0100_010_001, .tAsrReg 2 1),
      (0b010000_0101_010_001, .tAdc 2 1),
      (0b010000_0110_010_001, .tSbc 2 1),
      (0b010000_0111_010_001, .tRorReg 2 1),
      (0b010000_1000_010_001, .tTst 2 1),
      (0b010000_1001_010_001, .tNeg 2 1),
      (0b010000_1010_010_001, .tCmpReg 2 1),
      (0b010000_1011_010_001, .tCmn 2 1),
      (0b010000_1100_010_001, .tOrr 2 1),
      (0b010000_1101_010_001, .tMul 2 1),
      (0b010000_1110_010_001, .tBic 2 1),
      (0b010000_1111_010_001, .tMvn 2 1)] = true := by decide

theorem test_decode_T5 :
    reads decodeCompact [
      (0b01000100_1_1_010_001, .tAddHi 9 10),
      (0b01000101_1_1_010_001, .tCmpHi 9 10),
      (0b01000110_1_1_010_001, .tMovHi 9 10),
      (0b010001110_1_010_000, .tBx 10),
      (0b010001111_1_010_000, .tBlx 10)] = true := by decide

theorem test_decode_T6 :
    reads decodeCompact [
      (0b01001_001_10100111, .tLdrPc 1 668)] = true := by decide

theorem test_decode_T7 :
    reads decodeCompact [
      (0b0101000_011_101_001, .tStrReg 3 5 1),
      (0b0101010_011_101_001, .tStrbReg 3 5 1),
      (0b0101100_011_101_001, .tLdrReg 3 5 1),
      (0b0101110_011_101_001, .tLdrbReg 3 5 1)] = true := by decide

theorem test_decode_T8 :
    reads decodeCompact [
      (0b0101001_011_101_001, .tStrhReg 3 5 1),
      (0b0101011_011_101_001, .tLdrsbReg 3 5 1),
      (0b0101101_011_101_001, .tLdrhReg 3 5 1),
      (0b0101111_011_101_001, .tLdrshReg 3 5 1)] = true := by decide

theorem test_decode_T9 :
    reads decodeCompact [
      (0b01100_10011_101_001, .tStrImm 76 5 1),
      (0b01101_10011_101_001, .tLdrImm 76 5 1),
      (0b01110_10011_101_001, .tStrbImm 19 5 1),
      (0b01111_10011_101_001, .tLdrbImm 19 5 1)] = true := by decide

theorem test_decode_T10 :
    reads decodeCompact [
      (0b10000_10011_101_001, .tStrhImm 38 5 1),
      (0b10001_10011_101_001, .tLdrhImm 38 5 1)] = true := by decide

theorem test_decode_T11 :
    reads decodeCompact [
      (0b10010_001_10100111, .tStrSp 1 668),
      (0b10011_001_10100111, .tLdrSp 1 668)] = true := by decide

theorem test_decode_T12 :
    reads decodeCompact [
      (0b10100_001_10100111, .tAddPc 1 668),
      (0b10101_001_10100111, .tAddSp 1 668)] = true := by decide

theorem test_decode_T13 :
    reads decodeCompact [
      (0b101100000_1010101, .tIncSp 340),
      (0b101100001_1010101, .tDecSp 340),
      (0b10110001_00000000, .tUndef12a),
      (0b1011001_000000000, .tUndef12b)] = true := by decide

theorem test_decode_T14 :
    reads decodeCompact [
      (0b1011010_1_10100001, .tPush true 0xa1),
      (0b1011011_000000000, .tUndef13a),
      (0b101110_0000000000, .tUndef13b),
      (0b1011110_1_10100001, .tPop true 0xa1),
      (0b1011111_000000000, .tUndef13c)] = true := by decide

theorem test_decode_T15 :
    reads decodeCompact [
      (0b11000_101_10100001, .tStmia 5 0xa1),
      (0b11001_101_10100001, .tLdmia 5 0xa1)] = true := by decide

theorem test_decode_T16 :
    reads decodeCompact [
      (0b1101_1011_10100111, .tBCond .lt (-178))] = true := by decide

theorem test_decode_T18 :
    reads decodeCompact [
      (0b11100_11011000011, .tB (-634)),
      (0b11101_00000000000, .tUndef17)] = true := by decide

theorem test_decode_T19 :
    reads decodeCompact [
      (0b1111_0_11011000011, .tBlFirst (-1298432)),
      (0b1111_1_11011000011, .tBlSecond 3462)] = true := by decide

theorem test_decode_A9 :
    reads decodeFull [
      (0b0110_000000_0_1_1001_0000_1011_1001_1100, .aMul .vs true 9 11 12),
      (0b1011_000000_1_1_1001_1010_1011_1001_1100, .aMla .lt true 9 10 11 12),
      (0b0001_000001_00000000000000_1001_0000, .aUndefMul001 .ne),
      (0b0110_00011_000000000000000_1001_0000, .aUndefMul11 .vs)] = true := by decide

theorem test_decode_A10 :
    reads decodeFull [
      (0b0001_00001_0_0_1_1101_0110_1011_1001_1100, .aUmull .ne true 13 6 11 12),
      (0b0110_00001_0_1_1_1101_0110_1011_1001_1100, .aUmlal .vs true 13 6 11 12),
      (0b1011_00001_1_0_1_1101_0110_1011_1001_1100, .aSmull .lt true 13 6 11 12),
      (0b0001_00001_1_1_1_1101_0110_1011_1001_1100, .aSmlal .ne true 13 6 11 12)] = true := by decide

theorem test_decode_A12 :
    reads decodeFull [
      (0b0110_00010_0_00_1010_1001_0000_1001_1100, .aSwp .vs 10 9 12),
      (0b1011_00010_1_00_1010_1001_0000_1001_1100, .aSwpb .lt 10 9 12),
      (0b1011_00010_0_01_000000000000_1001_0000, .aUndefSwap01 .lt),
      (0b0001_00010_0_10_000000000000_1001_0000, .aUndefSwap10 .ne),
      (0b0110_00010_0_11_000000000000_1001_0000, .aUndefSwap11 .vs)] = true := by decide

theorem test_decode_A14 :
    reads decodeFull [
      (0b1011_000_0_1_1_0_0_1010_1001_1010_1_0_1_1_0101, .aStrh .lt false true false 10 9 (.imm 0xA5)),
      (0b0001_000_0000_0_000000000000_1101_0000, .aUndefLdrd .ne),
      (0b0110_000_0000_0_000000000000_1111_0000, .aUndefStrd .vs),
      (0b1011_000_1_0_0_1_1_1010_1001_0000_1_0_1_1_1100, .aLdrh .lt true false true 10 9 (.reg 12)),
      (0b0001_000_0_1_1_0_1_1010_1001_1010_1_1_0_1_0101, .aLdrsb .ne false true false 10 9 (.imm 0xA5)),
      (0b0110_000_1_0_0_1_1_1010_1001_0000_1_1_1_1_1100, .aLdrsh .vs true false true 10 9 (.reg 12))] = true := by decide

theorem test_decode_A4 :
    reads decodeFull [
      (0b1011_00010_1_00_0000_1001_0000_0000_0000, .aMrs .lt true 9)] = true := by decide

theorem test_decode_A5 :
    reads decodeFull [
      (0b0001_00010_1_10_1001_00000000_0000_1100, .aMsrReg .ne true 9 12)] = true := by decide

theorem test_decode_A7 :
    reads decodeFull [
      (0b0110_00010010_000000000000_0001_1100, .aBx .vs 12),
      (0b0001_00010010_000000000000_0011_1100, .aBlxReg .ne 12),
      (0b0001_00010000_000000000000_0001_0000, .aUndefMisc0001op00 .ne),
      (0b0110_00010100_000000000000_0001_0000, .aUndefMisc0001op10 .vs),
      (0b1011_00010000_000000000000_0011_0000, .aUndefMisc0011op00 .lt),
      (0b0001_00010100_000000000000_0011_0000, .aUndefMisc0011op10 .ne),
      (0b0110_00010110_000000000000_0011_0000, .aUndefMisc0011op11 .vs),
      (0b1011_00010_00_0_000000000000_0010_0000, .aUndefMisc0010 .lt),
      (0b0001_00010_00_0_000000000000_0100_0000, .aUndefMisc0100 .ne),
      (0b0110_00010_00_0_000000000000_0101_0000, .aUndefMisc0101 .vs),
      (0b1011_00010_00_0_000000000000_0110_0000, .aUndefMisc0110 .lt),
      (0b0001_00010_00_0_000000000000_0111_0000, .aUndefMisc0111 .ne)] = true := by decide

theorem test_decode_A8 :
    reads decodeFull [
      (0b1011_00010110_0000_1001_0000_0001_1100, .aClz .lt 9 12)] = true := by decide

theorem test_decode_A11 :
    reads decodeFull [
      (0b0110_00010000_1001_1010_1011_1_1_0_0_1100, .aSmlaxy .vs true false 9 10 11 12),
      (0b1011_00010010_1001_1010_1011_1_1_00_1100, .aSmlawy .lt true 9 10 11 12),
      (0b0001_00010010_1001_0000_1011_1_1_10_1100, .aSmulwy .ne true 9 11 12),
      (0b0110_00010100_1101_0110_1011_1_1_0_0_1100, .aSmlalxy .vs true false 13 6 11 12),
      (0b1011_00010110_1001_0000_1011_1_1_0_0_1100, .aSmulxy .lt true false 9 11 12)] = true := by decide

theorem test_decode_A2 :
    reads decodeFull [
      (0b0110_000_0000_1_1010_1001_10101_10_0_1100, .aAndShImm .vs true 10 9 21 .asr 12),
      (0b0001_000_0001_1_1010_1001_10101_00_0_1100, .aEorShImm .ne true 10 9 21 .lsl 12),
      (0b1011_000_0010_1_1010_1001_10101_10_0_1100, .aSubShImm .lt true 10 9 21 .asr 12),
      (0b0110_000_0011_1_1010_1001_10101_00_0_1100, .aRsbShImm .vs true 10 9 21 .lsl 12),
      (0b0001_000_0100_1_1010_1001_10101_10_0_1100, .aAddShImm .ne true 10 9 21 .asr 12),
      (0b1011_000_0101_1_1010_1001_10101_00_0_1100, .aAdcShImm .lt true 10 9 21 .lsl 12),
      (0b0110_000_0110_1_1010_1001_10101_10_0_1100, .aSbcShImm .vs true 10 9 21 .asr 12),
      (0b0001_000_0111_1_1010_1001_10101_00_0_1100, .aRscShImm .ne true 10 9 21 .lsl 12),
      (0b1011_000_1000_1_1010_0000_10101_10_0_1100, .aTstShImm .lt 10 21 .asr 12),
      (0b0110_000_1001_1_1010_0000_10101_00_0_1100, .aTeqShImm .vs 10 21 .lsl 12),
      (0b0001_000_1010_1_1010_0000_10101_10_0_1100, .aCmpShImm .ne 10 21 .asr 12),
      (0b1011_000_1011_1_1010_0000_10101_00_0_1100, .aCmnShImm .lt 10 21 .lsl 12),
      (0b0110_000_1100_1_1010_1001_10101_10_0_1100, .aOrrShImm .vs true 10 9 21 .asr 12),
      (0b0001_000_1101_1_0000_1001_10101_00_0_1100, .aMovShImm .ne true 9 21 .lsl 12),
      (0b1011_000_1110_1_1010_1001_10101_10_0_1100, .aBicShImm .lt true 10 9 21 .asr 12),
      (0b0110_000_1111_1_0000_1001_10101_00_0_1100, .aMvnShImm .vs true 9 21 .lsl 12)] = true := by decide

theorem test_decode_A3 :
    reads decodeFull [
      (0b1011_000_0000_1_1010_1001_1011_0_11_1_1100, .aAndShReg .lt true 10 9 11 .ror 12),
      (0b0110_000_0001_1_1010_1001_1011_0_01_1_1100, .aEorShReg .vs true 10 9 11 .lsr 12),
      (0b0001_000_0010_1_1010_1001_1011_0_11_1_1100, .aSubShReg .ne true 10 9 11 .ror 12),
      (0b1011_000_0011_1_1010_1001_1011_0_01_1_1100, .aRsbShReg .lt true 10 9 11 .lsr 12),
      (0b0110_000_0100_1_1010_1001_1011_0_11_1_1100, .aAddShReg .vs true 10 9 11 .ror 12),
      (0b0001_000_0101_1_1010_1001_1011_0_01_1_1100, .aAdcShReg .ne true 10 9 11 .lsr 12),
      (0b1011_000_0110_1_1010_1001_1011_0_11_1_1100, .aSbcShReg .lt true 10 9 11 .ror 12),
      (0b0110_000_0111_1_1010_1001_1011_0_01_1_1100, .aRscShReg .vs true 10 9 11 .lsr 12),
      (0b0001_000_1000_1_1010_0000_1011_0_11_1_1100, .aTstShReg .ne 10 11 .ror 12),
      (0b1011_000_1001_1_1010_0000_1011_0_01_1_1100, .aTeqShReg .lt 10 11 .lsr 12),
      (0b0110_000_1010_1_1010_0000_1011_0_11_1_1100, .aCmpShReg .vs 10 11 .ror 12),
      (0b0001_000_1011_1_1010_0000_1011_0_01_1_1100, .aCmnShReg .ne 10 11 .lsr 12),
      (0b1011_000_1100_1_1010_1001_1011_0_11_1_1100, .aOrrShReg .lt true 10 9 11 .ror 12),
      (0b0110_000_1101_1_0000_1001_1011_0_01_1_1100, .aMovShReg .vs true 9 11 .lsr 12),
      (0b0001_000_1110_1_1010_1001_1011_0_11_1_1100, .aBicShReg .ne true 10 9 11 .ror 12),
      (0b1011_000_1111_1_0000_1001_1011_0_01_1_1100, .aMvnShReg .lt true 9 11 .lsr 12)] = true := by decide

theorem test_decode_A6 :
    reads decodeFull [
      (0b0001_00110_1_10_1001_0000_0110_10100111, .aMsrImm .ne true 9 6 0xa7)] = true := by decide

theorem test_decode_A1_0 :
    reads decodeFull [
      (0b0110_00110_0_00_00000000000000000000, .aUndefImm .vs),
      (0b1011_001_0000_1_1010_1001_0110_10100111, .aAndImm .lt true 10 9 6 0xa7),
      (0b0001_001_0001_1_1010_1001_0110_10100111, .aEorImm .ne true 10 9 6 0xa7),
      (0b0110_001_0010_1_1010_1001_0110_10100111, .aSubImm .vs true 10 9 6 0xa7),
      (0b1011_001_0011_1_1010_1001_0110_10100111, .aRsbImm .lt true 10 9 6 0xa7),
      (0b0001_001_0100_1_1010_1001_0110_10100111, .aAddImm .ne true 10 9 6 0xa7),
      (0b0110_001_0101_1_1010_1001_0110_10100111, .aAdcImm .vs true 10 9 6 0xa7),
      (0b1011_001_0110_1_1010_1001_0110_10100111, .aSbcImm .lt true 10 9 6 0xa7),
      (0b0001_001_0111_1_1010_1001_0110_10100111, .aRscImm .ne true 10 9 6 0xa7),
      (0b0110_001_1000_1_1010_0000_0110_10100111, .aTstImm .vs 10 6 0xa7),
      (0b1011_001_1001_1_1010_0000_0110_10100111, .aTeqImm .lt 10 6 0xa7),
      (0b0001_001_1010_1_1010_0000_0110_10100111, .aCmpImm .ne 10 6 0xa7),
      (0b0110_001_1011_1_1010_0000_0110_10100111, .aCmnImm .vs 10 6 0xa7),
      (0b1011_001_1100_1_1010_1001_0110_10100111, .aOrrImm .lt true 10 9 6 0xa7),
      (0b0001_001_1101_1_0000_1001_0110_10100111, .aMovImm .ne true 9 6 0xa7),
      (0b0110_001_1110_1_1010_1001_0110_10100111, .aBicImm .vs true 10 9 6 0xa7)] = true := by decide

theorem test_decode_A1_1 :
    reads decodeFull [
      (0b1011_001_1111_1_0000_1001_0110_10100111, .aMvnImm .lt true 9 6 0xa7)] = true := by decide

theorem test_decode_A13_0 :
    reads decodeFull [
      (0b0001_01_0_1_1_0_0_0_1010_1001_101001010011, .aStrPreImm .ne true false 10 9 0xa53),
      (0b0110_01_0_0_0_0_0_0_1010_1001_101001010011, .aStrPostImm .vs false 10 9 0xa53),
      (0b1011_01_0_0_1_0_1_0_1010_1001_101001010011, .aStrtImm .lt true 10 9 0xa53),
      (0b0001_01_0_1_0_0_1_1_1010_1001_101001010011, .aLdrPreImm .ne false true 10 9 0xa53),
      (0b0110_01_0_0_1_0_0_1_1010_1001_101001010011, .aLdrPostImm .vs true 10 9 0xa53),
      (0b1011_01_0_0_0_0_1_1_1010_1001_101001010011, .aLdrtImm .lt false 10 9 0xa53),
      (0b0001_01_0_1_1_1_0_0_1010_1001_101001010011, .aStrbPreImm .ne true false 10 9 0xa53),
      (0b0110_01_0_0_0_1_0_0_1010_1001_101001010011, .aStrbPostImm .vs false 10 9 0xa53),
      (0b1011_01_0_0_1_1_1_0_1010_1001_101001010011, .aStrbtImm .lt true 10 9 0xa53),
      (0b0001_01_0_1_0_1_1_1_1010_1001_101001010011, .aLdrbPreImm .ne false true 10 9 0xa53),
      (0b0110_01_0_0_1_1_0_1_1010_1001_101001010011, .aLdrbPostImm .vs true 10 9 0xa53),
      (0b1011_01_0_0_0_1_1_1_1010_1001_101001010011, .aLdrbtImm .lt false 10 9 0xa53),
      (0b0001_01_1_1_1_0_0_0_1010_1001_10101_00_0_1100, .aStrPreReg .ne true false 10 9 21 .lsl 12),
      (0b0110_01_1_0_0_0_0_0_1010_1001_10101_01_0_1100, .aStrPostReg .vs false 10 9 21 .lsr 12),
      (0b1011_01_1_0_1_0_1_0_1010_1001_10101_10_0_1100, .aStrtReg .lt true 10 9 21 .asr 12),
      (0b0001_01_1_1_0_0_1_1_1010_1001_10101_11_0_1100, .aLdrPreReg .ne false true 10 9 21 .ror 12)] = true := by decide

theorem test_decode_A13_1 :
    reads decodeFull [
      (0b0110_01_1_0_1_0_0_1_1010_1001_10101_00_0_1100, .aLdrPostReg .vs true 10 9 21 .lsl 12),
      (0b1011_01_1_0_0_0_1_1_1010_1001_10101_01_0_1100, .aLdrtReg .lt false 10 9 21 .lsr 12),
      (0b0001_01_1_1_1_1_0_0_1010_1001_10101_10_0_1100, .aStrbPreReg .ne true false 10 9 21 .asr 12),
      (0b0110_01_1_0_0_1_0_0_1010_1001_10101_11_0_1100, .aStrbPostReg .vs false 10 9 21 .ror 12),
      (0b1011_01_1_0_1_1_1_0_1010_1001_10101_00_0_1100, .aStrbtReg .lt true 10 9 21 .lsl 12),
      (0b0001_01_1_1_0_1_1_1_1010_1001_10101_01_0_1100, .aLdrbPreReg .ne false true 10 9 21 .lsr 12),
      (0b0110_01_1_0_1_1_0_1_1010_1001_10101_10_0_1100, .aLdrbPostReg .vs true 10 9 21 .asr 12),
      (0b1011_01_1_0_0_1_1_1_1010_1001_10101_11_0_1100, .aLdrbtReg .lt false 10 9 21 .ror 12),
      (0b0001_011_00000000000000000000_1_0000, .aUndefRegOff .ne)] = true := by decide

theorem test_decode_A15 :
    reads decodeFull [
      (0b0110_100_0_0_0_1_0_1010_1000010000100001, .aStmda .vs false true 10 0x8421),
      (0b1011_100_0_1_1_0_0_1010_1000010000100001, .aStmia .lt true false 10 0x8421),
      (0b0001_100_1_0_0_1_0_1010_1000010000100001, .aStmdb .ne false true 10 0x8421),
      (0b0110_100_1_1_1_0_0_1010_1000010000100001, .aStmib .vs true false 10 0x8421),
      (0b1011_100_0_0_0_1_1_1010_1000010000100001, .aLdmda .lt false true 10 0x8421),
      (0b0001_100_0_1_1_0_1_1010_1000010000100001, .aLdmia .ne true false 10 0x8421),
      (0b0110_100_1_0_0_1_1_1010_1000010000100001, .aLdmdb .vs false true 10 0x8421),
      (0b1011_100_1_1_1_0_1_1010_1000010000100001, .aLdmib .lt true false 10 0x8421)] = true := by decide

theorem test_decode_A16 :
    reads decodeFull [
      (0b0001_101_0_100110101011110011011110, .aB .ne (-26545288)),
      (0b0110_101_1_100110101011110011011110, .aBl .vs (-26545288)),
      (0b1011_11_00000000000000000000000000, .aUndefCop .lt)] = true := by decide

/-! ## One step on a small state (95_test_vectors §0) -/

/-- Words placed in memory, the last one over the earlier ones. -/
def words (s : State) : List (Word × Word) → State
  | [] => s
  | (a, v) :: rest =>
    match s.rawWrite a .word v with
    | .ok s' => words s' rest
    | .error _ => words s rest

def withRegs (s : State) (regs : List (Reg × Word)) : State := regs.foldl (fun s p => s.setX p.1 p.2) s

/-- F = 0x08000000 in the mode of `psr`, Len[0] = 0x100, Len[3] = 0x8000, Len[4] = 0x400, Len[8] = 0x10000, other lengths 0. -/
def start (psr : Word) (regs : List (Reg × Word)) (mem : List (Word × Word)) : State :=
  words (withRegs
    { regs := (Vector.replicate 16 0).set 15 (if psr.getLsbD 5 then 0x08000002 else 0x08000004)
      psr := psr
      mem := #v[⟨0x100, []⟩, ⟨0, []⟩, ⟨0, []⟩, ⟨0x8000, []⟩, ⟨0x400, []⟩, ⟨0, []⟩, ⟨0, []⟩, ⟨0, []⟩, ⟨0x10000, []⟩, ⟨0, []⟩,
        ⟨0, []⟩, ⟨0, []⟩, ⟨0, []⟩, ⟨0, []⟩, ⟨0, []⟩, ⟨0, []⟩]
      breakState := .none
      host := ⟨[], [], [], [], 7, 10⟩ } regs) mem

def run (s : State) (value : Word) : Result := execute value s.flagT s

/-- The whole state after: PSR `psr'`, the registers listed changed (x[15] advanced unless listed), the words listed stored,
everything else as at the start. -/
def gives (psr : Word) (regs : List (Reg × Word)) (mem : List (Word × Word)) (value psr' : Word) (regs' : List (Reg × Word))
    (mem' : List (Word × Word)) : Bool :=
  let s := start psr regs mem
  match run s value with
  | .next t => t == words (withRegs { s.advance with psr := psr' } regs') mem'
  | _ => false

def after (r : Result) (p : State → Bool) : Bool :=
  match r with
  | .next t => p t
  | _ => false

/-! ### Compact register operations: the examples of 41, rows S, A and B of 95 -/

theorem test_LSL_imm : gives 0x20 [(1, 0x80000001)] [] 0x0048 0x20000020 [(0, 2)] [] = true := by decide

theorem test_LSR_imm : gives 0x20 [(1, 0x80000000)] [] 0x0808 0x60000020 [(0, 0)] [] = true := by decide

theorem test_ASR_imm : gives 0x20 [(3, 0x80000010)] [] 0x111A 0x80000020 [(2, 0xF8000001)] [] = true := by decide

theorem test_ADD_reg :
    gives 0x20 [(1, 0xFFFFFFFF), (2, 1)] [] 0x1888 0x60000020 [(0, 0)] [] = true ∧
    gives 0x20 [(1, 0x7FFFFFFF), (2, 1)] [] 0x1888 0x90000020 [(0, 0x80000000)] [] = true := by decide

theorem test_SUB_reg : gives 0x20 [(1, 0), (2, 1)] [] 0x1A88 0x80000020 [(0, 0xFFFFFFFF)] [] = true := by decide

theorem test_ADD_imm3 : gives 0x20 [(1, 0x80000000)] [] 0x1C08 0x80000020 [(0, 0x80000000)] [] = true := by decide

theorem test_SUB_imm3 : gives 0x20 [(3, 7)] [] 0x1FDB 0x60000020 [(3, 0)] [] = true := by decide

theorem test_MOV_imm8 : gives 0x30000020 [(5, 9)] [] 0x2500 0x70000020 [(5, 0)] [] = true := by decide

theorem test_CMP_imm8 : gives 0x20 [(2, 5)] [] 0x2A0A 0x80000020 [] [] = true := by decide

theorem test_ADD_imm8 : gives 0x20 [(7, 0xFFFFFF01)] [] 0x37FF 0x60000020 [(7, 0)] [] = true := by decide

theorem test_SUB_imm8 : gives 0x20 [(0, 0x80000000)] [] 0x3801 0x30000020 [(0, 0x7FFFFFFF)] [] = true := by decide

theorem test_AND : gives 0x20 [(0, 0xF0F0F0F0), (1, 0x0F0F0F0F)] [] 0x4008 0x40000020 [(0, 0)] [] = true := by decide

theorem test_EOR : gives 0x20 [(0, 0xFFFF0000), (1, 0x0000FFFF)] [] 0x4048 0x80000020 [(0, 0xFFFFFFFF)] [] = true := by decide

theorem test_LSL_reg :
    gives 0x20000020 [(0, 0x80000001), (1, 0x100)] [] 0x4088 0xA0000020 [] [] = true ∧
    gives 0x20 [(0, 0x80000001), (1, 0x20)] [] 0x4088 0x60000020 [(0, 0)] [] = true := by decide

theorem test_LSR_reg :
    gives 0x20 [(0, 0x80000001)] [] 0x40C8 0x60000020 [(0, 0)] [] = true ∧
    gives 0x20 [(0, 0x80000001), (1, 0x21)] [] 0x40C8 0x60000020 [(0, 0)] [] = true := by decide

theorem test_ASR_reg :
    gives 0x20 [(0, 0x80000001), (1, 0x1F)] [] 0x4108 0x80000020 [(0, 0xFFFFFFFF)] [] = true ∧
    gives 0x20000020 [(0, 0x40000000), (1, 0x20)] [] 0x4108 0x40000020 [(0, 0)] [] = true := by decide

theorem test_ADC : gives 0x20000020 [(0, 0xFFFFFFFF), (1, 0)] [] 0x4148 0x60000020 [(0, 0)] [] = true := by decide

theorem test_SBC : gives 0x20 [(0, 5), (1, 3)] [] 0x4188 0x20000020 [(0, 1)] [] = true := by decide

theorem test_ROR_reg :
    gives 0x20000020 [(0, 0x80000001)] [] 0x41C8 0xA0000020 [(0, 0xC0000000)] [] = true ∧
    gives 0x20 [(0, 0x80000001), (1, 0x20)] [] 0x41C8 0xA0000020 [] [] = true := by decide

theorem test_TST : gives 0x20 [(0, 0x80000000), (1, 0x80000001)] [] 0x4208 0x80000020 [] [] = true := by decide

theorem test_NEG : gives 0x20 [(1, 0x80000000)] [] 0x4248 0x90000020 [(0, 0x80000000)] [] = true := by decide

theorem test_CMP_reg : gives 0x20 [(0, 1), (1, 2)] [] 0x4288 0x80000020 [] [] = true := by decide

theorem test_CMN : gives 0x20 [(0, 1), (1, 0xFFFFFFFF)] [] 0x42C8 0x60000020 [] [] = true := by decide

theorem test_ORR : gives 0x20 [] [] 0x4308 0x40000020 [] [] = true := by decide

theorem test_MUL_compact :
    gives 0x30000020 [(0, 0xFFFFFFFF), (1, 0xFFFFFFFF)] [] 0x4348 0x30000020 [(0, 1)] [] = true := by decide

theorem test_BIC : gives 0x20 [(0, 0xFFFFFFFF), (1, 0xF)] [] 0x4388 0x80000020 [(0, 0xFFFFFFF0)] [] = true := by decide

theorem test_MVN : gives 0x20 [(1, 0)] [] 0x43C8 0x80000020 [(0, 0xFFFFFFFF)] [] = true := by decide

theorem test_ADD_hi : gives 0xF0000020 [(0, 1), (8, 2)] [] 0x4440 0xF0000020 [(0, 3)] [] = true := by decide

theorem test_CMP_hi : gives 0x20 [(8, 3), (0, 3)] [] 0x4580 0x60000020 [] [] = true := by decide

theorem test_MOV_hi : gives 0x20 [(14, 0x08000101)] [] 0x46F7 0x20 [(15, 0x08000102)] [] = true := by decide

theorem test_BX_compact :
    gives 0x20 [(15, 0x08000004)] [] 0x4778 0x0 [(15, 0x08000008)] [] = true ∧
    gives 0x20 [(1, 0x08000201)] [] 0x4708 0x20 [(15, 0x08000202)] [] = true := by decide

theorem test_BLX_compact :
    gives 0x20 [(15, 0x08000012), (3, 0x08000101)] [] 0x4798 0x20 [(14, 0x08000013), (15, 0x08000102)] [] = true ∧
    gives 0x20 [(15, 0x08000012), (14, 0x03000001)] [] 0x47F0 0x20 [(14, 0x08000013), (15, 0x03000002)] [] = true := by decide

/-! ### Compact branches: rows B and E6 of 95 -/

theorem test_B_cond :
    gives 0x20 [] [] 0xDE05 0x20 [(15, 0x08000010)] [] = true ∧
    gives 0x40000020 [] [] 0xD080 0x40000020 [(15, 0x07FFFF06)] [] = true := by decide

theorem test_B_cond_fails :
    gives 0x20 [] [] 0xDF05 0x20 [] [] = true ∧
    gives 0x20 [] [] 0xD080 0x20 [] [] = true := by decide

theorem test_B_compact :
    gives 0x20 [] [] 0xE3FF 0x20 [(15, 0x08000804)] [] = true ∧
    gives 0x20 [] [] 0xE400 0x20 [(15, 0x07FFF806)] [] = true := by decide

theorem test_BL_first_half :
    gives 0x20 [(15, 0x08400002)] [] 0xF400 0x20 [(14, 0x08000004)] [] = true ∧
    gives 0x20 [] [] 0xF000 0x20 [(14, 0x08000004)] [] = true := by decide

theorem test_BL_second_half :
    gives 0x20 [(14, 0x03000000)] [] 0xF801 0x20 [(14, 0x08000003), (15, 0x03000004)] [] = true ∧
    gives 0x20 [(15, 0x08000004), (14, 0x07FFE004)] [] 0xFFFE 0x20 [(14, 0x08000005), (15, 0x07FFF002)] [] = true := by decide

/-! ### Compact memory operations: the examples of 42, rows M of 95 -/

theorem test_LDR_pc : gives 0x20 [] [(0x08000004, 0x12345678)] 0x4800 0x20 [(0, 0x12345678)] [] = true := by decide

theorem test_STR_reg :
    gives 0x20 [(0, 0xAABBCCDD), (1, 0x03000000), (2, 0x10)] [] 0x5088 0x20 [] [(0x03000010, 0xAABBCCDD)] = true := by decide

theorem test_STRB_reg :
    gives 0x20 [(0, 0x12345678), (1, 0x03000000), (2, 3)] [] 0x5488 0x20 [] [(0x03000000, 0x78000000)] = true := by decide

theorem test_LDR_reg :
    gives 0x20 [(1, 0x03000000), (2, 1)] [(0x03000000, 0x44332211), (0x03000004, 0x55)] 0x5888 0x20 [(0, 0x55443322)] [] = true := by decide

theorem test_LDRB_reg : gives 0x20 [(1, 0x03000000)] [(0x03000000, 0x80)] 0x5C88 0x20 [(0, 0x80)] [] = true := by decide

theorem test_STRH_reg :
    gives 0x20 [(0, 0x1234ABCD), (1, 0x03000000), (2, 2)] [] 0x5288 0x20 [] [(0x03000000, 0xABCD0000)] = true := by decide

theorem test_LDRSB_reg : gives 0x20 [(1, 0x03000000)] [(0x03000000, 0x80)] 0x5688 0x20 [(0, 0xFFFFFF80)] [] = true := by decide

theorem test_LDRH_reg : gives 0x20 [(1, 0x03000000)] [(0x03000000, 0x8234)] 0x5A88 0x20 [(0, 0x8234)] [] = true := by decide

theorem test_LDRSH_reg :
    gives 0x20 [(1, 0x03000000)] [(0x03000000, 0x8234)] 0x5E88 0x20 [(0, 0xFFFF8234)] [] = true := by decide

theorem test_STR_imm :
    gives 0x20 [(0, 7), (1, 0x03000000)] [] 0x6048 0x20 [] [(0x03000004, 7)] = true ∧
    gives 0x20 [(0, 0xAABBCCDD), (1, 0xFE)] [] 0x6008 0x20 [] [(0xFC, 0xCCDD0000), (0, 0xAABB)] = true := by decide

theorem test_LDR_imm :
    gives 0x20 [(1, 0x13000000)] [(0x03000000, 0xCAFEF00D)] 0x6808 0x20 [(0, 0xCAFEF00D)] [] = true ∧
    gives 0x20 [(1, 0x03008004)] [(0x03000004, 0x01020304)] 0x6808 0x20 [(0, 0x01020304)] [] = true := by decide

theorem test_STRB_imm : gives 0x20 [(0, 0x1FF), (1, 0x03000000)] [] 0x7048 0x20 [] [(0x03000000, 0xFF00)] = true := by decide

theorem test_LDRB_imm : gives 0x20 [(1, 0x03000000)] [(0x03000000, 0xFF00)] 0x7848 0x20 [(0, 0xFF)] [] = true := by decide

theorem test_STRH_imm :
    gives 0x20 [(0, 0xBEEF), (1, 0x03000000)] [] 0x8048 0x20 [] [(0x03000000, 0xBEEF0000)] = true ∧
    gives 0x20 [(0, 0xBEEF), (1, 0x03000001)] [] 0x8008 0x20 [] [(0x03000000, 0xBEEF00)] = true := by decide

theorem test_LDRH_imm : gives 0x20 [(1, 0x03000000)] [(0x03000000, 0xBEEF0000)] 0x8848 0x20 [(0, 0xBEEF)] [] = true := by decide

theorem test_STR_sp : gives 0x20 [(0, 5), (13, 0x03007F00)] [] 0x9001 0x20 [] [(0x03007F04, 5)] = true := by decide

theorem test_LDR_sp : gives 0x20 [(13, 0x03007F00)] [(0x03007F04, 5)] 0x9901 0x20 [(1, 5)] [] = true := by decide

theorem test_ADD_pc : gives 0x20 [(15, 0x08000004)] [] 0xA001 0x20 [(0, 0x08000008)] [] = true := by decide

theorem test_ADD_sp : gives 0x20 [(13, 0x03007F00)] [] 0xA902 0x20 [(1, 0x03007F08)] [] = true := by decide

theorem test_ADD_SP_imm7 : gives 0x20 [(13, 0x03007F00)] [] 0xB002 0x20 [(13, 0x03007F08)] [] = true := by decide

theorem test_SUB_SP_imm7 :
    gives 0x20 [(13, 0x03007F00)] [] 0xB082 0x20 [(13, 0x03007EF8)] [] = true ∧
    gives 0x20 [] [] 0xB081 0x20 [(13, 0xFFFFFFFC)] [] = true := by decide

theorem test_PUSH :
    gives 0x20 [(13, 0x03007F00), (0, 1), (1, 2), (14, 0x08000101)] [] 0xB503 0x20 [(13, 0x03007EF4)]
      [(0x03007EFC, 0x08000101), (0x03007EF8, 2), (0x03007EF4, 1)] = true ∧
    gives 0x20 [(13, 0x03007F00)] [] 0xB400 0x20 [] [] = true := by decide

theorem test_POP :
    gives 0x20 [(13, 0x03007F00)] [(0x03007F00, 0x08000101)] 0xBD00 0x20 [(13, 0x03007F04), (15, 0x08000102)] [] = true ∧
    gives 0x20 [(13, 0x03007EFC)] [(0x03007EFC, 0x2A)] 0xBC04 0x20 [(2, 0x2A), (13, 0x03007F00)] [] = true := by decide

theorem test_STMIA_compact :
    gives 0x20 [(0, 0x03000000), (1, 0xB)] [] 0xC003 0x20 [(0, 0x03000008)] [(0x03000000, 0x03000000), (0x03000004, 0xB)] = true := by decide

theorem test_LDMIA_compact :
    gives 0x20 [(0, 0x03000000)] [(0x03000000, 0xA), (0x03000004, 0xB)] 0xC803 0x20 [(0, 0xA), (1, 0xB)] [] = true := by decide

/-! ### Full data processing: the examples of 44, rows A, S-F and G of 95 -/

theorem test_full_AND :
    gives 0xF0000000 [(1, 0x12345678)] [] 0xE20100FF 0xF0000000 [(0, 0x78)] [] = true ∧
    gives 0x0 [(0, 0xFFFFFFFF)] [] 0xE2100102 0xA0000000 [(0, 0x80000000)] [] = true := by decide

theorem test_full_EOR : gives 0x0 [(0, 0xF0), (1, 0xFF)] [] 0xE0200001 0x0 [(0, 0x0F)] [] = true := by decide

theorem test_full_SUB :
    gives 0x0 [(1, 0)] [] 0xE2510001 0x80000000 [(0, 0xFFFFFFFF)] [] = true ∧
    gives 0x0 [(1, 0x80000000), (2, 1)] [] 0xE0510002 0x30000000 [(0, 0x7FFFFFFF)] [] = true := by decide

theorem test_full_RSB : gives 0x0 [(1, 1)] [] 0xE2710000 0x80000000 [(0, 0xFFFFFFFF)] [] = true := by decide

theorem test_full_ADD :
    gives 0x0 [(1, 0x7FFFFFFF), (2, 1)] [] 0xE0910002 0x90000000 [(0, 0x80000000)] [] = true ∧
    gives 0xF0000000 [(1, 0xFFFFFFFF), (2, 1)] [] 0xE0810002 0xF0000000 [(0, 0)] [] = true := by decide

theorem test_full_ADC : gives 0x20000000 [(1, 1), (2, 2)] [] 0xE0A10002 0x20000000 [(0, 4)] [] = true := by decide

theorem test_full_SBC : gives 0x0 [(1, 5), (2, 2)] [] 0xE0C10002 0x0 [(0, 2)] [] = true := by decide

theorem test_full_RSC : gives 0x0 [(1, 2), (2, 5)] [] 0xE0E10002 0x0 [(0, 2)] [] = true := by decide

theorem test_full_TST : gives 0x20000000 [(0, 2)] [] 0xE3100001 0x60000000 [] [] = true := by decide

theorem test_full_TEQ : gives 0x20000000 [(0, 0x55), (1, 0x55)] [] 0xE1300001 0x60000000 [] [] = true := by decide

theorem test_full_CMP : gives 0x0 [(0, 0)] [] 0xE3500000 0x60000000 [] [] = true := by decide

theorem test_full_CMN : gives 0x0 [(1, 0x7FFFFFFF)] [] 0xE3710001 0x90000000 [] [] = true := by decide

theorem test_full_ORR : gives 0xF0000000 [(0, 1)] [] 0xE3800102 0xF0000000 [(0, 0x80000001)] [] = true := by decide

theorem test_full_MOV :
    gives 0x20000000 [(1, 0x80000001)] [] 0xE1B00061 0xA0000000 [(0, 0xC0000000)] [] = true ∧
    gives 0x0 [(1, 1), (2, 0x104)] [] 0xE1A00211 0x0 [(0, 0x10)] [] = true := by decide

theorem test_full_MOV_pc :
    gives 0x50000000 [(14, 0x08000100)] [] 0xE1B0F00E 0x10000000 [(15, 0x08000104)] [] = true := by decide

theorem test_full_BIC : gives 0x0 [(0, 0x12345678)] [] 0xE3C000FF 0x0 [(0, 0x12345600)] [] = true := by decide

theorem test_full_MVN : gives 0x0 [] [] 0xE3E00000 0x0 [(0, 0xFFFFFFFF)] [] = true := by decide

theorem test_rotated_immediate :
    gives 0x20000000 [] [] 0xE3B000FF 0x20000000 [(0, 0xFF)] [] = true ∧
    gives 0x0 [] [] 0xE3B004FF 0xA0000000 [(0, 0xFF000000)] [] = true := by decide

theorem test_full_shift_by_zero :
    gives 0x0 [(1, 0x80000001)] [] 0xE1B00041 0xA0000000 [(0, 0xFFFFFFFF)] [] = true ∧
    gives 0x0 [(1, 0x80000001), (2, 0x100)] [] 0xE1B00231 0x60000000 [(0, 0)] [] = true := by decide

theorem test_condition_gate :
    gives 0x80000000 [] [] 0xB3A00001 0x80000000 [(0, 1)] [] = true ∧
    gives 0x80000000 [] [] 0xC3A00001 0x80000000 [] [] = true := by decide

theorem test_NV_never_runs :
    gives 0x40000000 [] [] 0xF3A00001 0x40000000 [] [] = true ∧
    gives 0x0 [] [] 0xFAFFFFFE 0x0 [] [] = true := by decide

/-! ### Status transfers, CLZ, full branches and multiplies: the examples of 44, 45, 46, rows X and U of 95 -/

theorem test_MRS :
    gives 0x6000001F [] [] 0xE10F0000 0x6000001F [(0, 0x6000001F)] [] = true ∧
    gives 0xA0000000 [] [] 0xE14F0000 0xA0000000 [(0, 0xA0000000)] [] = true := by decide

theorem test_MSR_reg : gives 0x1F [(0, 0xF0000000)] [] 0xE128F000 0xF000001F [] [] = true := by decide

theorem test_MSR_imm :
    gives 0x0 [] [] 0xE321F03F 0x3F [] [] = true ∧
    gives 0x0 [] [] 0xE328F4F0 0xF0000000 [] [] = true := by decide

theorem test_CLZ :
    gives 0x0 [(1, 0x00010000)] [] 0xE16F0F11 0x0 [(0, 15)] [] = true ∧
    gives 0x0 [(1, 0)] [] 0xE16F0F11 0x0 [(0, 32)] [] = true := by decide

theorem test_full_B : gives 0x0 [] [] 0xEAFFFFFE 0x0 [(15, 0x08000004)] [] = true := by decide

theorem test_full_BL :
    gives 0x0 [] [] 0xEB000000 0x0 [(14, 0x08000004), (15, 0x0800000C)] [] = true ∧
    gives 0x0 [(15, 0x08000104)] [] 0xEBFFFFFE 0x0 [(14, 0x08000104), (15, 0x08000104)] [] = true := by decide

theorem test_full_BX :
    gives 0x0 [] [] 0xE12FFF1F 0x0 [(15, 0x0800000C)] [] = true ∧
    gives 0x0 [(0, 0x08000102)] [] 0xE12FFF10 0x0 [(15, 0x08000104)] [] = true := by decide

theorem test_full_BLX :
    gives 0x0 [(1, 0x03000001)] [] 0xE12FFF31 0x20 [(14, 0x08000004), (15, 0x03000002)] [] = true ∧
    gives 0x0 [(14, 0x08000200)] [] 0xE12FFF3E 0x0 [(14, 0x08000004), (15, 0x08000204)] [] = true := by decide

theorem test_MUL : gives 0x30000000 [(1, 0xFFFFFFFF), (2, 1)] [] 0xE0100291 0xB0000000 [(0, 0xFFFFFFFF)] [] = true := by decide

theorem test_MLA : gives 0x0 [(1, 0x80000000), (2, 2), (3, 5)] [] 0xE0203291 0x0 [(0, 5)] [] = true := by decide

theorem test_UMULL :
    gives 0x0 [(2, 0xFFFFFFFF), (3, 0xFFFFFFFF)] [] 0xE0810392 0x0 [(0, 1), (1, 0xFFFFFFFE)] [] = true ∧
    gives 0x80000000 [(3, 5)] [] 0xE0910392 0x40000000 [] [] = true := by decide

theorem test_UMLAL : gives 0x0 [(0, 0xFFFFFFFF), (2, 1), (3, 1)] [] 0xE0A10392 0x0 [(0, 0), (1, 1)] [] = true := by decide

theorem test_SMULL :
    gives 0x0 [(2, 0xFFFFFFFF), (3, 0xFFFFFFFF)] [] 0xE0C10392 0x0 [(0, 1), (1, 0)] [] = true ∧
    gives 0x0 [(2, 0xFFFFFFFF), (3, 1)] [] 0xE0D10392 0x80000000 [(0, 0xFFFFFFFF), (1, 0xFFFFFFFF)] [] = true := by decide

theorem test_SMLAL :
    gives 0x0 [(2, 0xFFFFFFFF), (3, 2)] [] 0xE0E10392 0x0 [(0, 0xFFFFFFFE), (1, 0xFFFFFFFF)] [] = true := by decide

theorem test_SMLAxy : gives 0x0 [(1, 0x0002FFFF), (2, 0x00010003), (3, 10)] [] 0xE1003281 0x0 [(0, 7)] [] = true := by decide

theorem test_SMLAWy : gives 0x0 [(1, 0x00020000), (2, 3), (3, 10)] [] 0xE1203281 0x0 [(0, 16)] [] = true := by decide

theorem test_SMULWy : gives 0x0 [(1, 0xFFFF0000), (2, 2)] [] 0xE12002A1 0x0 [(0, 0xFFFFFFFE)] [] = true := by decide

theorem test_SMLALxy :
    gives 0x0 [(0, 0xFFFFFFFF), (2, 1), (3, 1)] [] 0xE1410382 0x0 [(0, 0), (1, 1)] [] = true ∧
    gives 0x0 [(2, 2), (3, 3)] [] 0xE1400382 0x0 [(0, 0)] [] = true := by decide

theorem test_SMULxy :
    gives 0x0 [(1, 0x0000FFFF), (2, 0x00007FFF)] [] 0xE1600281 0x0 [(0, 0xFFFF8001)] [] = true ∧
    gives 0x0 [(1, 0x80000000), (2, 0x80000000)] [] 0xE16002E1 0x0 [(0, 0x40000000)] [] = true := by decide

/-! ### Full memory operations: the examples of 47, rows M of 95 -/

theorem test_full_LDR :
    gives 0x0 [(1, 0x03000000)] [(0x03000004, 0x12345678)] 0xE5B11004 0x0 [(1, 0x12345678)] [] = true ∧
    gives 0x0 [(1, 0x03000000)] [(0x03000000, 0x12345678)] 0xE4910004 0x0 [(0, 0x12345678), (1, 0x03000004)] [] = true := by decide

theorem test_full_LDR_pc :
    gives 0x0 [(0, 0x03000000)] [(0x03000000, 0x08000101)] 0xE590F000 0x0 [(15, 0x08000104)] [] = true := by decide

theorem test_full_LDR_LSR_zero :
    gives 0x0 [(1, 0x03000000)] [(0x03000000, 0x99)] 0xE7910021 0x0 [(0, 0x99)] [] = true := by decide

theorem test_full_STR :
    gives 0x0 [(0, 0xAABBCCDD), (1, 0x03000010)] [] 0xE5210004 0x0 [(1, 0x0300000C)] [(0x0300000C, 0xAABBCCDD)] = true ∧
    gives 0x0 [(1, 0x03000000)] [] 0xE5A11004 0x0 [(1, 0x03000004)] [(0x03000004, 0x03000000)] = true := by decide

theorem test_full_STR_pc : gives 0x0 [(1, 0x03000000)] [] 0xE581F000 0x0 [] [(0x03000000, 0x08000008)] = true := by decide

theorem test_full_LDRB :
    gives 0x0 [(1, 0x03000000), (2, 1)] [(0x03000004, 0x9A)] 0xE7D10102 0x0 [(0, 0x9A)] [] = true := by decide

theorem test_full_STRB :
    gives 0x0 [(0, 0x1234), (1, 0x03000000)] [] 0xE5C10001 0x0 [] [(0x03000000, 0x3400)] = true := by decide

theorem test_LDRT :
    gives 0x0 [(1, 0x03000000)] [(0x03000000, 5)] 0xE4B10004 0x0 [(0, 5), (1, 0x03000004)] [] = true := by decide

theorem test_STRT :
    gives 0x0 [(0, 7), (1, 0x03000000)] [] 0xE4A10004 0x0 [(1, 0x03000004)] [(0x03000000, 7)] = true := by decide

theorem test_LDRBT :
    gives 0x0 [(1, 0x03000000)] [(0x03000000, 0xFF)] 0xE4F10004 0x0 [(0, 0xFF), (1, 0x03000004)] [] = true := by decide

theorem test_STRBT :
    gives 0x0 [(0, 0x41), (1, 0x03000000)] [] 0xE4E10004 0x0 [(1, 0x03000004)] [(0x03000000, 0x41)] = true := by decide

theorem test_full_LDRH :
    gives 0x0 [(1, 0x03000000)] [(0x03000000, 0xBEEF0000)] 0xE1D100B2 0x0 [(0, 0xBEEF)] [] = true ∧
    gives 0x0 [(1, 0x03000000)] [(0x03000000, 0xBEEF)] 0xE0F100B2 0x0 [(0, 0xBEEF), (1, 0x03000002)] [] = true := by decide

theorem test_full_STRH :
    gives 0x0 [(0, 0x1234BEEF), (1, 0x03000000)] [] 0xE1C100B2 0x0 [] [(0x03000000, 0xBEEF0000)] = true := by decide

theorem test_full_LDRSB :
    gives 0x0 [(1, 0x03000000)] [(0x03000000, 0xFE00)] 0xE1D100D1 0x0 [(0, 0xFFFFFFFE)] [] = true := by decide

theorem test_full_LDRSH :
    gives 0x0 [(1, 0x03000000)] [(0x03000000, 0x800100)] 0xE1D100F1 0x0 [(0, 0xFFFF8001)] [] = true ∧
    gives 0x0 [(1, 0x03000000), (2, 4)] [(0x03000004, 0x8000)] 0xE19100F2 0x0 [(0, 0xFFFF8000)] [] = true := by decide

theorem test_SWP :
    gives 0x0 [(0, 0x11), (1, 0x03000000)] [(0x03000000, 0x22)] 0xE1010090 0x0 [(0, 0x22)] [(0x03000000, 0x11)] = true := by decide

theorem test_SWPB :
    gives 0x0 [(1, 0x1234), (2, 0x03000000)] [(0x03000000, 0xAB)] 0xE1420091 0x0 [(0, 0xAB)] [(0x03000000, 0x34)] = true := by decide

theorem test_full_STMIA :
    gives 0x0 [(0, 0x03000100), (1, 1), (2, 2)] [] 0xE8A00006 0x0 [(0, 0x03000108)] [(0x03000100, 1), (0x03000104, 2)] = true ∧
    gives 0x0 [(0, 0x03000000), (1, 0xB)] [] 0xE8A00003 0x0 [(0, 0x03000008)] [(0x03000000, 0x03000000), (0x03000004, 0xB)] = true := by decide

theorem test_full_STMIB :
    gives 0x0 [(0, 0x03000100), (1, 1), (2, 2)] [] 0xE9A00006 0x0 [(0, 0x03000108)] [(0x03000104, 1), (0x03000108, 2)] = true := by decide

theorem test_full_STMDA :
    gives 0x0 [(0, 0x03000100), (1, 1), (2, 2)] [] 0xE8200006 0x0 [(0, 0x030000F8)] [(0x03000100, 2), (0x030000FC, 1)] = true := by decide

theorem test_full_STMDB :
    gives 0x0 [(0, 0x03000100), (1, 1), (2, 2)] [] 0xE9200006 0x0 [(0, 0x030000F8)] [(0x030000FC, 2), (0x030000F8, 1)] = true := by decide

theorem test_full_LDMIA :
    gives 0x0 [(0, 0x03000100)] [(0x03000100, 0xA), (0x03000104, 0xB)] 0xE8B00006 0x0 [(1, 0xA), (2, 0xB), (0, 0x03000108)] [] = true ∧
    gives 0x0 [(0, 0x03000000)] [(0x03000000, 0x08000101)] 0xE8B08000 0x0 [(0, 0x03000004), (15, 0x08000104)] [] = true := by decide

theorem test_full_LDMIB :
    gives 0x0 [(0, 0x03000100)] [(0x03000104, 0xA), (0x03000108, 0xB)] 0xE9B00006 0x0 [(1, 0xA), (2, 0xB), (0, 0x03000108)] [] = true := by decide

theorem test_full_LDMDA :
    gives 0x0 [(0, 0x03000100)] [(0x030000FC, 0xA), (0x03000100, 0xB)] 0xE8300006 0x0 [(1, 0xA), (2, 0xB), (0, 0x030000F8)] [] = true := by decide

theorem test_full_LDMDB :
    gives 0x0 [(0, 0x03000100)] [(0x030000F8, 0xA), (0x030000FC, 0xB)] 0xE9300006 0x0 [(1, 0xA), (2, 0xB), (0, 0x030000F8)] [] = true := by decide

theorem test_block_empty_list :
    gives 0x0 [(0, 0x03000000)] [] 0xE8B00000 0x0 [] [] = true ∧
    gives 0x0 [(0, 0x03000000)] [(0x03000000, 0xA), (0x03000004, 0xB)] 0xE8B00003 0x0 [(0, 0xA), (1, 0xB)] [] = true := by decide

/-! ### Undefined encodings (95 §2.10) -/

theorem test_undefined_compact :
    [0xB100, 0xB3FF, 0xB600, 0xBBFF, 0xBE00, 0xBFFF, 0xE800, 0xEFFF].all
      (fun v => gives 0xA0000020 [(0, 1)] [] (BitVec.ofNat 32 v) 0xA0000020 [] []) = true := by decide

theorem test_undefined_full :
    [0xE00000D0, 0xE00000F0, 0xE1000050, 0xE1200070, 0xE1000010, 0xE1400010, 0xE1200020, 0xE3000000, 0xE3400000, 0xE7F000F0,
      0xEE000000, 0xEF000000, 0xEC000000, 0xE0400090].all
      (fun v => gives 0xA0000000 [(0, 1)] [] (BitVec.ofNat 32 v) 0xA0000000 [] []) = true := by decide

/-! ### Monitors, the DMA and HostDefect: rows W, D and H of 95 -/

def monitored (s : State) (reads watches : List Word) : State :=
  { s with host := { s.host with readSet := reads, watchSet := watches } }

theorem test_read_point :
    after (run (monitored (start 0x20 [(0, 0x03000000)] [(0x03000000, 0xA), (0x03000004, 0xB)]) [0x03000000, 0x03000004] [])
        0xC803) (fun t => t.breakState == .readHit 0x03000004 .word 0xB) = true ∧
      after (run (monitored (start 0x20 [(1, 0x03008000)] []) [0x03000000] []) 0x6808) (·.breakState == .none) = true := by
  decide

theorem test_signed_read_records_the_unsigned_value :
    after (run (monitored (start 0x20 [(1, 0x03000000)] [(0x03000000, 0x80)]) [0x03000000] []) 0x5688)
      (·.breakState == .readHit 0x03000000 .byte 0x80) = true := by decide

theorem test_watch_point :
    after (run (monitored (start 0x0 [(1, 0x33), (2, 0x03000000)] [(0x03000000, 0x22)]) [0x03000000] [0x03000000]) 0xE1020091)
      (·.breakState == .watchHit 0x03000000 .word 0x22 0x33) = true := by decide

/-- The base memory of rows D, with CNT and what CTRL held. -/
def dmaStart (regs : List (Reg × Word)) (countAndControl : Word) : State :=
  start 0x20 regs [(0x040000D4, 0x03000000), (0x040000D8, 0x03000100), (0x040000DC, countAndControl),
    (0x03000000, 0x44332211), (0x03000004, 0x88776655)]

theorem test_dma_copies_and_clears :
    after (run (dmaStart [(0, 0x80), (1, 0x040000DE)] 2) 0x8008) (fun t =>
        t.mem == (words (dmaStart [] 2) [(0x03000100, 0x44332211)]).mem && t.breakState == .none) = true ∧
      after (run (dmaStart [(0, 0x480), (1, 0x040000DE)] 2) 0x8008) (fun t =>
        t.mem == (words (dmaStart [] 0x04000002) [(0x03000100, 0x44332211), (0x03000104, 0x88776655)]).mem) = true := by
  decide

theorem test_dma_starts_only_by_the_enable_byte :
    after (run (dmaStart [(0, 0xFF), (1, 0x040000DF)] 0x00800002) 0x7008) (fun t =>
        t.mem == (dmaStart [] 0xFF800002).mem) = true ∧
      after (run (dmaStart [(0, 0x00800002), (1, 0x040000DC)] 0) 0x6008) (fun t =>
        t.mem == (words (dmaStart [] 2) [(0x03000100, 0x44332211)]).mem) = true := by decide

def faults (r : Result) (f : Fault) : Bool :=
  match r with
  | .fault g => g == f
  | _ => false

/-- Row H-2, H-3 and H-4: no advance; row H-5: the access of a missing region, after the advance. -/
theorem test_host_defects :
    faults (execute 0xE3A00001 false (start 0x20 [] [])) (.modeMismatch (start 0x20 [] [])) = true ∧
      faults (execute 0x00012001 true (start 0x20 [] [])) (.wideCompact (start 0x20 [] [])) = true ∧
      faults (execute 0x00012001 true (start 0 [] [])) (.modeMismatch (start 0 [] [])) = true ∧
      faults (run (start 0x20 [(1, 0x05000000)] []) 0x6808)
        (.regionShort (start 0x20 [(1, 0x05000000), (15, 0x08000004)] []) 5) = true := by decide

/-- Row H-7: the store is done, the clear never happens. -/
theorem test_copy_longer_than_region :
    (match run (words (dmaStart [(0, 0x80), (1, 0x040000DE)] 0x100) [(0x040000D8, 0)]) 0x8008 with
      | .fault (.copyTooLong t) => t.x 15 == 0x08000004 && t.byteAt 0x040000DE == 0x80
      | _ => false) = true := by decide

/-- r1 is the last word of region 4, whose next word lies in region 5 of length 0; SP is one word above the first word of region 3,
below which lies region 2 of length 0. -/
def edge : State := start 0x40000020 [(0, 0xAABBCCDD), (1, 0x04FFFFFC), (2, 0x04FFFFFC), (13, 0x03000004), (14, 0x11)]
  [(0x04FFFFFC, 0x01020304)]

/-- Rules R82 and R552: STMIA and PUSH stop at the second word with the first stored; no register is written. -/
theorem test_store_lists_stop_at_the_first_word_without_room :
    (match exec (.tStmia 1 0b011) edge with
      | .fault (.regionShort t r) => r == 5 && t.byteAt 0x04FFFFFC == 0xDD && t.byteAt 0x04FFFFFF == 0xAA && t.regs == edge.regs
      | _ => false) = true ∧
    (match exec (.tPush true 0b001) edge with
      | .fault (.regionShort t r) => r == 2 && t.byteAt 0x03000000 == 0x11 && t.regs == edge.regs
      | _ => false) = true := by decide

/-- Rules R82 and R552: LDMIA and POP with the PC stop at the second word with the first loaded; the base, SP and PC stay. -/
theorem test_load_lists_stop_at_the_first_word_without_room :
    faults (exec (.tLdmia 1 0b101) edge) (.regionShort (edge.setX 0 0x01020304) 5) = true ∧
      faults (exec (.tPop true 0b001) (edge.setX 13 0x04FFFFFC))
        (.regionShort ((edge.setX 13 0x04FFFFFC).setX 0 0x01020304) 5) = true := by decide

/-! ### The fetch (70_reset R584) -/

theorem test_step_runs_the_word_placed :
    after (step (State.reset.withFetchWord 32 0xE3A00001)) (fun t => t.x 0 == 1 && t.fetchAddr == 0x08000004) = true ∧
      after (step (State.reset.withFetchWord 16 0x2507)) (fun t => t.x 5 == 7 && t.x 15 == 0x08000006) = true := by decide

/-! ### Runs (70_reset R586) -/

/-- A run at STOP has ended before the instruction there; the next one ends after one step; a defect ends no run. -/
theorem test_run_ends_at_the_first_stop :
    (match Machine.run 0x08000004 3 (State.reset.withFetchWord 32 0xE3A00001) with
      | .ended t => t.x 0 == 1 && t.fetchAddr == 0x08000004
      | _ => false) = true ∧
    Machine.run 0x08000000 3 State.reset = .ended State.reset ∧
    (match Machine.run 0x08000004 3 (start 0x20 [(15, 0x05000002)] []) with
      | .defect (.regionShort _ r) => r == 5
      | _ => false) = true := by decide

/-- 0xE7FE branches to itself (43 R351), so its run is infinite. -/
theorem test_run_of_a_branch_to_itself_is_infinite :
    RunIsInfinite 0x08000004 (start 0x20 [] [(0x08000000, 0xE7FE)]) := by
  have hs : step (start 0x20 [] [(0x08000000, 0xE7FE)]) = .next (start 0x20 [] [(0x08000000, 0xE7FE)]) := by rfl
  intro n
  refine ⟨start 0x20 [] [(0x08000000, 0xE7FE)], ?_⟩
  induction n with
  | zero => exact run_zero (by decide)
  | succ n ih => rw [run_succ n (by decide) hs]; exact ih

/-! ## Witnesses: for every statement with hypotheses, a concrete state and operands that meet them together, at the ends of
the ranges of its clauses -/

theorem next_of_after {r : Result} {p : State → Bool} (h : after r p = true) : ∃ t, r = .next t := by
  cases r with
  | next t => exact ⟨t, rfl⟩
  | fault f => cases h
  | refused f => cases h

/-- A full-mode and a compact-mode state of region lengths 0x100, 0x8000, 0x400, 0x10000, with r1 pointing into region 3, r2
into region 4 at the enable byte, r3 into a region of length 0 and r4 two bytes below the end of region 0. -/
def full : State := start 0x40000000 [(0, 0x80), (1, 0x03000000), (2, 0x040000DE), (3, 0x05000000), (4, 0xFE)] []

def compact : State := start 0x40000020 [(0, 0x80), (1, 0x03000000), (2, 0x040000DE), (3, 0x05000000), (4, 0xFE),
  (13, 0x03007F00)] []

/-- The launch state with r0 = 0x80 and r1 at the DMA control register: every region is long enough for a copy. -/
def roomy : State := withRegs State.reset [(0, 0x80), (1, 0x040000DE)]

theorem roomy_is_roomy : roomy.Roomy := by unfold State.Roomy; decide

theorem fits_word : full.Fits 0x03007FFE .word := by unfold State.Fits; decide

theorem fits_not : ¬ full.Fits 0x05000000 .byte := by unfold State.Fits; decide

theorem compact_fits (a : Word) (h : regionIndex a = 3) (z : Size) : compact.Fits a z := by
  unfold State.Fits; rw [h]; cases z <;> decide

theorem full_fits (a : Word) (h : regionIndex a = 3) (z : Size) : full.Fits a z := by
  unfold State.Fits; rw [h]; cases z <;> decide

/-- The map of rows D-1 to D-12 (Len[3] = 0x8000, Len[4] = 0x400): r0 and r6 are values that start the DMA at r1 and r2, the
enable byte and CNT; SP is above CTRL. -/
def dmaMap : State := dmaStart [(0, 0x80), (1, 0x040000DE), (2, 0x040000DC), (6, 0x00800002), (13, 0x040000E0),
  (14, 0x00800002)] 2

/-- Row H-7: the copy is longer than its destination. -/
def dmaTooLong : State := words (dmaStart [(0, 0x80), (1, 0x040000DE), (2, 0x040000DC), (6, 0x00800100), (13, 0x040000E0),
  (14, 0x00800100)] 0x100) [(0x040000D8, 0)]

/-- The stores that start the DMA on that map have room, with the byte, the half-word and the word. -/
theorem dma_store_fits :
    dmaMap.StoreFits 0x040000DE .byte 0x80 ∧ dmaMap.StoreFits 0x040000DE .half 0x80 ∧
      dmaMap.StoreFits 0x040000DC .word 0x00800002 ∧ dmaMap.triggersDma 0x040000DE .byte 0x80 = true ∧
      dmaMap.triggersDma 0x040000DE .half 0x80 = true ∧ dmaMap.triggersDma 0x040000DC .word 0x00800002 = true := by
  have hw : dmaMap.mem.wf := by decide
  rw [storeFits_iff hw, storeFits_iff hw, storeFits_iff hw]
  unfold State.Fits State.DmaFits
  decide

/-- A DMA without room. -/
theorem dma_store_stops :
    dmaTooLong.Fits 0x040000DE .half ∧ ¬ dmaTooLong.StoreFits 0x040000DE .half 0x80 ∧
      dmaTooLong.Fits 0x040000DE .byte ∧ ¬ dmaTooLong.StoreFits 0x040000DE .byte 0x80 := by
  have hw : dmaTooLong.mem.wf := by decide
  rw [storeFits_iff hw, storeFits_iff hw]
  unfold State.Fits State.DmaFits
  decide

/-- A store that does not start the DMA and fits, one that wraps and fits. -/
theorem store_fits : full.StoreFits 0x03000000 .word 0x80 ∧ full.StoreFits 0xFE .word 0xAABBCCDD :=
  ⟨storeFits_of_noDma (by unfold State.Fits; decide) (by decide), storeFits_of_noDma (by unfold State.Fits; decide) (by decide)⟩

/-- A list of stores into region 3 fits in both modes. -/
theorem list_fits (s : State) (hs : s = full ∨ s = compact) (ps : List (Word × Word))
    (h : ps.all (fun p => regionIndex p.1 == 3) = true) : s.AllStoreFit ps := by
  have h3 : ∀ p ∈ ps, regionIndex p.1 = 3 := fun p hp => by simpa using List.all_eq_true.1 h p hp
  refine .of_noDma ps (fun p hp => ?_) fun p hp => ?_
  · rcases hs with rfl | rfl
    · exact full_fits _ (h3 p hp) _
    · exact compact_fits _ (h3 p hp) _
  · rw [State.triggersDma, h3 p hp]; rfl

/-- A list of stores that starts the DMA with its first word and goes on with one word. -/
theorem dma_list_fits (b v : Word) (hf : dmaMap.Fits b .word) (hd : dmaMap.triggersDma b .word v = false) :
    dmaMap.AllStoreFit [(0x040000DC, 0x00800002), (b, v)] := by
  refine .cons dma_store_fits.2.2.1 ?_ ?_ <;> simpa [State.NoDma]

/-- A list of stores whose second word lies in a region without room. -/
theorem list_stops {s : State} {p q : Word × Word} (ps : List (Word × Word)) (hw : s.mem.wf) (hp : s.Fits p.1 .word)
    (hd : s.triggersDma p.1 .word p.2 = false) (hq : ¬ s.Fits q.1 .word) : ¬ s.AllStoreFit (p :: q :: ps) := by
  intro h
  obtain ⟨u, hu⟩ := Machine.memWrite_ok hw (storeFits_of_noDma hp hd)
  obtain ⟨-, hs⟩ := Machine.stored_of_memWrite hw hu
  exact hq ((Machine.fits_of_len ((Machine.stored_frame hs).2.2.2 _)).1 (h.2 u hs).1.1)

/-- A list of stores whose first word starts a DMA without room. -/
theorem dma_list_stops (ps : List (Word × Word)) :
    dmaTooLong.Fits 0x040000DC .word ∧ ¬ dmaTooLong.AllStoreFit ((0x040000DC, 0x00800100) :: ps) := by
  have h : dmaTooLong.Fits 0x040000DC .word ∧ ¬ dmaTooLong.StoreFits 0x040000DC .word 0x00800100 := by
    rw [storeFits_iff (by decide)]
    unfold State.Fits State.DmaFits
    decide
  exact ⟨h.1, fun hall => h.2 hall.1⟩

theorem slots_fit (s : State) (hs : s = full ∨ s = compact) (ps : List (Reg × Word))
    (h : ps.all (fun p => regionIndex p.2 == 3) = true) : ∀ p ∈ ps, s.Fits p.2 .word := by
  intro p hp
  have h3 : regionIndex p.2 = 3 := by simpa using List.all_eq_true.1 h p hp
  rcases hs with rfl | rfl
  · exact full_fits _ h3 _
  · exact compact_fits _ h3 _

theorem slots_stop {s : State} {ps : List (Reg × Word)} (p : Reg × Word) (hp : p ∈ ps) (h : ¬ s.Fits p.2 .word) :
    ¬ ∀ p ∈ ps, s.Fits p.2 .word := fun hall => h (hall p hp)

theorem witness_StepKeepsTheInvariant :
    (∃ t, (State.reset.withFetchWord 32 0xE3A00001).Inv ∧ step (State.reset.withFetchWord 32 0xE3A00001) = .next t) ∧
      (∃ t, compact.Inv ∧ step compact = .next t) := by
  refine ⟨?_, ?_⟩
  · obtain ⟨t, ht⟩ := next_of_after (p := fun _ => true) (r := step (State.reset.withFetchWord 32 0xE3A00001)) (by decide)
    exact ⟨t, ⟨by decide, by unfold State.PcAligned; decide⟩, ht⟩
  · obtain ⟨t, ht⟩ := next_of_after (p := fun _ => true) (r := step compact) (by decide)
    exact ⟨t, ⟨by decide, by unfold State.PcAligned; decide⟩, ht⟩

theorem witness_StepKeepsLengthsAndHostParameters : ∃ t, step full = .next t :=
  next_of_after (p := fun _ => true) (by decide)

theorem witness_StepRunsTheDecodedInstruction :
    (full.Fits full.fetchAddr full.fetchSize ∧ decodeBytes full.flagT
      ((List.range full.fetchSize.bytes).map (full.spanByte full.fetchAddr)) = .ok (.aAndShImm .eq false 0 0 0 .lsl 0, [])) ∧
    (compact.Fits compact.fetchAddr compact.fetchSize ∧ decodeBytes compact.flagT
      ((List.range compact.fetchSize.bytes).map (compact.spanByte compact.fetchAddr)) = .ok (.tLslImm 0 0 0, [])) ∧
    (let s := start 0 [(15, 0x05000004)] []; ¬ s.Fits s.fetchAddr s.fetchSize) := by
  unfold State.Fits; decide

theorem witness_DecodeOfEncodeIsTheInstruction :
    (Instr.tBCond .nv (-256)).wellFormed = true ∧ (Instr.tBlFirst 4190208).wellFormed = true ∧
      (Instr.aB .nv 33554428).wellFormed = true ∧ (Instr.tLdrPc 7 1020).wellFormed = true ∧
      (Instr.aStrh .al true true true 15 15 (.imm 255)).wellFormed = true := by decide

theorem witness_OpcodeTableRowsPartitionTheWords :
    (decodeCompact 0x0000).tableRow = 0 ∧ (decodeCompact 0xFFFF).tableRow = 66 ∧ (decodeFull 0x00000090).tableRow = 0 ∧
      (decodeFull 0xFFFFFFFF).tableRow = 124 := by decide

theorem witness_ShouldBeFieldsAreNeverTested :
    ((0xE12FFF10 : Word) ^^^ 0xE1200010) &&& ~~~(decodeFull 0xE12FFF10).unread = 0 ∧
      ((0x4700 : BitVec 16) ^^^ 0x4707) &&& 0xFFF8 = 0 ∧ 0x4700 ≤ (0x4700 : BitVec 16).toNat ∧
      ((0x47FF : BitVec 16) ^^^ 0x47F8) &&& 0xFFF8 = 0 ∧ (0x47FF : BitVec 16).toNat < 0x4800 := by decide

theorem witness_NvWordsAreNeverDispatched :
    full.flagT = false ∧ 0xF0000000 ≤ (0xF0000000 : Word).toNat ∧ 0xF0000000 ≤ (0xFFFFFFFF : Word).toNat := by decide

theorem witness_FailedConditionOnlyAdvances :
    (Instr.aB .ne 0).gate = some .ne ∧ full.passes .ne = false ∧ full.flagT = false ∧
      full.passes (Cond.ofCode (bits (0x1A000000 : Word) 28 4)) = false := by decide

theorem witness_ConditionTableHolds : bits full.psr 28 4 = bits compact.psr 28 4 ∧ full.psr ≠ compact.psr := by decide

theorem witness_shifter_and_counts :
    (shift 0x80000001 1 .lsl false).2 = true ∧ (shift 0x80000001 32 .lsr false).2 = true ∧
      (shift 0x80000001 33 .lsl false).2 = true ∧ (shift 0x80000001 32 .ror false).2 = true ∧ (0 : BitVec 4) ≠ 15 ∧
      countLeadingZeros 1 = 31 ∧ countLeadingZeros 0x80000000 = 0 := by decide

/-- The statements whose only hypothesis is a condition that passes (BranchExchange, FullBranches, DataProcessingLogical,
DataProcessingArithmetic, DataProcessingCompares, StatusRegisterTransfers, CountLeadingZerosInstruction, MultipliesOf32Bits,
MultipliesOf64Bits, HalfWordMultiplies), and CompactBranches in both cases. -/
theorem witness_of_a_condition :
    full.passes .al = true ∧ full.passes .eq = true ∧ compact.passes .eq = true ∧ compact.passes .ne = false := by decide

theorem witness_BranchLinkPair : compact.flagT = true := by decide

theorem witness_CompactLoads : compact.Fits (compact.x 1 + 4) .word ∧ ¬ compact.Fits (compact.x 3) .byte := by
  unfold State.Fits; decide

theorem witness_CompactStores :
    compact.mem.wf ∧ compact.StoreFits (compact.x 1) .word (compact.x 0) ∧ dmaMap.mem.wf ∧
      dmaMap.StoreFits (dmaMap.x 1) .half (dmaMap.x 0) ∧ dmaMap.triggersDma (dmaMap.x 1) .half (dmaMap.x 0) = true ∧
      ¬ compact.Fits (compact.x 3) .word ∧ dmaTooLong.mem.wf ∧ dmaTooLong.Fits (dmaTooLong.x 1) .half ∧
      ¬ dmaTooLong.StoreFits (dmaTooLong.x 1) .half (dmaTooLong.x 0) :=
  ⟨by decide, storeFits_of_noDma (compact_fits _ (by decide) _) (by decide), by decide, dma_store_fits.2.1, by decide,
    by unfold State.Fits; decide, by decide, dma_store_stops.1, dma_store_stops.2.1⟩

/-- Eight registers and LR, r0 and LR with a DMA that LR starts, r0 and LR without room for r0, and a DMA without room. -/
theorem witness_PushStoresDescending :
    (dmaMap.mem.wf ∧ dmaMap.AllStoreFit ([(dmaMap.x 13 - 4, dmaMap.x 14)] ++
      dmaMap.storeList false (listSlots (1 : BitVec 8) (dmaMap.x 13 - 4 - listBytes (1 : BitVec 8))))) ∧
    compact.mem.wf ∧ compact.AllStoreFit ([(compact.x 13 - 4, compact.x 14)] ++
      compact.storeList false (listSlots (0xFF : BitVec 8) (compact.x 13 - 4 - listBytes (0xFF : BitVec 8)))) ∧
    edge.mem.wf ∧ ¬ edge.AllStoreFit ([(edge.x 13 - 4, edge.x 14)] ++
      edge.storeList false (listSlots (1 : BitVec 8) (edge.x 13 - 4 - listBytes (1 : BitVec 8)))) ∧
    dmaTooLong.mem.wf ∧ ¬ dmaTooLong.AllStoreFit ([(dmaTooLong.x 13 - 4, dmaTooLong.x 14)] ++
      dmaTooLong.storeList false (listSlots (1 : BitVec 8) (dmaTooLong.x 13 - 4 - listBytes (1 : BitVec 8)))) :=
  ⟨⟨by decide, dma_list_fits 0x040000D8 0x80 (by unfold State.Fits; decide) (by decide)⟩, by decide,
    list_fits _ (.inr rfl) _ (by decide), by decide,
    list_stops (p := (0x03000000, 0x11)) (q := (0x02FFFFFC, 0xAABBCCDD)) [] (by decide) (by unfold State.Fits; decide)
      (by decide) (by unfold State.Fits; decide), by decide, (dma_list_stops _).2⟩

/-- All nine registers; no room for r1; no room for the PC alone. -/
theorem witness_PopLoadsAscending :
    (∀ p ∈ listSlots (0xFF : BitVec 8) (compact.x 13) ++ [(Reg.pc, compact.x 13 + listBytes (0xFF : BitVec 8))],
      compact.Fits p.2 .word) ∧
    (let s := edge.setX 13 0x04FFFFFC; ¬ (∀ p ∈ listSlots (3 : BitVec 8) (s.x 13) ++ [], s.Fits p.2 .word) ∧
      ¬ ∀ p ∈ listSlots (1 : BitVec 8) (s.x 13) ++ [(Reg.pc, s.x 13 + listBytes (1 : BitVec 8))], s.Fits p.2 .word) :=
  ⟨slots_fit _ (.inr rfl) _ (by decide), slots_stop (1, 0x05000000) (by decide) (by unfold State.Fits; decide),
    slots_stop (Reg.pc, 0x05000000) (by decide) (by unfold State.Fits; decide)⟩

theorem witness_CompactStoreMultiple :
    compact.mem.wf ∧ compact.AllStoreFit (compact.storeList true (listSlots (0x83 : BitVec 8) (compact.x 1))) ∧
      dmaMap.mem.wf ∧ dmaMap.AllStoreFit (dmaMap.storeList true (listSlots (0xC0 : BitVec 8) (dmaMap.x 2))) ∧
      edge.mem.wf ∧ ¬ edge.AllStoreFit (edge.storeList true (listSlots (3 : BitVec 8) (edge.x 1))) ∧
      dmaTooLong.mem.wf ∧ ¬ dmaTooLong.AllStoreFit (dmaTooLong.storeList true (listSlots (0xC0 : BitVec 8) (dmaTooLong.x 2))) :=
  ⟨by decide, list_fits _ (.inr rfl) _ (by decide), by decide,
    dma_list_fits 0x040000E0 0 (by unfold State.Fits; decide) (by decide), by decide,
    list_stops (p := (0x04FFFFFC, 0xAABBCCDD)) (q := (0x05000000, 0x04FFFFFC)) [] (by decide) (by unfold State.Fits; decide)
      (by decide) (by unfold State.Fits; decide), by decide, (dma_list_stops _).2⟩

/-- LDMIA with the base listed and with the base not listed, and without room for the second word. -/
theorem witness_CompactLoadMultiple :
    (∀ p ∈ listSlots (0x82 : BitVec 8) (compact.x 1), compact.Fits p.2 .word) ∧ (0x82 : BitVec 8).getLsbD 1 = true ∧
      (0x81 : BitVec 8).getLsbD 1 = false ∧ ¬ ∀ p ∈ listSlots (5 : BitVec 8) (edge.x 1), edge.Fits p.2 .word :=
  ⟨slots_fit _ (.inr rfl) _ (by decide), by decide, by decide,
    slots_stop (2, 0x05000000) (by decide) (by unfold State.Fits; decide)⟩

theorem witness_FullLoads_and_FullStores :
    full.passes .al = true ∧ full.mem.wf ∧ full.Fits (full.accessed true true 1 4) .word ∧
      full.Fits (full.accessed false true 1 4) .byte ∧ full.StoreFits (full.accessed true true 1 4) .word (full.x 0) ∧
      full.StoreFits (full.accessed false false 1 4) .half (full.x 0) ∧ ¬ full.Fits (full.accessed true true 3 4) .half ∧
      dmaMap.passes .al = true ∧ dmaMap.mem.wf ∧ dmaMap.StoreFits (dmaMap.accessed false true 1 2) .half (dmaMap.x 0) ∧
      dmaMap.triggersDma (dmaMap.accessed false true 1 2) .half (dmaMap.x 0) = true ∧ dmaTooLong.passes .al = true ∧
      dmaTooLong.mem.wf ∧ dmaTooLong.Fits (dmaTooLong.accessed false true 1 2) .half ∧
      ¬ dmaTooLong.StoreFits (dmaTooLong.accessed false true 1 2) .half (dmaTooLong.x 0) :=
  ⟨by decide, by decide, full_fits _ (by decide) _, full_fits _ (by decide) _,
    storeFits_of_noDma (full_fits _ (by decide) _) (by decide), storeFits_of_noDma (full_fits _ (by decide) _) (by decide),
    by unfold State.Fits; decide, by decide, by decide, dma_store_fits.2.1, by decide, by decide, by decide,
    dma_store_stops.1, dma_store_stops.2.1⟩

theorem witness_SwapReadsThenWrites :
    full.passes .al = true ∧ full.mem.wf ∧
      (Size.byte, Instr.aSwpb .al 1 0 0) ∈ [(Size.word, Instr.aSwp .al 1 0 0), (Size.byte, Instr.aSwpb .al 1 0 0)] ∧
      full.StoreFits (full.x 1) .byte (full.x 0) ∧ ¬ full.Fits (full.x 3) .byte ∧ dmaMap.passes .al = true ∧
      dmaMap.mem.wf ∧ dmaMap.StoreFits (dmaMap.x 1) .byte (dmaMap.x 0) ∧
      dmaMap.triggersDma (dmaMap.x 1) .byte (dmaMap.x 0) = true ∧ dmaTooLong.passes .al = true ∧ dmaTooLong.mem.wf ∧
      dmaTooLong.Fits (dmaTooLong.x 1) .byte ∧ ¬ dmaTooLong.StoreFits (dmaTooLong.x 1) .byte (dmaTooLong.x 0) :=
  ⟨by decide, by decide, by decide, storeFits_of_noDma (full_fits _ (by decide) _) (by decide),
    by unfold State.Fits; decide, by decide, by decide, dma_store_fits.1, by decide, by decide, by decide,
    dma_store_stops.2.2⟩

theorem witness_BlockStores :
    full.passes .al = true ∧ full.mem.wf ∧
      full.AllStoreFit (full.storeList false (listSlots (0x8003 : BitVec 16) (blockLow true false (full.x 1 + 64) 0x8003))) ∧
      full.AllStoreFit (full.storeList true (listSlots (0xFFFF : BitVec 16) (blockLow false true (full.x 1) 0xFFFF))) ∧
      dmaMap.passes .al = true ∧ dmaMap.mem.wf ∧
      dmaMap.AllStoreFit (dmaMap.storeList true (listSlots (0x00C0 : BitVec 16) (blockLow false true (dmaMap.x 2) 0x00C0))) ∧
      edge.passes .al = true ∧ edge.mem.wf ∧
      ¬ edge.AllStoreFit (edge.storeList true (listSlots (0x0003 : BitVec 16) (blockLow false true (edge.x 1) 0x0003))) ∧
      ¬ edge.AllStoreFit (edge.storeList false (listSlots (0x4001 : BitVec 16) (blockLow true false (edge.x 13) 0x4001))) ∧
      dmaTooLong.passes .al = true ∧ dmaTooLong.mem.wf ∧ ¬ dmaTooLong.AllStoreFit
        (dmaTooLong.storeList true (listSlots (0x00C0 : BitVec 16) (blockLow false true (dmaTooLong.x 2) 0x00C0))) :=
  ⟨by decide, by decide, list_fits _ (.inl rfl) _ (by decide), list_fits _ (.inl rfl) _ (by decide), by decide, by decide,
    dma_list_fits 0x040000E0 0 (by unfold State.Fits; decide) (by decide), by decide, by decide,
    list_stops (p := (0x04FFFFFC, 0xAABBCCDD)) (q := (0x05000000, 0x04FFFFFC)) [] (by decide) (by unfold State.Fits; decide)
      (by decide) (by unfold State.Fits; decide),
    list_stops (p := (0x03000000, 0x11)) (q := (0x02FFFFFC, 0xAABBCCDD)) [] (by decide) (by unfold State.Fits; decide)
      (by decide) (by unfold State.Fits; decide), by decide, by decide, (dma_list_stops _).2⟩

/-- With the base listed, with it not listed, with register 15 listed; without room upwards and downwards. -/
theorem witness_BlockLoads :
    full.passes .al = true ∧
      (∀ p ∈ listSlots (0x8003 : BitVec 16) (blockLow false true (full.x 1) 0x8003), full.Fits p.2 .word) ∧
      (∀ p ∈ listSlots (0x0001 : BitVec 16) (blockLow true true (full.x 1) 0x0001), full.Fits p.2 .word) ∧
      (0x8003 : BitVec 16).getLsbD 1 = true ∧ (0x0001 : BitVec 16).getLsbD 1 = false ∧ edge.passes .al = true ∧
      (¬ ∀ p ∈ listSlots (0x0003 : BitVec 16) (blockLow false true (edge.x 1) 0x0003), edge.Fits p.2 .word) ∧
      ¬ ∀ p ∈ listSlots (0x8001 : BitVec 16) (blockLow true false (edge.x 13) 0x8001), edge.Fits p.2 .word :=
  ⟨by decide, slots_fit _ (.inl rfl) _ (by decide), slots_fit _ (.inl rfl) _ (by decide), by decide, by decide, by decide,
    slots_stop (1, 0x05000000) (by decide) (by unfold State.Fits; decide),
    slots_stop (0, 0x02FFFFFC) (by decide) (by unfold State.Fits; decide)⟩

theorem witness_UndefinedEncodingsDoNothing :
    compact.flagT = true ∧ Instr.tUndef12a ∈ [Instr.tUndef12a, .aUndefCop .al] ∧ 0xB100 ≤ (0xB100 : Word).toNat ∧
      (0xB3FF : Word).toNat ≤ 0xB3FF ∧ 0xE800 ≤ (0xE800 : Word).toNat ∧ (0xEFFF : Word).toNat ≤ 0xEFFF ∧
      decodeValue compact.flagT 0xB100 = .ok .tUndef12a ∧ decodeValue full.flagT 0xEF000000 = .ok (.aUndefCop .al) := by
  decide

theorem witness_ModeAndWidthDefects :
    true ≠ full.flagT ∧ false ≠ compact.flagT ∧ compact.flagT = true ∧ 0x10000 ≤ (0x10000 : Word).toNat ∧
      true = compact.flagT ∧ (0xFFFF : Word).toNat < 0x10000 ∧ false = full.flagT := by decide

theorem witness_ShortRegionDefect :
    (full.region (regionIndex (full.x 3))).len < Size.byte.bytes ∧ (0x101 : Nat) ≠ 0 ∧
      (full.region (regionIndex 0)).len < 0x101 := by decide

/-- A store that does not start the DMA, and the three that wrap at the end of region 0. -/
theorem witness_ReadBackAfterWrite :
    full.mem.wf ∧ full.triggersDma 0xFE .word 0xAABBCCDD = false ∧
      (∃ t, full.memWrite 0xFE .word 0xAABBCCDD = .ok t) ∧
      full.offset 0xFD = (full.region (regionIndex 0xFD)).len - 4 + 1 ∧
      full.offset 0xFE = (full.region (regionIndex 0xFE)).len - 4 + 2 ∧
      full.offset 0xFF = (full.region (regionIndex 0xFF)).len - 4 + 3 :=
  ⟨by decide, by decide, Machine.memWrite_ok (by decide) store_fits.2, by decide, by decide, by decide⟩

/-- An overlapping copy of a whole region's length, and one byte more. -/
theorem witness_CopyReadsBeforeItWrites :
    full.mem.wf ∧ 0x100 ≤ (full.region (regionIndex 0x00)).len ∧ 0x100 ≤ (full.region (regionIndex 0x02)).len ∧
      (0x101 : Nat) ≠ 0 ∧ (full.region (regionIndex 0x02)).len < 0x101 := by decide

/-- A copy of nothing; a copy of two half-words outside the enable byte; one whose last byte but one is the enable byte; one longer
than its destination; a region 4 too short. -/
theorem witness_DmaTransferCopiesThenClears :
    let s := dmaStart [] 0x00800002
    (full.mem.wf ∧ 4 ≤ (full.region 4).len ∧ (full.valueAt 0x040000DC .half).toNat = 0) ∧
    s.mem.wf ∧ 4 ≤ (s.region 4).len ∧ (s.valueAt 0x040000DC .half).toNat = 2 ∧
      (s.valueAt 0x040000DE .half).getLsbD s.host.dmaWidthBit.val = false ∧
      4 ≤ (s.region (regionIndex (s.valueAt 0x040000D4 .word))).len ∧
      4 ≤ (s.region (regionIndex (s.valueAt 0x040000D8 .word))).len ∧
      s.covers 0x040000DE 1 0x03000100 = false ∧ s.covers 0x03000100 4 0x040000DE = false ∧
    (let u := words s [(0x040000D8, 0x040000DC)];
      2 < 4 ∧ regionIndex 0x040000DE = regionIndex (u.valueAt 0x040000D8 .word) ∧ u.mem.wf ∧
        u.offset 0x040000DE = (u.offset (u.valueAt 0x040000D8 .word) + 2) % (u.region 4).len ∧ 4 ≤ (u.region 4).len) ∧
    (let u := words (dmaStart [] 0x100) [(0x040000D8, 0)];
      u.mem.wf ∧ 4 ≤ (u.region 4).len ∧ (u.valueAt 0x040000DC .half).toNat = 0x100 ∧
        (u.region (regionIndex (u.valueAt 0x040000D8 .word))).len < 0x200) ∧
    (let u := full.setRegion 4 ⟨3, []⟩;
      u.mem.wf ∧ (u.region 4).len < 4) := by decide

theorem witness_MonitorsChangeOnlyTheMonitorOutput :
    full.SameButMonitors (monitored full [0x03000000] [0x03000000]) ∧ (∃ t, step full = .next t) ∧
      (let s := start 0 [(15, 0x05000004)] []; s.SameButMonitors (monitored s [1] []) ∧ ∃ f, step s = .fault f) := by
  refine ⟨⟨rfl, rfl, rfl, rfl, rfl⟩, next_of_after (p := fun _ => true) (by decide), ⟨rfl, rfl, rfl, rfl, rfl⟩, _, rfl⟩

theorem witness_OnlyTheirInstructionsWritePsrAndMemory :
    (∃ t, exec (.tLdrPc 0 0) roomy = .next t) ∧ (Instr.tLdrPc 0 0).writesFlags = false ∧
      (Instr.tLdrPc 0 0).writesMode = false ∧ (Instr.tLdrPc 0 0).writesPsrStorage = false ∧
      (Instr.tLdrPc 0 0).writesMemory = false := by
  refine ⟨next_of_after (p := fun _ => true) (by decide), ?_⟩; decide

theorem witness_RoomyMachineNeverStops :
    roomy.Roomy ∧ RunMeetsDefect 0x08000004 (start 0 [(15, 0x05000004)] []) (.regionShort (start 0 [(15, 0x05000004)] []) 5) :=
  ⟨roomy_is_roomy, 1, by decide⟩

end Sys2Proof.Tests
end

section
/-! SUPPORT. The layout of a machine is what no instruction changes: the host's parameters, the lengths of the regions, and
that the memory is in its canonical form (00_scope R10, 10_state R51, 20_memory R81). Each shared operation of the meanings
keeps it, so each arm of `exec` does, and so does a step. -/

namespace Sys2Proof.Machine

/-! ## The relation -/

/-- The host's parameters and the lengths of the regions are as they were, and the memory is in its canonical form if it was. -/
structure State.KeepsLayout (s t : State) : Prop where
  host : t.host = s.host
  lengths : s.KeepsLengths t
  wf : s.mem.wf → t.mem.wf

theorem State.KeepsLayout.trans {s t u : State} (h : s.KeepsLayout t) (h' : t.KeepsLayout u) : s.KeepsLayout u :=
  ⟨h'.host.trans h.host, fun r => (h'.lengths r).trans (h.lengths r), fun w => h'.wf (h.wf w)⟩

theorem keepsLayout_of_mem {s t : State} (hm : t.mem = s.mem) (hh : t.host = s.host) : s.KeepsLayout t :=
  ⟨hh, fun r => by rw [region_congr hm], fun w => by rw [hm]; exact w⟩

theorem State.KeepsLayout.refl (s : State) : s.KeepsLayout s := keepsLayout_of_mem rfl rfl

/-- A next state keeps the layout of `s`; a stop leaves nothing to keep. -/
def State.LayoutKeptBy (s : State) (out : Result) : Prop := ∀ t, out = .next t → s.KeepsLayout t

theorem State.LayoutKeptBy.next {s t : State} (h : s.KeepsLayout t) : s.LayoutKeptBy (.next t) := by
  rintro _ ⟨⟩; exact h

theorem State.LayoutKeptBy.outcome {s : State} {e : Except Fault State} (h : ∀ {t}, e = .ok t → s.KeepsLayout t) :
    s.LayoutKeptBy (outcome e) := by
  rintro t ht
  cases e with
  | ok u => cases ht; exact h rfl
  | error f => cases ht

theorem State.LayoutKeptBy.whenPassed {s : State} {c : Cond} {out : Result} (h : s.LayoutKeptBy out) :
    s.LayoutKeptBy (whenPassed c s out) := by
  unfold Machine.whenPassed
  split
  · exact h
  · exact .next (.refl s)

/-! ## Writes of registers and PSR -/

theorem setX_keepsLayout (s : State) (r : Reg) (v : Word) : s.KeepsLayout (s.setX r v) := keepsLayout_of_mem rfl rfl

theorem writePc_keepsLayout (s : State) (t : Word) : s.KeepsLayout (s.writePc t) :=
  keepsLayout_of_mem (writePc_mem s t) (writePc_host s t)

theorem writeReg_keepsLayout (s : State) (r : Reg) (v : Word) : s.KeepsLayout (s.writeReg r v) :=
  keepsLayout_of_mem (writeReg_mem s r v) (writeReg_host s r v)

theorem writeBack_keepsLayout (s : State) (m : Address) (rn : Reg) : s.KeepsLayout (s.writeBack m rn) :=
  keepsLayout_of_mem (writeBack_mem s m rn) (writeBack_host s m rn)

theorem setNZ_keepsLayout (s : State) (r : Word) : s.KeepsLayout (s.setNZ r) := keepsLayout_of_mem rfl rfl

theorem setNZC_keepsLayout (s : State) (r : Word) (c : Bool) : s.KeepsLayout (s.setNZC r c) := keepsLayout_of_mem rfl rfl

theorem setNZCV_keepsLayout (s : State) (r : AddResult) : s.KeepsLayout (s.setNZCV r) := keepsLayout_of_mem rfl rfl

theorem setMulNZ32_keepsLayout (s : State) (r : Word) : s.KeepsLayout (s.setMulNZ32 r) := keepsLayout_of_mem rfl rfl

theorem setMulNZ64_keepsLayout (s : State) (hi lo : Word) : s.KeepsLayout (s.setMulNZ64 hi lo) := keepsLayout_of_mem rfl rfl

theorem writePsr_keepsLayout (s : State) (mask : BitVec 4) (v : Word) : s.KeepsLayout (s.writePsr mask v) :=
  keepsLayout_of_mem rfl rfl

theorem setT_keepsLayout (s : State) (b : Bool) : s.KeepsLayout (s.setT b) := keepsLayout_of_mem rfl rfl

theorem begin_keepsLayout (s : State) : s.KeepsLayout s.begin := keepsLayout_of_mem (begin_mem s) (begin_host s)

/-- The S bit: a flag update that keeps the layout may be made or left out. -/
theorem ite_keepsLayout {s t : State} (sf : Bool) (h : s.KeepsLayout t) : s.KeepsLayout (if sf then t else s) := by
  cases sf
  · exact .refl s
  · exact h

/-! ## The shared forms of the compact and the full operations -/

theorem shiftLow_keepsLayout (s : State) (rd : LowReg) (r : Word × Bool) : s.KeepsLayout (s.shiftLow rd r) :=
  (setX_keepsLayout s _ _).trans (setNZC_keepsLayout _ _ _)

theorem addLow_keepsLayout (s : State) (rd : LowReg) (r : AddResult) : s.KeepsLayout (s.addLow rd r) :=
  (setX_keepsLayout s _ _).trans (setNZCV_keepsLayout _ _)

theorem logicLow_keepsLayout (s : State) (rd : LowReg) (r : Word) : s.KeepsLayout (s.logicLow rd r) :=
  (setX_keepsLayout s _ _).trans (setNZ_keepsLayout _ _)

theorem branchExchange_keepsLayout (s : State) (t : Word) : s.KeepsLayout (s.branchExchange t) :=
  (setT_keepsLayout s _).trans (writePc_keepsLayout _ _)

theorem logic_keepsLayout (s : State) (sf : Bool) (rd : Reg) (r : Word) (sc : Bool) : s.KeepsLayout (s.logic sf rd r sc) :=
  (ite_keepsLayout sf (setNZC_keepsLayout s _ _)).trans (writeReg_keepsLayout _ _ _)

theorem arith_keepsLayout (s : State) (sf : Bool) (rd : Reg) (r : AddResult) : s.KeepsLayout (s.arith sf rd r) :=
  (ite_keepsLayout sf (setNZCV_keepsLayout s _)).trans (writeReg_keepsLayout _ _ _)

theorem product_keepsLayout (s : State) (sf : Bool) (rd : Reg) (r : Word) : s.KeepsLayout (s.product sf rd r) :=
  (ite_keepsLayout sf (setMulNZ32_keepsLayout s _)).trans (writeReg_keepsLayout _ _ _)

theorem writeLong_keepsLayout (s : State) (rdHi rdLo : Reg) (p : BitVec 64) : s.KeepsLayout (s.writeLong rdHi rdLo p) :=
  (writeReg_keepsLayout s _ _).trans (writeReg_keepsLayout _ _ _)

theorem longProduct_keepsLayout (s : State) (sf : Bool) (rdHi rdLo : Reg) (p : BitVec 64) :
    s.KeepsLayout (s.longProduct sf rdHi rdLo p) :=
  (ite_keepsLayout sf (setMulNZ64_keepsLayout s _ _)).trans (writeLong_keepsLayout _ _ _ _)

/-! ## Single accesses -/

/-- A computation that completes has completed its first part. -/
theorem exists_of_bind_eq_ok {α β : Type} {e : Except Fault α} {f : α → Except Fault β} {b : β} (h : e >>= f = .ok b) :
    ∃ a, e = .ok a ∧ f a = .ok b := by
  cases e with
  | ok a => exact ⟨a, rfl, h⟩
  | error _ => cases h

theorem memRead_keepsLayout {s t : State} {a v : Word} {z : Size} (h : s.memRead a z = .ok (v, t)) : s.KeepsLayout t := by
  by_cases hf : s.Fits a z
  · rw [memRead_eq hf] at h; cases h
    exact keepsLayout_of_mem (noteRead_mem ..) (noteRead_host ..)
  · rw [memRead_short hf] at h; cases h

theorem memReadS_keepsLayout {s t : State} {a v : Word} {z : Size} (h : s.memReadS a z = .ok (v, t)) : s.KeepsLayout t := by
  by_cases hf : s.Fits a z
  · rw [memReadS_eq hf] at h; cases h
    exact keepsLayout_of_mem (noteRead_mem ..) (noteRead_host ..)
  · rw [memReadS_short hf] at h; cases h

/-- A store keeps the layout, with the DMA it may start (20_memory R90, R103). -/
theorem memWrite_keepsLayout {s t : State} {a v : Word} {z : Size} (h : s.memWrite a z v = .ok t) : s.KeepsLayout t := by
  obtain ⟨-, -, hh, hl, hw⟩ := memWrite_frame h
  exact ⟨hh, hl, hw⟩

theorem load_keepsLayout {s t : State} {m : Address} {rn rd : Reg} {z : Size} (h : s.load m rn rd z = .ok t) :
    s.KeepsLayout t := by
  obtain ⟨⟨v, u⟩, hu, ⟨⟩⟩ := exists_of_bind_eq_ok h
  exact (memRead_keepsLayout hu).trans ((writeBack_keepsLayout _ _ _).trans (writeReg_keepsLayout _ _ _))

theorem loadSigned_keepsLayout {s t : State} {m : Address} {rn rd : Reg} {z : Size} (h : s.loadSigned m rn rd z = .ok t) :
    s.KeepsLayout t := by
  obtain ⟨⟨v, u⟩, hu, ⟨⟩⟩ := exists_of_bind_eq_ok h
  exact (memReadS_keepsLayout hu).trans ((writeBack_keepsLayout _ _ _).trans (writeReg_keepsLayout _ _ _))

theorem store_keepsLayout {s t : State} {m : Address} {rn rd : Reg} {z : Size} (h : s.store m rn rd z = .ok t) :
    s.KeepsLayout t := by
  obtain ⟨u, hu, ⟨⟩⟩ := exists_of_bind_eq_ok h
  exact (memWrite_keepsLayout hu).trans (writeBack_keepsLayout _ _ _)

theorem loadLow_keepsLayout {s t : State} {a : Word} {z : Size} {rd : LowReg} (h : s.loadLow a z rd = .ok t) :
    s.KeepsLayout t := by
  obtain ⟨⟨v, u⟩, hu, ⟨⟩⟩ := exists_of_bind_eq_ok h
  exact (memRead_keepsLayout hu).trans (setX_keepsLayout _ _ _)

theorem loadLowSigned_keepsLayout {s t : State} {a : Word} {z : Size} {rd : LowReg} (h : s.loadLowSigned a z rd = .ok t) :
    s.KeepsLayout t := by
  obtain ⟨⟨v, u⟩, hu, ⟨⟩⟩ := exists_of_bind_eq_ok h
  exact (memReadS_keepsLayout hu).trans (setX_keepsLayout _ _ _)

theorem swap_keepsLayout {s t : State} {rn rd rm : Reg} {z : Size} (h : s.swap rn rd rm z = .ok t) : s.KeepsLayout t := by
  obtain ⟨⟨v, u⟩, hu, h⟩ := exists_of_bind_eq_ok h
  obtain ⟨w, hw, ⟨⟩⟩ := exists_of_bind_eq_ok h
  exact (memRead_keepsLayout hu).trans ((memWrite_keepsLayout hw).trans (writeReg_keepsLayout _ _ _))

/-! ## Lists of accesses -/

theorem storeMany_keepsLayout {pre up : Bool} (rs : List Reg) : ∀ {s t : State} {a b : Word},
    s.storeMany pre up rs a = .ok (b, t) → s.KeepsLayout t := by
  induction rs with
  | nil => rintro s t a b ⟨⟩; exact .refl s
  | cons r rs ih =>
    intro s t a b h
    obtain ⟨u, hu, hrest⟩ := exists_of_bind_eq_ok h
    exact (memWrite_keepsLayout hu).trans (ih hrest)

theorem loadMany_keepsLayout {pre up : Bool} (rs : List Reg) : ∀ {s t : State} {a b : Word},
    s.loadMany pre up rs a = .ok (b, t) → s.KeepsLayout t := by
  induction rs with
  | nil => rintro s t a b ⟨⟩; exact .refl s
  | cons r rs ih =>
    intro s t a b h
    obtain ⟨⟨v, u⟩, hu, hrest⟩ := exists_of_bind_eq_ok h
    exact (memRead_keepsLayout hu).trans ((writeReg_keepsLayout _ _ _).trans (ih hrest))

theorem storeBlock_keepsLayout {s t : State} {pre up w : Bool} {rn : Reg} {rlist : BitVec 16}
    (h : s.storeBlock pre up w rn rlist = .ok t) : s.KeepsLayout t := by
  obtain ⟨⟨a, u⟩, hu, ⟨⟩⟩ := exists_of_bind_eq_ok h
  exact (storeMany_keepsLayout _ hu).trans (ite_keepsLayout w (writeReg_keepsLayout _ _ _))

theorem loadBlock_keepsLayout {s t : State} {pre up w : Bool} {rn : Reg} {rlist : BitVec 16}
    (h : s.loadBlock pre up w rn rlist = .ok t) : s.KeepsLayout t := by
  obtain ⟨⟨a, u⟩, hu, ⟨⟩⟩ := exists_of_bind_eq_ok h
  exact (loadMany_keepsLayout _ hu).trans (ite_keepsLayout _ (writeReg_keepsLayout _ _ _))

theorem storeLowMany_keepsLayout {s t : State} {rb : LowReg} {rlist : BitVec 8} (h : s.storeLowMany rb rlist = .ok t) :
    s.KeepsLayout t := by
  obtain ⟨⟨a, u⟩, hu, ⟨⟩⟩ := exists_of_bind_eq_ok h
  exact (storeMany_keepsLayout _ hu).trans (setX_keepsLayout _ _ _)

theorem loadLowMany_keepsLayout {s t : State} {rb : LowReg} {rlist : BitVec 8} (h : s.loadLowMany rb rlist = .ok t) :
    s.KeepsLayout t := by
  obtain ⟨⟨a, u⟩, hu, h⟩ := exists_of_bind_eq_ok h
  refine (loadMany_keepsLayout _ hu).trans ?_
  obtain rfl := Except.ok.inj h
  split
  · exact .refl u
  · exact setX_keepsLayout _ _ _

theorem push_keepsLayout {s t : State} {lr : Bool} {rlist : BitVec 8} (h : s.push lr rlist = .ok t) : s.KeepsLayout t := by
  obtain ⟨⟨a, u⟩, hu, ⟨⟩⟩ := exists_of_bind_eq_ok h
  exact (storeMany_keepsLayout _ hu).trans (setX_keepsLayout _ _ _)

theorem pop_keepsLayout {s t : State} {pc : Bool} {rlist : BitVec 8} (h : s.pop pc rlist = .ok t) : s.KeepsLayout t := by
  obtain ⟨⟨a, u⟩, hu, h⟩ := exists_of_bind_eq_ok h
  refine (loadMany_keepsLayout _ hu).trans ?_
  cases pc with
  | false => cases h; exact setX_keepsLayout _ _ _
  | true =>
    obtain ⟨⟨v, w⟩, hw, ⟨⟩⟩ := exists_of_bind_eq_ok h
    exact (memRead_keepsLayout hw).trans ((setX_keepsLayout _ _ _).trans (writePc_keepsLayout _ _))

/-! ## Every instruction, and a step -/

/-- Each arm of `exec` ends in a shared operation, and the cases stand by that operation. -/
theorem exec_keepsLayout (i : Instr) (s : State) : s.LayoutKeptBy (exec i s) := by
  cases i with
  -- Compact: register and ALU operations
  | tLslImm | tLsrImm | tAsrImm | tLslReg | tLsrReg | tAsrReg | tRorReg => exact .next (shiftLow_keepsLayout _ _ _)
  | tAddReg | tSubReg | tAddImm3 | tSubImm3 | tAddImm8 | tSubImm8 | tAdc | tSbc | tNeg =>
    exact .next (addLow_keepsLayout _ _ _)
  | tMovImm | tAnd | tEor | tOrr | tBic | tMvn => exact .next (logicLow_keepsLayout _ _ _)
  | tCmpImm | tCmpReg | tCmn | tCmpHi => exact .next (setNZCV_keepsLayout _ _)
  | tTst => exact .next (setNZ_keepsLayout _ _)
  | tMul => exact .next ((setX_keepsLayout _ _ _).trans (setMulNZ32_keepsLayout _ _))
  | tAddHi | tMovHi => exact .next (writeReg_keepsLayout _ _ _)
  | tAddPc | tAddSp | tIncSp | tDecSp | tBlFirst => exact .next (setX_keepsLayout _ _ _)
  -- Compact: branches
  | tBx => exact .next (branchExchange_keepsLayout _ _)
  | tBlx => exact .next ((setX_keepsLayout _ _ _).trans (branchExchange_keepsLayout _ _))
  | tBCond => exact .next (ite_keepsLayout _ (writePc_keepsLayout _ _))
  | tB => exact .next (writePc_keepsLayout _ _)
  | tBlSecond => exact .next ((setX_keepsLayout _ _ _).trans (writePc_keepsLayout _ _))
  -- Compact: loads and stores
  | tLdrPc | tLdrReg | tLdrbReg | tLdrhReg | tLdrImm | tLdrbImm | tLdrhImm | tLdrSp =>
    exact .outcome loadLow_keepsLayout
  | tLdrsbReg | tLdrshReg => exact .outcome loadLowSigned_keepsLayout
  | tStrReg | tStrbReg | tStrhReg | tStrImm | tStrbImm | tStrhImm | tStrSp => exact .outcome memWrite_keepsLayout
  | tPush => exact .outcome push_keepsLayout
  | tPop => exact .outcome pop_keepsLayout
  | tStmia => exact .outcome storeLowMany_keepsLayout
  | tLdmia => exact .outcome loadLowMany_keepsLayout
  | tUndef12a | tUndef12b | tUndef13a | tUndef13b | tUndef13c | tUndef17 => exact .next (.refl s)
  -- Full: data processing
  | aAndShImm | aAndShReg | aAndImm | aEorShImm | aEorShReg | aEorImm | aOrrShImm | aOrrShReg | aOrrImm
  | aMovShImm | aMovShReg | aMovImm | aBicShImm | aBicShReg | aBicImm | aMvnShImm | aMvnShReg | aMvnImm =>
    exact .whenPassed (.next (logic_keepsLayout _ _ _ _ _))
  | aSubShImm | aSubShReg | aSubImm | aRsbShImm | aRsbShReg | aRsbImm | aAddShImm | aAddShReg | aAddImm
  | aAdcShImm | aAdcShReg | aAdcImm | aSbcShImm | aSbcShReg | aSbcImm | aRscShImm | aRscShReg | aRscImm =>
    exact .whenPassed (.next (arith_keepsLayout _ _ _ _))
  | aTstShImm | aTstShReg | aTstImm | aTeqShImm | aTeqShReg | aTeqImm =>
    exact .whenPassed (.next (setNZC_keepsLayout _ _ _))
  | aCmpShImm | aCmpShReg | aCmpImm | aCmnShImm | aCmnShReg | aCmnImm =>
    exact .whenPassed (.next (setNZCV_keepsLayout _ _))
  -- Full: multiplies and status
  | aMul | aMla => exact .whenPassed (.next (product_keepsLayout _ _ _ _))
  | aUmull | aUmlal | aSmull | aSmlal => exact .whenPassed (.next (longProduct_keepsLayout _ _ _ _ _))
  | aSmlalxy => exact .whenPassed (.next (writeLong_keepsLayout _ _ _ _))
  | aSmlaxy | aSmlawy | aSmulwy | aSmulxy | aMrs | aClz => exact .whenPassed (.next (writeReg_keepsLayout _ _ _))
  | aMsrReg | aMsrImm => exact .whenPassed (.next (writePsr_keepsLayout _ _ _))
  -- Full: branches
  | aB => exact .whenPassed (.next (writePc_keepsLayout _ _))
  | aBl => exact .whenPassed (.next ((setX_keepsLayout _ _ _).trans (writePc_keepsLayout _ _)))
  | aBx => exact .whenPassed (.next (branchExchange_keepsLayout _ _))
  | aBlxReg => exact .whenPassed (.next ((setX_keepsLayout _ _ _).trans (branchExchange_keepsLayout _ _)))
  -- Full: loads and stores
  | aLdrPreImm | aLdrPostImm | aLdrtImm | aLdrbPreImm | aLdrbPostImm | aLdrbtImm
  | aLdrPreReg | aLdrPostReg | aLdrtReg | aLdrbPreReg | aLdrbPostReg | aLdrbtReg | aLdrh =>
    exact .whenPassed (.outcome load_keepsLayout)
  | aLdrsb | aLdrsh => exact .whenPassed (.outcome loadSigned_keepsLayout)
  | aStrPreImm | aStrPostImm | aStrtImm | aStrbPreImm | aStrbPostImm | aStrbtImm
  | aStrPreReg | aStrPostReg | aStrtReg | aStrbPreReg | aStrbPostReg | aStrbtReg | aStrh =>
    exact .whenPassed (.outcome store_keepsLayout)
  | aSwp | aSwpb => exact .whenPassed (.outcome swap_keepsLayout)
  | aStmda | aStmia | aStmdb | aStmib => exact .whenPassed (.outcome storeBlock_keepsLayout)
  | aLdmda | aLdmia | aLdmdb | aLdmib => exact .whenPassed (.outcome loadBlock_keepsLayout)
  | aUndefMul001 | aUndefMul11 | aUndefSwap01 | aUndefSwap10 | aUndefSwap11 | aUndefLdrd | aUndefStrd
  | aUndefMisc0001op00 | aUndefMisc0001op10 | aUndefMisc0011op00 | aUndefMisc0011op10 | aUndefMisc0011op11
  | aUndefMisc0010 | aUndefMisc0100 | aUndefMisc0101 | aUndefMisc0110 | aUndefMisc0111
  | aUndefImm | aUndefRegOff | aUndefCop => exact .whenPassed (.next (.refl s))

/-- A step that answers a next state is `exec`, on `begin`, of the instruction its fetch decodes to (30_encoding R131). -/
theorem exec_of_step_eq_next {s t : State} (h : step s = .next t) :
    ∃ value i, s.fetch = .ok value ∧ decodeValue s.flagT value = .ok i ∧ exec i s.begin = .next t := by
  unfold step hostRound at h
  split at h
  · cases h
  · next value hf =>
    rw [execute, if_neg (not_not_intro rfl)] at h
    split at h
    · cases h
    · next i hi => exact ⟨value, i, hf, hi, h⟩

theorem step_keepsLayout {s t : State} (h : step s = .next t) : s.KeepsLayout t := by
  obtain ⟨-, i, -, -, hi⟩ := exec_of_step_eq_next h
  exact (begin_keepsLayout s).trans (exec_keepsLayout i s.begin t hi)

/-- Settles O4: every arm of `exec` keeps the layout, so a step does. -/
theorem stepKeepsLengthsAndHostParameters : Obligations.StepKeepsLengthsAndHostParameters := by
  intro s t h
  have hkeep := step_keepsLayout h
  exact ⟨hkeep.lengths, hkeep.host⟩

end Sys2Proof.Machine
end

section
/-! SUPPORT. The condition gate: a compact value decodes to an instruction without one, a full word to one that carries the
condition of bits 31:28, and an instruction with one tests it first (30_encoding R131, R132). -/

namespace Sys2Proof

/-! ## The gate of a decoded instruction -/

/-- No compact value decodes to an instruction with a condition gate. -/
theorem decodeCompact_gate (h : BitVec 16) : (decodeCompact h).gate = none := by
  unfold decodeCompact
  split
  · unfold decodeT1; split <;> rfl
  · unfold decodeT2; split <;> rfl
  · unfold decodeT3; split <;> rfl
  · unfold decodeT4; split <;> rfl
  · unfold decodeT5; repeat' split
    all_goals rfl
  · rfl
  · unfold decodeT7T8; split <;> split <;> rfl
  · unfold decodeT9; split <;> rfl
  · unfold decodeT10; split <;> rfl
  · unfold decodeT11; split <;> rfl
  · unfold decodeT12; split <;> rfl
  · unfold decodeT13; split <;> rfl
  · unfold decodeFamily12; split <;> rfl
  · unfold decodeT14; repeat' split
    all_goals rfl
  · unfold decodeT15; split <;> rfl
  all_goals rfl

/-- Every full word decodes to an instruction gated by its condition field. -/
theorem decodeFull_gate (w : Word) : (decodeFull w).gate = some (Cond.ofCode (bits w 28 4)) := by
  unfold decodeFull
  generalize Cond.ofCode (bits w 28 4) = c
  cases fullFamily w with
  | multiply => dsimp only [decodeMultiply]; split <;> rfl
  | multiplyLong => dsimp only [decodeMultiplyLong]; split <;> rfl
  | swap => dsimp only [decodeSwap]; split <;> rfl
  | undefMultiply =>
    dsimp only [decodeUndefMultiply]; repeat' split
    all_goals rfl
  | halfTransfer => dsimp only [decodeHalfTransfer]; split <;> split <;> rfl
  | misc =>
    dsimp only [decodeMisc, decodeHalfMultiply]; repeat' split
    all_goals rfl
  | dataReg =>
    dsimp only
    split
    · unfold decodeDataShReg; split <;> rfl
    · unfold decodeDataShImm; split <;> rfl
  | dataImm => dsimp only [decodeDataImm]; split <;> rfl
  | transferImm =>
    dsimp only [decodeTransferImm]; repeat' split
    all_goals rfl
  | transferReg =>
    dsimp only [decodeTransferReg]; repeat' split
    all_goals rfl
  | block => dsimp only [decodeBlock]; split <;> split <;> rfl
  | branch => dsimp only [decodeBranch]; split <;> rfl
  | msrImm | undefImm | undefTransfer | undefCop => rfl

end Sys2Proof

namespace Sys2Proof.Machine

/-! ## The gate of an instruction's meaning -/

/-- The meaning of an instruction with a gate begins with the test of its condition. -/
theorem exec_of_gate {i : Instr} {c : Cond} (h : i.gate = some c) (s : State) : ∃ out, exec i s = whenPassed c s out := by
  cases i <;> cases h <;> exact ⟨_, rfl⟩ -- `cases h` leaves the full instructions

theorem whenPassed_of_fails {c : Cond} {s : State} {out : Result} (h : s.passes c = false) :
    whenPassed c s out = .next s := by simp [whenPassed, h]

theorem exec_of_fails {i : Instr} {c : Cond} {s : State} (hg : i.gate = some c) (h : s.passes c = false) :
    exec i s = .next s := by
  obtain ⟨out, hout⟩ := exec_of_gate hg s
  rw [hout, whenPassed_of_fails h]

/-- A condition is read from PSR alone. -/
theorem passes_congr {s t : State} (h : t.psr = s.psr) (c : Cond) : t.passes c = s.passes c := by
  simp only [State.passes, State.flagN, State.flagZ, State.flagC, State.flagV, h]

/-! ## `execute` in the mode of the state -/

theorem execute_compact {s : State} {v : Word} (ht : s.flagT = true) (hv : v.toNat < 0x10000) :
    execute v true s = exec (decodeCompact (v.setWidth 16)) s.begin := by
  simp [execute, ht, decodeValue, hv]

theorem execute_wide {s : State} {v : Word} (ht : s.flagT = true) (hv : 0x10000 ≤ v.toNat) :
    execute v true s = .fault (.wideCompact s.clearBreak) := by simp [execute, ht, decodeValue, Nat.not_lt.2 hv]

theorem execute_full {s : State} (v : Word) (ht : s.flagT = false) : execute v false s = exec (decodeFull v) s.begin := by
  simp [execute, ht, decodeValue]

theorem begin_fetchAddr (s : State) : s.begin.fetchAddr = s.fetchAddr + s.width := by
  have hw : s.begin.width = s.width := rfl
  rw [State.fetchAddr, begin_x, if_pos rfl, hw, State.fetchAddr, BitVec.add_sub_cancel, BitVec.sub_add_cancel]

theorem begin_keepsRegs (s : State) : s.KeepsRegs s.begin [Reg.pc] := by
  intro r hr
  rw [begin_x, if_neg (by simpa using hr)]

theorem width_full {s : State} (ht : s.flagT = false) : s.width = 4 := by simp [State.width, ht]

/-- Settles O11: a gated instruction tests its condition first, and `execute` has only advanced before. -/
theorem failedConditionOnlyAdvances : Obligations.FailedConditionOnlyAdvances := by
  refine ⟨fun i c s hg h => exec_of_fails hg h, fun w s ht h => ⟨s.begin, ?_, ?_, begin_keepsRegs s, rfl, rfl, rfl, rfl⟩⟩
  · rw [execute_full w ht]
    exact exec_of_fails (decodeFull_gate w) ((passes_congr (begin_psr s) _).trans h)
  · rw [begin_fetchAddr, width_full ht]

end Sys2Proof.Machine
end

section
/-! SUPPORT. What an instruction can write. Each shared operation of the meanings says which of the flags, the mode bit and the
memory are in its reach, and that it leaves an aligned PC aligned (10_state R35, R38, R43, R44; 20_memory R111). MSR, which can
rewrite the mode without a pc-write (70_reset R594), stands apart. -/

namespace Sys2Proof.Machine

/-! ## The aligned PC -/

/-- One instruction width on, a word keeps the bits its alignment is read from. -/
theorem getLsbD_add_width (m : Bool) (v : Word) :
    (v + if m then 2 else 4).getLsbD 0 = v.getLsbD 0 ∧
      (m = false → (v + if m then 2 else 4).getLsbD 1 = v.getLsbD 1) := by
  simp only [BitVec.getLsbD, BitVec.toNat_add, Nat.testBit_eq_decide_div_mod_eq, decide_eq_decide]
  cases m with
  | true => simp
  | false => simp; omega

theorem pcAligned_congr {s t : State} (hx : t.x Reg.pc = s.x Reg.pc) (ht : t.flagT = s.flagT) (h : s.PcAligned) :
    t.PcAligned := by rwa [State.PcAligned, hx, ht]

theorem writePc_aligned (s : State) (v : Word) : (s.writePc v).PcAligned := by
  rw [State.PcAligned, writePc_x, if_pos rfl, writePc_flagT]
  cases s.flagT with
  | true => exact ⟨(getLsbD_add_width true _).1.trans (by simp), fun h => absurd h (by decide)⟩
  | false =>
    obtain ⟨h0, h1⟩ := getLsbD_add_width false (v &&& 0xFFFFFFFC)
    exact ⟨h0.trans (by simp), fun _ => (h1 rfl).trans (by simp)⟩

theorem begin_aligned {s : State} (h : s.PcAligned) : s.begin.PcAligned := by
  obtain ⟨h0, h1⟩ := h
  have hx : s.begin.x Reg.pc = s.x Reg.pc + if s.flagT then 2 else 4 := by rw [begin_x, if_pos rfl, State.width]
  obtain ⟨k0, k1⟩ := getLsbD_add_width s.flagT (s.x Reg.pc)
  rw [State.PcAligned, hx, begin_flagT]
  exact ⟨k0.trans h0, fun ht => (k1 ht).trans (h1 ht)⟩

theorem slot_ne_pc (r : LowReg) : r.slot ≠ Reg.pc := by
  intro h
  have hv : r.val = 15 := congrArg Fin.val h
  omega

/-! ## The relation -/

/-- The PSR bits outside the flags (if `flags`) and T (if `mode`) are as they were, so is the memory unless `stores`, and an
aligned PC stays aligned. -/
structure State.Reaches (flags mode stores : Bool) (s t : State) : Prop where
  psr : s.KeepsPsr t ((if flags then [28, 29, 30, 31] else []) ++ if mode then [5] else [])
  mem : stores = false → t.mem = s.mem
  pc : s.PcAligned → t.PcAligned

/-- A next state meets `P`; a stop leaves nothing to meet. -/
def NextMeets (P : State → Prop) (out : Result) : Prop := ∀ t, out = .next t → P t

section Reach
variable {f m w : Bool} {s t u : State} {P : State → Prop}

theorem State.Reaches.trans (h : s.Reaches f m w t) (h' : t.Reaches f m w u) : s.Reaches f m w u :=
  ⟨fun k hk hn => (h'.psr k hk hn).trans (h.psr k hk hn), fun e => (h'.mem e).trans (h.mem e), fun a => h'.pc (h.pc a)⟩

theorem reaches_of_psr (hp : t.psr = s.psr) (hm : w = false → t.mem = s.mem) (hpc : s.PcAligned → t.PcAligned) :
    s.Reaches f m w t := ⟨fun k _ _ => by rw [hp], hm, hpc⟩

/-- An operation that writes neither PSR nor slot 15. -/
theorem reaches_of_pc (hp : t.psr = s.psr) (hx : t.x Reg.pc = s.x Reg.pc) (hm : w = false → t.mem = s.mem) :
    s.Reaches f m w t := reaches_of_psr hp hm (pcAligned_congr hx (flagT_congr hp))

theorem State.Reaches.refl (s : State) : s.Reaches f m w s := reaches_of_pc rfl rfl fun _ => rfl

theorem NextMeets.next (h : P t) : NextMeets P (.next t) := by rintro _ ⟨⟩; exact h

theorem NextMeets.outcome {e : Except Fault State} (h : ∀ {t}, e = .ok t → P t) : NextMeets P (outcome e) := by
  rintro t ht
  cases e with
  | ok u => cases ht; exact h rfl
  | error f => cases ht

theorem NextMeets.whenPassed {c : Cond} {out : Result} (hs : P s) (h : NextMeets P out) :
    NextMeets P (whenPassed c s out) := by
  unfold Machine.whenPassed
  split
  · exact h
  · exact .next hs

/-- A gated meaning that reaches no further when it runs reaches no further when its condition fails. -/
theorem State.Reaches.gated {c : Cond} {out : Result} (h : NextMeets (s.Reaches f m w) out) :
    NextMeets (s.Reaches f m w) (whenPassed c s out) := .whenPassed (.refl s) h

/-! ## Writes of registers and PSR -/

theorem setX_reaches (s : State) {r : Reg} (hr : r ≠ Reg.pc) (v : Word) : s.Reaches f m w (s.setX r v) :=
  reaches_of_pc rfl (by simp [hr.symm]) fun _ => rfl

theorem writePc_reaches (s : State) (v : Word) : s.Reaches f m w (s.writePc v) :=
  reaches_of_psr (writePc_psr s v) (fun _ => writePc_mem s v) fun _ => writePc_aligned s v

theorem writeReg_reaches (s : State) (r : Reg) (v : Word) : s.Reaches f m w (s.writeReg r v) := by
  unfold State.writeReg
  split
  · exact writePc_reaches s v
  · next hr => exact setX_reaches s hr v

theorem writeBack_reaches (s : State) (a : Address) (rn : Reg) : s.Reaches f m w (s.writeBack a rn) := by
  unfold State.writeBack
  split
  · exact writeReg_reaches s rn _
  · exact .refl s

/-- A flag writer: its frame names no register and no PSR bit but flags. -/
theorem reaches_of_flagFrame {ks : List Nat} (h : s.Frame t [] ks) (hk : ks ⊆ [28, 29, 30, 31]) : s.Reaches true m w t := by
  obtain ⟨hx, hp, hm, -, -⟩ := h
  have ht : t.flagT = s.flagT := hp 5 (by decide) fun h5 => absurd (hk h5) (by decide)
  exact ⟨fun k hk' hn => hp k hk' fun hks => hn (List.mem_append_left _ (hk hks)), fun _ => hm.2,
    pcAligned_congr (hx _ (List.not_mem_nil)) ht⟩

theorem setNZ_reaches (s : State) (r : Word) : s.Reaches true m w (s.setNZ r) :=
  reaches_of_flagFrame (setNZ_frame s r) (by decide)

theorem setNZC_reaches (s : State) (r : Word) (c : Bool) : s.Reaches true m w (s.setNZC r c) :=
  reaches_of_flagFrame (setNZC_frame s r c) (by decide)

theorem setNZCV_reaches (s : State) (r : AddResult) : s.Reaches true m w (s.setNZCV r) :=
  reaches_of_flagFrame (setNZCV_frame s r) (by decide)

theorem setMulNZ64_reaches (s : State) (hi lo : Word) : s.Reaches true m w (s.setMulNZ64 hi lo) :=
  reaches_of_flagFrame (setMulNZ64_frame s hi lo) (by decide)

/-- The S bit: the flag update may be made or left out. -/
theorem ite_reaches (b : Bool) (h : s.Reaches f m w t) : s.Reaches f m w (if b then t else s) := by
  cases b
  · exact .refl s
  · exact h

theorem branchExchange_reaches (s : State) (v : Word) : s.Reaches f true w (s.branchExchange v) := by
  obtain ⟨-, -, -, hp, hm, -, -⟩ := branchExchange_done s v
  exact ⟨fun k hk hn => hp k hk fun h5 => hn (List.mem_append_right _ h5), fun _ => hm.2, fun _ => writePc_aligned _ v⟩

/-! ## The shared forms of the compact and the full operations -/

theorem shiftLow_reaches (s : State) (rd : LowReg) (r : Word × Bool) : s.Reaches true m w (s.shiftLow rd r) :=
  (setX_reaches s (slot_ne_pc rd) _).trans (setNZC_reaches _ _ _)

theorem addLow_reaches (s : State) (rd : LowReg) (r : AddResult) : s.Reaches true m w (s.addLow rd r) :=
  (setX_reaches s (slot_ne_pc rd) _).trans (setNZCV_reaches _ _)

theorem logicLow_reaches (s : State) (rd : LowReg) (r : Word) : s.Reaches true m w (s.logicLow rd r) :=
  (setX_reaches s (slot_ne_pc rd) _).trans (setNZ_reaches _ _)

theorem logic_reaches (s : State) (sf : Bool) (rd : Reg) (r : Word) (sc : Bool) : s.Reaches true m w (s.logic sf rd r sc) :=
  (ite_reaches sf (setNZC_reaches s r sc)).trans (writeReg_reaches _ _ _)

theorem arith_reaches (s : State) (sf : Bool) (rd : Reg) (r : AddResult) : s.Reaches true m w (s.arith sf rd r) :=
  (ite_reaches sf (setNZCV_reaches s r)).trans (writeReg_reaches _ _ _)

theorem product_reaches (s : State) (sf : Bool) (rd : Reg) (r : Word) : s.Reaches true m w (s.product sf rd r) :=
  (ite_reaches sf (setNZ_reaches s r)).trans (writeReg_reaches _ _ _)

theorem writeLong_reaches (s : State) (rdHi rdLo : Reg) (p : BitVec 64) : s.Reaches f m w (s.writeLong rdHi rdLo p) :=
  (writeReg_reaches s _ _).trans (writeReg_reaches _ _ _)

theorem longProduct_reaches (s : State) (sf : Bool) (rdHi rdLo : Reg) (p : BitVec 64) :
    s.Reaches true m w (s.longProduct sf rdHi rdLo p) :=
  (ite_reaches sf (setMulNZ64_reaches s _ _)).trans (writeLong_reaches _ _ _ _)

/-! ## Single accesses -/

theorem noteRead_reaches (s : State) (a : Word) (z : Size) (v : Word) : s.Reaches f m w (s.noteRead a z v) :=
  reaches_of_pc (noteRead_psr ..) (noteRead_x ..) fun _ => noteRead_mem ..

theorem memRead_reaches {a v : Word} {z : Size} (h : s.memRead a z = .ok (v, t)) : s.Reaches f m w t := by
  by_cases hf : s.Fits a z
  · rw [memRead_eq hf] at h; cases h
    exact noteRead_reaches ..
  · rw [memRead_short hf] at h; cases h

theorem memReadS_reaches {a v : Word} {z : Size} (h : s.memReadS a z = .ok (v, t)) : s.Reaches f m w t := by
  by_cases hf : s.Fits a z
  · rw [memReadS_eq hf] at h; cases h
    exact noteRead_reaches ..
  · rw [memReadS_short hf] at h; cases h

theorem memWrite_reaches {a v : Word} {z : Size} (h : s.memWrite a z v = .ok t) : s.Reaches f m true t := by
  obtain ⟨hr, hp, -, -, -⟩ := memWrite_frame h
  exact reaches_of_pc hp (x_congr hr _) fun e => absurd e (by decide)

theorem load_reaches {a : Address} {rn rd : Reg} {z : Size} (h : s.load a rn rd z = .ok t) : s.Reaches f m w t := by
  obtain ⟨⟨v, u⟩, hu, ⟨⟩⟩ := exists_of_bind_eq_ok h
  exact (memRead_reaches hu).trans ((writeBack_reaches _ _ _).trans (writeReg_reaches _ _ _))

theorem loadSigned_reaches {a : Address} {rn rd : Reg} {z : Size} (h : s.loadSigned a rn rd z = .ok t) :
    s.Reaches f m w t := by
  obtain ⟨⟨v, u⟩, hu, ⟨⟩⟩ := exists_of_bind_eq_ok h
  exact (memReadS_reaches hu).trans ((writeBack_reaches _ _ _).trans (writeReg_reaches _ _ _))

theorem store_reaches {a : Address} {rn rd : Reg} {z : Size} (h : s.store a rn rd z = .ok t) : s.Reaches f m true t := by
  obtain ⟨u, hu, ⟨⟩⟩ := exists_of_bind_eq_ok h
  exact (memWrite_reaches hu).trans (writeBack_reaches _ _ _)

theorem loadLow_reaches {a : Word} {z : Size} {rd : LowReg} (h : s.loadLow a z rd = .ok t) : s.Reaches f m w t := by
  obtain ⟨⟨v, u⟩, hu, ⟨⟩⟩ := exists_of_bind_eq_ok h
  exact (memRead_reaches hu).trans (setX_reaches _ (slot_ne_pc rd) _)

theorem loadLowSigned_reaches {a : Word} {z : Size} {rd : LowReg} (h : s.loadLowSigned a z rd = .ok t) :
    s.Reaches f m w t := by
  obtain ⟨⟨v, u⟩, hu, ⟨⟩⟩ := exists_of_bind_eq_ok h
  exact (memReadS_reaches hu).trans (setX_reaches _ (slot_ne_pc rd) _)

theorem swap_reaches {rn rd rm : Reg} {z : Size} (h : s.swap rn rd rm z = .ok t) : s.Reaches f m true t := by
  obtain ⟨⟨v, u⟩, hu, h⟩ := exists_of_bind_eq_ok h
  obtain ⟨u', hw, ⟨⟩⟩ := exists_of_bind_eq_ok h
  exact (memRead_reaches hu).trans ((memWrite_reaches hw).trans (writeReg_reaches _ _ _))

/-! ## Lists of accesses -/

theorem storeMany_reaches {pre up : Bool} (rs : List Reg) : ∀ {s t : State} {a b : Word},
    s.storeMany pre up rs a = .ok (b, t) → s.Reaches f m true t := by
  induction rs with
  | nil => rintro s t a b ⟨⟩; exact .refl s
  | cons r rs ih =>
    intro s t a b h
    obtain ⟨u, hu, hrest⟩ := exists_of_bind_eq_ok h
    exact (memWrite_reaches hu).trans (ih hrest)

theorem loadMany_reaches {pre up : Bool} (rs : List Reg) : ∀ {s t : State} {a b : Word},
    s.loadMany pre up rs a = .ok (b, t) → s.Reaches f m w t := by
  induction rs with
  | nil => rintro s t a b ⟨⟩; exact .refl s
  | cons r rs ih =>
    intro s t a b h
    obtain ⟨⟨v, u⟩, hu, hrest⟩ := exists_of_bind_eq_ok h
    exact (memRead_reaches hu).trans ((writeReg_reaches _ _ _).trans (ih hrest))

theorem storeBlock_reaches {pre up wb : Bool} {rn : Reg} {rlist : BitVec 16}
    (h : s.storeBlock pre up wb rn rlist = .ok t) : s.Reaches f m true t := by
  obtain ⟨⟨a, u⟩, hu, ⟨⟩⟩ := exists_of_bind_eq_ok h
  exact (storeMany_reaches _ hu).trans (ite_reaches wb (writeReg_reaches _ _ _))

theorem loadBlock_reaches {pre up wb : Bool} {rn : Reg} {rlist : BitVec 16}
    (h : s.loadBlock pre up wb rn rlist = .ok t) : s.Reaches f m w t := by
  obtain ⟨⟨a, u⟩, hu, ⟨⟩⟩ := exists_of_bind_eq_ok h
  exact (loadMany_reaches _ hu).trans (ite_reaches _ (writeReg_reaches _ _ _))

theorem storeLowMany_reaches {rb : LowReg} {rlist : BitVec 8} (h : s.storeLowMany rb rlist = .ok t) :
    s.Reaches f m true t := by
  obtain ⟨⟨a, u⟩, hu, ⟨⟩⟩ := exists_of_bind_eq_ok h
  exact (storeMany_reaches _ hu).trans (setX_reaches _ (slot_ne_pc rb) _)

theorem loadLowMany_reaches {rb : LowReg} {rlist : BitVec 8} (h : s.loadLowMany rb rlist = .ok t) :
    s.Reaches f m w t := by
  obtain ⟨⟨a, u⟩, hu, h⟩ := exists_of_bind_eq_ok h
  refine (loadMany_reaches _ hu).trans ?_
  obtain rfl := Except.ok.inj h
  split
  · exact .refl u
  · exact setX_reaches _ (slot_ne_pc rb) _

theorem push_reaches {lr : Bool} {rlist : BitVec 8} (h : s.push lr rlist = .ok t) : s.Reaches f m true t := by
  obtain ⟨⟨a, u⟩, hu, ⟨⟩⟩ := exists_of_bind_eq_ok h
  exact (storeMany_reaches _ hu).trans (setX_reaches _ (by decide) _)

theorem pop_reaches {pc : Bool} {rlist : BitVec 8} (h : s.pop pc rlist = .ok t) : s.Reaches f m w t := by
  obtain ⟨⟨a, u⟩, hu, h⟩ := exists_of_bind_eq_ok h
  refine (loadMany_reaches _ hu).trans ?_
  cases pc with
  | false => cases h; exact setX_reaches _ (by decide) _
  | true =>
    obtain ⟨⟨v, u'⟩, hu', ⟨⟩⟩ := exists_of_bind_eq_ok h
    exact (memRead_reaches hu').trans ((setX_reaches _ (by decide) _).trans (writePc_reaches _ _))

/-! ## Every instruction -/

/-- An MSR writes PSR alone (44_arm_data_processing R420, R421; 70_reset R594). -/
theorem exec_of_writesPsrStorage {i : Instr} (h : i.writesPsrStorage = true) (s : State) :
    NextMeets (fun t => ∃ v, t = { s with psr := v }) (exec i s) := by
  cases i <;> cases h
  all_goals exact .whenPassed ⟨s.psr, rfl⟩ (.next ⟨_, rfl⟩)

theorem writes_of_writesPsrStorage {i : Instr} (h : i.writesPsrStorage = true) :
    i.writesFlags = true ∧ i.writesMode = true := by
  cases i <;> cases h <;> exact ⟨rfl, rfl⟩

/-- Every other instruction reaches what its class says. Each arm of `exec` ends in a shared operation, and the cases stand by
that operation. -/
theorem exec_reaches (i : Instr) (s : State) (h : i.writesPsrStorage = false) :
    NextMeets (s.Reaches i.writesFlags i.writesMode i.writesMemory) (exec i s) := by
  cases i with
  -- MSR
  | aMsrReg | aMsrImm => cases h
  -- Compact: register and ALU operations
  | tLslImm | tLsrImm | tAsrImm | tLslReg | tLsrReg | tAsrReg | tRorReg => exact .next (shiftLow_reaches _ _ _)
  | tAddReg | tSubReg | tAddImm3 | tSubImm3 | tAddImm8 | tSubImm8 | tAdc | tSbc | tNeg =>
    exact .next (addLow_reaches _ _ _)
  | tMovImm | tAnd | tEor | tOrr | tBic | tMvn => exact .next (logicLow_reaches _ _ _)
  | tCmpImm | tCmpReg | tCmn | tCmpHi => exact .next (setNZCV_reaches _ _)
  | tTst => exact .next (setNZ_reaches _ _)
  | tMul => exact .next ((setX_reaches _ (slot_ne_pc _) _).trans (setNZ_reaches _ _))
  | tAddHi | tMovHi => exact .next (writeReg_reaches _ _ _)
  | tAddPc | tAddSp => exact .next (setX_reaches _ (slot_ne_pc _) _)
  | tIncSp | tDecSp | tBlFirst => exact .next (setX_reaches _ (by decide) _)
  -- Compact: branches
  | tBx => exact .next (branchExchange_reaches _ _)
  | tBlx => exact .next ((setX_reaches _ (by decide) _).trans (branchExchange_reaches _ _))
  | tBCond => exact .next (ite_reaches _ (writePc_reaches _ _))
  | tB => exact .next (writePc_reaches _ _)
  | tBlSecond => exact .next ((setX_reaches _ (by decide) _).trans (writePc_reaches _ _))
  -- Compact: loads and stores
  | tLdrPc | tLdrReg | tLdrbReg | tLdrhReg | tLdrImm | tLdrbImm | tLdrhImm | tLdrSp =>
    exact .outcome loadLow_reaches
  | tLdrsbReg | tLdrshReg => exact .outcome loadLowSigned_reaches
  | tStrReg | tStrbReg | tStrhReg | tStrImm | tStrbImm | tStrhImm | tStrSp => exact .outcome memWrite_reaches
  | tPush => exact .outcome push_reaches
  | tPop => exact .outcome pop_reaches
  | tStmia => exact .outcome storeLowMany_reaches
  | tLdmia => exact .outcome loadLowMany_reaches
  | tUndef12a | tUndef12b | tUndef13a | tUndef13b | tUndef13c | tUndef17 => exact .next (.refl s)
  -- Full: data processing
  | aAndShImm | aAndShReg | aAndImm | aEorShImm | aEorShReg | aEorImm | aOrrShImm | aOrrShReg | aOrrImm
  | aMovShImm | aMovShReg | aMovImm | aBicShImm | aBicShReg | aBicImm | aMvnShImm | aMvnShReg | aMvnImm =>
    exact .gated (.next (logic_reaches _ _ _ _ _))
  | aSubShImm | aSubShReg | aSubImm | aRsbShImm | aRsbShReg | aRsbImm | aAddShImm | aAddShReg | aAddImm
  | aAdcShImm | aAdcShReg | aAdcImm | aSbcShImm | aSbcShReg | aSbcImm | aRscShImm | aRscShReg | aRscImm =>
    exact .gated (.next (arith_reaches _ _ _ _))
  | aTstShImm | aTstShReg | aTstImm | aTeqShImm | aTeqShReg | aTeqImm => exact .gated (.next (setNZC_reaches _ _ _))
  | aCmpShImm | aCmpShReg | aCmpImm | aCmnShImm | aCmnShReg | aCmnImm => exact .gated (.next (setNZCV_reaches _ _))
  -- Full: multiplies and the other register results
  | aMul | aMla => exact .gated (.next (product_reaches _ _ _ _))
  | aUmull | aUmlal | aSmull | aSmlal => exact .gated (.next (longProduct_reaches _ _ _ _ _))
  | aSmlalxy => exact .gated (.next (writeLong_reaches _ _ _ _))
  | aSmlaxy | aSmlawy | aSmulwy | aSmulxy | aMrs | aClz => exact .gated (.next (writeReg_reaches _ _ _))
  -- Full: branches
  | aB => exact .gated (.next (writePc_reaches _ _))
  | aBl => exact .gated (.next ((setX_reaches _ (by decide) _).trans (writePc_reaches _ _)))
  | aBx => exact .gated (.next (branchExchange_reaches _ _))
  | aBlxReg => exact .gated (.next ((setX_reaches _ (by decide) _).trans (branchExchange_reaches _ _)))
  -- Full: loads and stores
  | aLdrPreImm | aLdrPostImm | aLdrtImm | aLdrbPreImm | aLdrbPostImm | aLdrbtImm
  | aLdrPreReg | aLdrPostReg | aLdrtReg | aLdrbPreReg | aLdrbPostReg | aLdrbtReg | aLdrh =>
    exact .gated (.outcome load_reaches)
  | aLdrsb | aLdrsh => exact .gated (.outcome loadSigned_reaches)
  | aStrPreImm | aStrPostImm | aStrtImm | aStrbPreImm | aStrbPostImm | aStrbtImm
  | aStrPreReg | aStrPostReg | aStrtReg | aStrbPreReg | aStrbPostReg | aStrbtReg | aStrh =>
    exact .gated (.outcome store_reaches)
  | aSwp | aSwpb => exact .gated (.outcome swap_reaches)
  | aStmda | aStmia | aStmdb | aStmib => exact .gated (.outcome storeBlock_reaches)
  | aLdmda | aLdmia | aLdmdb | aLdmib => exact .gated (.outcome loadBlock_reaches)
  | aUndefMul001 | aUndefMul11 | aUndefSwap01 | aUndefSwap10 | aUndefSwap11 | aUndefLdrd | aUndefStrd
  | aUndefMisc0001op00 | aUndefMisc0001op10 | aUndefMisc0011op00 | aUndefMisc0011op10 | aUndefMisc0011op11
  | aUndefMisc0010 | aUndefMisc0100 | aUndefMisc0101 | aUndefMisc0110 | aUndefMisc0111
  | aUndefImm | aUndefRegOff | aUndefCop => exact .gated (.next (.refl s))

end Reach

/-! ## The two statements -/

theorem exec_aligned {i : Instr} {s : State} (hi : i.writesPsrStorage = true → s.flagT = false) (h : s.PcAligned) :
    NextMeets State.PcAligned (exec i s) := by
  intro t ht
  cases hm : i.writesPsrStorage with
  | false => exact (exec_reaches i s hm t ht).pc h
  | true =>
    -- A full-mode PC is a multiple of 4, which either mode allows.
    obtain ⟨v, rfl⟩ := exec_of_writesPsrStorage hm s t ht
    exact ⟨h.1, fun _ => h.2 (hi hm)⟩

/-- MSR is a full instruction. -/
theorem writesPsrStorage_of_gate {i : Instr} (h : i.gate = none) : i.writesPsrStorage = false := by
  rw [← Bool.not_eq_true]
  intro hm
  cases i <;> cases hm <;> cases h

theorem decodeValue_compact {v : Word} {i : Instr} (h : decodeValue true v = .ok i) : i = decodeCompact (v.setWidth 16) := by
  unfold decodeValue at h
  split at h
  · split at h
    · exact (Except.ok.inj h).symm
    · cases h
  · contradiction

/-- Settles O3: `exec` keeps the canonical form, and the alignment since only a full instruction writes the mode without a
pc-write. -/
theorem stepKeepsTheInvariant : Obligations.StepKeepsTheInvariant := by
  rintro s t ⟨hwf, hpc⟩ h
  refine ⟨(step_keepsLayout h).wf hwf, ?_⟩
  obtain ⟨value, i, -, hdec, hexec⟩ := exec_of_step_eq_next h
  refine exec_aligned (fun hm => ?_) (begin_aligned hpc) t hexec
  rw [begin_flagT, Bool.eq_false_iff]
  intro ht
  rw [ht] at hdec
  rw [decodeValue_compact hdec, writesPsrStorage_of_gate (decodeCompact_gate _)] at hm
  cases hm

theorem keepsPsr_mono {s t : State} {ks ks' : List Nat} (h : s.KeepsPsr t ks) (hk : ks ⊆ ks') : s.KeepsPsr t ks' :=
  fun k hk' hn => h k hk' fun hks => hn (hk hks)

/-- Settles O59: MSR writes PSR alone, and every other instruction reaches what its class says. -/
theorem onlyTheirInstructionsWritePsrAndMemory : Obligations.OnlyTheirInstructionsWritePsrAndMemory := by
  intro i s t h
  cases hi : i.writesPsrStorage with
  | true =>
    obtain ⟨v, rfl⟩ := exec_of_writesPsrStorage hi s t h
    have hf : i.writesFlags = true ∧ i.writesMode = true := writes_of_writesPsrStorage hi
    exact ⟨by simp [hf], by simp [hf], by simp, fun _ => keepsMemory_of_mem rfl⟩
  | false =>
    obtain ⟨hpsr, hmem, -⟩ := exec_reaches i s hi t h
    refine ⟨fun hf => ?_, fun hm => ?_, fun _ => keepsPsr_mono hpsr ?_, fun hs => keepsMemory_of_mem (hmem hs)⟩
    · rw [hf] at hpsr
      exact keepsPsr_mono hpsr (by cases i.writesMode <;> decide)
    · rw [hm] at hpsr
      exact hpsr 5 (by decide) (by cases i.writesFlags <;> decide)
    · cases i.writesFlags <;> cases i.writesMode <;> decide

end Sys2Proof.Machine
end

section
/-! SUPPORT. A machine whose host watches nothing. `unmonitored` empties the monitor sets, the conditional breaks and the monitor
output of a state. Every operation commutes with it, so none reads what it empties (10_state R50, R51; 20_memory R98). -/

namespace Sys2Proof.Machine

/-! ## Forgetting the monitors -/

/-- The state with no monitor set, no conditional break and no monitor output. -/
def State.unmonitored (s : State) : State :=
  { s with
    breakState := .none
    host := { s.host with readSet := [], watchSet := [], breakSet := [], condBreaks := [] } }

@[simp] theorem unmonitored_psr (s : State) : s.unmonitored.psr = s.psr := rfl

/-- The fault with the state it carries unmonitored. -/
def Fault.unmonitored : Fault → Fault
  | .modeMismatch s => .modeMismatch s.unmonitored
  | .wideCompact s => .wideCompact s.unmonitored
  | .regionShort s r => .regionShort s.unmonitored r
  | .copyTooLong s => .copyTooLong s.unmonitored

/-- The outcome with the state it carries unmonitored. -/
def unmonitoredResult : Result → Result
  | .next t => .next t.unmonitored
  | .fault e => .fault e.unmonitored
  | .refused r => .refused r

/-- What an operation answers with the states in it unmonitored: `g` says how in an answer that completes. -/
def unmonitoredExcept {α : Type} (g : α → α) : Except Fault α → Except Fault α
  | .ok a => .ok (g a)
  | .error e => .error e.unmonitored

/-- A value and the state it comes with. -/
def unmonitoredPair {α : Type} (p : α × State) : α × State := (p.1, p.2.unmonitored)

theorem sameButMonitors_iff (s t : State) : s.SameButMonitors t ↔ t.unmonitored = s.unmonitored := by
  constructor
  · rintro ⟨hr, hp, hm, he, hw⟩
    simp only [State.unmonitored, hr, hp, hm, he, hw]
  · intro h
    injection h with hr hp hm _ hh
    injection hh with _ _ _ _ he hw
    exact ⟨hr, hp, hm, he, hw⟩

/-- Two computations whose first parts and whose rests agree up to the monitors do. -/
theorem unmonitored_bind {α β : Type} {g : α → α} {h : β → β} {e e' : Except Fault α} {k k' : α → Except Fault β}
    (he : e' = unmonitoredExcept g e) (hk : ∀ a, k' (g a) = unmonitoredExcept h (k a)) :
    e' >>= k' = unmonitoredExcept h (e >>= k) := by
  subst he
  cases e with
  | ok a => exact hk a
  | error _ => rfl

theorem unmonitored_outcome {e e' : Except Fault State} (h : e' = unmonitoredExcept State.unmonitored e) :
    outcome e' = unmonitoredResult (outcome e) := by
  subst h
  cases e <;> rfl

theorem unmonitored_whenPassed {c : Cond} {s : State} {out out' : Result} (h : out' = unmonitoredResult out) :
    whenPassed c s.unmonitored out' = unmonitoredResult (whenPassed c s out) := by
  rw [whenPassed, whenPassed, passes_congr (unmonitored_psr s)]
  split
  · exact h
  · rfl

/-! ## Registers -/

theorem writePc_unmonitored (s : State) (v : Word) : s.unmonitored.writePc v = (s.writePc v).unmonitored := by
  rw [writePc_eq, writePc_eq]; rfl

theorem writeReg_unmonitored (s : State) (r : Reg) (v : Word) :
    s.unmonitored.writeReg r v = (s.writeReg r v).unmonitored := by
  rw [writeReg_eq, writeReg_eq]; rfl

theorem writeBack_unmonitored (s : State) (a : Address) (rn : Reg) :
    s.unmonitored.writeBack a rn = (s.writeBack a rn).unmonitored := by
  unfold State.writeBack
  split
  · exact writeReg_unmonitored s rn _
  · rfl

theorem logic_unmonitored (s : State) (sf : Bool) (rd : Reg) (r : Word) (sc : Bool) :
    s.unmonitored.logic sf rd r sc = (s.logic sf rd r sc).unmonitored := by
  cases sf with
  | false => exact writeReg_unmonitored s rd r
  | true => exact writeReg_unmonitored (s.setNZC r sc) rd r

theorem arith_unmonitored (s : State) (sf : Bool) (rd : Reg) (r : AddResult) :
    s.unmonitored.arith sf rd r = (s.arith sf rd r).unmonitored := by
  cases sf with
  | false => exact writeReg_unmonitored s rd r.result
  | true => exact writeReg_unmonitored (s.setNZCV r) rd r.result

theorem product_unmonitored (s : State) (sf : Bool) (rd : Reg) (r : Word) :
    s.unmonitored.product sf rd r = (s.product sf rd r).unmonitored := by
  cases sf with
  | false => exact writeReg_unmonitored s rd r
  | true => exact writeReg_unmonitored (s.setMulNZ32 r) rd r

theorem writeLong_unmonitored (s : State) (rdHi rdLo : Reg) (p : BitVec 64) :
    s.unmonitored.writeLong rdHi rdLo p = (s.writeLong rdHi rdLo p).unmonitored := by
  rw [State.writeLong, writeReg_unmonitored, writeReg_unmonitored]; rfl

theorem longProduct_unmonitored (s : State) (sf : Bool) (rdHi rdLo : Reg) (p : BitVec 64) :
    s.unmonitored.longProduct sf rdHi rdLo p = (s.longProduct sf rdHi rdLo p).unmonitored := by
  cases sf with
  | false => exact writeLong_unmonitored s rdHi rdLo p
  | true => exact writeLong_unmonitored (s.setMulNZ64 (bits p 32 32) (bits p 0 32)) rdHi rdLo p

theorem branchExchange_unmonitored (s : State) (v : Word) :
    s.unmonitored.branchExchange v = (s.branchExchange v).unmonitored :=
  writePc_unmonitored (s.setT (v.getLsbD 0)) v

/-- The conditional branch (43_thumb_branch R350). -/
theorem branch_unmonitored (s : State) (c : Cond) (v : Word) :
    (if s.unmonitored.passes c then s.unmonitored.writePc v else s.unmonitored) =
      (if s.passes c then s.writePc v else s).unmonitored := by
  rw [passes_congr (unmonitored_psr s), writePc_unmonitored]
  split <;> rfl

/-! ## Raw accesses and the DMA -/

theorem rawRead_unmonitored (s : State) (a : Word) (z : Size) :
    s.unmonitored.rawRead a z = unmonitoredExcept id (s.rawRead a z) := by
  by_cases h : s.Fits a z
  · have h' : s.unmonitored.Fits a z := h
    rw [rawRead_eq h, rawRead_eq h']; rfl
  · have h' : ¬ s.unmonitored.Fits a z := h
    rw [rawRead_short h, rawRead_short h']; rfl

theorem rawWrite_unmonitored (s : State) (a : Word) (z : Size) (v : Word) :
    s.unmonitored.rawWrite a z v = unmonitoredExcept State.unmonitored (s.rawWrite a z v) := by
  by_cases h : s.Fits a z
  · have h' : s.unmonitored.Fits a z := h
    rw [rawWrite_eq v h, rawWrite_eq v h']; rfl
  · have h' : ¬ s.unmonitored.Fits a z := h
    rw [rawWrite_short v h, rawWrite_short v h']; rfl

theorem memCopy_unmonitored (s : State) (src dst : Word) (n : Nat) :
    s.unmonitored.memCopy src dst n = unmonitoredExcept State.unmonitored (s.memCopy src dst n) := by
  rw [State.memCopy, State.memCopy]
  by_cases hn : n = 0
  · rw [if_pos hn, if_pos hn]; rfl
  · rw [if_neg hn, if_neg hn]
    by_cases hc : (s.region (regionIndex src)).len < n ∨ (s.region (regionIndex dst)).len < n
    · rw [if_pos hc]; exact if_pos hc
    · rw [if_neg hc]; exact if_neg hc

theorem dmaTransfer_unmonitored (s : State) :
    s.unmonitored.dmaTransfer = unmonitoredExcept State.unmonitored s.dmaTransfer :=
  unmonitored_bind (rawRead_unmonitored s _ _) fun src =>
  unmonitored_bind (rawRead_unmonitored s _ _) fun dst =>
  unmonitored_bind (rawRead_unmonitored s _ _) fun _ =>
  unmonitored_bind (rawRead_unmonitored s _ _) fun _ =>
  unmonitored_bind (memCopy_unmonitored s src dst _) fun t =>
  unmonitored_bind (rawRead_unmonitored t _ _) fun _ => rawWrite_unmonitored t _ _ _

theorem dmaCheck_unmonitored (s : State) (a : Word) (z : Size) :
    s.unmonitored.dmaCheck a z = unmonitoredExcept State.unmonitored (s.dmaCheck a z) := by
  have ht : s.unmonitored.touchesEnable a z = s.touchesEnable a z := rfl
  rw [State.dmaCheck, State.dmaCheck, ht]
  split
  · refine unmonitored_bind (rawRead_unmonitored s _ _) fun enable => ?_
    have he : s.unmonitored.enableBit = s.enableBit := rfl
    rw [he, id]
    split
    · exact dmaTransfer_unmonitored s
    · rfl
  · rfl

/-! ## Monitored accesses: an unmonitored state records no event -/

theorem noteRead_unmonitored (s : State) (a : Word) (z : Size) (v : Word) :
    s.unmonitored.noteRead a z v = (s.noteRead a z v).unmonitored := by
  have h : s.unmonitored.noteRead a z v = s.unmonitored := if_neg (List.not_mem_nil)
  rw [h, State.noteRead]
  split <;> rfl

theorem noteWrite_unmonitored (s : State) (a : Word) (z : Size) (old new : Word) :
    s.unmonitored.noteWrite a z old new = (s.noteWrite a z old new).unmonitored := by
  have h : s.unmonitored.noteWrite a z old new = s.unmonitored := if_neg (List.not_mem_nil)
  rw [h, State.noteWrite]
  split <;> rfl

theorem memRead_unmonitored (s : State) (a : Word) (z : Size) :
    s.unmonitored.memRead a z = unmonitoredExcept unmonitoredPair (s.memRead a z) := by
  rw [State.memRead, State.memRead, rawRead_unmonitored]
  cases s.rawRead a z with
  | ok v => exact congrArg (fun t => Except.ok (v, t)) (noteRead_unmonitored s a z v)
  | error _ => rfl

theorem memReadS_unmonitored (s : State) (a : Word) (z : Size) :
    s.unmonitored.memReadS a z = unmonitoredExcept unmonitoredPair (s.memReadS a z) := by
  rw [State.memReadS, State.memReadS, memRead_unmonitored]
  cases s.memRead a z <;> rfl

theorem memWrite_unmonitored (s : State) (a : Word) (z : Size) (v : Word) :
    s.unmonitored.memWrite a z v = unmonitoredExcept State.unmonitored (s.memWrite a z v) :=
  unmonitored_bind (rawRead_unmonitored s a z) fun old =>
  unmonitored_bind (rawWrite_unmonitored s a z v) fun t => by
    rw [noteWrite_unmonitored]
    exact dmaCheck_unmonitored _ a z

/-! ## Single transfers -/

theorem load_unmonitored (s : State) (a : Address) (rn rd : Reg) (z : Size) :
    s.unmonitored.load a rn rd z = unmonitoredExcept State.unmonitored (s.load a rn rd z) :=
  unmonitored_bind (memRead_unmonitored s _ z) fun p => by
    simp only [unmonitoredPair, writeBack_unmonitored, writeReg_unmonitored]; rfl

theorem loadSigned_unmonitored (s : State) (a : Address) (rn rd : Reg) (z : Size) :
    s.unmonitored.loadSigned a rn rd z = unmonitoredExcept State.unmonitored (s.loadSigned a rn rd z) :=
  unmonitored_bind (memReadS_unmonitored s _ z) fun p => by
    simp only [unmonitoredPair, writeBack_unmonitored, writeReg_unmonitored]; rfl

theorem store_unmonitored (s : State) (a : Address) (rn rd : Reg) (z : Size) :
    s.unmonitored.store a rn rd z = unmonitoredExcept State.unmonitored (s.store a rn rd z) :=
  unmonitored_bind (memWrite_unmonitored s _ z _) fun t => congrArg Except.ok (writeBack_unmonitored t a rn)

theorem loadLow_unmonitored (s : State) (a : Word) (z : Size) (rd : LowReg) :
    s.unmonitored.loadLow a z rd = unmonitoredExcept State.unmonitored (s.loadLow a z rd) :=
  unmonitored_bind (memRead_unmonitored s a z) fun _ => rfl

theorem loadLowSigned_unmonitored (s : State) (a : Word) (z : Size) (rd : LowReg) :
    s.unmonitored.loadLowSigned a z rd = unmonitoredExcept State.unmonitored (s.loadLowSigned a z rd) :=
  unmonitored_bind (memReadS_unmonitored s a z) fun _ => rfl

theorem swap_unmonitored (s : State) (rn rd rm : Reg) (z : Size) :
    s.unmonitored.swap rn rd rm z = unmonitoredExcept State.unmonitored (s.swap rn rd rm z) :=
  unmonitored_bind (memRead_unmonitored s _ z) fun p =>
  unmonitored_bind (memWrite_unmonitored p.2 _ z _) fun t => congrArg Except.ok (writeReg_unmonitored t rd p.1)

/-! ## Lists of accesses -/

theorem storeMany_unmonitored (pre up : Bool) (rs : List Reg) : ∀ (s : State) (a : Word),
    s.unmonitored.storeMany pre up rs a = unmonitoredExcept unmonitoredPair (s.storeMany pre up rs a) := by
  induction rs with
  | nil => intros; rfl
  | cons r rs ih => exact fun s a => unmonitored_bind (memWrite_unmonitored s _ _ _) fun t => ih t _

theorem loadMany_unmonitored (pre up : Bool) (rs : List Reg) : ∀ (s : State) (a : Word),
    s.unmonitored.loadMany pre up rs a = unmonitoredExcept unmonitoredPair (s.loadMany pre up rs a) := by
  induction rs with
  | nil => intros; rfl
  | cons r rs ih =>
    refine fun s a => unmonitored_bind (memRead_unmonitored s _ _) fun p => ?_
    simp only [unmonitoredPair, writeReg_unmonitored]
    exact ih _ _

theorem storeBlock_unmonitored (s : State) (pre up w : Bool) (rn : Reg) (rlist : BitVec 16) :
    s.unmonitored.storeBlock pre up w rn rlist = unmonitoredExcept State.unmonitored (s.storeBlock pre up w rn rlist) :=
  unmonitored_bind (storeMany_unmonitored _ _ _ s _) fun p => by
    cases w
    · rfl
    · exact congrArg Except.ok (writeReg_unmonitored _ _ _)

theorem loadBlock_unmonitored (s : State) (pre up w : Bool) (rn : Reg) (rlist : BitVec 16) :
    s.unmonitored.loadBlock pre up w rn rlist = unmonitoredExcept State.unmonitored (s.loadBlock pre up w rn rlist) :=
  unmonitored_bind (loadMany_unmonitored _ _ _ s _) fun p => by
    dsimp only
    split
    · exact congrArg Except.ok (writeReg_unmonitored _ _ _)
    · rfl

theorem storeLowMany_unmonitored (s : State) (rb : LowReg) (rlist : BitVec 8) :
    s.unmonitored.storeLowMany rb rlist = unmonitoredExcept State.unmonitored (s.storeLowMany rb rlist) :=
  unmonitored_bind (storeMany_unmonitored _ _ _ s _) fun _ => rfl

theorem loadLowMany_unmonitored (s : State) (rb : LowReg) (rlist : BitVec 8) :
    s.unmonitored.loadLowMany rb rlist = unmonitoredExcept State.unmonitored (s.loadLowMany rb rlist) :=
  unmonitored_bind (loadMany_unmonitored _ _ _ s _) fun p => by
    dsimp only
    split <;> rfl

theorem push_unmonitored (s : State) (lr : Bool) (rlist : BitVec 8) :
    s.unmonitored.push lr rlist = unmonitoredExcept State.unmonitored (s.push lr rlist) :=
  unmonitored_bind (storeMany_unmonitored _ _ _ s _) fun _ => rfl

theorem pop_unmonitored (s : State) (pc : Bool) (rlist : BitVec 8) :
    s.unmonitored.pop pc rlist = unmonitoredExcept State.unmonitored (s.pop pc rlist) :=
  unmonitored_bind (loadMany_unmonitored _ _ _ s _) fun p => by
    cases pc with
    | false => rfl
    | true =>
      exact unmonitored_bind (memRead_unmonitored p.2 _ _) fun q =>
        congrArg Except.ok (writePc_unmonitored (q.2.setX Reg.sp (p.1 + 4)) q.1)

/-! ## Every instruction, and a step -/

/-- An unmonitored state runs to what the state runs to, unmonitored. An arm whose operation is a plain update of registers or
flags does so by unfolding; the other cases stand by their operation. -/
theorem exec_unmonitored (i : Instr) (s : State) : exec i s.unmonitored = unmonitoredResult (exec i s) := by
  cases i with
  -- Compact: register and ALU operations
  | tLslImm | tLsrImm | tAsrImm | tLslReg | tLsrReg | tAsrReg | tRorReg | tAddReg | tSubReg | tAddImm3 | tSubImm3
  | tAddImm8 | tSubImm8 | tAdc | tSbc | tNeg | tMovImm | tAnd | tEor | tOrr | tBic | tMvn | tCmpImm | tCmpReg | tCmn
  | tCmpHi | tTst | tMul | tAddPc | tAddSp | tIncSp | tDecSp | tBlFirst => rfl
  | tUndef12a | tUndef12b | tUndef13a | tUndef13b | tUndef13c | tUndef17 => rfl
  | tAddHi | tMovHi => exact congrArg Host.Outcome.next (writeReg_unmonitored s _ _)
  -- Compact: branches
  | tBx => exact congrArg Host.Outcome.next (branchExchange_unmonitored s _)
  | tBlx => exact congrArg Host.Outcome.next (branchExchange_unmonitored (s.setX Reg.lr _) _)
  | tBCond c => exact congrArg Host.Outcome.next (branch_unmonitored s c _)
  | tB => exact congrArg Host.Outcome.next (writePc_unmonitored s _)
  | tBlSecond => exact congrArg Host.Outcome.next (writePc_unmonitored (s.setX Reg.lr _) _)
  -- Compact: loads and stores
  | tLdrPc | tLdrReg | tLdrbReg | tLdrhReg | tLdrImm | tLdrbImm | tLdrhImm | tLdrSp =>
    exact unmonitored_outcome (loadLow_unmonitored s _ _ _)
  | tLdrsbReg | tLdrshReg => exact unmonitored_outcome (loadLowSigned_unmonitored s _ _ _)
  | tStrReg | tStrbReg | tStrhReg | tStrImm | tStrbImm | tStrhImm | tStrSp =>
    exact unmonitored_outcome (memWrite_unmonitored s _ _ _)
  | tPush => exact unmonitored_outcome (push_unmonitored s _ _)
  | tPop => exact unmonitored_outcome (pop_unmonitored s _ _)
  | tStmia => exact unmonitored_outcome (storeLowMany_unmonitored s _ _)
  | tLdmia => exact unmonitored_outcome (loadLowMany_unmonitored s _ _)
  -- Full: data processing
  | aAndShImm | aAndShReg | aAndImm | aEorShImm | aEorShReg | aEorImm | aOrrShImm | aOrrShReg | aOrrImm
  | aMovShImm | aMovShReg | aMovImm | aBicShImm | aBicShReg | aBicImm | aMvnShImm | aMvnShReg | aMvnImm =>
    exact unmonitored_whenPassed (congrArg Host.Outcome.next (logic_unmonitored s _ _ _ _))
  | aSubShImm | aSubShReg | aSubImm | aRsbShImm | aRsbShReg | aRsbImm | aAddShImm | aAddShReg | aAddImm
  | aAdcShImm | aAdcShReg | aAdcImm | aSbcShImm | aSbcShReg | aSbcImm | aRscShImm | aRscShReg | aRscImm =>
    exact unmonitored_whenPassed (congrArg Host.Outcome.next (arith_unmonitored s _ _ _))
  | aTstShImm | aTstShReg | aTstImm | aTeqShImm | aTeqShReg | aTeqImm
  | aCmpShImm | aCmpShReg | aCmpImm | aCmnShImm | aCmnShReg | aCmnImm => exact unmonitored_whenPassed rfl
  -- Full: multiplies and status
  | aMul | aMla => exact unmonitored_whenPassed (congrArg Host.Outcome.next (product_unmonitored s _ _ _))
  | aUmull | aUmlal | aSmull | aSmlal =>
    exact unmonitored_whenPassed (congrArg Host.Outcome.next (longProduct_unmonitored s _ _ _ _))
  | aSmlalxy => exact unmonitored_whenPassed (congrArg Host.Outcome.next (writeLong_unmonitored s _ _ _))
  | aSmlaxy | aSmlawy | aSmulwy | aSmulxy | aMrs | aClz =>
    exact unmonitored_whenPassed (congrArg Host.Outcome.next (writeReg_unmonitored s _ _))
  | aMsrReg | aMsrImm => exact unmonitored_whenPassed rfl
  -- Full: branches
  | aB => exact unmonitored_whenPassed (congrArg Host.Outcome.next (writePc_unmonitored s _))
  | aBl => exact unmonitored_whenPassed (congrArg Host.Outcome.next (writePc_unmonitored (s.setX Reg.lr _) _))
  | aBx => exact unmonitored_whenPassed (congrArg Host.Outcome.next (branchExchange_unmonitored s _))
  | aBlxReg =>
    exact unmonitored_whenPassed (congrArg Host.Outcome.next (branchExchange_unmonitored (s.setX Reg.lr _) _))
  -- Full: loads and stores
  | aLdrPreImm | aLdrPostImm | aLdrtImm | aLdrbPreImm | aLdrbPostImm | aLdrbtImm
  | aLdrPreReg | aLdrPostReg | aLdrtReg | aLdrbPreReg | aLdrbPostReg | aLdrbtReg | aLdrh =>
    exact unmonitored_whenPassed (unmonitored_outcome (load_unmonitored s _ _ _ _))
  | aStrPreImm | aStrPostImm | aStrtImm | aStrbPreImm | aStrbPostImm | aStrbtImm
  | aStrPreReg | aStrPostReg | aStrtReg | aStrbPreReg | aStrbPostReg | aStrbtReg | aStrh =>
    exact unmonitored_whenPassed (unmonitored_outcome (store_unmonitored s _ _ _ _))
  | aLdrsb | aLdrsh => exact unmonitored_whenPassed (unmonitored_outcome (loadSigned_unmonitored s _ _ _ _))
  | aSwp | aSwpb => exact unmonitored_whenPassed (unmonitored_outcome (swap_unmonitored s _ _ _ _))
  | aStmda | aStmia | aStmdb | aStmib =>
    exact unmonitored_whenPassed (unmonitored_outcome (storeBlock_unmonitored s _ _ _ _ _))
  | aLdmda | aLdmia | aLdmdb | aLdmib =>
    exact unmonitored_whenPassed (unmonitored_outcome (loadBlock_unmonitored s _ _ _ _ _))
  | aUndefMul001 | aUndefMul11 | aUndefSwap01 | aUndefSwap10 | aUndefSwap11 | aUndefLdrd | aUndefStrd
  | aUndefMisc0001op00 | aUndefMisc0001op10 | aUndefMisc0011op00 | aUndefMisc0011op10 | aUndefMisc0011op11
  | aUndefMisc0010 | aUndefMisc0100 | aUndefMisc0101 | aUndefMisc0110 | aUndefMisc0111
  | aUndefImm | aUndefRegOff | aUndefCop => exact unmonitored_whenPassed rfl

theorem execute_unmonitored (value : Word) (mode : Bool) (s : State) :
    execute value mode s.unmonitored = unmonitoredResult (execute value mode s) := by
  have ht : s.unmonitored.flagT = s.flagT := rfl
  rw [execute, execute, ht]
  split
  · rfl
  · cases decodeValue mode value with
    | error _ => rfl
    | ok i => exact exec_unmonitored i s.begin

theorem step_unmonitored (s : State) : step s.unmonitored = unmonitoredResult (step s) := by
  have hf : s.unmonitored.fetch = unmonitoredExcept id s.fetch := rawRead_unmonitored s s.fetchAddr s.fetchSize
  rw [step, step, hostRound, hostRound, hf]
  cases s.fetch with
  | error _ => rfl
  | ok value => exact execute_unmonitored value s.flagT s

theorem eq_next_of_unmonitoredResult {out : Result} {t : State} (h : unmonitoredResult out = .next t) :
    ∃ u, out = .next u ∧ u.unmonitored = t := by
  cases out with
  | next u => exact ⟨u, rfl, Host.Outcome.next.inj h⟩
  | fault _ => cases h
  | refused _ => cases h

theorem eq_fault_of_unmonitoredResult {out : Result} {e : Fault} (h : unmonitoredResult out = .fault e) :
    ∃ e', out = .fault e' := by
  cases out with
  | fault e' => exact ⟨e', rfl⟩
  | next _ => cases h
  | refused _ => cases h

/-- Settles O58: two such states have one unmonitored state, so their steps are one step unmonitored. -/
theorem monitorsChangeOnlyTheMonitorOutput : Obligations.MonitorsChangeOnlyTheMonitorOutput := by
  intro s s' h
  have hstep : unmonitoredResult (step s') = unmonitoredResult (step s) := by
    rw [← step_unmonitored, ← step_unmonitored, (sameButMonitors_iff s s').1 h]
  refine ⟨fun t ht => ?_, fun ⟨e, he⟩ => ?_⟩
  · rw [ht] at hstep
    obtain ⟨t', ht', hu⟩ := eq_next_of_unmonitoredResult hstep
    exact ⟨t', ht', (sameButMonitors_iff t t').2 hu⟩
  · rw [he] at hstep
    exact eq_fault_of_unmonitoredResult hstep

end Sys2Proof.Machine
end

section
/-! SUPPORT. The statements about reset, the entry of a state, the pc-write, the fetch and the branch-exchange. -/

namespace Sys2Proof.Machine

/-! ## Reset and entry -/

theorem setX_pc_fetchAddr (s : State) (v : Word) : (s.setX Reg.pc (v + s.width)).fetchAddr = v := by
  have hw : (s.setX Reg.pc (v + s.width)).width = s.width := rfl
  rw [State.fetchAddr, x_setX_self, hw, BitVec.add_sub_cancel]

/-- Settles O1: the values are those of the literals, and an entry is a write of slot 15. -/
theorem resetIsTheLaunchState : Obligations.ResetIsTheLaunchState := by
  refine ⟨by decide, rfl, rfl, by decide, by decide, rfl, by decide, rfl, rfl, fun s entry => ?_⟩
  rw [enteredAt_eq]
  exact ⟨x_setX_self _ _ _, setX_pc_fetchAddr s entry, setX_frame _ _ _⟩

/-- Settles O2: both parts are facts about one literal state. -/
theorem resetMeetsTheInvariant : Obligations.ResetMeetsTheInvariant :=
  ⟨reset_mem_wf, by unfold State.PcAligned; decide⟩

/-! ## The pc-write -/

theorem pcStored_eq (s : State) (t : Word) :
    pcStored s.flagT t = (if s.flagT then t &&& 0xFFFFFFFE else t &&& 0xFFFFFFFC) + s.width := by
  unfold pcStored State.width; split <;> rfl

/-- Settles O21: the pc-write stores the aligned target plus the width, which the fetch takes off again. -/
theorem pcWriteAlignsTheNextFetch : Obligations.PcWriteAlignsTheNextFetch := by
  intro s t
  obtain ⟨hx, hframe⟩ := moveDone_writePc s t
  refine ⟨?_, hx, hframe, if_pos rfl⟩
  rw [writePc_eq, pcStored_eq, setX_pc_fetchAddr]

/-! ## The fetch and the checks of `execute` -/

theorem valueAt_half_lt (s : State) (a : Word) : (s.valueAt a .half).toNat < 0x10000 := by
  rw [valueAt_half, BitVec.toNat_ofNat]
  omega

/-- The two bytes of a compact fetch decode as the value it reads does (20_memory R85, 30_encoding R134). -/
theorem decodeBytes_compact (s : State) (a : Word) :
    decodeBytes true ((List.range Size.half.bytes).map (s.spanByte a)) =
      .ok (decodeCompact ((s.valueAt a .half).setWidth 16), []) := by
  have hv : (s.valueAt a .half).setWidth 16 = BitVec.ofNat 16 (ofBytesLE [s.spanByte a 0, s.spanByte a 1]) := by
    rw [valueAt_half]
    apply BitVec.eq_of_toNat_eq
    simp only [ofBytesLE, BitVec.toNat_setWidth, BitVec.toNat_ofNat]
    omega
  rw [hv]; rfl

/-- The four bytes of a full fetch decode as the value it reads does. -/
theorem decodeBytes_full (s : State) (a : Word) :
    decodeBytes false ((List.range Size.word.bytes).map (s.spanByte a)) = .ok (decodeFull (s.valueAt a .word), []) := by
  have hv : s.valueAt a .word =
      BitVec.ofNat 32 (ofBytesLE [s.spanByte a 0, s.spanByte a 1, s.spanByte a 2, s.spanByte a 3]) := by
    rw [valueAt_word]
    congr 1
    simp only [ofBytesLE]
    omega
  rw [hv]; rfl

theorem step_of_fits {s : State} (h : s.Fits s.fetchAddr s.fetchSize) :
    step s = execute (s.valueAt s.fetchAddr s.fetchSize) s.flagT s := by
  rw [step, hostRound, State.fetch, rawRead_eq h]

theorem step_of_short {s : State} (h : ¬ s.Fits s.fetchAddr s.fetchSize) :
    step s = .fault (.regionShort s (regionIndex s.fetchAddr)) := by
  rw [step, hostRound, State.fetch, rawRead_short h]

/-- Settles O5: the fetched bytes decode as the fetched value does, and `execute` in the state's own mode runs that. -/
theorem stepRunsTheDecodedInstruction : Obligations.StepRunsTheDecodedInstruction := by
  refine fun s => ⟨fun i rest hfit hdec => ?_, step_of_short, ?_, begin_keepsRegs s, rfl, rfl, rfl, rfl⟩
  · rw [step_of_fits hfit]
    cases ht : s.flagT with
    | true =>
      have hz : s.fetchSize = .half := if_pos ht
      rw [ht, hz, decodeBytes_compact] at hdec
      cases hdec
      rw [hz]
      exact execute_compact ht (valueAt_half_lt s _)
    | false =>
      have hz : s.fetchSize = .word := if_neg (by simp [ht])
      rw [ht, hz, decodeBytes_full] at hdec
      cases hdec
      rw [hz]
      exact execute_full _ ht
  · rw [begin_x, if_pos rfl, State.fetchAddr, BitVec.sub_add_cancel]

/-- Settles O53: the two checks stand before the dispatch in the order of 60_exceptions R552. -/
theorem modeAndWidthDefects : Obligations.ModeAndWidthDefects := by
  refine fun v mode s => ⟨fun hm => if_pos hm, ?_, ?_, ?_⟩
  · rintro rfl ht hv
    exact execute_wide ht hv
  · rintro rfl ht hv
    exact execute_compact ht hv
  · rintro rfl ht
    exact execute_full v ht

/-! ## The branch-exchange -/

/-- The branch-exchange after a link: LR holds the link and PSR.T and x[15] follow the target (41 R285, 45 R453). -/
theorem link_branchExchange_done (s : State) (link v : Word) :
    ((s.setX Reg.lr link).branchExchange v).flagT = v.getLsbD 0 ∧
      ((s.setX Reg.lr link).branchExchange v).x Reg.pc = pcStored (v.getLsbD 0) v ∧
      ((s.setX Reg.lr link).branchExchange v).x Reg.lr = link ∧
      s.Frame ((s.setX Reg.lr link).branchExchange v) [Reg.pc, Reg.lr] [5] := by
  obtain ⟨hT, hpc, hframe⟩ := branchExchange_done (s.setX Reg.lr link) v
  refine ⟨hT, hpc, ?_, frame_mono (frame_trans (setX_frame s Reg.lr link) hframe) (by simp) (by simp)⟩
  rw [hframe.1 Reg.lr (by decide), x_setX_self]

/-- Settles O27: each form is the branch-exchange, after the link for BLX. -/
theorem branchExchange : Obligations.BranchExchange := by
  intro r c s hc
  refine ⟨⟨_, rfl, branchExchange_done s _⟩, ⟨_, whenPassed_of_passes hc, branchExchange_done s _⟩,
    ⟨_, rfl, link_branchExchange_done s _ _⟩, ⟨_, whenPassed_of_passes hc, link_branchExchange_done s _ _⟩⟩

end Sys2Proof.Machine
end

section
/-! SUPPORT. The statements about memory accesses, the copy and the DMA transfer (20_memory R82 to R106): what a copy leaves, what
the clear of the enable bit leaves, and the transfer as the one after the other. -/

namespace Sys2Proof.Machine

/-! ## The defects of a short region -/

theorem not_fits_of_lt {s : State} {a : Word} {z : Size} (h : (s.region (regionIndex a)).len < z.bytes) : ¬ s.Fits a z :=
  Nat.not_le.2 h

theorem memCopy_long {s : State} {src dst : Word} {n : Nat} (hn : n ≠ 0)
    (h : (s.region (regionIndex src)).len < n ∨ (s.region (regionIndex dst)).len < n) :
    s.memCopy src dst n = .error (.copyTooLong s) := by
  rw [State.memCopy, if_neg hn, if_pos h]

/-- Settles O54: no access of a region too short for it gets past its first raw read or write. -/
theorem shortRegionDefect : Obligations.ShortRegionDefect := by
  refine fun s a b v z n => ⟨fun h => ?_, memCopy_long⟩
  have hf := not_fits_of_lt h
  exact ⟨rawRead_short hf, memRead_short hf, memReadS_short hf, rawWrite_short v hf, memWrite_short hf⟩

/-! ## Reading back a store -/

theorem low_eq_ofNat (z : Size) (v : Word) : z.low v = BitVec.ofNat 32 (v.toNat % 2 ^ (8 * z.bytes)) := by
  apply BitVec.eq_of_toNat_eq
  cases z
  case word => simp [Size.low, Size.bytes, Nat.mod_eq_of_lt v.isLt]
  all_goals simp [Size.low, Size.bytes]

/-- A store that starts no DMA and completes is the plain store. -/
theorem eq_plainStore_of_memWrite {s t : State} {a v : Word} {z : Size} (hw : s.mem.wf) (hd : s.triggersDma a z v = false)
    (h : s.memWrite a z v = .ok t) : s.Fits a z ∧ t = s.plainStore a z v := by
  obtain ⟨hf, u, hu, ht⟩ := stored_of_memWrite hw h
  rw [if_neg (by simp [hd])] at ht
  exact ⟨hf, ht.trans (hu.eq_plainStore hw hf)⟩

/-- An access that starts `k` bytes past the last place where it does not wrap has its top `k` bytes at the region's start. -/
theorem spanByte_wrapped {s : State} {a : Word} {n k j : Nat} (hn : n ≤ (s.region (regionIndex a)).len) (hk : k < n)
    (ho : s.offset a = (s.region (regionIndex a)).len - n + k) (hj : j < k) :
    s.spanByte a (n - k + j) = (s.region (regionIndex a)).get j := by
  have hi : s.offset a + (n - k + j) = j + (s.region (regionIndex a)).len := by omega
  rw [State.spanByte, hi, Nat.add_mod_right, Nat.mod_eq_of_lt (by omega)]

/-- Settles O55: the store is the plain store, whose span holds the bytes of the value wherever it lies. -/
theorem readBackAfterWrite : Obligations.ReadBackAfterWrite := by
  intro s t a v z hw hd h
  obtain ⟨hf, rfl⟩ := eq_plainStore_of_memWrite hw hd h
  obtain ⟨hbytes, -, -, -, -, hlen, -, -⟩ := storedPlain_plainStore (v := v) hw hf
  constructor
  · have hread := memRead_eq ((fits_of_len (hlen _)).2 hf)
    rw [valueAt_congr plainStore_mem, written_valueAt hw hf, low_eq_ofNat] at hread
    exact ⟨_, hread⟩
  · rintro k - hk rfl ho j hj
    rw [← spanByte_wrapped (n := 4) (k := k) (by rw [hlen]; exact hf) hk (by rw [offset_of_len (hlen _), hlen]; exact ho) hj]
    exact hbytes _ (by simp only [Size.bytes]; omega)

/-! ## The copy -/

/-- What a copy leaves: the old source bytes at the destination, and everything else as it was (20_memory R93, R94). -/
structure State.CopyLeaves (s t : State) (src dst : Word) (n : Nat) : Prop where
  moved : ∀ i, i < n → t.spanByte dst i = s.spanByte src i
  outside : ∀ b, s.covers dst n b = false → t.byteAt b = s.byteAt b
  memoryOnly : s.MemoryOnly t

theorem memCopy_leaves {s t : State} {src dst : Word} {n : Nat} (hw : s.mem.wf) (h : s.memCopy src dst n = .ok t) :
    s.CopyLeaves t src dst n := by
  have hm := memCopy_memoryOnly h
  rcases memCopy_cases s src dst n with ⟨rfl, e⟩ | ⟨hn, -, hd, e⟩ | ⟨-, e⟩ <;> cases e.symm.trans h
  · exact ⟨fun i hi => absurd hi i.not_lt_zero, fun _ _ => rfl, hm⟩
  · exact ⟨fun _ hi => copied_spanByte hw hd hi, fun _ hb => copied_byteAt hw hn hd hb, hm⟩

/-- An address that selects byte `i` of the destination reads the old byte `i` of the source. -/
theorem State.CopyLeaves.byteAt_moved {s t : State} {src dst b : Word} {n i : Nat} (h : s.CopyLeaves t src dst n) (hi : i < n)
    (hr : regionIndex b = regionIndex dst) (ho : s.offset b = (s.offset dst + i) % (s.region (regionIndex dst)).len) :
    t.byteAt b = s.spanByte src i := by
  obtain ⟨-, -, -, -, hlen, -⟩ := h.memoryOnly
  rw [← h.moved i hi, State.byteAt, State.spanByte, offset_of_len (hlen _), offset_of_len (hlen _), hlen, ho, hr]

/-- A copy of nothing, or between regions that hold it, completes. -/
theorem memCopy_ok {s : State} {src dst : Word} {n : Nat}
    (h : n = 0 ∨ n ≤ (s.region (regionIndex src)).len ∧ n ≤ (s.region (regionIndex dst)).len) :
    ∃ t, s.memCopy src dst n = .ok t := by
  by_cases hn : n = 0
  · exact ⟨s, if_pos hn⟩
  · obtain ⟨hs, hd⟩ := h.resolve_left hn
    exact ⟨_, memCopy_eq hn hs hd⟩

/-- Settles O56: a copy whose regions hold it completes, and `CopyLeaves` says what any copy that completes leaves. -/
theorem copyReadsBeforeItWrites : Obligations.CopyReadsBeforeItWrites := by
  refine fun s src dst n hw => ⟨if_pos rfl, memCopy_long, fun hs hd => ?_⟩
  obtain ⟨t, ht⟩ := memCopy_ok (.inr ⟨hs, hd⟩)
  obtain ⟨hmoved, hout, hregs, hpsr, hbreak, hhost, hlen, hwf⟩ := memCopy_leaves hw ht
  exact ⟨t, ht, hmoved, hout, hregs, hpsr, hbreak, hhost, hlen, hwf hw⟩

/-! ## The DMA transfer -/

theorem dmaCleared_outside {s : State} (hw : s.mem.wf) (h : 4 ≤ (s.region 4).len) (b : Word)
    (hb : s.covers s.enableAddr 1 b = false) : s.dmaCleared.byteAt b = s.byteAt b :=
  written_byteAt hw (dma_fits h).2.2.2.2 hb

/-- The clear makes the enable bit 0 and keeps the other bits of the enable byte. -/
theorem dmaCleared_enable {s : State} (hw : s.mem.wf) (h : 4 ≤ (s.region 4).len) (k : Nat) :
    (s.dmaCleared.byteAt s.enableAddr).getLsbD k = if k = s.enableBit then false else (s.byteAt s.enableAddr).getLsbD k := by
  by_cases hk : k < 8
  · rw [← spanByte_zero, ← spanByte_zero, ← getLsbD_valueAt_byte _ _ hk, ← getLsbD_valueAt_byte _ _ hk, State.dmaCleared,
      written_valueAt hw (dma_fits h).2.2.2.2, ← getLsbD_setBit _ _ _ _ (by omega)]
    simp [Size.low, hk, show k < 32 by omega]
  · rw [BitVec.getLsbD_of_ge _ _ (by omega), BitVec.getLsbD_of_ge _ _ (by omega), ite_self]

/-- A transfer with room is a copy, then the clear. -/
theorem dmaTransfer_of_fits {s : State} (h : s.DmaFits) :
    ∃ u, s.memCopy (s.valueAt dmaSad .word) (s.valueAt dmaDad .word) s.dmaSize = .ok u ∧
      s.dmaTransfer = .ok u.dmaCleared := by
  obtain ⟨u, hu⟩ := memCopy_ok h.2
  exact ⟨u, hu, by rw [dmaTransfer_eq h.1, hu]⟩

/-- Settles O57: outside the enable byte the transfer leaves what the copy left, and in it all but the enable bit. -/
theorem dmaTransferCopiesThenClears : Obligations.DmaTransferCopiesThenClears := by
  intro s hw
  refine ⟨dmaTransfer_short, fun h4 hn hlong => ?_, fun h4 hfit => ?_⟩
  · have hcopy : s.memCopy (s.valueAt dmaSad .word) (s.valueAt dmaDad .word) s.dmaSize = .error (.copyTooLong s) :=
      memCopy_long hn hlong
    rw [dmaTransfer_eq h4, hcopy]
  · obtain ⟨u, hu, ht⟩ := dmaTransfer_of_fits ⟨h4, hfit⟩
    have hcopy := memCopy_leaves hw hu
    obtain ⟨-, -, -, hhost, hlen, hwf⟩ := hcopy.memoryOnly
    obtain ⟨tregs, tpsr, tbreak, thost, tlen, twf⟩ := dmaTransfer_memoryOnly ht
    have h4u : 4 ≤ (u.region 4).len := by rw [hlen]; exact h4
    have hea : u.enableAddr = s.enableAddr := by simp only [State.enableAddr, hhost]
    have heb : u.enableBit = s.enableBit := by simp only [State.enableBit, hhost]
    have hclear := dmaCleared_outside (hwf hw) h4u
    have hbit := dmaCleared_enable (hwf hw) h4u
    simp only [covers_congr hlen, hea] at hclear
    simp only [hea, heb] at hbit
    have hkept (k : Nat) (hk : k ≠ s.enableBit) :
        (u.dmaCleared.byteAt s.enableAddr).getLsbD k = (u.byteAt s.enableAddr).getLsbD k := (hbit k).trans (if_neg hk)
    exact ⟨_, ht, fun b he hd => (hclear b he).trans (hcopy.outside b hd),
      fun i hi b hr ho he => (hclear b he).trans (hcopy.byteAt_moved hi hr ho), (hbit _).trans (if_pos rfl),
      fun k hk hd => (hkept k hk).trans (congrArg (BitVec.getLsbD · k) (hcopy.outside _ hd)),
      fun i k hi hr ho hk => (hkept k hk).trans (congrArg (BitVec.getLsbD · k) (hcopy.byteAt_moved hi hr ho)),
      tregs, tpsr, tbreak, thost, tlen, twf hw⟩

end Sys2Proof.Machine
end

section
/-! SUPPORT. Roomy machines: where every region is long enough, every access completes, so every operation, every instruction and
every step does. Then runs: the steps that lead to STOP first are the run that ends there (70_reset R586). -/

namespace Sys2Proof.Machine

/-! ## Accesses of a roomy machine -/

/-- A computation completes when its first part does and its rest does on what that answers. -/
theorem exists_bind_eq_ok {α β : Type} {e : Except Fault α} {f : α → Except Fault β} (he : ∃ a, e = .ok a)
    (hf : ∀ a, e = .ok a → ∃ b, f a = .ok b) : ∃ b, e >>= f = .ok b := by
  obtain ⟨a, rfl⟩ := he
  exact hf a rfl

section Roomy
variable {s t : State}

theorem State.Roomy.of_keepsLayout (h : s.Roomy) (hk : s.KeepsLayout t) : t.Roomy := fun r => by
  rw [hk.lengths]; exact h r

theorem State.Roomy.fits (h : s.Roomy) (a : Word) (z : Size) : s.Fits a z := (h.storeFits a z 0).1

theorem State.Roomy.memRead_ok (h : s.Roomy) (a : Word) (z : Size) : ∃ p, s.memRead a z = .ok p :=
  ⟨_, memRead_eq (h.fits a z)⟩

theorem State.Roomy.dmaCheck_ok (h : s.Roomy) (a : Word) (z : Size) : ∃ t, s.dmaCheck a z = .ok t := by
  rw [State.dmaCheck, rawRead_eq (h.fits _ _)]
  dsimp only [bind, Except.bind]
  split
  · split
    · exact dmaTransfer_ok h.dmaFits
    · exact ⟨s, rfl⟩
  · exact ⟨s, rfl⟩

/-- A store completes, with the DMA it may start, in any memory: the canonical form is not needed. -/
theorem State.Roomy.memWrite_ok (h : s.Roomy) (a : Word) (z : Size) (v : Word) : ∃ t, s.memWrite a z v = .ok t := by
  have hroomy : (s.plainStore a z v).Roomy := fun r => by rw [plainStore_len]; exact h r
  rw [State.memWrite, rawRead_eq (h.fits a z), rawWrite_eq v (h.fits a z)]
  exact hroomy.dmaCheck_ok a z

theorem State.Roomy.load_ok (h : s.Roomy) (m : Address) (rn rd : Reg) (z : Size) : ∃ t, s.load m rn rd z = .ok t :=
  ⟨_, load_eq (h.fits _ z)⟩

theorem State.Roomy.loadSigned_ok (h : s.Roomy) (m : Address) (rn rd : Reg) (z : Size) :
    ∃ t, s.loadSigned m rn rd z = .ok t := ⟨_, loadSigned_eq (h.fits _ z)⟩

theorem State.Roomy.loadLow_ok (h : s.Roomy) (a : Word) (z : Size) (rd : LowReg) : ∃ t, s.loadLow a z rd = .ok t :=
  ⟨_, loadLow_eq (h.fits a z)⟩

theorem State.Roomy.loadLowSigned_ok (h : s.Roomy) (a : Word) (z : Size) (rd : LowReg) :
    ∃ t, s.loadLowSigned a z rd = .ok t := ⟨_, loadLowSigned_eq (h.fits a z)⟩

theorem State.Roomy.store_ok (h : s.Roomy) (m : Address) (rn rd : Reg) (z : Size) : ∃ t, s.store m rn rd z = .ok t :=
  exists_bind_eq_ok (h.memWrite_ok _ _ _) fun _ _ => ⟨_, rfl⟩

theorem State.Roomy.swap_ok (h : s.Roomy) (rn rd rm : Reg) (z : Size) : ∃ t, s.swap rn rd rm z = .ok t :=
  exists_bind_eq_ok (h.memRead_ok _ _) fun ⟨_, _⟩ hu =>
    exists_bind_eq_ok ((h.of_keepsLayout (memRead_keepsLayout hu)).memWrite_ok _ _ _) fun _ _ => ⟨_, rfl⟩

/-! ## Lists of accesses -/

theorem State.Roomy.storeMany_ok (pre up : Bool) : ∀ (rs : List Reg) {s : State}, s.Roomy → ∀ a,
    ∃ p, s.storeMany pre up rs a = .ok p
  | [], s, _, a => ⟨(a, s), rfl⟩
  | _ :: rs, _, h, _ => exists_bind_eq_ok (h.memWrite_ok _ _ _) fun _ hu =>
      storeMany_ok pre up rs (h.of_keepsLayout (memWrite_keepsLayout hu)) _

theorem State.Roomy.loadMany_ok (pre up : Bool) : ∀ (rs : List Reg) {s : State}, s.Roomy → ∀ a,
    ∃ p, s.loadMany pre up rs a = .ok p
  | [], s, _, a => ⟨(a, s), rfl⟩
  | _ :: rs, _, h, _ => exists_bind_eq_ok (h.memRead_ok _ _) fun ⟨_, _⟩ hu =>
      loadMany_ok pre up rs (h.of_keepsLayout ((memRead_keepsLayout hu).trans (writeReg_keepsLayout _ _ _))) _

theorem State.Roomy.storeBlock_ok (h : s.Roomy) (pre up w : Bool) (rn : Reg) (rlist : BitVec 16) :
    ∃ t, s.storeBlock pre up w rn rlist = .ok t :=
  exists_bind_eq_ok (h.storeMany_ok _ _ _ _) fun _ _ => ⟨_, rfl⟩

theorem State.Roomy.loadBlock_ok (h : s.Roomy) (pre up w : Bool) (rn : Reg) (rlist : BitVec 16) :
    ∃ t, s.loadBlock pre up w rn rlist = .ok t :=
  exists_bind_eq_ok (h.loadMany_ok _ _ _ _) fun _ _ => ⟨_, rfl⟩

theorem State.Roomy.storeLowMany_ok (h : s.Roomy) (rb : LowReg) (rlist : BitVec 8) :
    ∃ t, s.storeLowMany rb rlist = .ok t :=
  exists_bind_eq_ok (h.storeMany_ok _ _ _ _) fun _ _ => ⟨_, rfl⟩

theorem State.Roomy.loadLowMany_ok (h : s.Roomy) (rb : LowReg) (rlist : BitVec 8) : ∃ t, s.loadLowMany rb rlist = .ok t :=
  exists_bind_eq_ok (h.loadMany_ok _ _ _ _) fun _ _ => ⟨_, rfl⟩

theorem State.Roomy.push_ok (h : s.Roomy) (lr : Bool) (rlist : BitVec 8) : ∃ t, s.push lr rlist = .ok t :=
  exists_bind_eq_ok (h.storeMany_ok _ _ _ _) fun _ _ => ⟨_, rfl⟩

theorem State.Roomy.pop_ok (h : s.Roomy) (pc : Bool) (rlist : BitVec 8) : ∃ t, s.pop pc rlist = .ok t :=
  exists_bind_eq_ok (h.loadMany_ok _ _ _ _) fun ⟨_, _⟩ hu => by
    cases pc with
    | false => exact ⟨_, rfl⟩
    | true =>
      exact exists_bind_eq_ok ((h.of_keepsLayout (loadMany_keepsLayout _ hu)).memRead_ok _ _) fun _ _ => ⟨_, rfl⟩

/-! ## Every instruction, and a step -/

theorem outcome_eq_next {e : Except Fault State} (h : ∃ t, e = .ok t) : ∃ t, outcome e = .next t := by
  obtain ⟨t, rfl⟩ := h
  exact ⟨t, rfl⟩

theorem whenPassed_eq_next {c : Cond} {out : Result} (h : ∃ t, out = .next t) : ∃ t, whenPassed c s out = .next t := by
  unfold whenPassed
  split
  · exact h
  · exact ⟨s, rfl⟩

/-- An instruction without an access answers a next state in any machine; each access completes in a roomy one. -/
theorem State.Roomy.exec_eq_next (h : s.Roomy) (i : Instr) : ∃ t, exec i s = .next t := by
  cases i with
  -- Compact, with an access
  | tLdrPc | tLdrReg | tLdrbReg | tLdrhReg | tLdrImm | tLdrbImm | tLdrhImm | tLdrSp =>
    exact outcome_eq_next (h.loadLow_ok _ _ _)
  | tLdrsbReg | tLdrshReg => exact outcome_eq_next (h.loadLowSigned_ok _ _ _)
  | tStrReg | tStrbReg | tStrhReg | tStrImm | tStrbImm | tStrhImm | tStrSp => exact outcome_eq_next (h.memWrite_ok _ _ _)
  | tPush => exact outcome_eq_next (h.push_ok _ _)
  | tPop => exact outcome_eq_next (h.pop_ok _ _)
  | tStmia => exact outcome_eq_next (h.storeLowMany_ok _ _)
  | tLdmia => exact outcome_eq_next (h.loadLowMany_ok _ _)
  -- Compact, without one
  | tLslImm | tLsrImm | tAsrImm | tLslReg | tLsrReg | tAsrReg | tRorReg | tAddReg | tSubReg | tAddImm3 | tSubImm3
  | tAddImm8 | tSubImm8 | tAdc | tSbc | tNeg | tMovImm | tAnd | tEor | tOrr | tBic | tMvn | tCmpImm | tCmpReg | tCmn
  | tCmpHi | tTst | tMul | tAddHi | tMovHi | tAddPc | tAddSp | tIncSp | tDecSp | tBx | tBlx | tBCond | tB | tBlFirst
  | tBlSecond | tUndef12a | tUndef12b | tUndef13a | tUndef13b | tUndef13c | tUndef17 => exact ⟨_, rfl⟩
  -- Full, with an access
  | aLdrPreImm | aLdrPostImm | aLdrtImm | aLdrbPreImm | aLdrbPostImm | aLdrbtImm
  | aLdrPreReg | aLdrPostReg | aLdrtReg | aLdrbPreReg | aLdrbPostReg | aLdrbtReg | aLdrh =>
    exact whenPassed_eq_next (outcome_eq_next (h.load_ok _ _ _ _))
  | aLdrsb | aLdrsh => exact whenPassed_eq_next (outcome_eq_next (h.loadSigned_ok _ _ _ _))
  | aStrPreImm | aStrPostImm | aStrtImm | aStrbPreImm | aStrbPostImm | aStrbtImm
  | aStrPreReg | aStrPostReg | aStrtReg | aStrbPreReg | aStrbPostReg | aStrbtReg | aStrh =>
    exact whenPassed_eq_next (outcome_eq_next (h.store_ok _ _ _ _))
  | aSwp | aSwpb => exact whenPassed_eq_next (outcome_eq_next (h.swap_ok _ _ _ _))
  | aStmda | aStmia | aStmdb | aStmib => exact whenPassed_eq_next (outcome_eq_next (h.storeBlock_ok _ _ _ _ _))
  | aLdmda | aLdmia | aLdmdb | aLdmib => exact whenPassed_eq_next (outcome_eq_next (h.loadBlock_ok _ _ _ _ _))
  -- Full, without one
  | _ => exact whenPassed_eq_next ⟨_, rfl⟩

/-- A fetch that fits runs an instruction: it is read in the state's own mode, so no check of `execute` fails. -/
theorem exists_step_eq_exec (h : s.Fits s.fetchAddr s.fetchSize) : ∃ i, step s = exec i s.begin := by
  rw [step_of_fits h]
  cases ht : s.flagT with
  | true =>
    have hz : s.fetchSize = .half := if_pos ht
    rw [hz]
    exact ⟨_, execute_compact ht (valueAt_half_lt s _)⟩
  | false => exact ⟨_, execute_full _ ht⟩

theorem State.Roomy.step_eq_next (h : s.Roomy) : ∃ t, step s = .next t ∧ t.Roomy := by
  obtain ⟨i, hi⟩ := exists_step_eq_exec (h.fits _ _)
  obtain ⟨t, ht⟩ := (h.of_keepsLayout (begin_keepsLayout s)).exec_eq_next i
  have hstep := hi.trans ht
  exact ⟨t, hstep, h.of_keepsLayout (step_keepsLayout hstep)⟩

end Roomy

/-! ## Runs -/

section Runs
variable {stop : Word} {s t : State}

/-- Steps that are short of STOP are steps of the run. -/
theorem run_of_stepsTo : ∀ {n : Nat} {s : State}, StepsTo n s t →
    (∀ m u, m < n → StepsTo m s u → u.fetchAddr ≠ stop) → run stop n s = run stop 0 t
  | 0, _, rfl, _ => rfl
  | n + 1, s, ⟨u, hu, h⟩, hs => by
    rw [run_succ n (hs 0 s n.succ_pos rfl) hu]
    exact run_of_stepsTo h fun m v hm hv => hs (m + 1) v (Nat.succ_lt_succ hm) ⟨u, hu, hv⟩

/-- A round of a run that meets no stop finds STOP, or takes a step from which the run goes on. -/
theorem run_succ_cases {n : Nat} {r : RunState} (h : run stop (n + 1) s = r) (hd : ∀ f, r ≠ .defect f)
    (hr : ∀ f, r ≠ .refused f) :
    (AtStop stop s ∧ r = .ended s) ∨ (¬ AtStop stop s ∧ ∃ u, step s = .next u ∧ run stop n u = r) := by
  by_cases hs : AtStop stop s
  · exact .inl ⟨hs, by rw [← h, run_of_atStop _ hs]⟩
  · refine .inr ⟨hs, ?_⟩
    cases hstep : step s with
    | next u => exact ⟨u, rfl, by rw [← h, run_succ _ hs hstep]⟩
    | fault f => exact absurd (by rw [← h, run_fault _ hs hstep]) (hd f)
    | refused f => exact absurd (by simp [← h, run, hs, hstep]) (hr f)

theorem stepsTo_of_run_running : ∀ {n : Nat} {s : State}, run stop n s = .running t →
    StepsTo n s t ∧ t.fetchAddr ≠ stop
  | 0, s, h => by
    by_cases hs : AtStop stop s
    · rw [run_of_atStop _ hs] at h; cases h
    · rw [run_zero hs] at h; cases h; exact ⟨rfl, hs⟩
  | n + 1, s, h => by
    rcases run_succ_cases h (by simp) (by simp) with ⟨-, e⟩ | ⟨-, u, hu, h⟩
    · cases e
    · obtain ⟨hsteps, ht⟩ := stepsTo_of_run_running h
      exact ⟨⟨u, hu, hsteps⟩, ht⟩

/-- A run that has ended ended in the first state at STOP. -/
theorem stepsTo_of_run_ended : ∀ {n : Nat} {s : State}, run stop n s = .ended t →
    ∃ k, StepsTo k s t ∧ t.fetchAddr = stop ∧ ∀ m u, m < k → StepsTo m s u → u.fetchAddr ≠ stop
  | 0, s, h => by
    by_cases hs : AtStop stop s
    · rw [run_of_atStop _ hs] at h; cases h; exact ⟨0, rfl, hs, fun m _ hm => absurd hm m.not_lt_zero⟩
    · rw [run_zero hs] at h; cases h
  | n + 1, s, h => by
    rcases run_succ_cases h (by simp) (by simp) with ⟨hs, e⟩ | ⟨hs, u, hu, h⟩
    · cases e; exact ⟨0, rfl, hs, fun m _ hm => absurd hm m.not_lt_zero⟩
    · obtain ⟨k, hsteps, ht, hfirst⟩ := stepsTo_of_run_ended h
      refine ⟨k + 1, ⟨u, hu, hsteps⟩, ht, fun m v hm hv => ?_⟩
      cases m with
      | zero => cases hv; exact hs
      | succ m =>
        obtain ⟨w, hw, hv⟩ := hv
        cases hu.symm.trans hw
        exact hfirst m v (Nat.lt_of_succ_lt_succ hm) hv

theorem runEndsIn_iff : RunEndsIn stop s t ↔
    ∃ n, StepsTo n s t ∧ t.fetchAddr = stop ∧ ∀ m u, m < n → StepsTo m s u → u.fetchAddr ≠ stop := by
  constructor
  · exact fun ⟨n, h⟩ => stepsTo_of_run_ended h
  · rintro ⟨n, h, ht, hs⟩
    exact ⟨n, by rw [run_of_stepsTo h hs, run_of_atStop 0 ht]⟩

theorem runIsInfinite_iff : RunIsInfinite stop s ↔ ∀ n, ∃ t, StepsTo n s t ∧ t.fetchAddr ≠ stop := by
  constructor
  · intro h n
    obtain ⟨t, ht⟩ := h n
    exact ⟨t, stepsTo_of_run_running ht⟩
  · intro h n
    obtain ⟨t, hsteps, ht⟩ := h n
    refine ⟨t, ?_⟩
    rw [run_of_stepsTo hsteps fun m u _ hu => ?_, run_zero ht]
    obtain ⟨v, hv, hne⟩ := h m
    rwa [hu.unique hv]

/-- A run that has met a defect stays there, however many steps are allowed. -/
theorem RunMeetsDefect.not_ends {f : Fault} : RunMeetsDefect stop s f → ¬ RunEndsIn stop s t := by
  rintro ⟨n, hn⟩ ⟨m, hm⟩
  have hdefect := run_mono m hn (by simp)
  have hended := run_mono n hm (by simp)
  rw [Nat.add_comm] at hended
  cases hdefect.symm.trans hended

theorem RunMeetsDefect.not_infinite {f : Fault} : RunMeetsDefect stop s f → ¬ RunIsInfinite stop s := by
  rintro ⟨n, hn⟩ h
  obtain ⟨t, ht⟩ := h n
  cases hn.symm.trans ht

/-- The steps of a roomy machine never stop. -/
theorem State.Roomy.stepsTo : ∀ (n : Nat) {s : State}, s.Roomy → ∃ t, StepsTo n s t
  | 0, s, _ => ⟨s, rfl⟩
  | n + 1, _, h => by
    obtain ⟨u, hu, hroomy⟩ := h.step_eq_next
    obtain ⟨t, ht⟩ := State.Roomy.stepsTo n hroomy
    exact ⟨t, u, hu, ht⟩

/-- Steps that never stop either meet STOP, and then meet it a first time, or never meet it. -/
theorem State.Roomy.run_ends_or_infinite (h : s.Roomy) (stop : Word) :
    (∃ t, RunEndsIn stop s t) ∨ RunIsInfinite stop s := by
  by_cases hstop : ∃ n t, StepsTo n s t ∧ t.fetchAddr = stop
  · classical
    obtain ⟨t, hsteps, ht⟩ := Nat.find_spec hstop
    exact .inl ⟨t, runEndsIn_iff.2 ⟨_, hsteps, ht, fun m u hm hu e => Nat.find_min hstop hm ⟨u, hu, e⟩⟩⟩
  · refine .inr (runIsInfinite_iff.2 fun n => ?_)
    obtain ⟨t, ht⟩ := h.stepsTo n
    exact ⟨t, ht, fun e => hstop ⟨n, t, ht, e⟩⟩

end Runs

/-- Settles O60: roomy machines complete every step, and a run is its steps up to the first state at STOP. -/
theorem roomyMachineNeverStops : Obligations.RoomyMachineNeverStops :=
  ⟨fun _ h => ⟨h.exec_eq_next, h.step_eq_next, h.run_ends_or_infinite⟩, fun _ _ _ => runEndsIn_iff,
    fun _ _ => runIsInfinite_iff, fun _ _ _ h => ⟨fun _ => h.not_ends, h.not_infinite⟩⟩

end Sys2Proof.Machine
end

section
/-! SUPPORT. Decoding what the encoder assembles. An assembled word reads back field for field, so the family tree and then the
handler of the family find the instruction again (30_encoding R140, R160 to R162); the scaled offsets come back because a
well-formed one fits its field (R170, R171). -/

namespace Sys2Proof

/-! ## Reading an assembled word -/

theorem getBit_put_outside {m n : Nat} (lo k : Nat) (f : BitVec n) (h : k < lo ∨ lo + n ≤ k) (hk : k < m) :
    getBit (put lo f : BitVec m) k = false := by
  rw [getBit_put lo k f hk]
  rcases h with h | h
  · simp [Nat.not_le.2 h]
  · simp [BitVec.getLsbD_of_ge f (k - lo) (by omega)]

theorem getBit_putBit_same {m : Nat} (k : Nat) (b : Bool) (hk : k < m) : getBit (putBit k b : BitVec m) k = b := by
  simp [getBit_putBit k k b hk]

theorem getBit_literal {m : Nat} (n k : Nat) (hk : k < m) :
    getBit (BitVec.ofNat m n) k = decide (n / 2 ^ k % 2 = 1) := by
  rw [getBit_ofNat, Nat.testBit_eq_decide_div_mod_eq, decide_eq_true hk, Bool.true_and]

/-- The rules by which `simp` reads an assembled word: a field reads as it was put at its own place and as 0 beside it. -/
theorem read_field {m : Nat} :
    (∀ (a b : BitVec m) (k : Nat), getBit (a ||| b) k = (getBit a k || getBit b k)) ∧
    (∀ n k : Nat, k < m → getBit (BitVec.ofNat m n) k = decide (n / 2 ^ k % 2 = 1)) ∧
    (∀ (lo k n : Nat) (f : BitVec n), k < lo ∨ lo + n ≤ k → k < m → getBit (put lo f : BitVec m) k = false) ∧
    (∀ (lo k : Nat) (r : Reg), k < lo ∨ lo + 4 ≤ k → k < m → getBit (putReg lo r : BitVec m) k = false) ∧
    (∀ (lo k : Nat) (r : LowReg), k < lo ∨ lo + 3 ≤ k → k < m → getBit (putLow lo r : BitVec m) k = false) ∧
    (∀ (lo k : Nat) (b : Bool), k < lo ∨ lo + 1 ≤ k → k < m → getBit (putBit lo b : BitVec m) k = false) ∧
    (∀ (k : Nat) (b : Bool), k < m → getBit (putBit k b : BitVec m) k = b) ∧
    (∀ (a b : BitVec m) (lo len : Nat), bits (a ||| b) lo len = bits a lo len ||| bits b lo len) ∧
    (∀ n lo len : Nat, bits (BitVec.ofNat m n) lo len = BitVec.ofNat len ((n % 2 ^ m) >>> lo)) ∧
    (∀ (lo n : Nat) (f : BitVec n), lo + n ≤ m → bits (put lo f : BitVec m) lo n = f) ∧
    (∀ (lo : Nat) (r : Reg), lo + 4 ≤ m → bits (putReg lo r : BitVec m) lo 4 = BitVec.ofFin (w := 4) r) ∧
    (∀ (lo : Nat) (r : LowReg), lo + 3 ≤ m → bits (putLow lo r : BitVec m) lo 3 = BitVec.ofFin (w := 3) r) ∧
    (∀ (k lo len n : Nat) (f : BitVec n), lo + len ≤ k ∨ k + n ≤ lo → bits (put k f : BitVec m) lo len = 0#len) ∧
    (∀ (k lo len : Nat) (r : Reg), lo + len ≤ k ∨ k + 4 ≤ lo → bits (putReg k r : BitVec m) lo len = 0#len) ∧
    (∀ (k lo len : Nat) (r : LowReg), lo + len ≤ k ∨ k + 3 ≤ lo → bits (putLow k r : BitVec m) lo len = 0#len) ∧
    (∀ (k lo len : Nat) (b : Bool), lo + len ≤ k ∨ k + 1 ≤ lo → bits (putBit k b : BitVec m) lo len = 0#len) :=
  ⟨getBit_or, getBit_literal, fun _ _ _ => getBit_put_outside _ _, fun _ _ _ => getBit_put_outside _ _ _,
    fun _ _ _ => getBit_put_outside _ _ _, fun _ _ _ => getBit_put_outside _ _ _, getBit_putBit_same, bits_or, bits_ofNat m,
    fun _ _ => bits_put_same _, bits_putReg_same, bits_putLow_same, fun _ _ _ _ => bits_put_disjoint _ _ _,
    bits_putReg_disjoint, bits_putLow_disjoint, bits_putBit_disjoint⟩

/-! ## Split fields and scaled offsets -/

theorem nibbles_append (v : BitVec 8) : (bits v 4 4 ++ bits v 0 4 : BitVec 8) = v := by revert v; decide

theorem hd_append (r : Reg) :
    (bits (BitVec.ofFin (w := 4) r) 3 1 ++ bits (BitVec.ofFin (w := 4) r) 0 3 : BitVec 4) = BitVec.ofFin r := by
  revert r; decide

/-- An unsigned offset comes back from a field that counts its scale in `0` to `n - 1`. -/
theorem scaled_readBack {offset scale top n : Nat} (h : scaled offset scale top = true) (ht : top / scale < n) :
    offset / scale % n * scale = offset := by
  simp only [scaled, Bool.and_eq_true, beq_iff_eq, decide_eq_true_eq] at h
  obtain ⟨hmod, hle⟩ := h
  rw [Nat.mod_eq_of_lt ((Nat.div_le_div_right hle).trans_lt ht), Nat.div_mul_cancel (Nat.dvd_of_mod_eq_zero hmod)]

/-- A signed offset comes back from a two's complement field of `n` values. -/
theorem signedOffset_readBack {offset scale low top : Int} {n : Nat} (h : signedOffset offset scale low top = true)
    (hs : 0 < scale) (hl : -(n / 2) ≤ low / scale) (ht : top / scale < (n + 1) / 2) :
    (offset / scale).bmod n * scale = offset := by
  simp only [signedOffset, Bool.and_eq_true, beq_iff_eq, decide_eq_true_eq] at h
  obtain ⟨⟨hmod, hlow⟩, hle⟩ := h
  rw [Int.bmod_eq_of_le (hl.trans (Int.ediv_le_ediv hs hlow)) ((Int.ediv_le_ediv hs hle).trans_lt ht),
    Int.ediv_mul_cancel (Int.dvd_of_emod_eq_zero hmod)]

/-! ## Decoding an encoded instruction, by its row of the opcode table -/

/-- The full instructions of the rows `lo` to `hi - 1`. -/
def Instr.inFullRows (i : Instr) (lo hi : Nat) : Bool :=
  i.gate.isSome && (decide (lo ≤ i.tableRow) && decide (i.tableRow < hi))

/-- The compact instructions of the rows `lo` to `hi - 1`. -/
def Instr.inCompactRows (i : Instr) (lo hi : Nat) : Bool :=
  i.gate.isNone && (decide (lo ≤ i.tableRow) && decide (i.tableRow < hi))

/-- Multiplies, swaps and the undefined words among them: formats A9, A10, A12. -/
theorem decode_encode_multiply {i : Instr} (h : i.inFullRows 0 13 = true) : decode (encode i) = i := by
  cases i <;> cases h <;> -- `cases h` leaves the rows of the range
    simp (disch := decide) [encode, fullWord, assemble, decode, decodeFull, fullFamily_eq, ↓familyTree, getReg, read_field,
      Cond.ofCode_code, decodeMultiply, decodeMultiplyLong, decodeSwap, decodeUndefMultiply]

/-- Half-word and signed transfers: format A14, where I = [22] tells the two offsets apart. -/
theorem decode_encode_halfTransfer {i : Instr} (h : i.inFullRows 13 19 = true) : decode (encode i) = i := by
  cases i <;> cases h
  case aUndefLdrd | aUndefStrd =>
    simp (disch := decide) [encode, fullWord, assemble, decode, decodeFull, fullFamily_eq, ↓familyTree, read_field,
      Cond.ofCode_code, decodeHalfTransfer]
  all_goals
    rename_i off
    cases off <;>
      simp (disch := decide) [encode, fullWord, assemble, decode, decodeFull, fullFamily_eq, ↓familyTree, getReg, read_field,
        Cond.ofCode_code, decodeHalfTransfer, getHalfOffset, putHalfOffset, nibbles_append]

/-- Status transfers, branch-exchanges, half-word multiplies: formats A4, A5, A7, A8, A11. -/
theorem decode_encode_misc {i : Instr} (h : i.inFullRows 19 39 = true) : decode (encode i) = i := by
  cases i <;> cases h <;>
    simp (disch := decide) [encode, fullWord, assemble, decode, decodeFull, fullFamily_eq, ↓familyTree, getReg, read_field,
      Cond.ofCode_code, decodeMisc, decodeHalfMultiply]

/-- Data processing and the immediate MSR: formats A1, A2, A3, A6. -/
theorem decode_encode_dataProcessing {i : Instr} (h : i.inFullRows 39 89 = true) : decode (encode i) = i := by
  cases i <;> cases h <;>
    simp (disch := decide) [encode, fullWord, assemble, decode, decodeFull, fullFamily_eq, ↓familyTree, getReg, read_field,
      Cond.ofCode_code, ShiftKind.ofCode_code, decodeDataShImm, decodeDataShReg, decodeDataImm]

/-- Single and block transfers: formats A13, A15. -/
theorem decode_encode_transfer {i : Instr} (h : i.inFullRows 89 122 = true) : decode (encode i) = i := by
  cases i <;> cases h <;>
    simp (disch := decide) [encode, fullWord, assemble, decode, decodeFull, fullFamily_eq, ↓familyTree, getReg, read_field,
      Cond.ofCode_code, ShiftKind.ofCode_code, decodeTransferImm, decodeTransferReg, decodeBlock]

/-- Branches and the coprocessor space: format A16. -/
theorem decode_encode_branch {i : Instr} (hw : i.wellFormed = true) (h : i.inFullRows 122 125 = true) :
    decode (encode i) = i := by
  cases i <;> cases h <;>
    simp (disch := decide) [encode, fullWord, assemble, decode, decodeFull, fullFamily_eq, ↓familyTree, read_field,
      Cond.ofCode_code, decodeBranch]
  all_goals exact signedOffset_readBack hw (by decide) (by decide) (by decide)

/-- Compact data processing, branch-exchanges and the PC-relative load: formats T1 to T6. -/
theorem decode_encode_compactData {i : Instr} (hw : i.wellFormed = true) (h : i.inCompactRows 0 33 = true) :
    decode (encode i) = i := by
  cases i <;> cases h <;>
    simp (disch := decide) [encode, compactWord, assemble, decode, decodeCompact, compactRank_eq, ↓rankTree, getReg, getLow,
      getHd, putHd, read_field, hd_append, decodeT1, decodeT2, decodeT3, decodeT4, decodeT5]
  case tLdrPc => exact scaled_readBack hw (by decide)

/-- Compact single transfers and the address sums: formats T7 to T13. -/
theorem decode_encode_compactTransfer {i : Instr} (hw : i.wellFormed = true) (h : i.inCompactRows 33 53 = true) :
    decode (encode i) = i := by
  cases i <;> cases h <;>
    simp (disch := decide) [encode, compactWord, assemble, decode, decodeCompact, compactRank_eq, ↓rankTree, getLow,
      read_field, decodeT7T8, decodeT9, decodeT10, decodeT11, decodeT12, decodeT13]
  case tStrbImm | tLdrbImm => simpa using scaled_readBack (n := 32) hw (by decide)
  all_goals exact scaled_readBack hw (by decide)

/-- Compact lists, branches and undefined ranges: formats T14 to T19. -/
theorem decode_encode_compactBranch {i : Instr} (hw : i.wellFormed = true) (h : i.inCompactRows 53 67 = true) :
    decode (encode i) = i := by
  cases i <;> cases h <;>
    simp (disch := decide) [encode, compactWord, assemble, decode, decodeCompact, compactRank_eq, ↓rankTree, getLow,
      read_field, Cond.ofCode_code, decodeFamily12, decodeT14, decodeT15]
  case tBlSecond => exact scaled_readBack hw (by decide)
  all_goals exact signedOffset_readBack hw (by decide) (by decide) (by decide)

/-- The nine ranges above are the whole table. -/
theorem Instr.rows_cover (i : Instr) :
    (i.inFullRows 0 13 || i.inFullRows 13 19 || i.inFullRows 19 39 || i.inFullRows 39 89 || i.inFullRows 89 122 ||
      i.inFullRows 122 125 || i.inCompactRows 0 33 || i.inCompactRows 33 53 || i.inCompactRows 53 67) = true := by
  cases i <;> rfl

theorem decode_encode {i : Instr} (hw : i.wellFormed = true) : decode (encode i) = i := by
  have hrows := i.rows_cover
  simp only [Bool.or_eq_true] at hrows
  obtain (((((((h | h) | h) | h) | h) | h) | h) | h) | h := hrows
  · exact decode_encode_multiply h
  · exact decode_encode_halfTransfer h
  · exact decode_encode_misc h
  · exact decode_encode_dataProcessing h
  · exact decode_encode_transfer h
  · exact decode_encode_branch hw h
  · exact decode_encode_compactData hw h
  · exact decode_encode_compactTransfer hw h
  · exact decode_encode_compactBranch hw h

/-! ## The word and its bytes -/

theorem isCompact_encode (i : Instr) : (encode i).isCompact = i.gate.isNone := by cases i <;> rfl

theorem ofNat_ofBytesLE_toBytesLE {m : Nat} (n : Nat) (v : BitVec m) (h : 256 ^ n = 2 ^ m) :
    BitVec.ofNat m (ofBytesLE (toBytesLE n v.toNat)) = v := by
  rw [ofBytesLE_toBytesLE, h, Nat.mod_eq_of_lt v.isLt, BitVec.ofNat_toNat, BitVec.setWidth_eq]

/-- The bytes of a word decode as the word does (30_encoding R134, 20_memory R85). -/
theorem decodeBytes_bytes (v : InstrWord) : decodeBytes v.isCompact v.bytes = .ok (decode v, []) := by
  cases v with
  | compact h => exact congrArg (fun w => Except.ok (decodeCompact w, [])) (ofNat_ofBytesLE_toBytesLE 2 h rfl)
  | full w => exact congrArg (fun w => Except.ok (decodeFull w, [])) (ofNat_ofBytesLE_toBytesLE 4 w rfl)

/-- Settles O6: the word decodes to the instruction, row range by row range, and its bytes as the word does. -/
theorem decodeOfEncodeIsTheInstruction : Obligations.DecodeOfEncodeIsTheInstruction := by
  intro i hw
  refine ⟨decode_encode hw, isCompact_encode i, ?_⟩
  rw [decodeBytes_bytes, decode_encode hw]

end Sys2Proof
end

section
/-! SUPPORT. What the decoder reads of a word. The selectors of a family (30_encoding R140 to R142, R160 to R162) choose the
row of the opcode table, and the other bits the decoded instruction reads are its fields; so words that agree in the selectors
are of one row, and words that agree in the fields as well decode to one instruction (R163, R185). -/

namespace Sys2Proof

/-! ## Words that agree in the bits of a mask -/

/-- The words agree in the bits of `m`. -/
def SameOn {n : Nat} (m w w' : BitVec n) : Prop := (w ^^^ w') &&& m = 0

section Agreement

variable {n : Nat} {m w w' : BitVec n}

theorem sameOn_iff : SameOn m w w' ↔ ∀ k, k < n → m.getLsbD k = true → w'.getLsbD k = w.getLsbD k := by
  refine ⟨fun h k hk hm => ?_, fun h => BitVec.eq_of_getLsbD_eq fun k hk => ?_⟩
  · have hbit : ((w ^^^ w') &&& m).getLsbD k = false := by rw [h]; exact BitVec.getLsbD_zero
    rw [BitVec.getLsbD_and, hm, Bool.and_true, BitVec.getLsbD_xor, bne_eq_false_iff_eq] at hbit
    exact hbit.symm
  · rw [BitVec.getLsbD_and, BitVec.getLsbD_xor]
    cases hm : m.getLsbD k with
    | false => rw [Bool.and_false]; exact BitVec.getLsbD_zero.symm
    | true => rw [h k hk hm, Bool.xor_self]; exact BitVec.getLsbD_zero.symm

theorem sameOn_and (w m : BitVec n) : SameOn m w (w &&& m) :=
  sameOn_iff.2 fun k _ hm => by rw [BitVec.getLsbD_and, hm, Bool.and_true]

/-- A mask within `m` selects the same after `m`. -/
theorem and_of_within {m' : BitVec n} (hm : m' &&& ~~~m = 0) : m &&& m' = m' := by
  apply BitVec.eq_of_getLsbD_eq
  intro k hk
  have hbit : (m' &&& ~~~m).getLsbD k = false := by rw [hm]; exact BitVec.getLsbD_zero
  rw [BitVec.getLsbD_and, BitVec.getLsbD_not, decide_eq_true hk, Bool.true_and] at hbit
  rw [BitVec.getLsbD_and]
  cases hm' : m'.getLsbD k with
  | false => rw [Bool.and_false]
  | true => simpa [hm'] using hbit

theorem SameOn.mono {m' : BitVec n} (h : SameOn m w w') (hm : m' &&& ~~~m = 0) : SameOn m' w w' := by
  rw [SameOn, ← and_of_within hm, ← BitVec.and_assoc, h]
  exact BitVec.zero_and

theorem SameOn.bits_congr (h : SameOn m w w') {lo len : Nat} (hm : bits m lo len = BitVec.allOnes len) :
    bits w' lo len = bits w lo len := by
  apply BitVec.eq_of_getLsbD_eq
  intro k hk
  have hbit : (bits m lo len).getLsbD k = true := by rw [hm, BitVec.getLsbD_allOnes, decide_eq_true hk]
  simp only [bits, BitVec.getLsbD_extractLsb', hk, decide_true, Bool.true_and] at hbit ⊢
  exact sameOn_iff.1 h _ (BitVec.lt_of_getLsbD hbit) hbit

theorem SameOn.getBit_congr (h : SameOn m w w') {k : Nat} (hm : bits m k 1 = BitVec.allOnes 1) :
    getBit w' k = getBit w k := by rw [getBit, h.bits_congr hm]; rfl

theorem SameOn.getReg_congr (h : SameOn m w w') {lo : Nat} (hm : bits m lo 4 = BitVec.allOnes 4) :
    getReg w' lo = getReg w lo := by rw [getReg, h.bits_congr hm]; rfl

theorem toNat_bits (w : BitVec n) (lo len : Nat) : (bits w lo len).toNat = w.toNat / 2 ^ lo % 2 ^ len := by
  rw [bits, BitVec.extractLsb'_toNat, Nat.shiftRight_eq_div_pow]

theorem getBit_bits (w : BitVec n) (lo len k : Nat) (hk : k < len) :
    getBit (bits w lo len) k = getBit w (lo + k) := by
  rw [getBit_eq, getBit_eq, bits, BitVec.getLsbD_extractLsb', decide_eq_true hk, Bool.true_and]

/-- A field moved back to its place is what a mask leaves of the word. -/
theorem put_bits (w : BitVec n) (lo len : Nat) : put lo (bits w lo len) = w &&& put lo (BitVec.allOnes len) := by
  apply BitVec.eq_of_getLsbD_eq
  intro k hk
  simp only [put, bits, BitVec.getLsbD_and, BitVec.getLsbD_shiftLeft, BitVec.getLsbD_setWidth,
    BitVec.getLsbD_extractLsb', BitVec.getLsbD_allOnes]
  by_cases hlo : k < lo
  · simp [hlo]
  · simp [hlo, Nat.add_sub_cancel' (Nat.not_lt.1 hlo), Bool.and_comm, Bool.and_left_comm]

end Agreement

/-! ## Rows of a table -/

section Rows

variable {n : Nat}

/-- The word matches row `k` of the table of masks and matches. -/
def MatchesRow (table : List (BitVec n × BitVec n)) (w : BitVec n) (k : Nat) : Prop :=
  w &&& (table.getD k (0, 0)).1 = (table.getD k (0, 0)).2

/-- Two rows differ in a bit both masks test. -/
def apart (p q : BitVec n × BitVec n) : Bool := p.1 &&& q.1 &&& (p.2 ^^^ q.2) != 0

/-- Any two rows of the table are apart. -/
def allApart : List (BitVec n × BitVec n) → Bool
  | [] => true
  | p :: table => table.all (apart p) && allApart table

theorem pairwise_of_allApart : ∀ {table : List (BitVec n × BitVec n)}, allApart table = true →
    table.Pairwise fun p q => apart p q = true
  | [], _ => .nil
  | p :: table, h => by
    rw [allApart, Bool.and_eq_true, List.all_eq_true] at h
    obtain ⟨hhead, htail⟩ := h
    exact .cons hhead (pairwise_of_allApart htail)

theorem apart_of_matches {w : BitVec n} {p q : BitVec n × BitVec n} (hp : w &&& p.1 = p.2) (hq : w &&& q.1 = q.2) :
    apart p q = false := by
  rw [apart, bne_eq_false_iff_eq, ← hp, ← hq]
  apply BitVec.eq_of_getLsbD_eq
  intro k hk
  simp only [BitVec.getLsbD_and, BitVec.getLsbD_xor]
  cases p.1.getLsbD k <;> cases q.1.getLsbD k <;> simp

theorem matchesRow_unique {table : List (BitVec n × BitVec n)} (hapart : allApart table = true) {w : BitVec n} {j k : Nat}
    (hj : j < table.length) (hk : k < table.length) (hwj : MatchesRow table w j) (hwk : MatchesRow table w k) : j = k := by
  rw [MatchesRow, List.getD_eq_getElem _ _ hj] at hwj
  rw [MatchesRow, List.getD_eq_getElem _ _ hk] at hwk
  have hpair := List.pairwise_iff_getElem.1 (pairwise_of_allApart hapart)
  obtain h | h | h := lt_trichotomy j k
  · exact absurd (hpair j k hj hk h) (by simp [apart_of_matches hwj hwk])
  · exact h
  · exact absurd (hpair k j hk hj h) (by simp [apart_of_matches hwk hwj])

/-- Masked with the selectors `s`, the word matches row `k`, and the row tests nothing else. -/
def SelectsRow (table : List (BitVec n × BitVec n)) (s v : BitVec n) (k : Nat) : Prop :=
  MatchesRow table v k ∧ (table.getD k (0, 0)).1 &&& ~~~s = 0

theorem SelectsRow.matchesRow {table : List (BitVec n × BitVec n)} {s w : BitVec n} {k : Nat}
    (h : SelectsRow table s (w &&& s) k) : MatchesRow table w k := by
  obtain ⟨hmatch, hwithin⟩ := h
  rwa [MatchesRow, BitVec.and_assoc, and_of_within hwithin] at hmatch

end Rows

/-! ## The full decoder -/

/-- The bits the dispatch of a full word rests on: 27:20, and of 7:4 all in the register space and only bit 4 outside it. -/
def FullFamily.selectors : FullFamily → Word
  | .multiply | .multiplyLong | .swap | .undefMultiply | .halfTransfer | .misc | .dataReg => 0x0FF000F0
  | _ => 0x0FF00010

/-- The register space is that of the words with bits 27:25 = 000. -/
theorem selectors_fullFamily (w : Word) : (fullFamily w).selectors =
    if getBit w 27 || getBit w 26 || getBit w 25 then 0x0FF00010 else 0x0FF000F0 := by
  rw [fullFamily_eq]
  cases getBit w 27 <;> cases getBit w 26 <;> cases getBit w 25 <;> unfold familyTree <;>
    simp only [Bool.or_false, Bool.or_true, Bool.false_eq_true, ↓reduceIte] <;> repeat' split
  all_goals rfl

/-- The selectors of a word's family decide the family. -/
theorem fullFamily_congr {w w' : Word} (h : SameOn (fullFamily w).selectors w w') : fullFamily w' = fullFamily w := by
  have hhigh : SameOn 0x0FF00010 w w' := h.mono (by cases fullFamily w <;> rfl)
  rw [selectors_fullFamily] at h
  rw [fullFamily_eq w', fullFamily_eq w]
  simp (disch := decide) only [hhigh.getBit_congr]
  cases h27 : getBit w 27 <;> cases h26 : getBit w 26 <;> cases h25 : getBit w 25
  · simp only [h27, h26, h25, Bool.or_self, Bool.false_eq_true, ↓reduceIte] at h
    simp (disch := decide) only [h.getBit_congr]
  all_goals rfl -- outside the register space bits 7:5 are not looked at

/-- Words that agree in the selectors decode to one row, and to one instruction if they agree in all it reads. -/
theorem decodeFull_congr {w w' : Word} (h : SameOn (fullFamily w).selectors w w') :
    (decodeFull w').tableRow = (decodeFull w).tableRow ∧
      (SameOn (~~~(decodeFull w).unread) w w' → decodeFull w' = decodeFull w) := by
  unfold decodeFull
  rw [fullFamily_congr h]
  revert h
  cases fullFamily w <;> intro h
  case msrImm | undefImm | undefTransfer | undefCop =>
    refine ⟨rfl, fun hu => ?_⟩
    dsimp only [Instr.unread] at hu
    simp (disch := decide) only [hu.getBit_congr, hu.bits_congr]
  all_goals
    dsimp only [FullFamily.selectors] at h
    dsimp only [decodeMultiply, decodeMultiplyLong, decodeSwap, decodeUndefMultiply, decodeHalfTransfer, getHalfOffset,
      decodeMisc, decodeHalfMultiply, decodeDataShImm, decodeDataShReg, decodeDataImm, decodeTransferImm, decodeTransferReg,
      decodeBlock, decodeBranch]
    simp (disch := decide) only [h.getBit_congr, h.bits_congr]
    repeat' split
    all_goals
      refine ⟨rfl, fun hu => ?_⟩
      dsimp only [Instr.unread] at hu
      simp (disch := decide) only [hu.getReg_congr, hu.bits_congr]

/-! The rows of all selector values: the register space with bits 7:4, the other words with bit 4. -/

theorem selectsRow_register : ∀ a : BitVec 8, (getBit a 7 || getBit a 6 || getBit a 5) = false → ∀ b : BitVec 4,
    SelectsRow fullTable 0x0FF000F0 (put 20 a ||| put 4 b) (decodeFull (put 20 a ||| put 4 b)).tableRow := by
  unfold SelectsRow MatchesRow; decide

theorem selectsRow_other : ∀ a : BitVec 8, (getBit a 7 || getBit a 6 || getBit a 5) = true → ∀ b : BitVec 1,
    SelectsRow fullTable 0x0FF00010 (put 20 a ||| put 4 b) (decodeFull (put 20 a ||| put 4 b)).tableRow := by
  unfold SelectsRow MatchesRow; decide

/-- A full word matches the row of the instruction it decodes to. -/
theorem decodeFull_matchesRow (w : Word) : MatchesRow fullTable w (decodeFull w).tableRow := by
  obtain ⟨hrow, -⟩ := decodeFull_congr (sameOn_and w (fullFamily w).selectors)
  have hspace : (getBit (bits w 20 8) 7 || getBit (bits w 20 8) 6 || getBit (bits w 20 8) 5) =
      (getBit w 27 || getBit w 26 || getBit w 25) := by
    simp only [getBit_bits w 20 8 _ (show 7 < 8 by decide), getBit_bits w 20 8 _ (show 6 < 8 by decide),
      getBit_bits w 20 8 _ (show 5 < 8 by decide)]
  rw [← hrow]
  apply SelectsRow.matchesRow (s := (fullFamily w).selectors)
  rw [selectors_fullFamily]
  cases h : getBit w 27 || getBit w 26 || getBit w 25 with
  | false =>
    have hsel : w &&& 0x0FF000F0 = put 20 (bits w 20 8) ||| put 4 (bits w 4 4) := by
      rw [put_bits, put_bits, ← BitVec.and_or_distrib_left]; rfl
    exact hsel ▸ selectsRow_register _ (hspace.trans h) _
  | true =>
    have hsel : w &&& 0x0FF00010 = put 20 (bits w 20 8) ||| put 4 (bits w 4 1) := by
      rw [put_bits, put_bits, ← BitVec.and_or_distrib_left]; rfl
    exact hsel ▸ selectsRow_other _ (hspace.trans h) _

/-! ## The compact decoder -/

/-- The bits the dispatch of a compact value rests on: the high byte, and bits 7:6 in the families 3, 4 and 11. -/
def compactSelectors : Nat → BitVec 16
  | 3 | 4 | 11 => 0xFFC0
  | _ => 0xFF00

/-- The high byte decides the rank (R140). -/
theorem compactRank_congr {h h' : BitVec 16} (hs : SameOn 0xFF00 h h') : compactRank h' = compactRank h := by
  rw [compactRank_eq, compactRank_eq]
  simp (disch := decide) only [hs.getBit_congr]

theorem decodeCompact_tableRow_congr {h h' : BitVec 16} (hs : SameOn (compactSelectors (compactRank h)) h h') :
    (decodeCompact h').tableRow = (decodeCompact h).tableRow := by
  have hhigh : SameOn 0xFF00 h h' := hs.mono (by unfold compactSelectors; split <;> rfl)
  unfold decodeCompact
  rw [compactRank_congr hhigh]
  dsimp only [decodeT1, decodeT2, decodeT3, decodeT7T8, decodeT9, decodeT10, decodeT11, decodeT12, decodeFamily12,
    decodeT14, decodeT15]
  simp (disch := decide) only [hhigh.getBit_congr, hhigh.bits_congr]
  split
  case h_4 hr | h_5 hr | h_12 hr => -- the ranks 3, 4 and 11
    rw [hr] at hs
    dsimp only [compactSelectors] at hs
    dsimp only [decodeT4, decodeT5, decodeT13]
    simp (disch := decide) only [hs.getBit_congr, hs.bits_congr]
    repeat' split
    all_goals simp only [Instr.tableRow]
  all_goals
    repeat' split
    all_goals simp only [Instr.tableRow]

/-! The rows of all selector values: the high byte, and bits 7:6 where the family reads them. -/

theorem selectsRow_compact : ∀ a : BitVec 8,
    (compactSelectors (compactRank (put 8 a)) = 0xFF00 ∧
      SelectsRow compactTable 0xFF00 (put 8 a) (decodeCompact (put 8 a)).tableRow) ∨
    (compactSelectors (compactRank (put 8 a)) = 0xFFC0 ∧ ∀ b : BitVec 2,
      SelectsRow compactTable 0xFFC0 (put 8 a ||| put 6 b) (decodeCompact (put 8 a ||| put 6 b)).tableRow) := by
  unfold SelectsRow MatchesRow; decide

/-- A compact value matches the row of the instruction it decodes to. -/
theorem decodeCompact_matchesRow (h : BitVec 16) : MatchesRow compactTable h (decodeCompact h).tableRow := by
  have hbyte : h &&& 0xFF00 = put 8 (bits h 8 8) := (put_bits h 8 8).symm
  have hrank : compactRank (put 8 (bits h 8 8)) = compactRank h := hbyte ▸ compactRank_congr (sameOn_and h _)
  have hrows := selectsRow_compact (bits h 8 8)
  rw [← decodeCompact_tableRow_congr (sameOn_and h _)]
  apply SelectsRow.matchesRow (s := compactSelectors (compactRank h))
  rw [hrank] at hrows
  obtain ⟨hsel, hrow⟩ | ⟨hsel, hrow⟩ := hrows
  · rw [hsel, hbyte]
    exact hrow
  · have hsix : h &&& 0xFFC0 = put 8 (bits h 8 8) ||| put 6 (bits h 6 2) := by
      rw [put_bits, put_bits, ← BitVec.and_or_distrib_left]; rfl
    rw [hsel, hsix]
    exact hrow _

/-! ## What is decoded is well formed -/

theorem scaled_mul {n scale top : Nat} (v : BitVec n) (h : (2 ^ n - 1) * scale ≤ top) :
    scaled (v.toNat * scale) scale top = true := by
  have hle : v.toNat * scale ≤ (2 ^ n - 1) * scale := Nat.mul_le_mul_right _ (Nat.le_pred_of_lt v.isLt)
  simp [scaled, hle.trans h]

theorem scaled_one {n top : Nat} (v : BitVec n) (h : 2 ^ n - 1 ≤ top) : scaled v.toNat 1 top = true := by
  simpa using scaled_mul (scale := 1) (top := top) v (by simpa using h)

theorem signedOffset_mul {n : Nat} {scale low top : Int} (v : BitVec n) (hs : 0 ≤ scale) (hlow : low ≤ -2 ^ (n - 1) * scale)
    (htop : (2 ^ (n - 1) - 1) * scale ≤ top) : signedOffset (v.toInt * scale) scale low top = true := by
  have hl := Int.mul_le_mul_of_nonneg_right (BitVec.le_toInt v) hs
  have ht := Int.mul_le_mul_of_nonneg_right (Int.le_sub_one_of_lt (BitVec.toInt_lt (x := v))) hs
  simp [signedOffset, hlow.trans hl, ht.trans htop]

theorem decodeFull_wellFormed (w : Word) : (decodeFull w).wellFormed = true := by
  unfold decodeFull
  cases fullFamily w
  case branch =>
    dsimp only [decodeBranch]
    split <;> exact signedOffset_mul _ (by decide) (by decide) (by decide)
  case msrImm | undefImm | undefTransfer | undefCop => rfl
  all_goals
    dsimp only [decodeMultiply, decodeMultiplyLong, decodeSwap, decodeUndefMultiply, decodeHalfTransfer, decodeMisc,
      decodeHalfMultiply, decodeDataShImm, decodeDataShReg, decodeDataImm, decodeTransferImm, decodeTransferReg, decodeBlock]
    repeat' split
    all_goals rfl

theorem decodeCompact_wellFormed (h : BitVec 16) : (decodeCompact h).wellFormed = true := by
  unfold decodeCompact
  split -- case `h_k` is rank `k - 1`
  case h_6 => exact scaled_mul _ (by decide)
  case h_8 =>
    unfold decodeT9
    split
    · exact scaled_mul _ (by decide)
    · exact scaled_mul _ (by decide)
    · exact scaled_one _ (by decide)
    · exact scaled_one _ (by decide)
  case h_9 | h_10 | h_11 | h_12 =>
    dsimp only [decodeT10, decodeT11, decodeT12, decodeT13]
    split <;> exact scaled_mul _ (by decide)
  case h_16 | h_17 | h_19 => exact signedOffset_mul _ (by decide) (by decide) (by decide)
  case h_20 => exact scaled_mul _ (by decide)
  case h_18 => rfl
  all_goals
    dsimp only [decodeT1, decodeT2, decodeT3, decodeT4, decodeT5, decodeT7T8, decodeFamily12, decodeT14, decodeT15]
    repeat' split
    all_goals rfl

/-! ## The partition -/

theorem fullTable_allApart : allApart fullTable = true := by decide

theorem compactTable_allApart : allApart compactTable = true := by decide

theorem tableRow_lt_of_full {i : Instr} {c : Cond} (h : i.gate = some c) : i.tableRow < 125 := by
  cases i <;> cases h <;> exact Nat.le_of_ble_eq_true rfl

theorem tableRow_lt_of_compact {i : Instr} (h : i.gate = none) : i.tableRow < 67 := by
  cases i <;> cases h <;> exact Nat.le_of_ble_eq_true rfl

theorem matchesRow_full_iff (w : Word) {k : Nat} (hk : k < 125) :
    MatchesRow fullTable w k ↔ (decodeFull w).tableRow = k := by
  refine ⟨fun h => ?_, fun h => h ▸ decodeFull_matchesRow w⟩
  exact matchesRow_unique fullTable_allApart (tableRow_lt_of_full (decodeFull_gate w)) hk (decodeFull_matchesRow w) h

theorem matchesRow_compact_iff (h : BitVec 16) {k : Nat} (hk : k < 67) :
    MatchesRow compactTable h k ↔ (decodeCompact h).tableRow = k := by
  refine ⟨fun hm => ?_, fun hm => hm ▸ decodeCompact_matchesRow h⟩
  exact matchesRow_unique compactTable_allApart (tableRow_lt_of_compact (decodeCompact_gate h)) hk
    (decodeCompact_matchesRow h) hm

/-- Settles O7: the decoder's row matches, and no two rows of a table match one word. -/
theorem opcodeTableRowsPartitionTheWords : Obligations.OpcodeTableRowsPartitionTheWords :=
  ⟨fun h _ hk => matchesRow_compact_iff h hk,
    fun h => ⟨tableRow_lt_of_compact (decodeCompact_gate h), decodeCompact_gate h, decodeCompact_wellFormed h⟩,
    fun w _ hk => matchesRow_full_iff w hk,
    fun w => ⟨tableRow_lt_of_full (decodeFull_gate w), decodeFull_gate w, decodeFull_wellFormed w⟩⟩

/-! ## Unread bits -/

/-- No unread bit is a selector. -/
theorem unread_and_selectors (i : Instr) : i.unread &&& 0x0FF000F0 = 0 := by
  cases i
  case aStrh off | aLdrh off | aLdrsb off | aLdrsh off => cases off <;> (dsimp only [Instr.unread]; decide)
  all_goals (dsimp only [Instr.unread]; decide)

theorem decodeFull_of_sameOn {w w' : Word} (h : SameOn (~~~(decodeFull w).unread) w w') : decodeFull w' = decodeFull w := by
  have hsel : SameOn 0x0FF000F0 w w' :=
    h.mono (by rw [BitVec.not_not, BitVec.and_comm]; exact unread_and_selectors _)
  exact (decodeFull_congr (hsel.mono (by cases fullFamily w <;> rfl))).2 h

/-- The compact BX and BLX are told apart by bit 7 and read only bits 6:3 beside it (41 R284, R285). -/
theorem decodeCompact_branchExchange {h h' : BitVec 16} (hs : SameOn 0xFFF8 h h') (hhigh : SameOn 0xFF00 h 0x4700) :
    decodeCompact h' = decodeCompact h := by
  have hrank : compactRank h = 4 := (compactRank_congr hhigh).symm
  have hrank' : compactRank h' = 4 := (compactRank_congr (hs.mono (by decide))).trans hrank
  have hop : bits h 8 2 = 3 := (hhigh.bits_congr (by decide)).symm
  simp (disch := decide) only [decodeCompact, hrank, hrank', decodeT5, hs.bits_congr, hop, hs.getBit_congr, hs.getReg_congr]

theorem sameOn_branchExchange {h : BitVec 16} (hlow : 0x4700 ≤ h.toNat) (hhigh : h.toNat < 0x4800) :
    SameOn 0xFF00 h 0x4700 := by
  have hbyte : bits h 8 8 = 0x47 := by
    apply BitVec.eq_of_toNat_eq
    simp only [toNat_bits, BitVec.ofNat_eq_ofNat, BitVec.toNat_ofNat]
    omega
  have hmasked : h &&& 0xFF00 = 0x4700 := (put_bits h 8 8).symm.trans (congrArg (put 8) hbyte)
  exact hmasked ▸ sameOn_and h 0xFF00

/-- Settles O8: a full word decodes by its selectors and its fields, and `execute` runs what is decoded. -/
theorem shouldBeFieldsAreNeverTested : Obligations.ShouldBeFieldsAreNeverTested := by
  refine ⟨fun w w' h => ?_, fun h h' hs hlow hhigh => ?_⟩
  · have hdec : decodeFull w' = decodeFull w := decodeFull_of_sameOn h
    refine ⟨hdec, fun s => ?_⟩
    simp only [Machine.execute, decodeValue, Bool.false_eq_true, ↓reduceIte, hdec]
  · exact decodeCompact_branchExchange hs (sameOn_branchExchange hlow hhigh)

end Sys2Proof
end

section
/-! SUPPORT. The condition NV (30_encoding R164). -/

namespace Sys2Proof.Machine

theorem bits_cond_nv {w : Word} (h : 0xF0000000 ≤ w.toNat) : bits w 28 4 = 15 := by
  apply BitVec.eq_of_toNat_eq
  simp only [toNat_bits, BitVec.ofNat_eq_ofNat, BitVec.toNat_ofNat]
  omega

/-- Settles O10: the condition of such a word is NV, which never passes. -/
theorem nvWordsAreNeverDispatched : Obligations.NvWordsAreNeverDispatched := by
  intro w s ht hw
  have hgate := decodeFull_gate w
  rw [bits_cond_nv hw] at hgate
  rw [execute_full w ht]
  exact exec_of_fails hgate rfl

end Sys2Proof.Machine
end

section
/-! SUPPORT. The shared units of 40_alu_condition: the condition table (R200), the adder (R202 to R207), the flag writers
(R204, R205, R220, R221), the shifter (R211, R212), the rotated immediate (R217) and the count of leading zeros (R224). -/

namespace Sys2Proof.Machine

/-! ## The condition table -/

/-- A condition passes as the row at its code says (40_alu_condition R200). -/
theorem passes_iff_conditionHolds (s : State) (c : Cond) :
    s.passes c = true ↔ conditionHolds s.flagN s.flagZ s.flagC s.flagV c.code.toNat := by
  cases c <;> simp [State.passes, Cond.code, conditionHolds]

/-- The four flags are all a condition reads (40_alu_condition R201). -/
theorem passes_of_sameFlags {s t : State} (hN : s.flagN = t.flagN) (hZ : s.flagZ = t.flagZ) (hC : s.flagC = t.flagC)
    (hV : s.flagV = t.flagV) (c : Cond) : s.passes c = t.passes c := by
  rw [Bool.eq_iff_iff, passes_iff_conditionHolds, passes_iff_conditionHolds, hN, hZ, hC, hV]

theorem getLsbD_of_bits_eq {v w : Word} {lo len k : Nat} (h : bits v lo len = bits w lo len) (hk : k < len) :
    v.getLsbD (lo + k) = w.getLsbD (lo + k) := by
  rw [← getBit_eq, ← getBit_eq, ← getBit_bits v lo len k hk, ← getBit_bits w lo len k hk, h]

/-- Settles O12: a condition passes as the row at its code says, and PSR bits 31:28 are the four flags. -/
theorem conditionTableHolds : Obligations.ConditionTableHolds := by
  refine ⟨fun s k hk => ?_, fun s t c h => ?_⟩
  · have hcode : (Cond.ofCode (BitVec.ofNat 4 k)).code.toNat = k := by
      rw [Cond.code_ofCode, BitVec.toNat_ofNat, Nat.mod_eq_of_lt hk]
    rw [passes_iff_conditionHolds, hcode]
    rfl
  · have hflag (k : Nat) (hk : k < 4) : s.psr.getLsbD (28 + k) = t.psr.getLsbD (28 + k) := getLsbD_of_bits_eq h hk
    exact passes_of_sameFlags (hflag 3 (by decide)) (hflag 2 (by decide)) (hflag 1 (by decide)) (hflag 0 (by decide)) c

/-! ## The adder -/

/-- The sign rule of the overflow (40_alu_condition R202). -/
theorem addWithCarry_overflow_iff (a b : Word) (cin : Bool) :
    (addWithCarry a b cin).overflow = true ↔
      a.getLsbD 31 = b.getLsbD 31 ∧ (addWithCarry a b cin).result.getLsbD 31 ≠ a.getLsbD 31 := by
  simp only [addWithCarry, BitVec.msb_eq_getLsbD_last, Bool.and_eq_true, beq_iff_eq, bne_iff_ne]

/-- Settles O13: the adder is the exact sum, whose carry is that of the statement, and its overflow is the sign rule. -/
theorem adderIsTheExactSum : Obligations.AdderIsTheExactSum := fun a b cin =>
  have hexact := addWithCarry_eq_exactAdd a b cin
  ⟨BitVec.toNat_ofNat .., congrArg AddResult.carry hexact, addWithCarry_overflow_iff a b cin, hexact⟩

/-- With carry in 1 nothing more is taken off: the exact difference is a - b (40_alu_condition R203). -/
theorem exactSub_noBorrow (a b : Word) :
    exactSub a b true = ⟨a - b, decide (b.toNat ≤ a.toNat), overflows (a.toInt - b.toInt)⟩ := by
  have hint : a.toInt - b.toInt - (1 - flagInt true) = a.toInt - b.toInt := by simp [flagInt]
  have hresult : BitVec.ofInt 32 (a.toInt - b.toInt) = a - b :=
    BitVec.toInt_inj.mp (by rw [BitVec.toInt_ofInt, BitVec.toInt_sub])
  rw [exactSub, hint, hresult]
  rfl

/-- Settles O14: the complement addition is the exact difference with nothing borrowed. -/
theorem subtractionIsTheExactDifference : Obligations.SubtractionIsTheExactDifference := by
  intro a b
  rw [addWithCarry_not_eq_exactSub, exactSub_noBorrow]
  exact ⟨rfl, decide_eq_true_iff, decide_eq_true_iff⟩

/-- Settles O15: each of the seven is one AddWithCarry call, with the second operand complemented to subtract. -/
theorem addFamilyIsExact : Obligations.AddFamilyIsExact := fun a b c =>
  ⟨addWithCarry_eq_exactAdd a b false, addWithCarry_eq_exactAdd a b c, addWithCarry_not_eq_exactSub a b true,
    addWithCarry_not_eq_exactSub a b c, addWithCarry_not_eq_exactSub b a true, addWithCarry_not_eq_exactSub b a c,
    addWithCarry_not_eq_exactSub 0 b true⟩

/-! ## The flag writers -/

/-- Bit `i` of a flag moved up to bit `k`. -/
theorem getLsbD_flag_shiftLeft (b : Bool) (k i : Nat) (hi : i < 32) :
    ((BitVec.ofBool b).setWidth 32 <<< k).getLsbD i = (decide (i = k) && b) :=
  (getBit_eq _ i).symm.trans (getBit_putBit k i b hi)

/-- The mask of the bits SetNZCV keeps. -/
theorem getLsbD_belowFlags : ∀ i < 32, (0x0FFFFFFF : Word).getLsbD i = decide (i < 28) := by decide

/-- SetNZCV packs the four flags over PSR AND 0x0FFFFFFF (40_alu_condition R204). -/
theorem setNZCV_psr (s : State) (a : AddResult) :
    (s.setNZCV a).psr = (BitVec.ofBool (a.result.getLsbD 31)).setWidth 32 <<< 31 |||
      (BitVec.ofBool (decide (a.result = 0))).setWidth 32 <<< 30 ||| (BitVec.ofBool a.carry).setWidth 32 <<< 29 |||
      (BitVec.ofBool a.overflow).setWidth 32 <<< 28 ||| (s.psr &&& 0x0FFFFFFF) := by
  apply BitVec.eq_of_getLsbD_eq
  intro i hi
  simp only [setNZCV_bit s a i hi, BitVec.getLsbD_or, BitVec.getLsbD_and, getLsbD_flag_shiftLeft _ _ i hi,
    getLsbD_belowFlags i hi, BitVec.msb_eq_getLsbD_last, beq_eq_decide]
  obtain hlow | hflag : i < 28 ∨ (i = 28 ∨ i = 29 ∨ i = 30 ∨ i = 31) := by omega
  · simp [hlow, show i ≠ 28 by omega, show i ≠ 29 by omega, show i ≠ 30 by omega, show i ≠ 31 by omega]
  · rcases hflag with rfl | rfl | rfl | rfl <;> simp

theorem setMulNZ64_flagN (s : State) (hi lo : Word) : (s.setMulNZ64 hi lo).flagN = hi.getLsbD 31 := by
  rw [State.flagN, setMulNZ64_bit _ _ _ 31 (by decide)]
  exact BitVec.msb_eq_getLsbD_last hi

theorem setMulNZ64_flagZ (s : State) (hi lo : Word) : (s.setMulNZ64 hi lo).flagZ = decide (hi = 0 ∧ lo = 0) := by
  rw [State.flagZ, setMulNZ64_bit _ _ _ 30 (by decide), Bool.decide_and]
  rfl

/-- Settles O16: each writer has its bits and its frame; SetMulNZ32 is SetNZ. -/
theorem flagWritersPackTheirBits : Obligations.FlagWritersPackTheirBits := fun s a r hi lo c =>
  ⟨setNZCV_psr s a, setNZ_nz s r, setNZ_frame s r, setNZC_nz s r c, setNZC_c s r c, setNZC_frame s r c,
    setNZ_nz s r, setNZ_frame s r, setMulNZ64_flagN s hi lo, setMulNZ64_flagZ s hi lo, setMulNZ64_frame s hi lo,
    setNZCV_frame s a⟩

/-! ## The barrel shifter -/

theorem shift_of_pos (v : Word) {n : Nat} (kind : ShiftKind) (cin : Bool) (hn : 1 ≤ n) :
    shift v n kind cin = shiftNonzero v n kind := if_neg (by omega)

theorem getLsbD_shiftLeft_word (v : Word) (m i : Nat) (hi : i < 32) :
    (v <<< m).getLsbD i = (decide (m ≤ i) && v.getLsbD (i - m)) := by
  rw [BitVec.getLsbD_shiftLeft, decide_eq_true hi, Bool.true_and, ← decide_not]
  simp only [not_lt]

/-- An arithmetic right shift repeats bit 31. -/
theorem getLsbD_sshiftRight_word (v : Word) (m i : Nat) (hi : i < 32) :
    (v.sshiftRight m).getLsbD i = v.getLsbD (min (i + m) 31) := by
  rw [BitVec.getLsbD_sshiftRight]
  by_cases hm : m + i < 32
  · simp [hm, show ¬ 32 ≤ i by omega, show min (i + m) 31 = m + i by omega]
  · simp [hm, show ¬ 32 ≤ i by omega, show min (i + m) 31 = 31 by omega, BitVec.msb_eq_getLsbD_last]

/-- A rotation's carry-out is the bit it brings to bit 31. -/
theorem msb_ror (v : Word) (n : Nat) : (ror v n).msb = v.getLsbD ((31 + n) % 32) := by
  rw [BitVec.msb_eq_getLsbD_last]
  exact getLsbD_ror v n 31 (by decide)

/-- Settles O17: bit by bit, the three shifts by the clamped amount and the rotation by the amount modulo 32. -/
theorem shifterByNonzeroAmounts : Obligations.ShifterByNonzeroAmounts := by
  intro v n cin hn
  have hshift (kind : ShiftKind) : shift v n kind cin = shiftNonzero v n kind := shift_of_pos v kind cin hn
  rw [hshift .lsl, hshift .lsr, hshift .asr, hshift .ror]
  refine ⟨getLsbD_shiftLeft_word v _, rfl, fun i _ => ?_, rfl, getLsbD_sshiftRight_word v _, rfl, fun i hi => ?_, ?_⟩
  · rw [shiftNonzero, BitVec.getLsbD_ushiftRight, Nat.add_comm]
  · rw [shiftNonzero, getLsbD_ror v _ i hi, Nat.add_mod_mod]
  · rw [shiftNonzero, msb_ror, Nat.add_mod_mod]

/-- RRX brings the carry in over the word shifted down by 1 (40_alu_condition R212). -/
theorem setBit_rrx (v : Word) (cin : Bool) :
    setBit (v >>> 1) 31 cin = (BitVec.ofBool cin).setWidth 32 <<< 31 ||| v >>> 1 := by
  apply BitVec.eq_of_getLsbD_eq
  intro i hi
  rw [getLsbD_setBit _ _ _ _ hi, BitVec.getLsbD_or, getLsbD_flag_shiftLeft _ _ _ hi]
  by_cases htop : i = 31
  · simp [htop]
  · simp [htop]

/-- Settles O18: the four kinds by 0, with bit 31 as the sign and ROR as RRX. -/
theorem shifterByZero : Obligations.ShifterByZero := by
  intro v cin
  have hsign : v.msb = v.getLsbD 31 := BitVec.msb_eq_getLsbD_last v
  rw [← hsign]
  exact ⟨rfl, rfl, rfl, setBit_rrx v cin, rfl⟩

/-! ## The rotated immediate -/

theorem ror_zero (v : Word) : ror v 0 = v := by
  apply BitVec.eq_of_getLsbD_eq
  intro i hi
  rw [getLsbD_ror v 0 i hi, Nat.add_zero, Nat.mod_eq_of_lt hi]

/-- Settles O19: the operand is a rotation, and a rotation by 0 is the byte itself. -/
theorem rotatedImmediateOperand : Obligations.RotatedImmediateOperand := by
  intro rot imm8 cin
  refine ⟨getLsbD_ror _ _, fun hrot => ?_, ?_⟩
  · rw [← BitVec.msb_eq_getLsbD_last]
    exact if_neg hrot
  · exact congrArg (·, cin) (ror_zero _)

/-! ## The count of leading zeros -/

/-- The bits above the most significant 1 are 0. -/
theorem getLsbD_of_leadingZero {v : Word} {k : Nat} (hk : 32 ≤ k + countLeadingZeros v) : v.getLsbD k = false := by
  unfold countLeadingZeros at hk
  obtain hin | hout := Nat.lt_or_ge k 32
  · obtain ⟨-, hzeros, -⟩ := leadingZeros_spec v 32
    have hzero := hzeros (31 - k) (by omega)
    rwa [show 32 - 1 - (31 - k) = k by omega] at hzero
  · exact BitVec.getLsbD_of_ge v k hout

/-- A word whose 32 bits are all leading zeros is 0. -/
theorem countLeadingZeros_lt {v : Word} (hv : v ≠ 0) : countLeadingZeros v < 32 := by
  by_contra hall
  refine hv (BitVec.eq_of_getLsbD_eq fun i _ => ?_)
  rw [getLsbD_of_leadingZero (by omega), BitVec.ofNat_eq_ofNat, BitVec.getLsbD_zero]

/-- Settles O20: the leading zeros of a word that is not 0 end at its most significant 1. -/
theorem countLeadingZerosOfAWord : Obligations.CountLeadingZerosOfAWord := by
  refine ⟨rfl, fun v hv => ?_⟩
  have hlt := countLeadingZeros_lt hv
  obtain ⟨-, -, hone⟩ := leadingZeros_spec v 32
  exact ⟨by omega, hone hlt, fun k hk => getLsbD_of_leadingZero (by omega)⟩

end Sys2Proof.Machine
end

section
/-! SUPPORT. The compact register operations of 41_thumb_alu: an instruction whose meaning is one of the shared forms completes
with what that form leaves, and each instruction is such a form by its meaning alone. -/

namespace Sys2Proof.Machine

/-! ## What an instruction that is a shared form completes with -/

section Forms

variable {i : Instr} {s : State} {rd : LowReg}

theorem completes_of_exec_shiftLow {r : Word × Bool} (h : exec i s = .next (s.shiftLow rd r)) :
    Completes i s (s.ShiftDone · rd.slot r) := ⟨_, h, shiftDone_shiftLow s rd r⟩

/-- The amount of a shift by a register is its bottom byte (41_thumb_alu R266 to R268, R271). -/
theorem completes_of_exec_shiftLow_amount {rs : LowReg} {v : Word} {kind : ShiftKind}
    (h : exec i s = .next (s.shiftLow rd (shift v (s.amount rs.slot) kind s.flagC))) :
    Completes i s (s.ShiftDone · rd.slot (shift v ((s.x rs.slot).toNat % 256) kind s.flagC)) := by
  rw [← amount_eq]
  exact completes_of_exec_shiftLow h

theorem completes_of_exec_addLow {r r' : AddResult} (h : exec i s = .next (s.addLow rd r)) (heq : r = r') :
    Completes i s (s.ArithDone · rd.slot r') := heq ▸ ⟨_, h, arithDone_addLow s rd r⟩

theorem completes_of_exec_setNZCV {r r' : AddResult} (h : exec i s = .next (s.setNZCV r)) (heq : r = r') :
    Completes i s (s.CompareDone · r') := heq ▸ ⟨_, h, compareDone_setNZCV s r⟩

theorem completes_of_exec_logicLow {r : Word} (h : exec i s = .next (s.logicLow rd r)) :
    Completes i s (s.LogicDone · rd.slot r) := ⟨_, h, logicDone_logicLow s rd r⟩

theorem completes_of_exec_writeReg {r : Reg} {v : Word} (h : exec i s = .next (s.writeReg r v)) :
    Completes i s (s.MoveDone · r (stored s.flagT r v)) := ⟨_, h, moveDone_writeReg s r v⟩

end Forms

/-- MUL writes the low word of the product, and its flags as a logical result does (41_thumb_alu R277,
40_alu_condition R220). -/
theorem exec_tMul_eq_logicLow (rs rd : LowReg) (s : State) :
    exec (.tMul rs rd) s = .next (s.logicLow rd (BitVec.ofNat 32 ((s.x rd.slot).toNat * (s.x rs.slot).toNat))) := by
  rw [← mul_eq_ofNat]
  rfl

/-! ## The statements: each conjunct is one instruction -/

/-- Settles O22: three shifts by an immediate, four by the bottom byte of a register. -/
theorem compactShifts : Obligations.CompactShifts := fun _ _ _ _ =>
  ⟨completes_of_exec_shiftLow rfl, completes_of_exec_shiftLow rfl, completes_of_exec_shiftLow rfl,
    completes_of_exec_shiftLow_amount rfl, completes_of_exec_shiftLow_amount rfl,
    completes_of_exec_shiftLow_amount rfl, completes_of_exec_shiftLow_amount rfl⟩

/-- Settles O23: each is one AddWithCarry call, an exact sum or, with the second operand complemented, an exact
difference. -/
theorem compactAddAndSubtract : Obligations.CompactAddAndSubtract := by
  intro rn rs rd imm3 imm8 s
  have hsum := addWithCarry_eq_exactAdd
  have hdifference := addWithCarry_not_eq_exactSub
  exact ⟨completes_of_exec_addLow rfl (hsum ..), completes_of_exec_addLow rfl (hdifference ..),
    completes_of_exec_addLow rfl (hsum ..), completes_of_exec_addLow rfl (hdifference ..),
    completes_of_exec_addLow rfl (hsum ..), completes_of_exec_addLow rfl (hdifference ..),
    completes_of_exec_addLow rfl (hsum ..), completes_of_exec_addLow rfl (hdifference ..),
    completes_of_exec_addLow rfl (hdifference ..)⟩

/-- Settles O24: CMP takes the flags of the exact difference and CMN those of the exact sum. -/
theorem compactCompares : Obligations.CompactCompares := by
  intro rs rd hd hs imm8 s
  have hsum := addWithCarry_eq_exactAdd
  have hdifference := addWithCarry_not_eq_exactSub
  exact ⟨completes_of_exec_setNZCV rfl (hdifference ..), completes_of_exec_setNZCV rfl (hdifference ..),
    completes_of_exec_setNZCV rfl (hsum ..), completes_of_exec_setNZCV rfl (hdifference ..)⟩

/-- Settles O25: all but TST write a logical result, MUL the low word of its product; TST is SetNZ alone. -/
theorem compactLogicMoveAndMultiply : Obligations.CompactLogicMoveAndMultiply := by
  intro rs rd imm8 s
  refine ⟨?mov, ?and, ?eor, ?orr, ?bic, ?mvn, ?mul, ?tst⟩
  case mul => exact completes_of_exec_logicLow (exec_tMul_eq_logicLow rs rd s)
  case tst => exact ⟨_, rfl, setNZ_nz s _, setNZ_frame s _⟩
  all_goals exact completes_of_exec_logicLow rfl

/-- Settles O26: both are register writes, which take the pc-write at slot 15. -/
theorem highRegisterAddAndMove : Obligations.HighRegisterAddAndMove := fun _ _ _ =>
  ⟨completes_of_exec_writeReg rfl, completes_of_exec_writeReg rfl⟩

end Sys2Proof.Machine
end

section
/-! SUPPORT. The compact memory operations of 42_thumb_memory: a single load or store is one access of Laws/Ops, and PUSH, POP,
STMIA and LDMIA are one list of accesses, then the write of the final address to SP or the base. -/

namespace Sys2Proof.Machine

/-! ## Single accesses -/

section Single

variable {i : Instr} {s : State} {rd : LowReg} {a : Word} {z : Size}

theorem completes_of_exec_setX {r : Reg} {v : Word} (h : exec i s = .next (s.setX r v)) :
    Completes i s (s.MoveDone · r v) := ⟨_, h, moveDone_setX s r v⟩

/-- A read and the write of a value to a register leave the frame of a load. -/
theorem readFrame_noteRead_setX (s : State) (a : Word) (z : Size) (r : Reg) (v : Word) :
    s.ReadFrame ((s.noteRead a z (s.valueAt a z)).setX r v) [r] a z :=
  ⟨fun q hq => by rw [x_setX, if_neg (List.mem_singleton.not.1 hq), noteRead_x], by simp, keepsMemory_of_mem (by simp),
    by simp, by simp⟩

theorem compactLoad_of_exec_loadLow (h : exec i s = outcome (s.loadLow a z rd)) : CompactLoad i s rd a z id :=
  ⟨fun hfits => ⟨_, by rw [h, loadLow_eq hfits]; rfl, x_setX_self .., readFrame_noteRead_setX ..⟩,
    fun hshort => by rw [h, loadLow_short hshort]; rfl⟩

theorem compactLoad_of_exec_loadLowSigned {f : Word → Word} (h : exec i s = outcome (s.loadLowSigned a z rd))
    (hf : ∀ v, z.signed v = f v) : CompactLoad i s rd a z f :=
  ⟨fun hfits => ⟨_, by rw [h, loadLowSigned_eq hfits]; rfl, (x_setX_self ..).trans (hf _), readFrame_noteRead_setX ..⟩,
    fun hshort => by rw [h, loadLowSigned_short hshort]; rfl⟩

theorem compactStore_of_exec_storeLow (hw : s.mem.wf) (h : exec i s = outcome (s.storeLow a z rd)) :
    CompactStore i s rd a z := by
  refine ⟨fun hroom => ?completes, fun hshort => ?short, fun hfits hnoRoom => ?noRoom⟩
  case completes =>
    obtain ⟨t, ht⟩ := memWrite_ok hw (storeFits_low.2 hroom)
    exact ⟨t, by rw [h, State.storeLow, ht]; rfl, storeDone_memWrite hw ht⟩
  case short => rw [h, State.storeLow, memWrite_short hshort]; rfl
  case noRoom =>
    obtain ⟨u, hu, hdefect⟩ := memWrite_low_defect hw hfits hnoRoom
    exact ⟨u, hu, by rw [h, State.storeLow, hdefect]; rfl⟩

end Single

/-! ## Lists of accesses -/

section Lists

variable {i : Instr} {s : State} {pre up : Bool} {rs : List Reg} {a low : Word} {d : Reg}

/-- A list of stores, then the final address to a register: the words `ps` stored and the register at `low`, or the stop at the
first word without room. -/
theorem storeAll_of_exec_storeMany {ps : List (Word × Word)} (hw : s.mem.wf)
    (h : exec i s = outcome (do let (b, t) ← s.storeMany pre up rs a; .ok (t.setX d b)))
    (hps : (transferAddrs pre up rs.length a).zip (rs.map s.x) = ps) (hend : endAddr up rs.length a = low) :
    (s.AllStoreFit ps → Completes i s fun t => t.x d = low ∧ s.StoreAllDone t [d] ps) ∧ StoreAllStops i s ps := by
  refine ⟨fun hroom => ?completes, fun hnoRoom => ?stops⟩
  case completes =>
    obtain ⟨b, u, hu⟩ := storeMany_ok pre up rs hw (hps ▸ hroom)
    obtain ⟨hb, -⟩ := storeMany_spec pre up rs hw hu
    refine ⟨u.setX d b, by rw [h, hu]; rfl, by rw [x_setX_self, hb, hend], ?_⟩
    exact storeAllDone_storeMany hw hu hps rfl rfl rfl rfl fun r hr => by rw [x_setX, if_neg (List.mem_singleton.not.1 hr)]
  case stops =>
    obtain ⟨f, hf, hfault⟩ := storeMany_fault pre up rs hw (hps ▸ hnoRoom)
    exact ⟨f, by rw [h, hf]; rfl, hps ▸ hfault⟩

/-- A list of loads with room leaves its slots loaded and the final address. -/
theorem loadAllDone_loadMany {slots : List (Reg × Word)} (hnodup : rs.Nodup)
    (hslots : rs.zip (transferAddrs pre up rs.length a) = slots) (hfits : ∀ p ∈ slots, s.Fits p.2 .word) :
    ∃ t, s.loadMany pre up rs a = .ok (endAddr up rs.length a, t) ∧ s.LoadAllDone t [] slots (slots.map (·.2)) := by
  have hlen := transferAddrs_length pre up rs.length a
  have hregs : slots.map (·.1) = rs := hslots ▸ List.map_fst_zip hlen.ge
  have haddrs : slots.map (·.2) = transferAddrs pre up rs.length a := hslots ▸ List.map_snd_zip hlen.le
  obtain ⟨t, ht, hval, hkeep, hpsr, hmem, hhost, hbreak⟩ := loadMany_spec pre up rs (s := s) (a := a) hnodup
    (haddrs ▸ List.forall_mem_map.2 hfits)
  refine ⟨t, ht, hslots ▸ hval, ?_, hpsr, keepsMemory_of_mem hmem, hhost, haddrs ▸ hbreak⟩
  rwa [hregs, List.append_nil]

/-- What the loads of a list leave, the registers `ds` left free. -/
theorem State.LoadAllDone.mono {t : State} {slots : List (Reg × Word)} {reads : List Word}
    (h : s.LoadAllDone t [] slots reads) (ds : List Reg) : s.LoadAllDone t ds slots reads := by
  obtain ⟨hval, hkeep, hrest⟩ := h
  exact ⟨hval, fun r hr => hkeep r fun hin => hr (List.mem_append_left ds (by rwa [List.append_nil] at hin)), hrest⟩

/-- A write to a register outside the list keeps what the loads of the list leave. -/
theorem State.LoadAllDone.setX {t : State} {slots : List (Reg × Word)} {reads : List Word}
    (h : s.LoadAllDone t [] slots reads) (hd : d ∉ slots.map (·.1)) (v : Word) :
    s.LoadAllDone (t.setX d v) [d] slots reads := by
  obtain ⟨hval, hkeep, hrest⟩ := h.mono [d]
  refine ⟨fun p hp => ?_, fun r hr => ?_, hrest⟩
  · have hne : p.1 ≠ d := fun he => hd (he ▸ List.mem_map_of_mem hp)
    rw [x_setX, if_neg hne, hval p hp]
  · have hne : r ≠ d := fun he => hr (by simp [he])
    rw [x_setX, if_neg hne, hkeep r hr]

/-- A list of loads, then the final address to a register outside the list unless `skip`: each slot loaded and the register at
`low`, or the stop at the first access without room. -/
theorem loadAll_of_exec_loadMany {slots : List (Reg × Word)} {skip : Bool}
    (h : exec i s = outcome (do let (b, t) ← s.loadMany pre up rs a; .ok (if skip then t else t.setX d b)))
    (hslots : rs.zip (transferAddrs pre up rs.length a) = slots) (hend : endAddr up rs.length a = low) (hnodup : rs.Nodup)
    (hskip : skip = false → d ∉ rs) :
    ((∀ p ∈ slots, s.Fits p.2 .word) → Completes i s fun t =>
      (skip = false → t.x d = low) ∧ s.LoadAllDone t [d] slots (slots.map (·.2))) ∧ LoadAllStops i s slots := by
  refine ⟨fun hfits => ?completes, fun hshort => ?stops⟩
  case completes =>
    obtain ⟨u, hu, hdone⟩ := loadAllDone_loadMany hnodup hslots hfits
    cases skip with
    | true => exact ⟨u, by rw [h, hu]; rfl, nofun, hdone.mono [d]⟩
    | false =>
      have hregs : slots.map (·.1) = rs := hslots ▸ List.map_fst_zip (transferAddrs_length ..).ge
      exact ⟨u.setX d (endAddr up rs.length a), by rw [h, hu]; rfl, fun _ => by rw [x_setX_self, hend],
        hdone.setX (hregs ▸ hskip rfl) _⟩
  case stops =>
    obtain ⟨before, p, after, u, hsplit, hbefore, hp, hu, hdone⟩ := loadMany_fault pre up rs hnodup (hslots.symm ▸ hshort)
    exact ⟨before, p, after, u, hslots ▸ hsplit, hbefore, hp, by rw [h, hu]; rfl, hdone⟩

end Lists

/-! ## The order of a compact list: ascending registers at ascending addresses -/

theorem lowOrder_length (rlist : BitVec 8) : (lowOrder rlist).length = (listUp rlist).length := List.length_map _

theorem lowOrder_nodup (rlist : BitVec 8) : (lowOrder rlist).Nodup := slots_nodup (by decide) rlist

theorem mem_lowOrder (rlist : BitVec 8) (r : Reg) : r ∈ lowOrder rlist ↔ rlist.getLsbD r.val = true :=
  mem_slots (by decide) rlist r

/-- A compact list names none of the high registers. -/
theorem not_mem_lowOrder {rlist : BitVec 8} {r : Reg} (h : 8 ≤ r.val) : r ∉ lowOrder rlist := fun hmem =>
  absurd (BitVec.lt_of_getLsbD ((mem_lowOrder rlist r).1 hmem)) (by omega)

theorem lowOrder_zip (rlist : BitVec 8) (a : Word) :
    (lowOrder rlist).zip (transferAddrs false true (lowOrder rlist).length a) = listSlots rlist a := by
  rw [lowOrder_length, listSlots_eq]; rfl

theorem endAddr_lowOrder (rlist : BitVec 8) (a : Word) :
    endAddr true (lowOrder rlist).length a = a + listBytes rlist := by
  rw [lowOrder_length, endAddr_up]; rfl

theorem lowOrder_pairs (s : State) (rlist : BitVec 8) (a : Word) :
    (transferAddrs false true (lowOrder rlist).length a).zip ((lowOrder rlist).map s.x) =
      s.storeList true (listSlots rlist a) := by
  rw [lowOrder_length, storeList_eq]; rfl

theorem lowOrder_reverse_pairs (s : State) (rlist : BitVec 8) (a : Word) :
    (transferAddrs true false (lowOrder rlist).reverse.length a).zip ((lowOrder rlist).reverse.map s.x) =
      s.storeList false (listSlots rlist (a - listBytes rlist)) := by
  rw [List.length_reverse, lowOrder_length, storeList_eq, transferAddrs_preDown]; rfl

theorem endAddr_lowOrder_reverse (rlist : BitVec 8) (a : Word) :
    endAddr false (lowOrder rlist).reverse.length a = a - listBytes rlist := by
  rw [List.length_reverse, lowOrder_length, endAddr_down]; rfl

/-! ## PUSH and POP as one list each: LR before the reversed list, the PC after the list -/

/-- The registers PUSH stores, in its order. -/
def pushOrder (lr : Bool) (rlist : BitVec 8) : List Reg := (if lr then [Reg.lr] else []) ++ (lowOrder rlist).reverse

/-- PUSH is the stores of its registers, then SP (42 R325). -/
theorem push_eq_storeMany (s : State) (lr : Bool) (rlist : BitVec 8) :
    s.push lr rlist =
      (do let (a, t) ← s.storeMany true false (pushOrder lr rlist) (s.x Reg.sp); .ok (t.setX Reg.sp a)) := rfl

/-- The words PUSH stores: LR below SP, then those of its list downwards. -/
theorem pushOrder_pairs (s : State) (lr : Bool) (rlist : BitVec 8) :
    (transferAddrs true false (pushOrder lr rlist).length (s.x Reg.sp)).zip ((pushOrder lr rlist).map s.x) =
      (if lr then [(s.x Reg.sp - 4, s.x Reg.lr)] else []) ++
        s.storeList false (listSlots rlist (s.x Reg.sp - (if lr then 4 else 0) - listBytes rlist)) := by
  rw [← lowOrder_reverse_pairs]
  cases lr with
  | true => rfl
  | false => simp [pushOrder]

/-- PUSH ends four bytes lower for each word. -/
theorem endAddr_pushOrder (lr : Bool) (rlist : BitVec 8) (a : Word) :
    endAddr false (pushOrder lr rlist).length a = a - (if lr then 4 else 0) - listBytes rlist := by
  rw [← endAddr_lowOrder_reverse]
  cases lr with
  | true => rfl
  | false => simp [pushOrder]

theorem setX_comm (s : State) {r q : Reg} (h : r ≠ q) (v w : Word) : (s.setX r v).setX q w = (s.setX q w).setX r v := by
  refine State.eq_of (fun p => ?_) rfl rfl rfl rfl
  simp only [x_setX]
  split_ifs with hq hr
  · exact absurd (hr.symm.trans hq) h
  all_goals rfl

/-- The registers POP loads, in its order. -/
def popOrder (pc : Bool) (rlist : BitVec 8) : List Reg := lowOrder rlist ++ if pc then [Reg.pc] else []

/-- POP is the loads of its registers, the PC last by the pc-write, then SP: the two last writes are to different slots
(42 R326). -/
theorem pop_eq_loadMany (s : State) (pc : Bool) (rlist : BitVec 8) :
    s.pop pc rlist =
      (do let (a, t) ← s.loadMany false true (popOrder pc rlist) (s.x Reg.sp); .ok (t.setX Reg.sp a)) := by
  rw [State.pop, popOrder]
  cases hlist : s.loadMany false true (lowOrder rlist) (s.x Reg.sp) with
  | error f => rw [loadMany_append_error false true _ _ hlist]; rfl
  | ok p =>
    obtain ⟨a, u⟩ := p
    rw [loadMany_append false true _ _ hlist]
    cases pc with
    | false => rfl
    | true =>
      simp only [bind, Except.bind, ↓reduceIte, State.loadMany, Bool.false_eq_true]
      cases u.memRead a .word with
      | error f => rfl
      | ok q =>
        obtain ⟨v, t⟩ := q
        simp only [writePc_eq, writeReg_eq, setX_flagT]
        rw [setX_comm t (by decide)]
        rfl

theorem popOrder_nodup (pc : Bool) (rlist : BitVec 8) : (popOrder pc rlist).Nodup := by
  cases pc with
  | false => simpa [popOrder] using lowOrder_nodup rlist
  | true =>
    exact List.nodup_append_comm.1 (List.nodup_cons.2 ⟨not_mem_lowOrder (by decide), lowOrder_nodup rlist⟩)

theorem sp_not_mem_popOrder (pc : Bool) (rlist : BitVec 8) : Reg.sp ∉ popOrder pc rlist := by
  have hlist : Reg.sp ∉ lowOrder rlist := not_mem_lowOrder (by decide)
  have hpc : Reg.sp ≠ Reg.pc := by decide
  cases pc <;> simp [popOrder, hlist, hpc]

/-- The slots of POP: those of its list, then the PC above them. -/
theorem popOrder_zip (pc : Bool) (rlist : BitVec 8) (a : Word) :
    (popOrder pc rlist).zip (transferAddrs false true (popOrder pc rlist).length a) =
      listSlots rlist a ++ if pc then [(Reg.pc, a + listBytes rlist)] else [] := by
  rw [popOrder, List.length_append, transferAddrs_append, List.zip_append (transferAddrs_length ..).symm, lowOrder_zip,
    endAddr_lowOrder]
  cases pc <;> rfl

theorem endAddr_popOrder (pc : Bool) (rlist : BitVec 8) (a : Word) :
    endAddr true (popOrder pc rlist).length a = a + listBytes rlist + (if pc then 4 else 0) := by
  rw [popOrder, List.length_append, endAddr_up, Nat.mul_add, BitVec.ofNat_add, ← BitVec.add_assoc, lowOrder_length]
  cases pc <;> rfl

/-! ## The statements -/

/-- Settles O32: each is a write of one register. -/
theorem addressGenerationAndStackAdjust : Obligations.AddressGenerationAndStackAdjust := fun _ _ _ =>
  ⟨completes_of_exec_setX rfl, completes_of_exec_setX rfl, completes_of_exec_setX rfl, completes_of_exec_setX rfl⟩

/-- Settles O33: each is one read, the two signed forms by the sign extension of the value's low byte or half. -/
theorem compactLoads : Obligations.CompactLoads := fun _ _ _ _ _ =>
  ⟨compactLoad_of_exec_loadLow rfl, compactLoad_of_exec_loadLow rfl, compactLoad_of_exec_loadLow rfl,
    compactLoad_of_exec_loadLow rfl, compactLoad_of_exec_loadLowSigned rfl fun _ => rfl,
    compactLoad_of_exec_loadLowSigned rfl fun _ => rfl, compactLoad_of_exec_loadLow rfl, compactLoad_of_exec_loadLow rfl,
    compactLoad_of_exec_loadLow rfl, compactLoad_of_exec_loadLow rfl⟩

/-- Settles O34: each is one store of Rd's low bytes. -/
theorem compactStores : Obligations.CompactStores := fun _ _ _ _ _ hw =>
  ⟨compactStore_of_exec_storeLow hw rfl, compactStore_of_exec_storeLow hw rfl, compactStore_of_exec_storeLow hw rfl,
    compactStore_of_exec_storeLow hw rfl, compactStore_of_exec_storeLow hw rfl, compactStore_of_exec_storeLow hw rfl,
    compactStore_of_exec_storeLow hw rfl⟩

/-- Settles O35: PUSH is the stores of LR and the reversed list downwards from SP, then SP. -/
theorem pushStoresDescending : Obligations.PushStoresDescending := fun lr rlist s hw =>
  storeAll_of_exec_storeMany hw (congrArg outcome (push_eq_storeMany s lr rlist)) (pushOrder_pairs s lr rlist)
    (endAddr_pushOrder lr rlist (s.x Reg.sp))

/-- Settles O36: POP is the loads of the list and the PC upwards from SP, then SP. -/
theorem popLoadsAscending : Obligations.PopLoadsAscending := by
  intro pc rlist s
  have hexec := congrArg outcome (pop_eq_loadMany s pc rlist)
  obtain ⟨hcompletes, hstops⟩ := loadAll_of_exec_loadMany (i := .tPop pc rlist) (skip := false) hexec
    (popOrder_zip pc rlist (s.x Reg.sp)) (endAddr_popOrder pc rlist (s.x Reg.sp)) (popOrder_nodup pc rlist)
    fun _ => sp_not_mem_popOrder pc rlist
  refine ⟨fun hfits => ?_, hstops⟩
  obtain ⟨t, ht, hsp, hdone⟩ := hcompletes hfits
  exact ⟨t, ht, hsp rfl, hdone⟩

/-- Settles O37: STMIA is the stores of the list upwards from the base, then the base. -/
theorem compactStoreMultiple : Obligations.CompactStoreMultiple := fun rb rlist s hw =>
  storeAll_of_exec_storeMany hw rfl (lowOrder_pairs s rlist (s.x rb.slot)) (endAddr_lowOrder rlist (s.x rb.slot))

/-- Settles O38: LDMIA is the loads of the list upwards from the base, then the base unless it is listed. -/
theorem compactLoadMultiple : Obligations.CompactLoadMultiple := fun rb rlist s =>
  loadAll_of_exec_loadMany (skip := rlist.getLsbD rb.val) rfl (lowOrder_zip rlist (s.x rb.slot))
    (endAddr_lowOrder rlist (s.x rb.slot)) (lowOrder_nodup rlist) fun hunlisted hmem =>
      Bool.false_ne_true (hunlisted.symm.trans ((mem_lowOrder rlist rb.slot).1 hmem))

end Sys2Proof.Machine
end

section
/-! SUPPORT. The compact branches of 43_thumb_branch: each is a pc-write, the second half of BL after the link; the pair of
halves follows from what each half leaves and from what the advance between them leaves. -/

namespace Sys2Proof.Machine

/-! ## A branch with link -/

/-- The pc-write after a link: LR holds the link, x[15] the target in the unchanged mode (43 R354, 45 R451). -/
theorem link_writePc_done (s : State) (link v : Word) :
    ((s.setX Reg.lr link).writePc v).x Reg.pc = pcStored s.flagT v ∧ ((s.setX Reg.lr link).writePc v).x Reg.lr = link ∧
      s.Frame ((s.setX Reg.lr link).writePc v) [Reg.pc, Reg.lr] [] := by
  obtain ⟨hpc, hframe⟩ := moveDone_writePc (s.setX Reg.lr link) v
  refine ⟨hpc, ?_, frame_mono (frame_trans (setX_frame s Reg.lr link) hframe) (by simp) (by simp)⟩
  rw [hframe.1 Reg.lr (by decide), x_setX_self]

theorem completes_of_exec_writePc {i : Instr} {s : State} {v : Word} (h : exec i s = .next (s.writePc v)) :
    Completes i s (s.MoveDone · Reg.pc (pcStored s.flagT v)) := ⟨_, h, moveDone_writePc s v⟩

/-! ## What the halves of BL leave, read as one -/

theorem State.KeepsPsr.psr_eq {s t : State} (h : s.KeepsPsr t []) : t.psr = s.psr :=
  BitVec.eq_of_getLsbD_eq fun k hk => h k hk List.not_mem_nil

theorem width_compact {s : State} (ht : s.flagT = true) : s.width = 2 := if_pos ht

/-- In compact mode a stored target is fetched from with bit 0 cleared (10_state R40, R43). -/
theorem fetchAddr_of_pcStored_compact {s : State} {v : Word} (ht : s.flagT = true) (hpc : s.x Reg.pc = pcStored true v) :
    s.fetchAddr = v &&& 0xFFFFFFFE := by
  rw [State.fetchAddr, width_compact ht, hpc]
  exact BitVec.add_sub_cancel _ _

/-! ## The statements -/

/-- Settles O28: a condition that fails leaves the state, and else each form is the pc-write of its target. -/
theorem compactBranches : Obligations.CompactBranches := by
  intro cond offset s
  refine ⟨fun hpass => completes_of_exec_writePc ?_, fun hfail => ?_, completes_of_exec_writePc rfl⟩
  · exact congrArg Host.Outcome.next (if_pos hpass)
  · exact congrArg Host.Outcome.next (if_neg (Bool.eq_false_iff.1 hfail))

/-- Settles O29: the first half is a write of LR, the second a link and the pc-write of a target read before it. -/
theorem branchLinkHalves : Obligations.BranchLinkHalves := fun _ _ s =>
  ⟨completes_of_exec_setX rfl, _, rfl, link_writePc_done s _ _⟩

/-- Settles O30: the second half finds x[15] two further on, by the advance, and the LR of the first half. -/
theorem branchLinkPair : Obligations.BranchLinkPair := by
  intro high low s hT
  obtain ⟨⟨t, ht, hhigh, hregs, hpsr, ⟨-, hmem⟩, -⟩, -⟩ := branchLinkHalves high low s
  obtain ⟨-, u, hu, hpc, hlink, hregs', hpsr', ⟨-, hmem'⟩, -⟩ := branchLinkHalves high low t.begin
  have htT : t.flagT = true := (flagT_congr hpsr.psr_eq).trans hT
  have huT : u.flagT = true := (flagT_congr hpsr'.psr_eq).trans htT
  have hlr : t.begin.x Reg.lr = s.x Reg.pc + BitVec.ofInt 32 high := (begin_keepsRegs t Reg.lr (by decide)).trans hhigh
  have hnext : t.begin.x Reg.pc = s.x Reg.pc + 2 := by
    rw [begin_x, if_pos rfl, width_compact htT, hregs Reg.pc (by decide)]
  refine ⟨t, ht, u, hu, ?fetch, ?link, fun r hr => ?regs, hpsr'.psr_eq.trans hpsr.psr_eq, hmem'.trans hmem⟩
  case fetch =>
    rw [begin_flagT, htT, hlr] at hpc
    exact fetchAddr_of_pcStored_compact huT hpc
  case link => rw [hlink, hnext, BitVec.add_sub_cancel]
  case regs =>
    obtain ⟨hnpc, hnlr⟩ : r ≠ Reg.pc ∧ r ≠ Reg.lr := by simpa using hr
    rw [hregs' r hr, begin_keepsRegs t r (by simpa using hnpc), hregs r (by simpa using hnlr)]

end Sys2Proof.Machine
end

section
/-! SUPPORT. The full data-processing operations and status transfers of 44_arm_data_processing. The three operand-2 forms of
an operation are one function of the operand and its carry (40_alu_condition R218); what that function leaves for every operand
is what the three forms complete with. -/

namespace Sys2Proof.Machine

/-! ## An operation in its three operand-2 forms -/

/-- Under condition `c` the three operand-2 forms of an operation mean `dp` of their operand and its carry (40 R218). -/
structure OperandForms (c : Cond) (s : State) (dp : Word × Bool → State) (imm : BitVec 4 → BitVec 8 → Instr)
    (shImm : BitVec 5 → ShiftKind → Reg → Instr) (shReg : Reg → ShiftKind → Reg → Instr) : Prop where
  imm_means : ∀ rot imm8, exec (imm rot imm8) s = whenPassed c s (.next (dp (s.op2Imm rot imm8)))
  shImm_means : ∀ n sh rm, exec (shImm n sh rm) s = whenPassed c s (.next (dp (s.op2ShImm n sh rm)))
  shReg_means : ∀ rs sh rm, exec (shReg rs sh rm) s = whenPassed c s (.next (dp (s.op2ShReg rs sh rm)))

/-- The amount of a shift by a register is its bottom byte (40_alu_condition R213). -/
theorem op2ShReg_eq (s : State) (rs : Reg) (sh : ShiftKind) (rm : Reg) :
    s.op2ShReg rs sh rm = shift (s.x rm) ((s.x rs).toNat % 256) sh s.flagC := by
  rw [State.op2ShReg, amount_eq]

section Forms

variable {c : Cond} {s : State} {sf : Bool} {rd : Reg} {imm : BitVec 4 → BitVec 8 → Instr}
  {shImm : BitVec 5 → ShiftKind → Reg → Instr} {shReg : Reg → ShiftKind → Reg → Instr}

/-- What `dp` leaves for every operand, the three forms complete with where the condition passes. -/
theorem OperandForms.complete {dp : Word × Bool → State} (h : OperandForms c s dp imm shImm shReg)
    (hc : s.passes c = true) (post : Word × Bool → State → Prop) (hdp : ∀ o, post o (dp o)) :
    (∀ rot imm8, Completes (imm rot imm8) s (post (rotatedImm rot imm8 s.flagC))) ∧
      (∀ n sh rm, Completes (shImm n sh rm) s (post (shift (s.x rm) n.toNat sh s.flagC))) ∧
      (∀ rs sh rm, Completes (shReg rs sh rm) s (post (shift (s.x rm) ((s.x rs).toNat % 256) sh s.flagC))) := by
  refine ⟨fun rot imm8 => ?_, fun n sh rm => ?_, fun rs sh rm => ?_⟩
  · exact ⟨_, (h.imm_means rot imm8).trans (whenPassed_of_passes hc), hdp _⟩
  · exact ⟨_, (h.shImm_means n sh rm).trans (whenPassed_of_passes hc), hdp _⟩
  · rw [← op2ShReg_eq]
    exact ⟨_, (h.shReg_means rs sh rm).trans (whenPassed_of_passes hc), hdp _⟩

theorem OperandForms.logicForms {f : Word → Word}
    (h : OperandForms c s (fun o => s.logic sf rd (f o.1) o.2) imm shImm shReg) (hc : s.passes c = true) :
    LogicForms s sf rd f imm shImm shReg :=
  h.complete hc (fun o t => s.DpLogic t sf rd (f o.1) o.2) fun o => dpLogic_logic s sf rd (f o.1) o.2

theorem OperandForms.arithForms {f : Word → AddResult}
    (h : OperandForms c s (fun o => s.arith sf rd (f o.1)) imm shImm shReg) (hc : s.passes c = true) :
    ArithForms s sf rd f imm shImm shReg :=
  h.complete hc (fun o t => s.DpArith t sf rd (f o.1)) fun o => dpArith_arith s sf rd (f o.1)

theorem OperandForms.testForms {f : Word → Word}
    (h : OperandForms c s (fun o => s.setNZC (f o.1) o.2) imm shImm shReg) (hc : s.passes c = true) :
    TestForms s f imm shImm shReg :=
  h.complete hc (fun o t => t.NzOf (f o.1) ∧ t.flagC = o.2 ∧ s.Frame t [] [29, 30, 31]) fun o =>
    ⟨setNZC_nz s (f o.1) o.2, setNZC_c s (f o.1) o.2, setNZC_frame s (f o.1) o.2⟩

theorem OperandForms.compareForms {f : Word → AddResult}
    (h : OperandForms c s (fun o => s.setNZCV (f o.1)) imm shImm shReg) (hc : s.passes c = true) :
    CompareForms s f imm shImm shReg :=
  h.complete hc (fun o t => s.CompareDone t (f o.1)) fun o => compareDone_setNZCV s (f o.1)

end Forms

/-! ## The write of PSR -/

/-- MSR writes PSR alone: slot 15 too holds what it held (44 R420, 70 R594). -/
theorem writePsr_keepsAllButPsr (s : State) (mask : BitVec 4) (v : Word) :
    s.KeepsRegs (s.writePsr mask v) [] ∧ s.KeepsMemory (s.writePsr mask v) ∧
      (s.writePsr mask v).breakState = s.breakState ∧ (s.writePsr mask v).host = s.host :=
  ⟨fun _ _ => rfl, keepsMemory_of_mem rfl, rfl, rfl⟩

/-! ## The statements -/

/-- Settles O39: the three forms of each operation are the logical form of its result and the shifter's carry. -/
theorem dataProcessingLogical : Obligations.DataProcessingLogical := by
  intro c sf rn rd s hc
  refine ⟨?and, ?eor, ?orr, ?bic, ?mov, ?mvn⟩
  all_goals exact OperandForms.logicForms ⟨fun _ _ => rfl, fun _ _ _ => rfl, fun _ _ _ => rfl⟩ hc

/-- Settles O40: the three forms of each operation are the arithmetic form of one AddWithCarry call, an exact sum or, with an
operand complemented, an exact difference. -/
theorem dataProcessingArithmetic : Obligations.DataProcessingArithmetic := by
  intro c sf rn rd s hc
  simp only [← addWithCarry_eq_exactAdd, ← addWithCarry_not_eq_exactSub]
  refine ⟨?add, ?adc, ?sub, ?sbc, ?rsb, ?rsc⟩
  all_goals exact OperandForms.arithForms ⟨fun _ _ => rfl, fun _ _ _ => rfl, fun _ _ _ => rfl⟩ hc

/-- Settles O41: TST and TEQ are SetNZC of a logical result, CMP and CMN SetNZCV of the exact difference and sum. -/
theorem dataProcessingCompares : Obligations.DataProcessingCompares := by
  intro c rn s hc
  simp only [← addWithCarry_eq_exactAdd, ← addWithCarry_not_eq_exactSub]
  refine ⟨?tst, ?teq, ?cmp, ?cmn⟩
  case tst | teq => exact OperandForms.testForms ⟨fun _ _ => rfl, fun _ _ _ => rfl, fun _ _ _ => rfl⟩ hc
  case cmp | cmn => exact OperandForms.compareForms ⟨fun _ _ => rfl, fun _ _ _ => rfl, fun _ _ _ => rfl⟩ hc

/-- Settles O42: MRS is a register write; both MSR forms are the masked write, whose immediate is a rotation. -/
theorem statusRegisterTransfers : Obligations.StatusRegisterTransfers := by
  intro c r rd rm mask rot imm8 s hc
  refine ⟨completes_of_exec_writeReg (whenPassed_of_passes hc), ?msrReg, ?msrImm⟩
  case msrReg =>
    exact ⟨_, whenPassed_of_passes hc, getLsbD_writePsr s mask (s.x rm), writePsr_keepsAllButPsr s mask _⟩
  case msrImm =>
    refine ⟨_, whenPassed_of_passes hc, fun k hk => ?_, writePsr_keepsAllButPsr s mask _⟩
    have hbit : (rotatedImm rot imm8 s.flagC).1.getLsbD k =
        (imm8.setWidth 32 : Word).getLsbD ((k + 2 * rot.toNat) % 32) := getLsbD_ror _ _ k hk
    rw [getLsbD_writePsr s mask _ k hk, hbit]

/-- Settles O43: CLZ is a register write of the count, whose bits `leadingZeros_spec` gives. -/
theorem countLeadingZerosInstruction : Obligations.CountLeadingZerosInstruction := by
  intro c rd rm s hc
  exact ⟨_, whenPassed_of_passes hc, countLeadingZeros (s.x rm), moveDone_writeReg s rd _, leadingZeros_spec (s.x rm) 32⟩

end Sys2Proof.Machine
end

section
/-! SUPPORT. The full branches of 45_arm_branch: where the condition passes, each is a pc-write, BL's after the link. -/

namespace Sys2Proof.Machine

/-- Settles O31: B is the pc-write of its target, BL a link and the pc-write of a target read before it. -/
theorem fullBranches : Obligations.FullBranches := by
  intro c offset s hc
  refine ⟨?b, ?bl⟩
  case b => exact completes_of_exec_writePc (whenPassed_of_passes hc)
  case bl => exact ⟨_, whenPassed_of_passes hc, link_writePc_done s _ _⟩

end Sys2Proof.Machine
end

section
/-! SUPPORT. The multiplies of 46_arm_multiply. Each instruction is a write of a word or of a 64-bit value, and the value the
model computes with wrapping operations is the exact product or sum, wrapped once to the destination. -/

namespace Sys2Proof.Machine

/-! ## What an instruction that writes a product completes with -/

section Forms

variable {i : Instr} {s : State} {sf : Bool}

theorem completes_of_exec_product {rd : Reg} {r r' : Word} (h : exec i s = .next (s.product sf rd r)) (heq : r = r') :
    Completes i s fun t => t.x rd = stored s.flagT rd r' ∧
      if sf then t.NzOf r' ∧ s.Frame t [rd] [30, 31] else s.Frame t [rd] [] :=
  heq ▸ ⟨_, h, product_done s sf rd r⟩

theorem completes_of_exec_longProduct {rdHi rdLo : Reg} {p p' : BitVec 64}
    (h : exec i s = .next (s.longProduct sf rdHi rdLo p)) (heq : p = p') :
    Completes i s (s.LongDone · sf rdHi rdLo p') :=
  heq ▸ ⟨_, h, longDone_longProduct s sf rdHi rdLo p⟩

end Forms

/-! ## The exact values -/

/-- The unsigned product and the accumulator added modulo 2^64 are their exact sum wrapped once (46 R474). -/
theorem ofNat_add_accumulator (n : Nat) (s : State) (rdHi rdLo : Reg) :
    BitVec.ofNat 64 n + s.accumulator rdHi rdLo = BitVec.ofNat 64 (n + s.longAcc rdHi rdLo) := by
  rw [accumulator_eq, BitVec.ofNat_add]

/-- A signed product and the accumulator added modulo 2^64 are their exact sum wrapped once (46 R476, R484). -/
theorem ofInt_add_accumulator (n : Int) (s : State) (rdHi rdLo : Reg) :
    BitVec.ofInt 64 n + s.accumulator rdHi rdLo = BitVec.ofInt 64 (n + s.longAcc rdHi rdLo) := by
  rw [accumulator_eq, BitVec.ofInt_add, BitVec.ofInt_natCast]

/-- A wrapped value and a word added modulo 2^32 are the exact sum with the signed word wrapped once (46 R482). -/
theorem ofInt_add_word (n : Int) (w : Word) : BitVec.ofInt 32 n + w = BitVec.ofInt 32 (n + w.toInt) := by
  rw [BitVec.ofInt_add, BitVec.ofInt_toInt]

/-! ## The statements: each conjunct is one instruction -/

/-- Settles O44: both write a product of words, MLA after the addition. -/
theorem multipliesOf32Bits : Obligations.MultipliesOf32Bits := by
  intro c sf rd rn rs rm s hc
  refine ⟨?mul, ?mla⟩
  case mul => exact completes_of_exec_product (whenPassed_of_passes hc) (mul_eq_ofNat ..)
  case mla => exact completes_of_exec_product (whenPassed_of_passes hc) (mul_add_eq_ofNat ..)

/-- Settles O45: each writes a 64-bit product, the accumulating ones after the addition of RdHi:RdLo. -/
theorem multipliesOf64Bits : Obligations.MultipliesOf64Bits := by
  intro c sf rdHi rdLo rs rm s hc
  refine ⟨?umull, ?umlal, ?smull, ?smlal⟩
  case umull | smull => exact completes_of_exec_longProduct (whenPassed_of_passes hc) rfl
  case umlal => exact completes_of_exec_longProduct (whenPassed_of_passes hc) (ofNat_add_accumulator ..)
  case smlal => exact completes_of_exec_longProduct (whenPassed_of_passes hc) (ofInt_add_accumulator ..)

/-- Settles O46: four are register writes, SMLALxy the long write without flags; the sums of SMLAWy and SMLALxy are exact
before they wrap. -/
theorem halfWordMultiplies : Obligations.HalfWordMultiplies := by
  intro c y x rd rn rs rm rdHi rdLo s hc
  simp only [← half_eq_halfInt]
  refine ⟨?smulxy, ?smlaxy, ?smulwy, ?smlawy, ?smlalxy⟩
  case smulxy | smlaxy | smulwy => exact completes_of_exec_writeReg (whenPassed_of_passes hc)
  case smlawy =>
    rw [← ofInt_add_word]
    exact completes_of_exec_writeReg (whenPassed_of_passes hc)
  case smlalxy => exact completes_of_exec_longProduct (whenPassed_of_passes hc) (ofInt_add_accumulator ..)

end Sys2Proof.Machine
end

section
/-! SUPPORT. The full single transfers and the swap of 47_arm_memory. A load is one read, a store one write, each with the
write-back of the indexed address; a swap is one read and one write at one address. -/

namespace Sys2Proof.Machine

/-! ## Addressing (47 R500, R515): the model's address is that of the statements -/

@[simp] theorem address_addr (s : State) (p u w : Bool) (rn : Reg) (offset : Word) :
    (s.address p u w rn offset).addr = s.accessed p u rn offset := rfl
@[simp] theorem address_offAddr (s : State) (p u w : Bool) (rn : Reg) (offset : Word) :
    (s.address p u w rn offset).offAddr = s.indexed u rn offset := rfl
@[simp] theorem address_writeBack (s : State) (p u w : Bool) (rn : Reg) (offset : Word) :
    (s.address p u w rn offset).writeBack = (!p || w) := rfl

@[simp] theorem noteRead_flagT (s : State) (a : Word) (z : Size) (v : Word) : (s.noteRead a z v).flagT = s.flagT :=
  flagT_congr (noteRead_psr s a z v)

/-- The write-back changes the base alone, and only where the addressing asks for it. -/
theorem writeBack_x_of_notMem (s : State) (m : Address) {rn r : Reg} (h : r ∉ if m.writeBack then [rn] else []) :
    (s.writeBack m rn).x r = s.x r := by
  rw [writeBack_x, if_neg]
  rintro ⟨hwb, rfl⟩
  simp [hwb] at h

section Single

variable {i : Instr} {s : State} {p u w : Bool} {rn rd : Reg} {offset : Word} {z : Size}

/-! ## Loads -/

/-- A read, the write-back and the write of a value to Rd leave the frame of a load. -/
theorem readFrame_noteRead_writeBack_writeReg (s : State) (m : Address) (rn rd : Reg) (z : Size) (v : Word) :
    s.ReadFrame (((s.noteRead m.addr z (s.valueAt m.addr z)).writeBack m rn).writeReg rd v)
      (if m.writeBack then [rn, rd] else [rd]) m.addr z := by
  refine ⟨fun r hr => ?_, by simp, keepsMemory_of_mem (by simp), by simp, by simp⟩
  obtain ⟨hrd, hrn⟩ : r ≠ rd ∧ r ∉ if m.writeBack then [rn] else [] := by
    cases hwb : m.writeBack <;> simp_all
  rw [writeReg_x, if_neg hrd, writeBack_x_of_notMem _ _ hrn, noteRead_x]

/-- An instruction that reads at its address, writes back and writes `f` of the value to Rd, or stops at the read. -/
theorem fullLoad_of_exec {f : Word → Word} {m : Address} (hm : s.address p u w rn offset = m)
    (hok : s.Fits m.addr z → exec i s =
      .next (((s.noteRead m.addr z (s.valueAt m.addr z)).writeBack m rn).writeReg rd (f (s.valueAt m.addr z))))
    (hshort : ¬ s.Fits m.addr z → exec i s = .fault (.regionShort s (regionIndex m.addr))) :
    FullLoad i s p u (!p || w) rn rd offset z f := by
  subst hm
  refine ⟨fun hfits => ⟨_, hok hfits, ?value, fun hwb hne => ?base, readFrame_noteRead_writeBack_writeReg ..⟩, hshort⟩
  case value => rw [writeReg_x, if_pos rfl, writeBack_flagT, noteRead_flagT, address_addr]
  case base => rw [writeReg_x, if_neg hne, writeBack_x, if_pos ⟨hwb, rfl⟩, noteRead_flagT, address_offAddr]

theorem fullLoad_of_exec_load (h : exec i s = outcome (s.load (s.address p u w rn offset) rn rd z)) :
    FullLoad i s p u (!p || w) rn rd offset z id :=
  fullLoad_of_exec rfl (fun hfits => by rw [h, load_eq hfits]; rfl) fun hshort => by rw [h, load_short hshort]; rfl

theorem fullLoad_of_exec_loadSigned {f : Word → Word}
    (h : exec i s = outcome (s.loadSigned (s.address p u w rn offset) rn rd z)) (hf : ∀ v, z.signed v = f v) :
    FullLoad i s p u (!p || w) rn rd offset z f :=
  fullLoad_of_exec rfl (fun hfits => by rw [h, loadSigned_eq hfits, hf]; rfl)
    fun hshort => by rw [h, loadSigned_short hshort]; rfl

/-! ## Stores -/

/-- A store with room completes with the old Rd stored and the base written back. -/
theorem store_done {m : Address} (hw : s.mem.wf) (hroom : s.StoreFits m.addr z (s.x rd)) :
    ∃ t, s.store m rn rd z = .ok t ∧ (m.writeBack = true → t.x rn = stored s.flagT rn m.offAddr) ∧
      s.StoreDone t (if m.writeBack then [rn] else []) m.addr z (s.x rd) := by
  obtain ⟨t, ht⟩ := memWrite_ok hw (storeFits_low.2 hroom)
  obtain ⟨-, hpsr, -⟩ := memWrite_frame ht
  refine ⟨t.writeBack m rn, store_eq ht, fun hwb => ?base, ?done⟩
  case base => rw [writeBack_x, if_pos ⟨hwb, rfl⟩, flagT_congr hpsr]
  case done =>
    exact storeDone_of_unchanged (storeDone_memWrite hw ht) (writeBack_mem ..) (writeBack_breakState ..)
      (writeBack_psr ..) (writeBack_host ..) fun r hr => writeBack_x_of_notMem t m hr

/-- A store that starts a DMA without room stops with the bytes stored, before the write-back. -/
theorem store_defect {m : Address} (hw : s.mem.wf) (hfits : s.Fits m.addr z) (hnoRoom : ¬ s.StoreFits m.addr z (s.x rd)) :
    ∃ t, s.StoredPlain t m.addr z (s.x rd) ∧ s.store m rn rd z = .error t.dmaDefect := by
  obtain ⟨t, ht, hdefect⟩ := memWrite_low_defect hw hfits hnoRoom
  exact ⟨t, ht, by rw [State.store, hdefect]; rfl⟩

/-- An instruction that stores Rd at its address and writes back, or stops before the write-back. -/
theorem fullStore_of_exec_store (hw : s.mem.wf) (h : exec i s = outcome (s.store (s.address p u w rn offset) rn rd z)) :
    FullStore i s p u (!p || w) rn rd offset z := by
  refine ⟨fun hroom => ?completes, fun hshort => ?short, fun hfits hnoRoom => ?noRoom⟩
  case completes =>
    obtain ⟨t, ht, hdone⟩ := store_done (m := s.address p u w rn offset) (rn := rn) hw hroom
    exact ⟨t, by rw [h, ht]; rfl, hdone⟩
  case short => rw [h, store_short (m := s.address p u w rn offset) hshort]; rfl
  case noRoom =>
    obtain ⟨t, ht, hdefect⟩ := store_defect (m := s.address p u w rn offset) (rn := rn) hw hfits hnoRoom
    exact ⟨t, ht, by rw [h, hdefect]; rfl⟩

/-! ## The swap -/

variable {rm : Reg}

/-- A swap with room for its read stores Rm in the state the read leaves, then writes the old value to Rd. -/
theorem swap_of_fits (h : s.Fits (s.x rn) z) : s.swap rn rd rm z =
    (do
      let t ← (s.noteRead (s.x rn) z (s.valueAt (s.x rn) z)).memWrite (s.x rn) z (z.low (s.x rm))
      .ok (t.writeReg rd (s.valueAt (s.x rn) z))) := by
  rw [State.swap, memRead_eq h]; rfl

theorem swap_short (h : ¬ s.Fits (s.x rn) z) : s.swap rn rd rm z = .error (.regionShort s (regionIndex (s.x rn))) := by
  rw [State.swap, memRead_short h]; rfl

/-- A monitored read leaves the state with its event. -/
theorem noteRead_eq (s : State) (a : Word) (z : Size) (v : Word) :
    s.noteRead a z v = { s with breakState := s.afterRead a z v } := by
  unfold State.noteRead State.afterRead; split <;> rfl

/-- A swap with room completes, its store done in the state the read leaves, with Rd written. -/
theorem completes_of_exec_swap (hw : s.mem.wf) (h : exec i s = outcome (s.swap rn rd rm z))
    (hroom : s.StoreFits (s.x rn) z (s.x rm)) :
    Completes i s fun t => t.x rd = stored s.flagT rd (s.valueAt (s.x rn) z) ∧
      (s.noteRead (s.x rn) z (s.valueAt (s.x rn) z)).StoreDone t [rd] (s.x rn) z (s.x rm) := by
  have hfits := hroom.1
  generalize hv : s.valueAt (s.x rn) z = v
  have hmem := noteRead_mem s (s.x rn) z v
  have hwr : (s.noteRead (s.x rn) z v).mem.wf := by rw [hmem]; exact hw
  obtain ⟨t, ht⟩ := memWrite_ok hwr (storeFits_low.2 ((storeFits_congr hw hmem (noteRead_host ..)).2 hroom))
  obtain ⟨-, hpsr, -⟩ := memWrite_frame ht
  refine ⟨t.writeReg rd v, by rw [h, swap_of_fits hfits, hv, ht]; rfl, ?old, ?done⟩
  case old => rw [writeReg_x, if_pos rfl, flagT_congr hpsr, noteRead_flagT]
  case done =>
    refine storeDone_of_unchanged (storeDone_memWrite hwr ht) (writeReg_mem ..) (writeReg_breakState ..)
      (writeReg_psr ..) (writeReg_host ..) fun r hr => ?_
    rw [writeReg_x, if_neg (List.mem_singleton.not.1 hr)]

/-- A swap without room stops at its read, or at the DMA its store starts, the read's event then in place. -/
theorem storeStops_of_exec_swap (hw : s.mem.wf) (h : exec i s = outcome (s.swap rn rd rm z)) :
    StoreStops i s (s.noteRead (s.x rn) z (s.valueAt (s.x rn) z)) (s.x rn) z (s.x rm) := by
  refine ⟨fun hshort => by rw [h, swap_short hshort]; rfl, fun hfits hnoRoom => ?_⟩
  have hmem := noteRead_mem s (s.x rn) z (s.valueAt (s.x rn) z)
  obtain ⟨t, ht, hdefect⟩ := memWrite_low_defect (s := s.noteRead (s.x rn) z (s.valueAt (s.x rn) z))
    (by rw [hmem]; exact hw) ((fits_of_len (by rw [region_congr hmem])).2 hfits)
    fun hroom => hnoRoom ((storeFits_congr hw hmem (noteRead_host ..)).1 hroom)
  exact ⟨t, ht, by rw [h, swap_of_fits hfits, hdefect]; rfl⟩

end Single

/-! ## The statements -/

/-- Settles O47: each is one read, the two signed forms by the sign extension of the value's low byte or half. -/
theorem fullLoads : Obligations.FullLoads := by
  intro c p u w rn rd rm imm12 n sh off s hc o1 o2 o3
  have ho3 : s.halfOffset off = o3 := by cases off <;> rfl
  have run {out : Result} : whenPassed c s out = out := whenPassed_of_passes hc
  rw [← ho3]
  exact ⟨fullLoad_of_exec_load run, fullLoad_of_exec_load (w := false) run, fullLoad_of_exec_load (w := true) run,
    fullLoad_of_exec_load run, fullLoad_of_exec_load (w := false) run, fullLoad_of_exec_load (w := true) run,
    fullLoad_of_exec_load run, fullLoad_of_exec_load (w := false) run, fullLoad_of_exec_load (w := true) run,
    fullLoad_of_exec_load run, fullLoad_of_exec_load (w := false) run, fullLoad_of_exec_load (w := true) run,
    fullLoad_of_exec_load run, fullLoad_of_exec_loadSigned run fun _ => rfl, fullLoad_of_exec_loadSigned run fun _ => rfl⟩

/-- Settles O48: each is one store of Rd's low bytes, then the write-back. -/
theorem fullStores : Obligations.FullStores := by
  intro c p u w rn rd rm imm12 n sh off s hc hw o1 o2 o3
  have ho3 : s.halfOffset off = o3 := by cases off <;> rfl
  have run {out : Result} : whenPassed c s out = out := whenPassed_of_passes hc
  rw [← ho3]
  exact ⟨fullStore_of_exec_store hw run, fullStore_of_exec_store (w := false) hw run,
    fullStore_of_exec_store (w := true) hw run,
    fullStore_of_exec_store hw run, fullStore_of_exec_store (w := false) hw run,
    fullStore_of_exec_store (w := true) hw run,
    fullStore_of_exec_store hw run, fullStore_of_exec_store (w := false) hw run,
    fullStore_of_exec_store (w := true) hw run,
    fullStore_of_exec_store hw run, fullStore_of_exec_store (w := false) hw run,
    fullStore_of_exec_store (w := true) hw run,
    fullStore_of_exec_store hw run⟩

/-- Settles O49: both are one read and one store at x[Rn], then Rd. -/
theorem swapReadsThenWrites : Obligations.SwapReadsThenWrites := by
  intro c rn rd rm s z i hc hw hi read
  have hread : s.noteRead (s.x rn) z (s.valueAt (s.x rn) z) = read := noteRead_eq ..
  have hexec : exec i s = outcome (s.swap rn rd rm z) := by
    simp only [List.mem_cons, List.not_mem_nil, or_false, Prod.mk.injEq] at hi
    obtain ⟨rfl, rfl⟩ | ⟨rfl, rfl⟩ := hi <;> exact whenPassed_of_passes hc
  rw [← hread]
  exact ⟨completes_of_exec_swap hw hexec, storeStops_of_exec_swap hw hexec⟩

end Sys2Proof.Machine
end

section
/-! SUPPORT. The block transfers of 47_arm_memory: the accesses of a list in the mode's order, then the write-back of the final
address to the base. -/

namespace Sys2Proof.Machine

section Block

variable {i : Instr} {s : State} {pre up w : Bool} {rn : Reg} {rlist : BitVec 16}

/-- A list of stores and the write-back, or the stop at the first word without room. -/
theorem blockStore_of_exec_storeBlock (hw : s.mem.wf) (h : exec i s = outcome (s.storeBlock pre up w rn rlist)) :
    BlockStore i s pre up w rn rlist := by
  have hwords := blockOrder_pairs s pre up (s.x rn) rlist
  refine ⟨fun hroom => ?completes, fun hnoRoom => ?stops⟩
  case completes =>
    obtain ⟨b, u, hu⟩ := storeMany_ok pre up (blockOrder up rlist) hw (hwords ▸ hroom)
    obtain ⟨hb, -, -, hpsr, -⟩ := storeMany_spec pre up _ hw hu
    have hexec : exec i s = .next (if w then u.writeReg rn b else u) := by rw [h, State.storeBlock, hu]; rfl
    cases w with
    | false => exact ⟨u, hexec, nofun, storeAllDone_storeMany hw hu hwords rfl rfl rfl rfl fun _ _ => rfl⟩
    | true =>
      refine ⟨u.writeReg rn b, hexec, fun _ => ?_, ?_⟩
      · rw [writeReg_x, if_pos rfl, flagT_congr hpsr, hb, endAddr_block]
      · exact storeAllDone_storeMany hw hu hwords (writeReg_mem ..) (writeReg_breakState ..) (writeReg_psr ..)
          (writeReg_host ..) fun r hr => by rw [writeReg_x, if_neg (List.mem_singleton.not.1 hr)]
  case stops =>
    obtain ⟨f, hf, hfault⟩ := storeMany_fault pre up (blockOrder up rlist) hw (hwords ▸ hnoRoom)
    exact ⟨f, by rw [h, State.storeBlock, hf]; rfl, hwords ▸ hfault⟩

/-- What the loads of a list leave does not depend on the order its slots are named in. -/
theorem State.LoadAllDone.of_accessOrder {t : State} {ds : List Reg} {slots : List (Reg × Word)} {reads : List Word}
    (h : s.LoadAllDone t ds (accessOrder up slots) reads) : s.LoadAllDone t ds slots reads := by
  obtain ⟨hval, hkeep, hrest⟩ := h
  refine ⟨fun p hp => hval p ((mem_accessOrder up slots p).2 hp), fun r hr => hkeep r fun hin => hr ?_, hrest⟩
  simpa using hin

/-- The registers of a block, as its accesses name them. -/
theorem accessOrder_regs (pre up : Bool) (a : Word) (rlist : BitVec 16) :
    (accessOrder up (listSlots rlist (blockLow pre up a rlist))).map (·.1) = blockOrder up rlist := by
  rw [← blockOrder_zip, List.map_fst_zip (transferAddrs_length ..).ge]

/-- A list of loads and the write-back unless the base is listed, or the stop at the first access without room. -/
theorem blockLoad_of_exec_loadBlock (h : exec i s = outcome (s.loadBlock pre up w rn rlist)) :
    BlockLoad i s pre up w rn rlist := by
  have hslots := blockOrder_zip pre up (s.x rn) rlist
  have hnodup := blockOrder_nodup up rlist
  refine ⟨fun hfits => ?completes, fun hshort => ?stops⟩
  case completes =>
    obtain ⟨u, hu, hdone⟩ := loadAllDone_loadMany hnodup hslots fun p hp => hfits p ((mem_accessOrder up _ p).1 hp)
    have hexec : exec i s = .next (if w && !rlist.getLsbD rn.val then u.writeReg rn (blockEnd up (s.x rn) rlist) else u) := by
      rw [h, State.loadBlock, hu, endAddr_block]; rfl
    obtain ⟨-, -, hpsr, -⟩ := id hdone
    cases hback : w && !rlist.getLsbD rn.val with
    | false =>
      rw [hback] at hexec
      refine ⟨u, hexec, fun hwb hunlisted => ?_, (hdone.mono _).of_accessOrder⟩
      rw [hwb, hunlisted] at hback
      cases hback
    | true =>
      rw [hback] at hexec
      obtain ⟨rfl, hunlisted⟩ : w = true ∧ rlist.getLsbD rn.val = false := by simpa using hback
      have hrn : rn ∉ (accessOrder up (listSlots rlist (blockLow pre up (s.x rn) rlist))).map (·.1) := by
        rw [accessOrder_regs, mem_blockOrder, hunlisted]; exact Bool.false_ne_true
      refine ⟨u.writeReg rn (blockEnd up (s.x rn) rlist), hexec, fun _ _ => ?_, ?_⟩
      · rw [writeReg_x, if_pos rfl, flagT_congr hpsr]
      · rw [writeReg_eq]
        exact (hdone.setX hrn _).of_accessOrder
  case stops =>
    obtain ⟨before, p, after, u, hsplit, hbefore, hp, hu, hdone⟩ := loadMany_fault pre up _ hnodup (hslots.symm ▸ hshort)
    exact ⟨before, p, after, u, hslots ▸ hsplit, hbefore, hp, by rw [h, State.loadBlock, hu]; rfl, hdone⟩

end Block

/-! ## The statements -/

/-- Settles O50: each is the stores of the list in the mode's order, then the base. -/
theorem blockStores : Obligations.BlockStores := by
  intro c sbit w rn rlist s hc hw
  refine ⟨?stmia, ?stmib, ?stmda, ?stmdb⟩
  all_goals exact blockStore_of_exec_storeBlock hw (whenPassed_of_passes hc)

/-- Settles O51: each is the loads of the list in the mode's order, then the base unless it is listed. -/
theorem blockLoads : Obligations.BlockLoads := by
  intro c sbit w rn rlist s hc
  refine ⟨?ldmia, ?ldmib, ?ldmda, ?ldmdb⟩
  all_goals exact blockLoad_of_exec_loadBlock (whenPassed_of_passes hc)

end Sys2Proof.Machine
end

section
/-! SUPPORT. The undefined encodings (60_exceptions R551, 30_encoding R175): every row of the fallback leaves the state, and the
compact values of the undefined ranges are rows of it. -/

namespace Sys2Proof

/-! ## The compact ranges -/

/-- The instructions of the undefined compact rows. -/
def undefinedCompact : List Instr := [.tUndef12a, .tUndef12b, .tUndef13a, .tUndef13b, .tUndef13c, .tUndef17]

/-- The value lies in one of the undefined compact ranges (30_encoding R175). -/
def InUndefinedRange (v : Nat) : Prop :=
  (0xB100 ≤ v ∧ v ≤ 0xB3FF) ∨ (0xB600 ≤ v ∧ v ≤ 0xBBFF) ∨ (0xBE00 ≤ v ∧ v ≤ 0xBFFF) ∨ (0xE800 ≤ v ∧ v ≤ 0xEFFF)

/-- The families 12 and 17 are undefined, and family 13 is where bits 10:9 are not 10 (R141). -/
theorem decodeCompact_mem_undefinedCompact {h : BitVec 16}
    (hr : compactRank h = 12 ∨ compactRank h = 13 ∧ bits h 9 2 ≠ 0b10#2 ∨ compactRank h = 17) :
    decodeCompact h ∈ undefinedCompact := by
  obtain hr | ⟨hr, hbits⟩ | hr := hr <;> simp only [decodeCompact, hr]
  · unfold decodeFamily12
    split <;> decide
  · rw [decodeT14, if_neg hbits]
    repeat' split
    all_goals decide
  · decide

/-- The high bytes of the undefined ranges, with the family each selects. -/
theorem undefinedRank_of_highByte : ∀ a : BitVec 8,
    (0xB1 ≤ a.toNat ∧ a.toNat ≤ 0xB3) ∨ (0xB6 ≤ a.toNat ∧ a.toNat ≤ 0xBB) ∨ (0xBE ≤ a.toNat ∧ a.toNat ≤ 0xBF) ∨
      (0xE8 ≤ a.toNat ∧ a.toNat ≤ 0xEF) →
    compactRank (put 8 a) = 12 ∨ compactRank (put 8 a) = 13 ∧ bits (put 8 a : BitVec 16) 9 2 ≠ 0b10#2 ∨
      compactRank (put 8 a) = 17 := by decide

theorem decodeCompact_of_undefinedRange {h : BitVec 16} (hv : InUndefinedRange h.toNat) :
    decodeCompact h ∈ undefinedCompact := by
  have hhigh : SameOn 0xFF00 h (put 8 (bits h 8 8)) := by rw [put_bits]; exact sameOn_and h 0xFF00
  have hbyte : (bits h 8 8).toNat = h.toNat / 256 := by
    have := h.isLt
    rw [toNat_bits]; omega
  have hrank := undefinedRank_of_highByte (bits h 8 8) (by unfold InUndefinedRange at hv; omega)
  rw [compactRank_congr hhigh, hhigh.bits_congr (by decide)] at hrank
  exact decodeCompact_mem_undefinedCompact hrank

end Sys2Proof

namespace Sys2Proof.Machine

/-! ## The fallback -/

/-- The instructions of the undefined full rows, with their condition. -/
def undefinedFull (c : Cond) : List Instr :=
  [.aUndefMul001 c, .aUndefMul11 c, .aUndefSwap01 c, .aUndefSwap10 c, .aUndefSwap11 c, .aUndefLdrd c, .aUndefStrd c,
    .aUndefMisc0001op00 c, .aUndefMisc0001op10 c, .aUndefMisc0011op00 c, .aUndefMisc0011op10 c, .aUndefMisc0011op11 c,
    .aUndefMisc0010 c, .aUndefMisc0100 c, .aUndefMisc0101 c, .aUndefMisc0110 c, .aUndefMisc0111 c, .aUndefImm c,
    .aUndefRegOff c, .aUndefCop c]

theorem exec_of_undefinedCompact {i : Instr} (h : i ∈ undefinedCompact) (s : State) : exec i s = .next s := by
  unfold undefinedCompact at h
  fin_cases h <;> rfl

/-- A gate before an instruction that leaves the state makes no difference. -/
theorem whenPassed_next_self (c : Cond) (s : State) : whenPassed c s (.next s) = .next s := ite_self _

theorem exec_of_undefinedFull {i : Instr} {c : Cond} (h : i ∈ undefinedFull c) (s : State) : exec i s = .next s := by
  unfold undefinedFull at h
  fin_cases h <;> exact whenPassed_next_self c s

/-- In the state's own mode, a value runs the instruction it decodes to. -/
theorem execute_of_decodeValue {v : Word} {s : State} {i : Instr} (h : decodeValue s.flagT v = .ok i) :
    execute v s.flagT s = exec i s.begin := by
  rw [execute, if_neg (not_not_intro rfl), h]

/-- Settles O52: each row is the fallback, gated in full mode, and a value of the compact ranges decodes to one. -/
theorem undefinedEncodingsDoNothing : Obligations.UndefinedEncodingsDoNothing := by
  refine ⟨fun c s i hi => ?rows, fun s => ?advance, fun v s ht hv => ?ranges⟩
  case rows =>
    have hexec (s : State) : exec i s = .next s := by
      obtain hi | hi := List.mem_append.1 (show i ∈ undefinedCompact ++ undefinedFull c from hi)
      · exact exec_of_undefinedCompact hi s
      · exact exec_of_undefinedFull hi s
    refine ⟨hexec s, ?_⟩
    rintro v _ rfl hdec
    rw [execute_of_decodeValue hdec, hexec]
  case advance =>
    refine ⟨?_, begin_fetchAddr s, begin_keepsRegs s, begin_psr s, keepsMemory_of_mem (begin_mem s)⟩
    rw [begin_x, if_pos rfl, State.fetchAddr, BitVec.sub_add_cancel]
  case ranges =>
    have hlt : v.toNat < 0x10000 := by omega
    have hlow : (v.setWidth 16).toNat = v.toNat := by rw [BitVec.toNat_setWidth, Nat.mod_eq_of_lt hlt]
    rw [execute_compact ht hlt]
    exact exec_of_undefinedCompact (decodeCompact_of_undefinedRange (by rw [hlow]; exact hv)) s.begin

end Sys2Proof.Machine
end

section
/-! SUPPORT. The sample words of 41 to 47, each decoded. -/

namespace Sys2Proof

/-- Settles O9: the dispatchers are functions of the literal words, the compact ones first. -/
theorem sampleWordsDecode : Obligations.SampleWordsDecode := by
  refine ⟨?_, ?_, ?_, ?_, ?_, ?_, ?_, ?_, ?_, ?_, ?_, ?_, ?_, ?_, ?_, ?_⟩
  all_goals rfl

end Sys2Proof
end
